-- ==== Sys2Proof/Word.lean ====
section
/-! DEFINITION. The words of the WR-16: bytes, management words, colours, and the numbers that name its engines and
records. Addresses are byte addresses of a 40-bit space (section 5.2); the part compares, adds and divides them exactly, so
inside the machine they are natural numbers. -/

namespace Sys2Proof

/-- One byte of a link or of the boot memory. -/
abbrev Byte := BitVec 8

/-- One management word: 32 bits, sent least significant byte first (R171). -/
abbrev Word := BitVec 32

/-- A 24-bit RGB colour, red first (section 5.3). -/
abbrev Colour := BitVec 24

/-- U-port initiators are numbered 0–31; 0–15 are the source engines (section 5.6). -/
abbrev Initiator := Fin 32

/-- Sources are numbered 0–15 (section 5.6). -/
abbrev SourceId := Fin 16

/-- Windows are numbered 0–31 (section 4.3). -/
abbrev WindowId := Fin 32

/-- Override groups are numbered 0–3 (R149). -/
abbrev GroupId := Fin 4

/-- Read contexts are numbered 0–47 (R95). -/
abbrev ContextId := Fin 48

/-- Piece records are numbered 0–255 (R99). -/
abbrev PieceId := Fin 256

/-- Write trackers are numbered 0–63 (R126). -/
abbrev TrackerId := Fin 64

/-- The four bytes of a colour pixel: unused 00, then red, green and blue, in increasing address order (section 5.3). -/
def Colour.pixelBytes (c : Colour) : List Byte :=
  [0, c.extractLsb' 16 8, c.extractLsb' 8 8, c.extractLsb' 0 8]

/-- A number as a management word. -/
def word (n : Nat) : Word := BitVec.ofNat 32 n

/-- A flag as a number: flags read 1 when set (R174). -/
def bit (b : Bool) : Nat := if b then 1 else 0

end Sys2Proof
end

