-- ==== Sys2Proof/Config.lean ====
section
/-! DEFINITION. What one implementation fixes: the capacities and constants the spec states. The spec leaves no result of an
operation undefined, so there is no free value here (INVENTORY.md, "What the manual leaves open"). -/

namespace Sys2Proof.Config

/-- The number of byte addresses: the last address is 0xFFFFFFFFFF (R8). -/
abbrev addressSpace : Nat := 1099511627776

/-- A beat is 32 bytes (section 5.2). -/
abbrev beatBytes : Nat := 32

/-- A page number is a byte address divided by 4096 (R19, R58). -/
abbrev pageBytes : Nat := 4096

/-- The largest page number (R19, R58). -/
abbrev maxPage : Nat := 268435455

/-- Entries of a source's hold queue (R15). -/
abbrev holdQueueCapacity : Nat := 4

/-- Entries of the intake list (R17). -/
abbrev intakeCapacity : Nat := 16

/-- Entries of the plain write list (R16). -/
abbrev plainListCapacity : Nat := 16

/-- Entries of a source write lane (R34). -/
abbrev writeLaneCapacity : Nat := 4

/-- The longest run of read grants while a write is eligible (R123). -/
abbrev maxReadRun : Nat := 8

/-- The last slot of a wall frame (R138). -/
abbrev lastSlot : Nat := 1023

/-- Slots of a wall frame (R140). -/
abbrev slots : Nat := 1024

/-- Segments of a bank's pool (R80). -/
abbrev segmentPool : Nat := 1024

/-- Strips of a bank's strip table (R76). -/
abbrev stripTable : Nat := 65

/-- Enabled windows that may carry an override group (R75). -/
abbrev overrideLimit : Nat := 8

/-- Source beats within which one IMAGE piece lies: last sx div 8 − first sx div 8 is at most 15 (R113). -/
abbrev maxBeatSpan : Nat := 15

/-- The largest record count of a boot image (R179). -/
abbrev maxBootRecords : Nat := 1023

/-- The signature of a boot image (R178). -/
abbrev bootSignature : Nat := 0x4647

/-- The bus address of the boot memory (R178). -/
abbrev bootDevice : BitVec 7 := 0x57

/-- The bytes of a boot image before its records: signature, record count and checksum (R178). -/
abbrev bootHeaderBytes : Nat := 6

/-- The bytes of one record of a boot image (R178). -/
abbrev bootRecordBytes : Nat := 8

/-- The management address before the straps are added (R170). -/
abbrev baseTargetAddress : Nat := 0x52

end Sys2Proof.Config
end

