-- ==== Sys2Proof/Syntax.lean ====
section
/-! DEFINITION. The commands of the WR-16: one constructor of `Instr` for each row of spec/opcode_table.json, in the table's
order, with the row's operands. The table gives no row any bits: a command is an event, not a word. -/

namespace Sys2Proof

/-- Direction of a request (Table 1-1). -/
inductive Kind where
  | read
  | write
  deriving DecidableEq, Repr

/-- One beat of a write request: 32 bytes of data, 32 byte enables (bit k enables byte k) and a poison mark (R1). -/
structure WriteBeat where
  bytes   : List Byte
  enables : BitVec 32
  poison  : Bool
  deriving DecidableEq, Repr

/-- A U-request record (Table 1-1). The start address is recorded as given; it is not rounded (R1). -/
structure URequest where
  initiator : Initiator
  label     : Fin 16
  kind      : Kind
  address   : BitVec 40
  beats     : Nat
  data      : List WriteBeat
  deriving DecidableEq, Repr

/-- A downstream response record (Table 7-1): kind, tag (record number and generation bit), status, and data for a READ
with status OK. -/
inductive DResponse where
  | readOk (piece : PieceId) (generation : Bool) (data : List Byte)
  | readError (piece : PieceId) (generation : Bool)
  | writeOk (tracker : TrackerId) (generation : Bool)
  | writeError (tracker : TrackerId) (generation : Bool)
  deriving DecidableEq, Repr

/-- The pins that the end of a reset samples: the address straps, BOOTEN and the eight alarm lines (R148, R170, R173). -/
structure ResetPins where
  mad    : BitVec 2
  booten : Bool
  alm    : BitVec 8
  deriving DecidableEq, Repr

/-- The order the spec leaves open inside one strobe (R136, R153, R156, R162; log 6): whether the governor acts before the sources;
the groups that count their hold-off before they act on the sources' stale trips, bit g for group g; where the governor acts after the
sources, the groups that act on the trips after it, and so load their trigger record with the new frame count; and the source with
which the source table begins. -/
structure StrobeOrder where
  countFirst  : Bool
  groupsFirst : BitVec 4
  groupsLate  : BitVec 4
  firstSource : SourceId
  deriving DecidableEq, Repr

/-- The four geometry registers of the canvas, 0x04–0x07 (Table 11-1). -/
inductive CanvasField where
  | base
  | width
  | height
  | pitch
  deriving DecidableEq, Repr

/-- How a write transaction begins: the address sent, and the index byte (R170). -/
structure WriteStart where
  address : BitVec 7
  index   : Byte
  deriving DecidableEq, Repr

/-- Which word of a read transaction is sent (R170, R172): the word of TABLE_DATA, in a transaction that stands at it; the first word
of a transaction that begins with an address; or the next word of the transaction under way. -/
inductive PortRead where
  | tableData
  | first (address : BitVec 7)
  | next
  deriving DecidableEq, Repr

/-- One record of the boot image (R178): target kind, register index or table code, entry, field, value. -/
structure BootRecord where
  kind   : Byte
  target : Byte
  entry  : Byte
  field  : Byte
  value  : Word
  deriving DecidableEq, Repr

/-- The commands: the rows of spec/opcode_table.json. -/
inductive Instr where
  /-- POWER_ON_RESET (R167): application of power. -/
  | powerOnReset
  /-- PIN_RESET (R177): RSTn goes low. -/
  | pinReset
  /-- RESET_END (R177): the reset in progress ends, with the pins as they stand. -/
  | resetEnd (pins : ResetPins)
  /-- U_REQUEST (R1): a request arrives on its initiator's lane. -/
  | uRequest (r : URequest)
  /-- LANE_HEAD_ACCEPT (R4): the head of one side of one lane is offered. -/
  | laneHeadAccept (i : Initiator) (side : Kind)
  /-- CONTEXT_PLACEMENT (R96). -/
  | contextPlacement
  /-- WALK_START (R101). -/
  | walkStart
  /-- PIECE_GENERATION (R102). -/
  | pieceGeneration
  /-- READ_ANSWER (R98), of one context. -/
  | readAnswer (c : ContextId)
  /-- ARBITER_GRANT (R123), with the memory controller's ready indication. -/
  | arbiterGrant (ready : Bool)
  /-- DOWNSTREAM_RESPONSE (R128). -/
  | downstreamResponse (r : DResponse)
  /-- READ_TIMEOUT (R130): the deadline of a piece expires. -/
  | readTimeout (p : PieceId)
  /-- WRITE_TIMEOUT (R132): the deadline of a tracker expires. -/
  | writeTimeout (t : TrackerId)
  /-- ADMISSION (R145), for one source. -/
  | admission (i : SourceId)
  /-- WFS (R136): a rising edge on the strobe line, and the order of its parts. -/
  | wfs (o : StrobeOrder)
  /-- SLOT_TIMER_EXPIRY (R138). -/
  | slotTimerExpiry
  /-- COMPILE_COMPLETION (R85). -/
  | compileCompletion
  /-- ALARM_LEVEL_CHANGE (R148): a pin has held a level for 100 ticks. -/
  | alarmLevelChange (line : Fin 8) (high : Bool)
  /-- INDEX_BYTE (R170): a write transaction begins with an address, and the first byte after it. -/
  | indexByte (b : WriteStart)
  /-- PARTIAL_WORD (R171): a stop or a repeated start. -/
  | partialWord
  /-- TABLE_DATA_READ (R172, R174): a word of a read transaction, of which `sent` + 1 bytes are sent; by itself the
  whole word of TABLE_DATA. -/
  | tableDataRead (read : PortRead := .tableData) (sent : Fin 4 := 3)
  /-- REGISTER_WRITE (R171, R173): one to four data bytes of a write transaction; the fourth of a word takes it as a write of the
  register at the working index. -/
  | registerWrite (first : Byte) (more : List Byte)
  /-- TABLE_POINTER (R174). -/
  | tablePointer (value : Word)
  /-- OPEN (R23); the operand byte of the command word names the source. -/
  | openSource (operand : Byte)
  /-- CLOSE (R28). -/
  | closeSource (operand : Byte)
  /-- RELEASE (R54). -/
  | releaseSource (operand : Byte)
  /-- COMMIT (R83); the operand is not checked. -/
  | commit (operand : Byte)
  /-- ABORT (R88). -/
  | abort (operand : Byte)
  /-- RESTAGE (R91). -/
  | restage (operand : Byte)
  /-- SOFT_RESET (R176). -/
  | softReset (operand : Byte)
  /-- RELOAD_BOOT (R176). -/
  | reloadBoot (operand : Byte)
  /-- CANVAS_ENABLE (R60): a write of 1 to the enable register. -/
  | canvasEnable
  /-- CANVAS_DISABLE (R62): a write of 0 to the enable register. -/
  | canvasDisable
  /-- CANVAS_GEOMETRY_WRITE (R59). -/
  | canvasGeometryWrite (f : CanvasField) (value : Word)
  /-- SLOT_LENGTH (R139). -/
  | slotLength (value : Word)
  /-- RESPONSE_DEADLINE (R127). -/
  | responseDeadline (value : Word)
  /-- SOFT_BITS (R150). -/
  | softBits (value : Word)
  /-- TRIP_CLEAR (R47). -/
  | tripClear (value : Word)
  /-- CAP_FLAG_CLEAR (R144). -/
  | capFlagClear (value : Word)
  /-- ERROR_STATUS (R163). -/
  | errorStatus (value : Word)
  /-- DETECT_ENABLE (R161). -/
  | detectEnable (value : Word)
  /-- SEVERITY (R164). -/
  | severity (value : Word)
  /-- INT_CAUSE (R168). -/
  | intCause (value : Word)
  /-- INT_ENABLE (R169). -/
  | intEnable (value : Word)
  /-- PORT_STATUS (R173). -/
  | portStatus (value : Word)
  /-- SOURCE_CONFIG (R20): a TABLE_DATA write of one field of one source. -/
  | sourceConfig (i : SourceId) (f : Fin 11) (value : Word)
  /-- CREDIT_CAP (R143). -/
  | creditCap (i : SourceId) (value : Word)
  /-- WINDOW_STAGED (R70). -/
  | windowStaged (w : WindowId) (f : Fin 15) (value : Word)
  /-- STACK_STAGED (R67). -/
  | stackStaged (f : Fin 34) (value : Word)
  /-- GROUP_CONFIG (R149). -/
  | groupConfig (g : GroupId) (f : Fin 7) (value : Word)
  /-- GROUP_ENABLE (R157): a write of 1 to the enabled field. -/
  | groupEnable (g : GroupId)
  /-- GROUP_DISABLE (R157): a write of 0 to the enabled field. -/
  | groupDisable (g : GroupId)
  /-- PALETTE (R119). -/
  | palette (e : Fin 9) (value : Word)
  /-- VERIFY (R179): the loader's first pass completes; the bytes the boot memory gave from address 0, up to the first read
  it did not acknowledge (log 16). -/
  | verify (image : List Byte)
  /-- APPLY_RECORD (R180): the eight bytes of the next record are read. -/
  | applyRecord (bytes : Vector Byte 8)
  /-- APPLY_READ_NOT_ACKNOWLEDGED (R180). -/
  | applyReadNotAcknowledged
  deriving DecidableEq, Repr

end Sys2Proof
end

