-- ==== Sys2Proof/Decode.lean ====
section
/-! DEFINITION. The commands that a word of the opcode table spells. No row of spec/opcode_table.json gives any bits: the
WR-16's commands are events and management words, not encoded instructions. -/

namespace Sys2Proof

/-- The command that the table's bits `w` spell: none, because no row of the table has bits. -/
def decodeTableWord (_nbits _w : Nat) : Option Instr := none

end Sys2Proof
end

