-- ==== Sys2Proof/Machine/State.lean ====
section
/-! DEFINITION. The state of the WR-16: the records of its nine blocks, the reset in progress, what the links carried in the
last event, and the queue of waiting commands; and the machine right after reset. -/

namespace Sys2Proof.Machine

open Sys2Proof

/-- Why the machine stops with a fault: never. No event of the spec stops the part; refused requests, writes and commands are
answered and reported in a next state. Safe: no behaviour is cut off. -/
inductive Fault where
  deriving DecidableEq, Repr

/-- Why a command has no meaning. -/
inductive Refusal where
  /-- An instruction whose meaning is not written yet (exec's refused arms; no arm is one). Safe. -/
  | notModelled (mnemonic : String)
  /-- A U-request or READ response whose lengths the link cannot carry (R1, Table 7-1), or data bytes that are none or more than a
  word (R171); raised by U_REQUEST, DOWNSTREAM_RESPONSE and REGISTER_WRITE. The spec gives such an operand no meaning, because no
  link or event expresses it. Safe (log 20). -/
  | illFormed
  deriving DecidableEq, Repr

/-! ### U-port (chapter 1) -/

/-- A U-port lane: the waiting requests of one initiator, oldest first, on its read side and its write side (R3). -/
structure Lane where
  reads  : List URequest
  writes : List URequest
  deriving DecidableEq, Repr

/-- The class an accepted read keeps until it is answered (R5, R17, Table 6-1). -/
inductive ReadClass where
  | canvas
  | plain
  | refused
  deriving DecidableEq, Repr

/-- An entry of the intake list (R17). -/
structure IntakeEntry where
  initiator : Initiator
  label     : Fin 16
  address   : Nat
  beats     : Nat
  cls       : ReadClass
  deriving DecidableEq, Repr

/-- One beat of a write as it goes to memory: data and enables, no poison mark (R14, Table 7-1). -/
structure DBeat where
  bytes   : List Byte
  enables : BitVec 32
  deriving DecidableEq, Repr

/-- An entry of the plain write list (R16). -/
structure PlainWrite where
  initiator : Initiator
  address   : Nat
  beats     : Nat
  data      : List DBeat
  deriving DecidableEq, Repr

/-- The U-port: the lanes of the link, the two shared lists, and the initiator that last took an entry of each (R3, R6, R16,
R17). -/
structure UPort where
  lanes      : Vector Lane 32
  intake     : List IntakeEntry
  plainWrites : List PlainWrite
  intakeLast : Initiator
  plainLast  : Initiator
  deriving DecidableEq, Repr

/-! ### Source table (chapters 2, 3 and 8) -/

/-- The configuration fields of a source, in the order of Table 2-1. Bases are page numbers (R19). -/
structure SourceConfig where
  apertureBase  : Nat
  width         : Nat
  height        : Nat
  pitch         : Nat
  baseA         : Nat
  baseB         : Nat
  baseC         : Nat
  staleDeadline : Nat
  quota         : Nat
  creditCap     : Nat
  containment   : Nat
  deriving DecidableEq, Repr

/-- Source states (Table 2-2). -/
inductive SourceState where
  | off
  | await
  | live
  | contained
  | closing
  deriving DecidableEq, Repr

/-- Buffer roles (Table 2-4). -/
inductive Role where
  | fill
  | sealing
  | ready
  | front
  | spent
  deriving DecidableEq, Repr

/-- The letters of a source's three frame buffers (section 5.6). -/
inductive Letter where
  | a
  | b
  | c
  deriving DecidableEq, Repr

/-- One frame buffer's role, poison mark and hold counts (Table 2-2). -/
structure Buffer where
  role      : Role
  poison    : Bool
  readHold  : Nat
  writeHold : Nat
  deriving DecidableEq, Repr

/-- The three frame buffers of a source. -/
structure Buffers where
  a : Buffer
  b : Buffer
  c : Buffer
  deriving DecidableEq, Repr

/-- A hold queue entry (Table 1-6). -/
structure HoldEntry where
  offset : Nat
  beats  : Nat
  data   : List WriteBeat
  deriving DecidableEq, Repr

/-- A source record: the configuration of Table 2-1, the runtime fields of Table 2-2 and the frame allotment total (R141). -/
structure Source where
  cfg             : SourceConfig
  state           : SourceState
  bufs            : Buffers
  fillWait        : Bool
  framesSinceFlip : Nat
  stale           : Bool
  trip            : Bool
  credit          : Nat
  capSaturated    : Bool
  quotaInEffect   : Nat
  presented       : BitVec 16
  holdQueue       : List HoldEntry
  frameTotal      : Nat
  deriving DecidableEq, Repr

/-! ### Governor (chapter 8) -/

/-- The governor: the frame counter, the slot index, the slot timer (stopped, or running with the length it was started with;
log 7) and the slot length (R136, R138, R139). -/
structure Governor where
  frameCount : BitVec 16
  slotIndex  : Nat
  slotTimer  : Option Nat
  slotLength : Nat
  deriving DecidableEq, Repr

/-! ### Layout controller (chapters 4 and 5) -/

/-- The canvas record (Table 4-1); the base is a page number. -/
structure Canvas where
  base    : Nat
  width   : Nat
  height  : Nat
  pitch   : Nat
  enabled : Bool
  deriving DecidableEq, Repr

/-- What a window shows (Table 4-3). -/
inductive Content where
  | source
  | fill
  deriving DecidableEq, Repr

/-- A window record (Table 4-2); group `none` is NONE. -/
structure Window where
  enabled      : Bool
  content      : Content
  source       : Nat
  x            : Nat
  y            : Nat
  width        : Nat
  height       : Nat
  cropX        : Nat
  cropY        : Nat
  hscale       : Nat
  vscale       : Nat
  borderWidth  : Nat
  borderColour : Colour
  fillColour   : Colour
  group        : Option GroupId
  deriving DecidableEq, Repr

/-- Background modes (R69). -/
inductive Background where
  | pass
  | fill
  deriving DecidableEq, Repr

/-- Windows, stack list (length and 32 positions, top first) and background mode: the staged layout (R64, R67, R69), and the
copy of it that a bank holds (R76). -/
structure Layout where
  windows    : Vector Window 32
  stackLen   : Nat
  stack      : Vector WindowId 32
  background : Background
  deriving DecidableEq, Repr

/-- A strip record (R77). -/
structure Strip where
  top    : Nat
  bottom : Nat
  first  : Nat
  count  : Nat
  deriving DecidableEq, Repr

/-- A segment record: start x, and the owner, a window or BACKGROUND (`none`) (R77). -/
structure Segment where
  start : Nat
  owner : Option WindowId
  deriving DecidableEq, Repr

/-- A layout bank (Table 5-1). The strip table and the segment pool list the entries in use: strip count and segments used are
their lengths. `holdsLayout` is the content field, LAYOUT or EMPTY. -/
structure Bank where
  holdsLayout  : Bool
  base         : Nat
  width        : Nat
  height       : Nat
  pitch        : Nat
  layout       : Layout
  overrideList : List WindowId
  strips       : List Strip
  segments     : List Segment
  deriving DecidableEq, Repr

/-- The letters of the two banks (R81). -/
inductive BankLetter where
  | a
  | b
  deriving DecidableEq, Repr

/-- Layout controller states (Table 5-3). -/
inductive CtlState where
  | idle
  | drain
  | compile
  | armed
  deriving DecidableEq, Repr

/-- Outcomes of a commit (Table 5-5). -/
inductive CommitOutcome where
  | none
  | done
  | failed
  | aborted
  deriving DecidableEq, Repr

/-- Commit failure codes (Table 4-5). -/
inductive FailCode where
  | canvasOff
  | badWindow
  | badStack
  | overrideLimit
  | segmentOverflow
  | canvasChanged
  deriving DecidableEq, Repr

/-- The commit result record (Table 5-5). -/
structure CommitResult where
  outcome  : CommitOutcome
  code     : Option FailCode
  window   : Option WindowId
  segments : Option Nat
  deriving DecidableEq, Repr

/-- The layout controller: canvas record, staged layout, both banks, active bank letter, walker's bank hold, state and commit
result record (R58, R76, R81, R82, R89). -/
structure LayoutCtl where
  canvas : Canvas
  staged : Layout
  bankA  : Bank
  bankB  : Bank
  active : BankLetter
  hold   : Option BankLetter
  ctl    : CtlState
  result : CommitResult
  deriving DecidableEq, Repr

/-! ### Read translator (chapter 6) -/

/-- Read context states (Table 6-2). -/
inductive ContextState where
  | waiting
  | walking
  | gathering
  | complete
  deriving DecidableEq, Repr

/-- What a CANVAS context records at its walk start: bank, row y and first x (Table 6-1). -/
structure WalkPlace where
  bank   : BankLetter
  row    : Nat
  firstX : Nat
  deriving DecidableEq, Repr

/-- A read context that holds a read (Table 6-1), with its number. -/
structure Context where
  num       : ContextId
  initiator : Initiator
  label     : Fin 16
  address   : Nat
  beats     : Nat
  cls       : ReadClass
  place     : Option WalkPlace
  pieces    : List PieceId
  partialFlag : Bool
  state     : ContextState
  deriving DecidableEq, Repr

/-- The response deadline settings: 1, 4, 16 and 64 µs (R127). -/
inductive Deadline where
  | us1
  | us4
  | us16
  | us64
  deriving DecidableEq, Repr

/-- The fields of an IMAGE piece and its sub-read (Table 6-3). -/
structure ImagePiece where
  source  : SourceId
  buffer  : Letter
  sy      : Nat
  firstSx : Nat
  lastSx  : Nat
  hscale  : Nat
  phase   : Nat
  address : Nat
  beats   : Nat
  deriving DecidableEq, Repr

/-- Piece kinds with the fields present for each (Table 6-3). -/
inductive PieceKind where
  | image (f : ImagePiece)
  | plain (address beats : Nat)
  | colour (c : Colour)
  deriving DecidableEq, Repr

/-- Piece states; an ISSUED piece has a running deadline timer, started with the given length (R100, R127; log 7). -/
inductive PieceState where
  | queued
  | issued (timer : Deadline)
  | done
  deriving DecidableEq, Repr

/-- A piece record that belongs to a context (Table 6-3). -/
structure PieceUse where
  context   : ContextId
  first     : Nat
  count     : Nat
  kind      : PieceKind
  state     : PieceState
  data      : Option (List Byte)
  errorFill : Option Colour
  deriving DecidableEq, Repr

/-- A piece record: its generation bit, which outlives its use, and its use (R99). -/
structure Piece where
  generation : Bool
  use        : Option PieceUse
  deriving DecidableEq, Repr

/-- The translator: contexts that hold a read in acceptance order, the 256 piece records, the walker (idle or walking one
context), whether its walk is paused, and the palette (R95, R99, R101, R103, R119). -/
structure Translator where
  contexts : List Context
  pieces   : Vector Piece 256
  walker   : Option ContextId
  paused   : Bool
  palette  : Vector Colour 9
  deriving DecidableEq, Repr

/-! ### Downstream port (chapter 7) -/

/-- An entry of a source write lane (R122). -/
structure SourceWrite where
  address : Nat
  beats   : Nat
  data    : List DBeat
  source  : SourceId
  buffer  : Letter
  deriving DecidableEq, Repr

/-- The origin of a granted write, with the fields of Table 7-2 that depend on it. -/
inductive Origin where
  | aperture (source : SourceId) (buffer : Letter)
  | plain (initiator : Initiator)
  deriving DecidableEq, Repr

/-- A BUSY write tracker (Table 7-2), with the length its deadline timer was started with (log 7). -/
structure TrackerUse where
  origin  : Origin
  address : Nat
  beats   : Nat
  timer   : Deadline
  deriving DecidableEq, Repr

/-- A write tracker: its generation bit, which outlives its use, and its use: FREE is `none` (R126). -/
structure Tracker where
  generation : Bool
  use        : Option TrackerUse
  deriving DecidableEq, Repr

/-- The D-port: read lane, the 16 source write lanes (lane 16 is the plain write list), trackers, the arbiter's read-run count
and last granted write lane, and the response deadline setting (R121 to R127). -/
structure DPort where
  readLane      : List PieceId
  writeLanes    : Vector (List SourceWrite) 16
  trackers      : Vector Tracker 64
  readRun       : Nat
  lastWriteLane : Fin 17
  deadline      : Deadline
  deriving DecidableEq, Repr

/-! ### Override unit (chapter 9) -/

/-- Group configuration (Table 9-1). -/
structure GroupConfig where
  enabled    : Bool
  alarmSel   : BitVec 8
  polarity   : BitVec 8
  staleSel   : BitVec 16
  containSel : BitVec 16
  softEnable : BitVec 2
  holdOff    : Nat
  deriving DecidableEq, Repr

/-- Group states (section 9.4). -/
inductive GroupState where
  | idle
  | asserted
  | holding
  deriving DecidableEq, Repr

/-- An input of a group, as the trigger record names it (Table 9-3). `software 0` is bit 1 and `software 1` is bit 2. -/
inductive TriggerInput where
  | alarm (line : Fin 8)
  | staleTrip (source : SourceId)
  | contain (source : SourceId)
  | software (b : Fin 2)
  deriving DecidableEq, Repr

/-- A trigger record that is present (Table 9-3). -/
structure Trigger where
  input : TriggerInput
  frame : BitVec 16
  deriving DecidableEq, Repr

/-- An override group: configuration and the runtime fields of Table 9-4. -/
structure Group where
  cfg       : GroupConfig
  state     : GroupState
  holdCount : Nat
  raw       : Bool
  trigger   : Option Trigger
  deriving DecidableEq, Repr

/-- The override unit: sensed levels, software bits (SOFT_BITS layout: bit 2g is bit 1 of group g, bit 2g + 1 its bit 2) and the
four groups (R148, R149, R150). -/
structure Override where
  sensed   : BitVec 8
  softBits : BitVec 8
  groups   : Vector Group 4
  deriving DecidableEq, Repr

/-! ### Error capture (chapter 10) -/

/-- Error classes, in the order of Table 10-1. -/
inductive ErrClass where
  | decode
  | guard
  | readTimeout
  | readError
  | writeTimeout
  | writeError
  | poisonDiscard
  | contain
  | staleTrip
  | commitFail
  | bootImage
  | lateResponse
  deriving DecidableEq, Repr

/-- An event sent to error capture: its class and the optional fields its sender supplies (R161). -/
structure ErrEvent where
  cls       : ErrClass
  initiator : Option Initiator
  address   : Option Nat
  source    : Option SourceId
  window    : Option WindowId
  deriving DecidableEq, Repr

/-- The fault record: the event that loaded it and the frame counter of that event (Table 10-2); the present field is read from
the optional fields. -/
structure FaultRecord where
  event : ErrEvent
  frame : BitVec 16
  deriving DecidableEq, Repr

/-- Error capture: bit c of each 12-bit register belongs to class c (R161, R164); the first-error pointer, the fault record, the
three flags and the five enables (R165, R166, R168). -/
structure Capture where
  status         : BitVec 12
  detect         : BitVec 12
  severity       : BitVec 12
  pointerValid   : Bool
  pointerClass   : ErrClass
  fault          : FaultRecord
  commitEnd      : Bool
  overrideChange : Bool
  loaderEnd      : Bool
  intEnable      : BitVec 5
  deriving DecidableEq, Repr

/-! ### Management port and boot loader (chapter 11) -/

/-- Result codes, in the order of section 11.2. -/
inductive ResultCode where
  | none
  | accepted
  | refusedBusy
  | refusedState
  | refusedInvalid
  | refusedOverlap
  deriving DecidableEq, Repr

/-- The table pointer (R174). -/
structure TablePointer where
  table : Nat
  entry : Nat
  field : Nat
  deriving DecidableEq, Repr

/-- COMMAND_RESULT (R175). -/
structure CommandResult where
  code    : Byte
  operand : Byte
  result  : ResultCode
  field   : Nat
  deriving DecidableEq, Repr

/-- The transaction under way on the management bus, as far as the port takes part in it (R170): none, when no start has come since
the last stop, when it is addressed elsewhere, or when the port fell silent in it; a write after its index byte; a read. -/
inductive Transaction where
  | none
  | write
  | read
  deriving DecidableEq, Repr

/-- The management port (R170 to R175); `held` are the data bytes of a word of which the fourth has not come, first byte first
(R171). -/
structure Port where
  targetAddress : BitVec 7
  transaction   : Transaction
  held          : List Byte
  startIndex    : Byte
  workingIndex  : Byte
  pointer       : TablePointer
  command       : CommandResult
  partialWord   : Bool
  writeRefused  : Bool
  booten        : Bool
  lastResult    : ResultCode
  lastIndex     : Byte
  lastField     : Nat
  deriving DecidableEq, Repr

/-- Loader states (R179, R180): in APPLY, the record count and the index of the next record. -/
inductive LoaderState where
  | idle
  | verify
  | apply (count next : Nat)
  deriving DecidableEq, Repr

/-- Loader outcomes (Table 11-4). -/
inductive LoaderOutcome where
  | none
  | absent
  | bad
  | done
  deriving DecidableEq, Repr

/-- Reasons of outcome BAD (Table 11-4). -/
inductive BadReason where
  | signature
  | count
  | checksum
  | read
  deriving DecidableEq, Repr

/-- LOADER_RESULT (Table 11-4). -/
structure LoaderResult where
  outcome      : LoaderOutcome
  reason       : Option BadReason
  applied      : Nat
  refused      : Nat
  firstRefused : Option Nat
  deriving DecidableEq, Repr

/-- The boot loader. -/
structure Loader where
  state  : LoaderState
  result : LoaderResult
  deriving DecidableEq, Repr

/-! ### The links -/

/-- Status of a U-response (Table 1-2). -/
inductive UStatus where
  | ok
  | partialData
  | refused
  deriving DecidableEq, Repr

/-- A U-response record (Table 1-2); data are present for a READ with OK or PARTIAL. -/
structure UResponse where
  initiator : Initiator
  label     : Fin 16
  kind      : Kind
  status    : UStatus
  data      : List Byte
  deriving DecidableEq, Repr

/-- A downstream request record (Table 7-1). -/
inductive DRequest where
  | read (piece : PieceId) (generation : Bool) (address beats : Nat)
  | write (tracker : TrackerId) (generation : Bool) (address beats : Nat) (data : List DBeat)
  deriving DecidableEq, Repr

/-- What the part sent in the last event: U-responses and downstream requests in the order sent, and the bytes of a management
read, first byte first (log 11). -/
structure Links where
  responses : List UResponse
  requests  : List DRequest
  readBytes : Option (List Byte)
  deriving DecidableEq, Repr

/-- The kinds of reset (section 5.8). -/
inductive ResetKind where
  | powerOn
  | pin
  | soft
  deriving DecidableEq, Repr

end Sys2Proof.Machine

namespace Sys2Proof.Machine

open Sys2Proof

/-- The state of the part, block by block (section 3), the reset in progress (R177), the links, and the queue of commands. -/
structure State where
  resetting  : Option ResetKind
  uport      : UPort
  sources    : Vector Source 16
  governor   : Governor
  layout     : LayoutCtl
  translator : Translator
  dport      : DPort
  override   : Override
  capture    : Capture
  port       : Port
  loader     : Loader
  links      : Links
  pending    : List Instr
  deriving DecidableEq, Repr

/-! ### Reset values -/

/-- A source's runtime record and configuration after any reset (R19, R22, R141). -/
def Source.reset : Source :=
  { cfg := ⟨0, 0, 0, 0, 0, 0, 0, 0, 0, 0, 0⟩
    state := .off
    bufs := ⟨⟨.spent, false, 0, 0⟩, ⟨.spent, false, 0, 0⟩, ⟨.spent, false, 0, 0⟩⟩
    fillWait := false
    framesSinceFlip := 0
    stale := false
    trip := false
    credit := 0
    capSaturated := false
    quotaInEffect := 0
    presented := 0
    holdQueue := []
    frameTotal := 0 }

/-- The U-port after any reset, given the lanes, which stay with the link (R6, R7, R16). -/
def UPort.reset (lanes : Vector Lane 32) : UPort :=
  { lanes := lanes, intake := [], plainWrites := [], intakeLast := 31, plainLast := 31 }

/-- The governor after any reset (R136, R138, R139). -/
def Governor.reset : Governor :=
  { frameCount := 0, slotIndex := 1023, slotTimer := none, slotLength := 1627 }

/-- A window record after any reset (R71). -/
def Window.reset : Window :=
  { enabled := false, content := .source, source := 0, x := 0, y := 0, width := 0, height := 0, cropX := 0, cropY := 0,
    hscale := 1, vscale := 1, borderWidth := 0, borderColour := 0, fillColour := 0, group := none }

/-- The staged layout after any reset (R71). -/
def Layout.reset : Layout :=
  { windows := Vector.replicate 32 Window.reset, stackLen := 0, stack := Vector.replicate 32 0, background := .pass }

/-- An EMPTY bank (R76). -/
def Bank.empty : Bank :=
  { holdsLayout := false, base := 0, width := 0, height := 0, pitch := 0, layout := Layout.reset, overrideList := [],
    strips := [], segments := [] }

/-- The commit result record with outcome NONE (R89). -/
def CommitResult.none : CommitResult := { outcome := .none, code := Option.none, window := Option.none, segments := Option.none }

/-- The layout controller after any reset (R58, R71, R81). -/
def LayoutCtl.reset : LayoutCtl :=
  { canvas := { base := 0, width := 0, height := 0, pitch := 0, enabled := false }
    staged := Layout.reset
    bankA := Bank.empty
    bankB := Bank.empty
    active := .a
    hold := none
    ctl := .idle
    result := CommitResult.none }

/-- The palette's reset values (Table 6-5). -/
def paletteReset : Vector Colour 9 :=
  #v[0x000000, 0x202020, 0xFFB000, 0xFF00FF, 0xFF0000, 0xFF4000, 0xFF8000, 0xFFFF00, 0x808080]

/-- The translator after any reset (R95, R99, R101, R119). -/
def Translator.reset : Translator :=
  { contexts := [], pieces := Vector.replicate 256 { generation := false, use := none }, walker := none, paused := false,
    palette := paletteReset }

/-- The D-port after any reset (R135). -/
def DPort.reset : DPort :=
  { readLane := [], writeLanes := Vector.replicate 16 [], trackers := Vector.replicate 64 { generation := false, use := none },
    readRun := 0, lastWriteLane := 16, deadline := .us16 }

/-- An override group after any reset (R149, R158). -/
def Group.reset : Group :=
  { cfg := { enabled := false, alarmSel := 0, polarity := 0, staleSel := 0, containSel := 0, softEnable := 0, holdOff := 0 }
    state := .idle
    holdCount := 0
    raw := false
    trigger := none }

/-- The override unit after any reset, given the sensed levels (R148, R150, R158). -/
def Override.reset (sensed : BitVec 8) : Override :=
  { sensed := sensed, softBits := 0, groups := Vector.replicate 4 Group.reset }

/-- The cleared fault record: class 0, nothing present, frame 0 (R166). -/
def FaultRecord.cleared : FaultRecord :=
  { event := { cls := .decode, initiator := none, address := none, source := none, window := none }, frame := 0 }

/-- Error capture after a power-on reset (R167, Table 10-1, Table 11-1). -/
def Capture.reset : Capture :=
  { status := 0, detect := 0xFFF, severity := 0x0BE, pointerValid := false, pointerClass := .decode,
    fault := FaultRecord.cleared, commitEnd := false, overrideChange := false, loaderEnd := false, intEnable := 0 }

/-- The management port after any reset, given what the end of a reset samples (R170, R173, R174, R175). -/
def Port.reset (target : BitVec 7) (booten : Bool) : Port :=
  { targetAddress := target, transaction := .none, held := [], startIndex := 0, workingIndex := 0, pointer := ⟨0, 0, 0⟩, command := ⟨0, 0, .none, 255⟩,
    partialWord := false, writeRefused := false, booten := booten, lastResult := .none, lastIndex := 0, lastField := 255 }

/-- LOADER_RESULT with outcome NONE (R181). -/
def LoaderResult.none : LoaderResult :=
  { outcome := .none, reason := Option.none, applied := 0, refused := 0, firstRefused := Option.none }

/-- The links when nothing was sent. -/
def Links.none : Links := { responses := [], requests := [], readBytes := Option.none }

/-- The machine right after a power-on reset has ended, with nothing waiting on the lanes, the straps 0, BOOTEN low and the
alarm lines low (log 1, DESIGN CHOICE: the pins are outside the part). -/
def State.reset : State :=
  { resetting := none
    uport := UPort.reset (Vector.replicate 32 { reads := [], writes := [] })
    sources := Vector.replicate 16 Source.reset
    governor := Governor.reset
    layout := LayoutCtl.reset
    translator := Translator.reset
    dport := DPort.reset
    override := Override.reset 0
    capture := Capture.reset
    port := Port.reset 0x52 false
    loader := { state := .idle, result := LoaderResult.none }
    links := Links.none
    pending := [] }

end Sys2Proof.Machine
end

