-- ==== Sys2Proof/Machine/Ops.lean ====
section
/-! DEFINITION. The named operations over the state that every block shares: putting one record of a table, replacing one
block, the round-robin order, and the two frames in which events are taken (outside a reset; by a management port that
answers). -/

namespace Sys2Proof.Machine

open Sys2Proof

/-- A table with entry `i` replaced. -/
def putAt {α : Type} {n : Nat} (v : Vector α n) (i : Fin n) (a : α) : Vector α n := v.set i.val a i.isLt

/-- The round-robin order of R6 and R124: increasing numbers after `last`, wrapping to 0, with `last` itself at the end. -/
def after {n : Nat} (last : Fin (n + 1)) : List (Fin (n + 1)) :=
  (List.range (n + 1)).map fun k => Fin.ofNat (n + 1) (last.val + 1 + k)

/-- The sources in increasing number. -/
def allSources : List SourceId := List.finRange 16

/-- The groups in increasing number. -/
def allGroups : List GroupId := List.finRange 4

/-- The initiators in increasing number. -/
def allInitiators : List Initiator := List.finRange 32

/-- The windows in increasing number. -/
def allWindows : List WindowId := List.finRange 32

/-! ### Replacing one block -/

def State.withResetting (s : State) (r : Option ResetKind) : State := { s with resetting := r }

def State.withUport (s : State) (u : UPort) : State := { s with uport := u }

def State.withSources (s : State) (v : Vector Source 16) : State := { s with sources := v }

def State.withGovernor (s : State) (g : Governor) : State := { s with governor := g }

def State.withLayout (s : State) (l : LayoutCtl) : State := { s with layout := l }

def State.withTranslator (s : State) (t : Translator) : State := { s with translator := t }

def State.withDport (s : State) (d : DPort) : State := { s with dport := d }

def State.withOverride (s : State) (o : Override) : State := { s with override := o }

def State.withCapture (s : State) (c : Capture) : State := { s with capture := c }

def State.withPort (s : State) (p : Port) : State := { s with port := p }

def State.withLoader (s : State) (l : Loader) : State := { s with loader := l }

def State.withLinks (s : State) (l : Links) : State := { s with links := l }

def State.withPending (s : State) (q : List Instr) : State := { s with pending := q }

/-- One source record replaced. -/
def State.putSource (s : State) (i : SourceId) (x : Source) : State := s.withSources (putAt s.sources i x)

/-- One override group replaced. -/
def State.putGroup (s : State) (g : GroupId) (x : Group) : State :=
  s.withOverride { s.override with groups := putAt s.override.groups g x }

/-! ### The lanes and the links -/

/-- One side of an initiator's lane (R3). -/
def UPort.side (u : UPort) (i : Initiator) : Kind → List URequest
  | .read => u.lanes[i].reads
  | .write => u.lanes[i].writes

/-- One side of an initiator's lane replaced. -/
def UPort.putSide (u : UPort) (i : Initiator) (k : Kind) (rs : List URequest) : UPort :=
  { u with
    lanes := putAt u.lanes i
      (match k with
       | .read => { u.lanes[i] with reads := rs }
       | .write => { u.lanes[i] with writes := rs }) }

/-- The links before anything is sent in an event: they hold what the last event sent (log 11). -/
def State.quiet (s : State) : State := s.withLinks Links.none

/-- A U-response is sent (R2). -/
def State.respond (s : State) (r : UResponse) : State :=
  s.withLinks { s.links with responses := s.links.responses ++ [r] }

/-- A downstream request is sent (R120). -/
def State.request (s : State) (r : DRequest) : State :=
  s.withLinks { s.links with requests := s.links.requests ++ [r] }

/-! ### The frames of events -/

/-- The outcome of one step of the part. -/
abbrev Result := Host.Outcome State Fault Refusal

/-- An event of the data path: while any reset is in progress it does not take place (R7, R136, R148). -/
def outsideReset (f : State → State) (s : State) : Result :=
  .next (if s.resetting.isSome then s.quiet else f s.quiet)

/-- The management port does not acknowledge its address while any reset is in progress and while the loader is in VERIFY or
APPLY (R170). -/
def State.silent (s : State) : Bool := s.resetting.isSome || s.loader.state != .idle

/-- An event of the management port: while the port is silent nothing is taken (R170). -/
def heard (f : State → State) (s : State) : Result :=
  .next (if s.silent then s.quiet else f s.quiet)

end Sys2Proof.Machine
end

