-- ==== Sys2Proof/Machine/Operands.lean ====
section
/-! DEFINITION. The operand forms of the management port and the codes of its fields: result reports, bit fields of words, the
shape of the tables (Table 11-2), and the fields of configuration, window and buffer records by number. -/

namespace Sys2Proof.Machine

open Sys2Proof

/-! ### Reports -/

/-- The result code's number (section 11.2). -/
def ResultCode.num : ResultCode → Nat
  | .none => 0
  | .accepted => 1
  | .refusedBusy => 2
  | .refusedState => 3
  | .refusedInvalid => 4
  | .refusedOverlap => 5

/-- What an owner answers to a word: the result and the field named, 255 when none is (R173, R175). -/
structure Report where
  code  : ResultCode
  field : Nat
  deriving DecidableEq, Repr

def Report.accepted : Report := ⟨.accepted, 255⟩
def Report.busy : Report := ⟨.refusedBusy, 255⟩
def Report.wrongState : Report := ⟨.refusedState, 255⟩
def Report.invalid (field : Nat) : Report := ⟨.refusedInvalid, field⟩
def Report.overlap (field : Nat) : Report := ⟨.refusedOverlap, field⟩

/-! ### Bit fields of words -/

/-- Bits `lo` to `lo + len − 1` of a word, as a number. -/
def field (w : Word) (lo len : Nat) : Nat := (w.extractLsb' lo len).toNat

/-- The number of four bytes, least significant first (R171, R178). -/
def leNat : List Byte → Nat
  | [] => 0
  | b :: bs => b.toNat + 256 * leNat bs

/-- The word of four bytes, the first of them bits 7–0 (R171, R178). -/
def wordOf (b0 b1 b2 b3 : Byte) : Word := b3 ++ b2 ++ b1 ++ b0

/-- The four bytes of a word, least significant first (R172). -/
def wordBytes (w : Word) : List Byte := [w.extractLsb' 0 8, w.extractLsb' 8 8, w.extractLsb' 16 8, w.extractLsb' 24 8]

/-! ### Tables (Table 11-2) -/

/-- Entries and fields of the table with a code of Table 11-2. -/
def tableShape : Nat → Option (Nat × Nat)
  | 1 => some (16, 11)
  | 2 => some (16, 22)
  | 3 => some (32, 15)
  | 4 => some (1, 34)
  | 5 => some (32, 15)
  | 6 => some (1, 34)
  | 7 => some (65, 4)
  | 8 => some (1024, 2)
  | 9 => some (4, 7)
  | 10 => some (4, 6)
  | 11 => some (9, 1)
  | 12 => some (1, 8)
  | 13 => some (1, 4)
  | 14 => some (1, 5)
  | _ => none

/-- The pointer names a field of a table of Table 11-2 (R174). -/
def TablePointer.valid (p : TablePointer) : Bool :=
  match tableShape p.table with
  | none => false
  | some (entries, fields) => decide (p.entry < entries) && decide (p.field < fields)

/-- The pointer after a word of TABLE_DATA: the next field, field 0 of the next entry after the last field, entry 0 field 0
after the last entry; while it names table 0 it does not advance (R174). -/
def TablePointer.advance (p : TablePointer) : TablePointer :=
  match tableShape p.table with
  | none => p
  | some (entries, fields) =>
    if p.field + 1 < fields then { p with field := p.field + 1 }
    else if p.entry + 1 < entries then { p with entry := p.entry + 1, field := 0 }
    else { p with entry := 0, field := 0 }

/-! ### Source configuration fields by number (Table 2-1) -/

/-- A configuration field by its number in Table 2-1. -/
def SourceConfig.get (c : SourceConfig) : Nat → Nat
  | 0 => c.apertureBase
  | 1 => c.width
  | 2 => c.height
  | 3 => c.pitch
  | 4 => c.baseA
  | 5 => c.baseB
  | 6 => c.baseC
  | 7 => c.staleDeadline
  | 8 => c.quota
  | 9 => c.creditCap
  | 10 => c.containment
  | _ => 0

/-- A configuration field replaced, by its number in Table 2-1. -/
def SourceConfig.put (c : SourceConfig) (f v : Nat) : SourceConfig :=
  match f with
  | 0 => { c with apertureBase := v }
  | 1 => { c with width := v }
  | 2 => { c with height := v }
  | 3 => { c with pitch := v }
  | 4 => { c with baseA := v }
  | 5 => { c with baseB := v }
  | 6 => { c with baseC := v }
  | 7 => { c with staleDeadline := v }
  | 8 => { c with quota := v }
  | 9 => { c with creditCap := v }
  | 10 => { c with containment := v }
  | _ => c

/-- The four base fields, held as page numbers (R19). -/
def isPageField (f : Nat) : Bool := f == 0 || f == 4 || f == 5 || f == 6

/-! ### Buffers by letter -/

def Buffers.get (b : Buffers) : Letter → Buffer
  | .a => b.a
  | .b => b.b
  | .c => b.c

def Buffers.put (b : Buffers) (l : Letter) (x : Buffer) : Buffers :=
  match l with
  | .a => { b with a := x }
  | .b => { b with b := x }
  | .c => { b with c := x }

/-- The letters, lowest first (section 5.6). -/
def letters : List Letter := [.a, .b, .c]

/-- The base of a source's buffer, as a byte address (R19). -/
def SourceConfig.bufferBase (c : SourceConfig) : Letter → Nat
  | .a => c.baseA * Config.pageBytes
  | .b => c.baseB * Config.pageBytes
  | .c => c.baseC * Config.pageBytes

/-- The length of each region of a source (R19). -/
def SourceConfig.regionLength (c : SourceConfig) : Nat := c.pitch * c.height

/-- The source a tracker's or piece's letter names: the lowest-lettered buffer with a role, if any. -/
def Buffers.withRole (b : Buffers) (r : Role) : Option Letter := letters.find? fun l => (b.get l).role == r

/-! ### Window fields by number (Table 4-2) and their codes (Table 4-3) -/

def Content.num : Content → Nat
  | .source => 0
  | .fill => 1

def Background.num : Background → Nat
  | .pass => 0
  | .fill => 1

/-- The override group code: 7 is NONE (Table 4-3). -/
def groupCode : Option GroupId → Nat
  | none => 7
  | some g => g.val

/-- A window field as it reads back (R64). -/
def Window.get (w : Window) : Nat → Nat
  | 0 => bit w.enabled
  | 1 => w.content.num
  | 2 => w.source
  | 3 => w.x
  | 4 => w.y
  | 5 => w.width
  | 6 => w.height
  | 7 => w.cropX
  | 8 => w.cropY
  | 9 => w.hscale
  | 10 => w.vscale
  | 11 => w.borderWidth
  | 12 => w.borderColour.toNat
  | 13 => w.fillColour.toNat
  | 14 => groupCode w.group
  | _ => 0

/-- A window field written, or none when the value lies outside the column "Stored" of Table 4-2 (R64). -/
def Window.put (w : Window) (f v : Nat) : Option Window :=
  match f with
  | 0 => if v = 0 then some { w with enabled := false } else if v = 1 then some { w with enabled := true } else none
  | 1 => if v = 0 then some { w with content := .source } else if v = 1 then some { w with content := .fill } else none
  | 2 => if v ≤ 255 then some { w with source := v } else none
  | 3 => if v ≤ 65535 then some { w with x := v } else none
  | 4 => if v ≤ 65535 then some { w with y := v } else none
  | 5 => if v ≤ 65535 then some { w with width := v } else none
  | 6 => if v ≤ 65535 then some { w with height := v } else none
  | 7 => if v ≤ 8191 then some { w with cropX := v } else none
  | 8 => if v ≤ 8191 then some { w with cropY := v } else none
  | 9 => if v ≤ 15 then some { w with hscale := v } else none
  | 10 => if v ≤ 15 then some { w with vscale := v } else none
  | 11 => if v ≤ 8 then some { w with borderWidth := v } else none
  | 12 => if v ≤ 0xFFFFFF then some { w with borderColour := BitVec.ofNat 24 v } else none
  | 13 => if v ≤ 0xFFFFFF then some { w with fillColour := BitVec.ofNat 24 v } else none
  | 14 => if h : v < 4 then some { w with group := some ⟨v, h⟩ } else if v = 7 then some { w with group := none } else none
  | _ => none

/-- A field of STACK_STAGED or STACK_ACTIVE: length, positions 1 to 32, background mode (Table 4-4). -/
def Layout.stackField (l : Layout) (f : Nat) : Nat :=
  if f = 0 then l.stackLen
  else if h : f - 1 < 32 then (l.stack[f - 1]'h).val
  else if f = 33 then l.background.num
  else 0

/-- A field of STACK_STAGED written, or none outside its range (R67, R69). -/
def Layout.putStackField (l : Layout) (f v : Nat) : Option Layout :=
  if f = 0 then (if v ≤ 32 then some { l with stackLen := v } else none)
  else if h : f - 1 < 32 then
    (if hv : v < 32 then some { l with stack := putAt l.stack ⟨f - 1, h⟩ ⟨v, hv⟩ } else none)
  else if f = 33 then
    (if v = 0 then some { l with background := .pass } else if v = 1 then some { l with background := .fill } else none)
  else none

/-! ### Coded state fields: the position of the value in its chapter's list (R174) -/

def SourceState.num : SourceState → Nat
  | .off => 0
  | .await => 1
  | .live => 2
  | .contained => 3
  | .closing => 4

def Role.num : Role → Nat
  | .fill => 0
  | .sealing => 1
  | .ready => 2
  | .front => 3
  | .spent => 4

def CtlState.num : CtlState → Nat
  | .idle => 0
  | .drain => 1
  | .compile => 2
  | .armed => 3

def CommitOutcome.num : CommitOutcome → Nat
  | .none => 0
  | .done => 1
  | .failed => 2
  | .aborted => 3

def FailCode.num : FailCode → Nat
  | .canvasOff => 1
  | .badWindow => 2
  | .badStack => 3
  | .overrideLimit => 4
  | .segmentOverflow => 5
  | .canvasChanged => 6

def GroupState.num : GroupState → Nat
  | .idle => 0
  | .asserted => 1
  | .holding => 2

def LoaderOutcome.num : LoaderOutcome → Nat
  | .none => 0
  | .absent => 1
  | .bad => 2
  | .done => 3

def BadReason.num : BadReason → Nat
  | .signature => 1
  | .count => 2
  | .checksum => 3
  | .read => 4

/-- The setting in microseconds, as RESPONSE_DEADLINE holds it (Table 11-1). -/
def Deadline.micros : Deadline → Nat
  | .us1 => 1
  | .us4 => 4
  | .us16 => 16
  | .us64 => 64

/-- The setting in ticks (R127). -/
def Deadline.ticks (d : Deadline) : Nat := 100 * d.micros

/-- The setting a RESPONSE_DEADLINE write names, if it is one of the four (R127). -/
def deadlineOf : Nat → Option Deadline
  | 1 => some .us1
  | 4 => some .us4
  | 16 => some .us16
  | 64 => some .us64
  | _ => none

/-- The trigger kind code of Table 9-3. -/
def TriggerInput.kindNum : TriggerInput → Nat
  | .alarm _ => 1
  | .staleTrip _ => 2
  | .contain _ => 3
  | .software _ => 4

/-- The trigger input of Table 9-3: line, source, or bit 1 or 2. -/
def TriggerInput.inputNum : TriggerInput → Nat
  | .alarm l => l.val
  | .staleTrip i => i.val
  | .contain i => i.val
  | .software b => b.val + 1

end Sys2Proof.Machine
end

