-- ==== Sys2Proof/Machine/Flags.lean ====
section
/-! DEFINITION. Error capture and the interrupt line: recording of events, the first-error pointer, the five causes and IRQn
(chapter 10). -/

namespace Sys2Proof.Machine

open Sys2Proof

/-- The class number of Table 10-1. -/
def ErrClass.num : ErrClass → Nat
  | .decode => 0
  | .guard => 1
  | .readTimeout => 2
  | .readError => 3
  | .writeTimeout => 4
  | .writeError => 5
  | .poisonDiscard => 6
  | .contain => 7
  | .staleTrip => 8
  | .commitFail => 9
  | .bootImage => 10
  | .lateResponse => 11

/-- The bit of one class in a 12-bit register. -/
def ErrClass.mask (c : ErrClass) : BitVec 12 := BitVec.twoPow 12 c.num

/-- An event arrives: if its class is detected, its status is set and, if the first-error pointer is invalid, the pointer takes
its class and the fault record takes the event and the frame counter (R161, R165, R166). -/
def Capture.record (c : Capture) (frame : BitVec 16) (e : ErrEvent) : Capture :=
  if c.detect.getLsbD e.cls.num then
    if c.pointerValid then { c with status := c.status ||| e.cls.mask }
    else
      { c with
        status := c.status ||| e.cls.mask
        pointerValid := true
        pointerClass := e.cls
        fault := { event := e, frame := frame } }
  else c

/-- A block sends an event to error capture (R161). -/
def State.record (e : ErrEvent) (s : State) : State :=
  s.withCapture (s.capture.record s.governor.frameCount e)

/-- ERROR_STATUS: the named statuses are cleared, and the pointer becomes invalid if its class is among them (R163, R165). -/
def Capture.clearStatus (c : Capture) (m : BitVec 12) : Capture :=
  { c with
    status := c.status &&& ~~~m
    pointerValid := c.pointerValid && !m.getLsbD c.pointerClass.num }

/-- Some status whose severity is fault is set (R168). -/
def Capture.faultLevel (c : Capture) : Bool := c.status &&& c.severity != 0

/-- Some status whose severity is notice is set (R168). -/
def Capture.noticeLevel (c : Capture) : Bool := c.status &&& ~~~c.severity != 0

/-- The five causes in the layout of INT_CAUSE (R168, Table 11-1). -/
def Capture.causes (c : Capture) : BitVec 5 :=
  BitVec.ofNat 5
    (bit c.faultLevel + 2 * bit c.noticeLevel + 4 * bit c.commitEnd + 8 * bit c.overrideChange + 16 * bit c.loaderEnd)

/-- IRQn is driven low: some cause holds with its enable on and no reset is in progress (R169). -/
def State.irqLow (s : State) : Bool := s.resetting.isNone && s.capture.causes &&& s.capture.intEnable != 0

/-- DRSTn is driven low during any reset (R135). -/
def State.drstLow (s : State) : Bool := s.resetting.isSome

/-- COMMIT_END is set (R90). -/
def State.setCommitEnd (s : State) : State := s.withCapture { s.capture with commitEnd := true }

/-- OVERRIDE_CHANGE is set (R159). -/
def State.setOverrideChange (s : State) : State := s.withCapture { s.capture with overrideChange := true }

/-- LOADER_END is set (R181). -/
def State.setLoaderEnd (s : State) : State := s.withCapture { s.capture with loaderEnd := true }

end Sys2Proof.Machine
end

