-- ==== Sys2Proof/Machine/Groups.lean ====
section
/-! DEFINITION. Override groups: inputs, raw condition, states, enabling, and the strobe's hold-off count (chapter 9). -/

namespace Sys2Proof.Machine

open Sys2Proof

/-- The inputs a group may watch, in the order of R153: alarm lines, stale trips, containments, software bits. -/
def groupInputs : List TriggerInput :=
  (List.finRange 8).map .alarm ++ allSources.map .staleTrip ++ allSources.map .contain ++ (List.finRange 2).map .software

/-- An input is selected by group `g` and true (R151). A line's active level is high outside the polarity set, low inside. -/
def State.inputActive (s : State) (g : GroupId) : TriggerInput → Bool
  | .alarm l =>
    (s.override.groups[g].cfg.alarmSel.getLsbD l.val) &&
      (s.override.sensed.getLsbD l.val != s.override.groups[g].cfg.polarity.getLsbD l.val)
  | .staleTrip i => (s.override.groups[g].cfg.staleSel.getLsbD i.val) && s.sources[i].trip
  | .contain i => (s.override.groups[g].cfg.containSel.getLsbD i.val) && s.sources[i].state == .contained
  | .software b =>
    (s.override.groups[g].cfg.softEnable.getLsbD b.val) && s.override.softBits.getLsbD (2 * g.val + b.val)

/-- The first true input of a group in the order of R153. -/
def State.firstInput (s : State) (g : GroupId) : Option TriggerInput := groupInputs.find? (s.inputActive g)

/-- The raw condition of a group (R151). -/
def State.rawCondition (s : State) (g : GroupId) : Bool := groupInputs.any (s.inputActive g)

/-- The trigger record that an assertion loads: the first true input and the frame counter (R153). -/
def State.triggerNow (s : State) (g : GroupId) : Option Trigger :=
  (s.firstInput g).map fun i => { input := i, frame := s.governor.frameCount }

/-- A group enters ASSERTED from IDLE: trigger record loaded, OVERRIDE_CHANGE set (R153). -/
def State.assertGroup (s : State) (g : GroupId) : State :=
  (s.putGroup g
    { s.override.groups[g] with state := .asserted, holdCount := 0, raw := true, trigger := s.triggerNow g }).setOverrideChange

/-- The raw condition of a group has become true (R153, R155). -/
def State.rawRise (s : State) (g : GroupId) : State :=
  match s.override.groups[g].state with
  | .idle =>
    if s.override.groups[g].cfg.enabled then s.assertGroup g
    else s.putGroup g { s.override.groups[g] with raw := true }
  | .asserted => s.putGroup g { s.override.groups[g] with raw := true }
  | .holding => s.putGroup g { s.override.groups[g] with raw := true, state := .asserted, holdCount := 0 }

/-- The raw condition of a group has become false (R154). -/
def State.rawFall (s : State) (g : GroupId) : State :=
  match s.override.groups[g].state with
  | .asserted =>
    if s.override.groups[g].cfg.holdOff = 0 then
      (s.putGroup g { s.override.groups[g] with raw := false, state := .idle, holdCount := 0 }).setOverrideChange
    else s.putGroup g { s.override.groups[g] with raw := false, state := .holding, holdCount := 0 }
  | .idle => s.putGroup g { s.override.groups[g] with raw := false }
  | .holding => s.putGroup g { s.override.groups[g] with raw := false }

/-- The raw condition is evaluated; the group acts only if it changed (R152). -/
def State.evaluateGroup (s : State) (g : GroupId) : State :=
  if s.rawCondition g = s.override.groups[g].raw then s
  else if s.rawCondition g then s.rawRise g
  else s.rawFall g

/-- The evaluation of some groups, each by itself (R152). -/
def State.evaluateThose (s : State) (gs : List GroupId) : State := gs.foldl State.evaluateGroup s

/-- The evaluation of every group after the whole change of an event (R152). -/
def State.evaluateGroups (s : State) : State := s.evaluateThose allGroups

/-- The strobe at one group: a HOLDING group counts, and returns to IDLE when the count reaches the hold-off (R156). -/
def State.strobeGroup (s : State) (g : GroupId) : State :=
  if s.override.groups[g].state = .holding then
    if s.override.groups[g].cfg.holdOff ≤ s.override.groups[g].holdCount + 1 then
      (s.putGroup g { s.override.groups[g] with state := .idle, holdCount := 0 }).setOverrideChange
    else s.putGroup g { s.override.groups[g] with holdCount := s.override.groups[g].holdCount + 1 }
  else s

/-- The strobe at some groups, each by itself (R156). -/
def State.strobeThose (s : State) (gs : List GroupId) : State := gs.foldl State.strobeGroup s

/-- The groups whose bit is set. -/
def groupsIn (m : BitVec 4) : List GroupId := allGroups.filter fun g => m.getLsbD g.val

/-- A write of 1 to the enabled field (R157). -/
def State.enableGroup (s : State) (g : GroupId) : State :=
  if s.override.groups[g].cfg.enabled then s
  else
    let s1 := s.putGroup g { s.override.groups[g] with cfg := { s.override.groups[g].cfg with enabled := true } }
    if s1.rawCondition g then s1.assertGroup g else s1

/-- A write of 0 to the enabled field (R157). -/
def State.disableGroup (s : State) (g : GroupId) : State :=
  if s.override.groups[g].cfg.enabled then
    let s1 :=
      s.putGroup g
        { s.override.groups[g] with
          cfg := { s.override.groups[g].cfg with enabled := false }, state := .idle, holdCount := 0 }
    if s.override.groups[g].state = .idle then s1 else s1.setOverrideChange
  else s

/-- A group is shown: ASSERTED or HOLDING (R106, R160). -/
def State.groupShown (s : State) (g : GroupId) : Bool := s.override.groups[g].state != .idle

/-- A configuration field of a group written: none outside its range (R149). Field 0 is the enabled field, written through
`enableGroup` and `disableGroup`. -/
def GroupConfig.put (c : GroupConfig) (f v : Nat) : Option GroupConfig :=
  match f with
  | 1 => if v ≤ 255 then some { c with alarmSel := BitVec.ofNat 8 v } else none
  | 2 => if v ≤ 255 then some { c with polarity := BitVec.ofNat 8 v } else none
  | 3 => if v ≤ 65535 then some { c with staleSel := BitVec.ofNat 16 v } else none
  | 4 => if v ≤ 65535 then some { c with containSel := BitVec.ofNat 16 v } else none
  | 5 => if v ≤ 3 then some { c with softEnable := BitVec.ofNat 2 v } else none
  | 6 => if v ≤ 255 then some { c with holdOff := v } else none
  | _ => none

/-- A configuration field of a group as it reads (Table 9-1). -/
def GroupConfig.get (c : GroupConfig) : Nat → Nat
  | 0 => bit c.enabled
  | 1 => c.alarmSel.toNat
  | 2 => c.polarity.toNat
  | 3 => c.staleSel.toNat
  | 4 => c.containSel.toNat
  | 5 => c.softEnable.toNat
  | 6 => c.holdOff
  | _ => 0

/-- A TABLE write of GROUP_CONFIG: checked, stored, and its effect on the group taken in the same event (R149, R152, R157). -/
def State.writeGroup (s : State) (g : GroupId) (f v : Nat) : State × Report :=
  if f = 0 then
    if v = 0 then (s.disableGroup g, .accepted)
    else if v = 1 then (s.enableGroup g, .accepted)
    else (s, .invalid 0)
  else
    match s.override.groups[g].cfg.put f v with
    | none => (s, .invalid f)
    | some c =>
      let s1 := s.putGroup g { s.override.groups[g] with cfg := c }
      (if f = 6 then s1 else s1.evaluateGroup g, .accepted)

end Sys2Proof.Machine
end

