-- ==== Sys2Proof/Machine/Uport.lean ====
section
/-! DEFINITION. The address decoder and the U-port: regions, classification (R8 to R13), destinations and room (R4, R6), and the
acceptance of a lane head (R14 to R18). -/

namespace Sys2Proof.Machine

open Sys2Proof

/-! ### Regions (Table 1-4) -/

/-- The regions the decoder watches; plain memory is every byte in none of them. -/
inductive RegionId where
  | canvas
  | aperture (source : SourceId)
  | buffer (source : SourceId) (letter : Letter)
  deriving DecidableEq, Repr

/-- A region: its name, its base and its length in bytes (section 5.2). -/
structure Region where
  id     : RegionId
  base   : Nat
  length : Nat
  deriving DecidableEq, Repr

/-- The byte at address `a` lies in the region. -/
def Region.has (g : Region) (a : Nat) : Bool := decide (g.base ≤ a) && decide (a < g.base + g.length)

/-- All `n` bytes from `a` lie in the region. -/
def Region.holds (g : Region) (a n : Nat) : Bool := decide (g.base ≤ a) && decide (a + n ≤ g.base + g.length)

/-- Some of the `n` bytes from `a` lies in the region. -/
def Region.meets (g : Region) (a n : Nat) : Bool :=
  decide (0 < g.length) && decide (0 < n) && decide (g.base < a + n) && decide (a < g.base + g.length)

/-- The four regions of a source, in the order aperture, buffer A, B, C. -/
def SourceConfig.regions (c : SourceConfig) (i : SourceId) : List Region :=
  [⟨.aperture i, c.apertureBase * Config.pageBytes, c.regionLength⟩,
   ⟨.buffer i .a, c.bufferBase .a, c.regionLength⟩,
   ⟨.buffer i .b, c.bufferBase .b, c.regionLength⟩,
   ⟨.buffer i .c, c.bufferBase .c, c.regionLength⟩]

/-- The regions a source has in the decoder: its four regions while it is not OFF (Table 1-4). -/
def State.sourceRegions (s : State) (i : SourceId) : List Region :=
  if s.sources[i].state = .off then [] else s.sources[i].cfg.regions i

/-- The canvas region of a canvas record (R58). -/
def Canvas.region (c : Canvas) : Region := ⟨.canvas, c.base * Config.pageBytes, c.pitch * c.height⟩

/-- The canvas region while the canvas is enabled (Table 1-4). -/
def State.canvasRegions (s : State) : List Region :=
  if s.layout.canvas.enabled then [s.layout.canvas.region] else []

/-- The regions that exist in the decoder (Table 1-4). -/
def State.regions (s : State) : List Region := s.canvasRegions ++ allSources.flatMap s.sourceRegions

/-! ### Classification -/

/-- The outcome of classification: a class, and for a refusal its event class and the source it carries (R18). -/
inductive ReqClass where
  | aperture (source : SourceId)
  | canvas
  | plain
  | refused (cls : ErrClass) (source : Option SourceId)
  deriving DecidableEq, Repr

/-- The row of the canvas a byte address lies in (R10). -/
def Canvas.rowOf (c : Canvas) (a : Nat) : Nat := (a - c.base * Config.pageBytes) / c.pitch

/-- A request that lies wholly in one region (R10, R11, R12). -/
def State.classifyIn (s : State) (r : URequest) : RegionId → ReqClass
  | .canvas =>
    match r.kind with
    | .write => .canvas
    | .read =>
      if s.layout.canvas.rowOf r.address.toNat = s.layout.canvas.rowOf (r.address.toNat + r.beats * 32 - 1) then .canvas
      else .refused .decode none
  | .aperture i =>
    match r.kind with
    | .read => .refused .decode (some i)
    | .write => if r.initiator.val = i.val then .aperture i else .refused .guard (some i)
  | .buffer i _ => .refused .guard (some i)

/-- Classification of a request against the state as it stands (R8 to R13). -/
def State.classify (s : State) (r : URequest) : ReqClass :=
  if r.address.toNat % 32 ≠ 0 ∨ Config.addressSpace < r.address.toNat + r.beats * 32 then .refused .decode none
  else
    match s.regions.find? fun g => g.holds r.address.toNat (r.beats * 32) with
    | some g => s.classifyIn r g.id
    | none =>
      if s.regions.any fun g => g.meets r.address.toNat (r.beats * 32) then .refused .decode none else .plain

/-! ### Destinations and room -/

/-- Destinations (Table 1-3). -/
inductive Destination where
  | holdQueue (source : SourceId)
  | dropped
  | intake
  | plainList
  | discarded
  deriving DecidableEq, Repr

/-- The destination of a classified request (Table 1-3). -/
def State.destination (s : State) (k : Kind) (c : ReqClass) : Destination :=
  match k with
  | .read => .intake
  | .write =>
    match c with
    | .aperture i => if s.sources[i].state = .closing then .dropped else .holdQueue i
    | .canvas => .plainList
    | .plain => .plainList
    | .refused _ _ => .discarded

/-- The head of a write side waits for the plain write list. -/
def State.waitsForPlainList (s : State) (i : Initiator) : Bool :=
  match s.uport.lanes[i].writes with
  | [] => false
  | r :: _ => s.destination .write (s.classify r) == .plainList

/-- The initiator to which the intake list's arbiter hands a free entry: every read needs one (R4, R6). -/
def State.intakeTurn (s : State) : Option Initiator :=
  (after s.uport.intakeLast).find? fun i => !s.uport.lanes[i].reads.isEmpty

/-- The initiator to which the plain write list's arbiter hands a free entry (R6). -/
def State.plainTurn (s : State) : Option Initiator := (after s.uport.plainLast).find? s.waitsForPlainList

/-- Room for a head of initiator `i` in its destination, handed out by the arbiter where the destination is shared (R4, R6,
R15, R16, R17). -/
def State.hasRoom (s : State) (i : Initiator) : Destination → Bool
  | .holdQueue j => decide (s.sources[j].holdQueue.length < Config.holdQueueCapacity)
  | .dropped => true
  | .intake => decide (s.uport.intake.length < Config.intakeCapacity) && s.intakeTurn == some i
  | .plainList => decide (s.uport.plainWrites.length < Config.plainListCapacity) && s.plainTurn == some i
  | .discarded => true

/-- A destination that needs no room (Table 1-3). -/
def Destination.needsNoRoom : Destination → Bool
  | .dropped => true
  | .discarded => true
  | .holdQueue _ => false
  | .intake => false
  | .plainList => false

/-! ### Acceptance -/

/-- A beat without its poison mark (R14). -/
def WriteBeat.toMemory (b : WriteBeat) : DBeat := { bytes := b.bytes, enables := b.enables }

/-- The class a read keeps (R17). -/
def ReqClass.readClass : ReqClass → ReadClass
  | .canvas => .canvas
  | .plain => .plain
  | .aperture _ => .refused
  | .refused _ _ => .refused

/-- The answer of an accepted write (R14). -/
def ReqClass.writeStatus : ReqClass → UStatus
  | .refused _ _ => .refused
  | .aperture _ => .ok
  | .canvas => .ok
  | .plain => .ok

/-- The U-response of a write, sent in the event that accepts it (R14). -/
def writeAnswer (r : URequest) (c : ReqClass) : UResponse :=
  { initiator := r.initiator, label := r.label, kind := .write, status := c.writeStatus, data := [] }

/-- The event a refusal sends (R18, Table 1-7). -/
def State.recordRefusal (s : State) (r : URequest) (c : ReqClass) : State :=
  match c with
  | .refused cls src =>
    s.record
      { cls := cls, initiator := some r.initiator, address := some r.address.toNat, source := src, window := none }
  | .aperture _ => s
  | .canvas => s
  | .plain => s

/-- The hold queue entry of an APERTURE write (Table 1-6). -/
def State.holdEntry (s : State) (i : SourceId) (r : URequest) : HoldEntry :=
  { offset := r.address.toNat - s.sources[i].cfg.apertureBase * Config.pageBytes, beats := r.beats, data := r.data }

/-- The entry of a plain or canvas write; poison marks are lost (R14, R16). -/
def plainEntry (r : URequest) : PlainWrite :=
  { initiator := r.initiator, address := r.address.toNat, beats := r.beats, data := r.data.map WriteBeat.toMemory }

/-- The intake entry of a read (R17). -/
def intakeEntry (r : URequest) (c : ReqClass) : IntakeEntry :=
  { initiator := r.initiator, label := r.label, address := r.address.toNat, beats := r.beats, cls := c.readClass }

/-- The accepted request goes to its destination (R15, R16, R17); the shared lists remember who took an entry (R6). -/
def State.deposit (s : State) (i : Initiator) (r : URequest) (c : ReqClass) : Destination → State
  | .holdQueue j =>
    s.putSource j { s.sources[j] with holdQueue := s.sources[j].holdQueue ++ [s.holdEntry j r] }
  | .plainList =>
    s.withUport { s.uport with plainWrites := s.uport.plainWrites ++ [plainEntry r], plainLast := i }
  | .intake => s.withUport { s.uport with intake := s.uport.intake ++ [intakeEntry r c], intakeLast := i }
  | .dropped => s
  | .discarded => s

/-- The head `r` of a lane side is accepted with class `c`: it leaves the lane, goes to its destination `d`, a refusal sends its
event, and a write is answered (R4, R14, R18). -/
def State.takeHead (s : State) (i : Initiator) (k : Kind) (r : URequest) (rest : List URequest) (c : ReqClass)
    (d : Destination) : State :=
  let s1 := ((s.withUport (s.uport.putSide i k rest)).deposit i r c d).recordRefusal r c
  match k with
  | .read => s1
  | .write => s1.respond (writeAnswer r c)

/-- The head of one side of a lane is offered: classified afresh, and accepted when its destination needs no room or has room
(R4). -/
def State.offerHead (s : State) (i : Initiator) (k : Kind) : State :=
  match s.uport.side i k with
  | [] => s
  | r :: rest =>
    if s.hasRoom i (s.destination k (s.classify r)) then
      s.takeHead i k r rest (s.classify r) (s.destination k (s.classify r))
    else s

/-- The write head of one lane is offered when the state that classification depends on has changed: it is accepted in that
event if it now needs no room; a head that needs room gets it in an event of its own (R4, R6, R15; log 5). -/
def State.reofferHead (s : State) (i : Initiator) : State :=
  match s.uport.lanes[i].writes with
  | [] => s
  | r :: rest =>
    if (s.destination .write (s.classify r)).needsNoRoom then
      s.takeHead i .write r rest (s.classify r) (s.destination .write (s.classify r))
    else s

/-- Every lane's write head is offered again: a source opens, closes or reaches OFF, or the canvas is enabled or disabled
(R4). -/
def State.reofferHeads (s : State) : State := allInitiators.foldl State.reofferHead s

end Sys2Proof.Machine
end

