-- ==== Sys2Proof/Machine/Sources.lean ====
section
/-! DEFINITION. The source table: configuration writes, OPEN, CLOSE and RELEASE, buffer roles and holds, sealing resolution and
poisoned-frame discard, fill wait, the closing drain, frame completion, and the strobe at a source (chapters 2 and 3). -/

namespace Sys2Proof.Machine

open Sys2Proof

/-! ### Configuration writes -/

/-- A management write of a configuration field while the source is open (R20). The credit cap cuts the credit (R143). -/
def Source.writeOpen (x : Source) (f v : Nat) : Source × Report :=
  match f with
  | 7 => if v ≤ 255 then ({ x with cfg := x.cfg.put 7 v }, .accepted) else (x, .invalid 7)
  | 8 =>
    if v ≤ 262143 ∧ ¬(0 < v ∧ x.cfg.creditCap < 16) then ({ x with cfg := x.cfg.put 8 v }, .accepted)
    else (x, .invalid 8)
  | 9 =>
    if v ≤ 65535 ∧ ¬(v < 16 ∧ (0 < x.cfg.quota ∨ 0 < x.quotaInEffect)) then
      ({ x with cfg := x.cfg.put 9 v, credit := min x.credit v }, .accepted)
    else (x, .invalid 9)
  | 10 => if v ≤ 1 then ({ x with cfg := x.cfg.put 10 v }, .accepted) else (x, .invalid 10)
  | _ => (x, .wrongState)

/-- A management write of a configuration field: while OFF a page number is checked against its range and any other value is
stored as written (R19); while open R20 applies. Of a page number outside the range while the source is open R19 and R20 each give a
refusal, and no rule says which is reported: the model looks at the source's state first and answers R20's (log 31, DESIGN CHOICE). -/
def Source.writeConfig (x : Source) (f v : Nat) : Source × Report :=
  if x.state = .off then
    if isPageField f && decide (Config.maxPage < v) then (x, .invalid f)
    else ({ x with cfg := x.cfg.put f v }, .accepted)
  else x.writeOpen f v

/-- A TABLE write of SOURCE_CONFIG. -/
def State.writeSourceConfig (s : State) (i : SourceId) (f v : Nat) : State × Report :=
  (s.putSource i (s.sources[i].writeConfig f v).1, (s.sources[i].writeConfig f v).2)

/-! ### Buffers -/

/-- A buffer carries no hold. -/
def Buffer.free (b : Buffer) : Bool := b.readHold == 0 && b.writeHold == 0

/-- The lowest-lettered SPENT buffer with no holds (R36, R38). -/
def Buffers.freeSpent (b : Buffers) : Option Letter := letters.find? fun l => (b.get l).role == .spent && (b.get l).free

/-- All six hold counts are 0 (R30). -/
def Buffers.noHolds (b : Buffers) : Bool := b.a.free && b.b.free && b.c.free

/-- A buffer's role changes. -/
def Buffers.setRole (b : Buffers) (l : Letter) (r : Role) : Buffers := b.put l { b.get l with role := r }

/-- A buffer takes the FILL role: its poison mark is cleared (R32). -/
def Buffers.makeFill (b : Buffers) (l : Letter) : Buffers := b.put l { b.get l with role := .fill, poison := false }

/-- Every buffer with role `r` becomes SPENT, keeping marks and holds. -/
def Buffers.supersede (b : Buffers) (r : Role) : Buffers :=
  { a := if b.a.role = r then { b.a with role := .spent } else b.a
    b := if b.b.role = r then { b.b with role := .spent } else b.b
    c := if b.c.role = r then { b.c with role := .spent } else b.c }

/-- All three buffers SPENT, keeping marks and holds (R28). -/
def Buffers.allSpent (b : Buffers) : Buffers :=
  { a := { b.a with role := .spent }, b := { b.b with role := .spent }, c := { b.c with role := .spent } }

/-- Fill wait ends when the flag is set and a buffer is SPENT with no holds: the lowest-lettered such buffer becomes FILL
(R38). -/
def Source.endFillWait (x : Source) : Source :=
  if x.fillWait then
    match x.bufs.freeSpent with
    | some l => { x with bufs := x.bufs.makeFill l, fillWait := false }
    | none => x
  else x

/-- A new FILL buffer is chosen, or fill wait is set (R36 steps 4 and 5). -/
def Source.chooseFill (x : Source) : Source :=
  match x.bufs.freeSpent with
  | some l => { x with bufs := x.bufs.makeFill l }
  | none => { x with fillWait := true }

/-- An admitted write completes the frame in FILL buffer `l` (R36). -/
def Source.completeFrame (x : Source) (l : Letter) : Source :=
  Source.chooseFill { x with bufs := ((x.bufs.supersede .sealing).supersede .ready).setRole l .sealing }

/-- The offset of the beat that holds the last pixel of the image (R35). -/
def SourceConfig.lastBeat (c : SourceConfig) : Nat := (c.height - 1) * c.pitch + c.width * 4 - 32

/-- The write covers that beat (R35). -/
def SourceConfig.completes (c : SourceConfig) (offset beats : Nat) : Bool :=
  decide (offset ≤ c.lastBeat) && decide (c.lastBeat ≤ offset + (beats - 1) * 32)

/-! ### Resolution, discards, releases and the drain -/

/-- A frame health event of a discard (Table 3-2). -/
def discardEvent (cls : ErrClass) (i : SourceId) (base : Nat) : ErrEvent :=
  { cls := cls, initiator := some (i.castLE (by decide)), address := some base, source := some i, window := none }

/-- The containment test of a poisoned-frame discard (R50). -/
def State.containTest (s : State) (i : SourceId) (l : Letter) : State :=
  if s.sources[i].cfg.containment = 1 ∧ (s.sources[i].state = .await ∨ s.sources[i].state = .live) then
    (s.putSource i { s.sources[i] with state := .contained }).record
      (discardEvent .contain i (s.sources[i].cfg.bufferBase l))
  else s

/-- Resolution of SEALING buffer `l`: a poisoned frame is discarded, a contained source's clean frame is discarded without an
event, any other becomes READY (R37, R49, R50). -/
def State.resolveSealing (s : State) (i : SourceId) (l : Letter) : State :=
  if (s.sources[i].bufs.get l).poison then
    ((s.putSource i { s.sources[i] with bufs := s.sources[i].bufs.setRole l .spent }).record
      (discardEvent .poisonDiscard i (s.sources[i].cfg.bufferBase l))).containTest i l
  else if s.sources[i].state = .contained then
    s.putSource i { s.sources[i] with bufs := s.sources[i].bufs.setRole l .spent }
  else s.putSource i { s.sources[i] with bufs := s.sources[i].bufs.setRole l .ready }

/-- The CLOSING drain: with all six holds 0 the source becomes OFF, its regions leave the decoder and lane heads are offered
again (R30). -/
def State.endDrain (s : State) (i : SourceId) : State :=
  if s.sources[i].state = .closing ∧ s.sources[i].bufs.noHolds then
    (s.putSource i { s.sources[i] with state := .off }).reofferHeads
  else s

/-- What follows the release of a hold: fill wait may end (R38) and a drain may end (R30). -/
def State.afterRelease (s : State) (i : SourceId) : State :=
  (s.putSource i s.sources[i].endFillWait).endDrain i

/-- A read hold is taken (R39). -/
def State.takeReadHold (s : State) (i : SourceId) (l : Letter) : State :=
  s.putSource i
    { s.sources[i] with
      bufs := s.sources[i].bufs.put l { s.sources[i].bufs.get l with readHold := (s.sources[i].bufs.get l).readHold + 1 } }

/-- A read hold is released (R39). -/
def State.releaseReadHold (s : State) (i : SourceId) (l : Letter) : State :=
  (s.putSource i
    { s.sources[i] with
      bufs :=
        s.sources[i].bufs.put l
          { s.sources[i].bufs.get l with readHold := (s.sources[i].bufs.get l).readHold - 1 } }).afterRelease i

/-- The poison mark of a buffer is set, whatever its role (R32, R132). -/
def State.poisonBuffer (s : State) (i : SourceId) (l : Letter) : State :=
  s.putSource i { s.sources[i] with bufs := s.sources[i].bufs.put l { s.sources[i].bufs.get l with poison := true } }

/-- The write-hold count of a buffer goes down by 1 (R40). -/
def State.dropWriteHold (s : State) (i : SourceId) (l : Letter) : State :=
  s.putSource i
    { s.sources[i] with
      bufs :=
        s.sources[i].bufs.put l
          { s.sources[i].bufs.get l with writeHold := (s.sources[i].bufs.get l).writeHold - 1 } }

/-- A SEALING buffer whose write-hold count has fallen to 0 is resolved (R37). -/
def State.resolveIfSealed (s : State) (i : SourceId) (l : Letter) : State :=
  if (s.sources[i].bufs.get l).role = .sealing ∧ (s.sources[i].bufs.get l).writeHold = 0 then s.resolveSealing i l else s

/-- A write hold is released (R37, R38, R30), and the groups see a containment (R152). -/
def State.releaseWriteHold (s : State) (i : SourceId) (l : Letter) : State :=
  (((s.dropWriteHold i l).resolveIfSealed i l).afterRelease i).evaluateGroups

/-! ### OPEN, CLOSE and RELEASE -/

/-- A region runs past the end of the address space (R24). -/
def pastEnd (page length : Nat) : Bool := decide (Config.addressSpace < page * Config.pageBytes + length)

/-- A base field is valid at OPEN (R24). -/
def SourceConfig.baseValid (c : SourceConfig) (page : Nat) : Bool :=
  decide (page ≤ Config.maxPage) && !pastEnd page c.regionLength

/-- A configuration field is valid at OPEN (Table 2-1). -/
def SourceConfig.fieldValid (c : SourceConfig) : Nat → Bool
  | 0 => c.baseValid c.apertureBase
  | 1 => decide (64 ≤ c.width) && decide (c.width ≤ 8192) && c.width % 8 == 0
  | 2 => decide (1 ≤ c.height) && decide (c.height ≤ 8192)
  | 3 => c.pitch % 32 == 0 && decide (c.width * 4 ≤ c.pitch) && decide (c.pitch ≤ 65536)
  | 4 => c.baseValid c.baseA
  | 5 => c.baseValid c.baseB
  | 6 => c.baseValid c.baseC
  | 7 => decide (c.staleDeadline ≤ 255)
  | 8 => decide (c.quota ≤ 262143)
  | 9 => decide (c.creditCap ≤ 65535) && (c.quota == 0 || decide (16 ≤ c.creditCap))
  | 10 => decide (c.containment ≤ 1)
  | _ => true

/-- The first field that is not valid at OPEN, in the order of Table 2-1 (R24). -/
def SourceConfig.firstInvalid (c : SourceConfig) : Option Nat := (List.range 11).find? fun f => !c.fieldValid f

/-- The SOURCE_CONFIG field number of a region (R175). -/
def RegionId.fieldNum : RegionId → Nat
  | .aperture _ => 0
  | .buffer _ .a => 4
  | .buffer _ .b => 5
  | .buffer _ .c => 6
  | .canvas => 4

/-- Two regions share a byte. -/
def Region.overlaps (g h : Region) : Bool := g.meets h.base h.length

/-- A region of source `i` meets another region: another of its own, or one that exists in the decoder (R25). -/
def State.meetsAnother (s : State) (i : SourceId) (g : Region) : Bool :=
  ((s.sources[i].cfg.regions i).any fun h => h.id != g.id && g.overlaps h) || s.regions.any g.overlaps

/-- The first region of `i`, in the order aperture, A, B, C, that meets another region (R25). -/
def State.firstOverlap (s : State) (i : SourceId) : Option Region := (s.sources[i].cfg.regions i).find? (s.meetsAnother i)

/-- A CANVAS or PLAIN write accepted and not yet answered by memory: its address and beats (R26). -/
def State.pendingPlain (s : State) : List (Nat × Nat) :=
  s.uport.plainWrites.map (fun w => (w.address, w.beats)) ++
    s.dport.trackers.toList.filterMap fun t =>
      match t.use with
      | some u =>
        (match u.origin with
         | .plain _ => some (u.address, u.beats)
         | .aperture _ _ => none)
      | none => none

/-- Such a write has a byte inside one of the three buffer regions of `i` (R26). -/
def State.writePendingIn (s : State) (i : SourceId) : Bool :=
  s.pendingPlain.any fun w => ((s.sources[i].cfg.regions i).drop 1).any fun g => g.meets w.1 (w.2 * 32)

/-- A source record as OPEN leaves it (R27). -/
def Source.opened (x : Source) : Source :=
  { x with
    state := .await
    bufs := ⟨⟨.fill, false, 0, 0⟩, ⟨.spent, false, 0, 0⟩, ⟨.spent, false, 0, 0⟩⟩
    fillWait := false
    framesSinceFlip := 0
    stale := false
    credit := 0
    presented := 0
    quotaInEffect := x.cfg.quota }

/-- OPEN of an OFF source: the validity, overlap and pending-write checks, then acceptance (R23 to R27). -/
def State.openChecked (s : State) (i : SourceId) : State × Report :=
  match s.sources[i].cfg.firstInvalid with
  | some f => (s, .invalid f)
  | none =>
    match s.firstOverlap i with
    | some g => (s, .overlap g.id.fieldNum)
    | none =>
      if s.writePendingIn i then (s, .busy)
      else ((s.putSource i s.sources[i].opened).reofferHeads, .accepted)

/-- OPEN s (R23). -/
def State.openSource (s : State) (i : SourceId) : State × Report :=
  match s.sources[i].state with
  | .off => s.openChecked i
  | .closing => (s, .busy)
  | .await => (s, .wrongState)
  | .live => (s, .wrongState)
  | .contained => (s, .wrongState)

/-- A source record as CLOSE leaves it, before the drain is tested (R28). -/
def Source.closed (x : Source) : Source :=
  { x with
    state := .closing
    bufs := x.bufs.allSpent
    holdQueue := []
    credit := 0
    fillWait := false
    stale := false }

/-- CLOSE s accepted: the source becomes CLOSING, heads are offered against it (R4), it reaches OFF if it has no holds (R30),
and the groups see a containment end (R152). -/
def State.closeTaken (s : State) (i : SourceId) : State :=
  (((s.putSource i s.sources[i].closed).reofferHeads).endDrain i).evaluateGroups

/-- CLOSE s (R28). -/
def State.closeSource (s : State) (i : SourceId) : State × Report :=
  match s.sources[i].state with
  | .off => (s, .wrongState)
  | .closing => (s, .busy)
  | .await => (s.closeTaken i, .accepted)
  | .live => (s.closeTaken i, .accepted)
  | .contained => (s.closeTaken i, .accepted)

/-- The state RELEASE gives a contained source (R54). -/
def Source.released (x : Source) : Source :=
  { x with state := if (x.bufs.withRole .front).isSome then .live else .await }

/-- RELEASE s: taken in every state; it changes a CONTAINED source only (R54). -/
def State.releaseSource (s : State) (i : SourceId) : State × Report :=
  if s.sources[i].state = .contained then ((s.putSource i s.sources[i].released).evaluateGroups, .accepted)
  else (s, .accepted)

/-! ### The strobe at a source -/

/-- The source flips: FRONT becomes SPENT, READY becomes FRONT (R41). -/
def Source.flip (x : Source) (ready : Letter) : Source :=
  Source.endFillWait
    { x with
      bufs := (x.bufs.supersede .front).setRole ready .front
      framesSinceFlip := 0
      stale := false
      presented := x.presented + 1
      state := .live }

/-- A strobe at which the source does not flip trips its stale deadline: the increment changed the count and the count now
equals a deadline above 0 (R44). -/
def Source.trips (x : Source) : Bool :=
  decide (x.framesSinceFlip < 255) && x.cfg.staleDeadline != 0 && x.framesSinceFlip + 1 == x.cfg.staleDeadline

/-- A strobe at which the source does not flip: it counts the strobe and may trip (R43, R44). -/
def Source.age (x : Source) : Source :=
  { x with
    framesSinceFlip := min 255 (x.framesSinceFlip + 1)
    stale := x.stale || x.trips
    trip := x.trip || x.trips }

/-- The buffer that flips at a strobe: the READY buffer of a source in AWAIT or LIVE (R41). -/
def Source.flips (x : Source) : Option Letter :=
  match x.state with
  | .await => x.bufs.withRole .ready
  | .live => x.bufs.withRole .ready
  | .contained => none
  | .off => none
  | .closing => none

/-- The stale trip event (Table 3-2). -/
def staleEvent (i : SourceId) : ErrEvent :=
  { cls := .staleTrip, initiator := none, address := none, source := some i, window := none }

/-- The strobe at one source (R41, R43, R44). -/
def State.strobeSource (s : State) (i : SourceId) : State :=
  match s.sources[i].state with
  | .off => s
  | .closing => s
  | _ =>
    match s.sources[i].flips with
    | some l => s.putSource i (s.sources[i].flip l)
    | none =>
      let s1 := s.putSource i s.sources[i].age
      if s.sources[i].trips then s1.record (staleEvent i) else s1

/-- The strobe at the source table, source by source from `first` on (log 6). -/
def State.strobeSources (s : State) (first : SourceId) : State :=
  (first :: (after first).dropLast).foldl State.strobeSource s

end Sys2Proof.Machine
end

