-- ==== Sys2Proof/Machine/Layout.lean ====
section
/-! DEFINITION. The layout controller: the checks of a commit (R72 to R75), the compile (R78 to R80), the controller's states,
activation, ABORT, RESTAGE (chapter 5), and the canvas record with its enable and disable (chapter 4). -/

namespace Sys2Proof.Machine

open Sys2Proof

/-! ### Banks -/

def LayoutCtl.bank (l : LayoutCtl) : BankLetter → Bank
  | .a => l.bankA
  | .b => l.bankB

def LayoutCtl.putBank (l : LayoutCtl) (x : BankLetter) (b : Bank) : LayoutCtl :=
  match x with
  | .a => { l with bankA := b }
  | .b => { l with bankB := b }

def BankLetter.other : BankLetter → BankLetter
  | .a => .b
  | .b => .a

/-- The inactive bank's letter (R81). -/
def LayoutCtl.inactive (l : LayoutCtl) : BankLetter := l.active.other

/-- The active bank. -/
def LayoutCtl.activeBank (l : LayoutCtl) : Bank := l.bank l.active

/-- The inactive bank is marked empty (R76). -/
def LayoutCtl.emptyInactive (l : LayoutCtl) : LayoutCtl := l.putBank l.inactive Bank.empty

/-- The empty layout that a canvas enable gives a bank (R61, R76). -/
def Canvas.emptyLayout (c : Canvas) : Bank :=
  { Bank.empty with
    holdsLayout := true
    base := c.base
    width := c.width
    height := c.height
    pitch := c.pitch
    strips := [⟨0, c.height, 0, 1⟩]
    segments := [⟨0, none⟩] }

/-! ### The checks of a commit -/

/-- The first length positions of the stack list, top first (R67). -/
def Layout.stacked (l : Layout) : List WindowId := l.stack.toList.take l.stackLen

/-- The conditions of R73 on one window. -/
def Window.bad (w : Window) (c : Canvas) : Bool :=
  decide (c.width < w.x + w.width) || decide (c.height < w.y + w.height) || decide (w.width < 16) || w.height == 0 ||
    decide (w.width ≤ 2 * w.borderWidth) || decide (w.height ≤ 2 * w.borderWidth) ||
    w.hscale == 0 || decide (4 < w.hscale) || w.vscale == 0 || decide (4 < w.vscale) ||
    (w.content == .source && decide (15 < w.source))

/-- The first enabled window that fails, in increasing number (R73). -/
def Layout.firstBad (l : Layout) (c : Canvas) : Option WindowId :=
  allWindows.find? fun w => l.windows[w].enabled && l.windows[w].bad c

/-- The stack list names a window twice, a disabled window or a window with a group (R74). -/
def Layout.stackBad (l : Layout) : Bool :=
  !decide l.stacked.Nodup || l.stacked.any fun w => !l.windows[w].enabled || l.windows[w].group.isSome

/-- The enabled windows that carry a group, ordered by group and then by number: the override list (R78). -/
def Layout.overrideWindows (l : Layout) : List WindowId :=
  allGroups.flatMap fun g => allWindows.filter fun w => l.windows[w].enabled && l.windows[w].group == some g

/-- The first failure among the checks of section 4.6, with the window of a BAD_WINDOW (R72 to R75). -/
def LayoutCtl.checkFailure (l : LayoutCtl) : Option (FailCode × Option WindowId) :=
  if !l.canvas.enabled then some (.canvasOff, none)
  else
    match l.staged.firstBad l.canvas with
    | some w => some (.badWindow, some w)
    | none =>
      if l.staged.stackBad then some (.badStack, none)
      else if Config.overrideLimit < l.staged.overrideWindows.length then some (.overrideLimit, none)
      else none

/-! ### The compile -/

/-- A number put into an increasing list without repeats. -/
def insertEdge (n : Nat) : List Nat → List Nat
  | [] => [n]
  | m :: ms => if n < m then n :: m :: ms else if n = m then m :: ms else m :: insertEdge n ms

/-- The distinct values of a list, in increasing order. -/
def edges (ns : List Nat) : List Nat := ns.foldr insertEdge []

/-- Each pair of neighbours of a list. -/
def neighbours (ns : List Nat) : List (Nat × Nat) := ns.zip ns.tail

/-- The strip boundaries: 0, the canvas height, and the top and bottom of every stacked window (R79). -/
def Layout.rowEdges (l : Layout) (height : Nat) : List Nat :=
  edges (0 :: height :: l.stacked.flatMap fun w => [l.windows[w].y, l.windows[w].y + l.windows[w].height])

/-- The columns at which an owner can change: 0, the canvas width, and the left and right of every stacked window. -/
def Layout.columnEdges (l : Layout) (width : Nat) : List Nat :=
  edges (0 :: width :: l.stacked.flatMap fun w => [l.windows[w].x, l.windows[w].x + l.windows[w].width])

/-- The window covers column `x` of every row of [a, b) (R79). -/
def Window.coversStrip (w : Window) (a b x : Nat) : Bool :=
  decide (w.y ≤ a) && decide (b ≤ w.y + w.height) && decide (w.x ≤ x) && decide (x < w.x + w.width)

/-- The owner of column `x` in the candidate strip [a, b): the first stacked window that covers it, or BACKGROUND (R79). -/
def Layout.stripOwner (l : Layout) (a b x : Nat) : Option WindowId :=
  l.stacked.find? fun w => l.windows[w].coversStrip a b x

/-- Runs with the same owner become one segment, which keeps the first start (R79). -/
def mergeSegments : List Segment → List Segment
  | [] => []
  | s :: ss =>
    match mergeSegments ss with
    | [] => [s]
    | t :: ts => if s.owner = t.owner then s :: ts else s :: t :: ts

/-- The segments of the candidate strip [a, b): the maximal runs of columns with one owner (R79). -/
def Layout.stripSegments (l : Layout) (width a b : Nat) : List Segment :=
  mergeSegments ((neighbours (l.columnEdges width)).map fun p => { start := p.1, owner := l.stripOwner a b p.1 })

/-- A candidate strip: its rows and its segments. -/
structure Candidate where
  top      : Nat
  bottom   : Nat
  segments : List Segment
  deriving DecidableEq, Repr

/-- Neighbouring candidates with identical segment lists become one strip (R80). -/
def mergeCandidates : List Candidate → List Candidate
  | [] => []
  | c :: cs =>
    match mergeCandidates cs with
    | [] => [c]
    | d :: ds => if c.segments = d.segments then { c with bottom := d.bottom } :: ds else c :: d :: ds

/-- The strips of a layout after merging, with their segments (R79, R80). -/
def Layout.candidates (l : Layout) (width height : Nat) : List Candidate :=
  mergeCandidates
    ((neighbours (l.rowEdges height)).map fun p =>
      { top := p.1, bottom := p.2, segments := l.stripSegments width p.1 p.2 })

/-- Strip records, the first of which begins at pool entry `first` (R77). -/
def placeStrips (first : Nat) : List Candidate → List Strip
  | [] => []
  | c :: cs => ⟨c.top, c.bottom, first, c.segments.length⟩ :: placeStrips (first + c.segments.length) cs

/-- The segment pool of a compiled layout (R80). -/
def Layout.pool (l : Layout) (width height : Nat) : List Segment := (l.candidates width height).flatMap (·.segments)

/-- The bank a compile builds from the staged layout and the canvas record (R85). -/
def Layout.compile (l : Layout) (c : Canvas) : Bank :=
  { holdsLayout := true
    base := c.base
    width := c.width
    height := c.height
    pitch := c.pitch
    layout := l
    overrideList := l.overrideWindows
    strips := placeStrips 0 (l.candidates c.width c.height)
    segments := l.pool c.width c.height }

/-! ### The controller -/

/-- The COMMIT_FAIL event: the window of a BAD_WINDOW and nothing else (R86). -/
def commitFailEvent (w : Option WindowId) : ErrEvent :=
  { cls := .commitFail, initiator := none, address := none, source := none, window := w }

/-- A commit ends with outcome FAILED (R86); `leave` leaves the inactive bank as it was (R62, R76: ended in DRAIN). -/
def State.failCommit (s : State) (code : FailCode) (w : Option WindowId) (leave : Bool) : State :=
  let l := if leave then s.layout else s.layout.emptyInactive
  ((s.withLayout
    { l with ctl := .idle, result := { outcome := .failed, code := some code, window := w, segments := none } }).record
      (commitFailEvent w)).setCommitEnd

/-- The controller enters COMPILE and makes the four checks in that event (R85, R86). -/
def State.enterCompile (s : State) : State :=
  match s.layout.checkFailure with
  | some (code, w) => s.failCommit code w false
  | none => s.withLayout { s.layout with ctl := .compile }

/-- DRAIN ends when the walker's hold does not name the inactive bank (R84). -/
def State.endDrainWait (s : State) : State :=
  if s.layout.ctl = .drain ∧ s.layout.hold ≠ some s.layout.inactive then s.enterCompile else s

/-- COMMIT (R83). -/
def State.commitCommand (s : State) : State × Report :=
  if s.layout.ctl = .idle then
    ((s.withLayout { s.layout with ctl := .drain, result := CommitResult.none }).endDrainWait, .accepted)
  else (s, .busy)

/-- The compile completion event (R85, R86): in COMPILE only. -/
def State.compileCompletes (s : State) : State :=
  if s.layout.ctl = .compile then
    if Config.segmentPool < (s.layout.staged.compile s.layout.canvas).segments.length then
      s.failCommit .segmentOverflow none false
    else
      s.withLayout
        { s.layout.putBank s.layout.inactive (s.layout.staged.compile s.layout.canvas) with ctl := .armed }
  else s

/-- The strobe at the layout controller: activation in ARMED (R87). -/
def State.strobeLayout (s : State) : State :=
  if s.layout.ctl = .armed then
    (s.withLayout
      { s.layout with
        active := s.layout.inactive
        ctl := .idle
        result :=
          { outcome := .done, code := none, window := none
            segments := some (s.layout.bank s.layout.inactive).segments.length } }).setCommitEnd
  else s

/-- ABORT (R88). -/
def State.abortCommand (s : State) : State × Report :=
  if s.layout.ctl = .idle then (s, .accepted)
  else
    let l := if s.layout.ctl = .drain then s.layout else s.layout.emptyInactive
    ((s.withLayout { l with ctl := .idle, result := { CommitResult.none with outcome := .aborted } }).setCommitEnd,
      .accepted)

/-- RESTAGE (R91). -/
def State.restageCommand (s : State) : State × Report :=
  if s.layout.ctl = .idle then
    (s.withLayout { s.layout with staged := s.layout.activeBank.layout }, .accepted)
  else (s, .busy)

/-! ### Staged writes -/

/-- A TABLE write of WINDOW_STAGED (R64, R70). -/
def State.writeWindow (s : State) (w : WindowId) (f v : Nat) : State × Report :=
  if s.layout.ctl = .idle then
    match s.layout.staged.windows[w].put f v with
    | none => (s, .invalid f)
    | some x =>
      (s.withLayout
        { s.layout with staged := { s.layout.staged with windows := putAt s.layout.staged.windows w x } }, .accepted)
  else (s, .busy)

/-- A TABLE write of STACK_STAGED (R67, R69, R70). R67 names the field of a refused length or position; R69 names none for a refused
background mode, and the model names its field, 33 (log 13, DEDUCED). -/
def State.writeStack (s : State) (f v : Nat) : State × Report :=
  if s.layout.ctl = .idle then
    match s.layout.staged.putStackField f v with
    | none => (s, .invalid f)
    | some l => (s.withLayout { s.layout with staged := l }, .accepted)
  else (s, .busy)

/-! ### The canvas record -/

/-- The register index of a canvas field (Table 11-1). -/
def canvasIndex : CanvasField → Nat
  | .base => 4
  | .width => 5
  | .height => 6
  | .pitch => 7

def Canvas.get (c : Canvas) : CanvasField → Nat
  | .base => c.base
  | .width => c.width
  | .height => c.height
  | .pitch => c.pitch

def Canvas.put (c : Canvas) (f : CanvasField) (v : Nat) : Canvas :=
  match f with
  | .base => { c with base := v }
  | .width => { c with width := v }
  | .height => { c with height := v }
  | .pitch => { c with pitch := v }

/-- A write of a geometry field: refused while the canvas is enabled, stored while it is disabled; the base is checked against
the page range (R58, R59). Of a base outside the page range while the canvas is enabled R58 and R59 each give a refusal, and no rule
says which comes first: the model looks at the enable first (log 30, DESIGN CHOICE). -/
def State.writeGeometry (s : State) (f : CanvasField) (v : Nat) : State × Report :=
  if s.layout.canvas.enabled then (s, .wrongState)
  else if f = .base ∧ Config.maxPage < v then (s, .invalid (canvasIndex f))
  else (s.withLayout { s.layout with canvas := s.layout.canvas.put f v }, .accepted)

/-- A geometry field is valid at enable (Table 4-1, R60). -/
def Canvas.fieldValid (c : Canvas) : CanvasField → Bool
  | .base => decide (c.base ≤ Config.maxPage) && !pastEnd c.base (c.pitch * c.height)
  | .width => decide (64 ≤ c.width) && decide (c.width ≤ 32768) && c.width % 8 == 0
  | .height => decide (1 ≤ c.height) && decide (c.height ≤ 16384)
  | .pitch => c.pitch % 32 == 0 && decide (c.width * 4 ≤ c.pitch) && decide (c.pitch ≤ 262144)

/-- The first geometry field that is not valid at enable (R60). -/
def Canvas.firstInvalid (c : Canvas) : Option CanvasField :=
  [CanvasField.base, .width, .height, .pitch].find? fun f => !c.fieldValid f

/-- A read of class CANVAS accepted by the U-port has not yet ended its walk (R60). -/
def State.canvasWalkDue (s : State) : Bool :=
  (s.uport.intake.any fun e => e.cls == .canvas) ||
    s.translator.contexts.any fun c => c.cls == .canvas && (c.state == .waiting || c.state == .walking)

/-- The canvas region meets a region of a source that is not OFF (R60). -/
def State.canvasOverlaps (s : State) : Bool :=
  (allSources.flatMap s.sourceRegions).any fun g => g.overlaps s.layout.canvas.region

/-- An enable request that passes its checks (R61). -/
def State.canvasEnabled (s : State) : State :=
  (s.withLayout
    { s.layout with
      canvas := { s.layout.canvas with enabled := true }
      bankA := s.layout.canvas.emptyLayout
      bankB := s.layout.canvas.emptyLayout }).reofferHeads

/-- An enable request: busy, validity and overlap checks in this order (R60). -/
def State.enableRequest (s : State) : State × Report :=
  if s.layout.ctl = .drain ∨ s.canvasWalkDue then (s, .busy)
  else
    match s.layout.canvas.firstInvalid with
    | some f => (s, .invalid (canvasIndex f))
    | none => if s.canvasOverlaps then (s, .overlap (canvasIndex .base)) else (s.canvasEnabled, .accepted)

/-- A disable request: the region leaves the decoder and a commit in progress ends with CANVAS_CHANGED (R62), before the write heads are
offered again (log 19, DESIGN CHOICE). -/
def State.disableRequest (s : State) : State :=
  let s1 := s.withLayout { s.layout with canvas := { s.layout.canvas with enabled := false } }
  let s2 := if s.layout.ctl = .idle then s1 else s1.failCommit .canvasChanged none (s.layout.ctl == .drain)
  s2.reofferHeads

/-- A write of the enable field (R58, R60). -/
def State.writeEnable (s : State) (v : Nat) : State × Report :=
  if v = 1 then (if s.layout.canvas.enabled then (s, .accepted) else s.enableRequest)
  else if v = 0 then (if s.layout.canvas.enabled then (s.disableRequest, .accepted) else (s, .accepted))
  else (s, .invalid 8)

end Sys2Proof.Machine
end

