-- ==== Sys2Proof/Machine/Translator.lean ====
section
/-! DEFINITION. The read translator: what a pixel shows (R105 to R112), runs and pieces (R113 to R115), the walker (R101 to R104),
placement and answers (R96, R98), reassembly (R117), and the consequences that the rules lay in the same event. -/

namespace Sys2Proof.Machine

open Sys2Proof

/-! ### Who owns a pixel -/

/-- The window's rectangle covers (x, y). -/
def Window.covers (w : Window) (x y : Nat) : Bool :=
  decide (w.x ≤ x) && decide (x < w.x + w.width) && decide (w.y ≤ y) && decide (y < w.y + w.height)

/-- Owners of a pixel of a canvas row (R105 to R107); a window is owned through the override layer or through the bank's strips. -/
inductive Owner where
  | padding
  | background
  | window (w : WindowId) (viaOverride : Bool)
  deriving DecidableEq, Repr

/-- A window of the override list shown by its group (R106, R160). -/
def State.windowShown (s : State) (b : Bank) (w : WindowId) : Bool :=
  match b.layout.windows[w].group with
  | some g => s.groupShown g
  | none => false

/-- The first window of the override list that is shown and covers the pixel (R106). -/
def State.overrideOwner (s : State) (b : Bank) (x y : Nat) : Option WindowId :=
  b.overrideList.find? fun w => s.windowShown b w && b.layout.windows[w].covers x y

/-- The strip that holds row `y` (R107). -/
def Bank.stripAt (b : Bank) (y : Nat) : Option Strip := b.strips.find? fun t => decide (t.top ≤ y) && decide (y < t.bottom)

/-- The segments of a strip (R77). -/
def Bank.segmentsOf (b : Bank) (t : Strip) : List Segment := (b.segments.drop t.first).take t.count

/-- The owner by strips and segments: the segment with the greatest start at or below `x` (R107). -/
def Bank.stripOwnerAt (b : Bank) (x y : Nat) : Option WindowId :=
  match b.stripAt y with
  | none => none
  | some t => ((b.segmentsOf t).reverse.find? fun g => decide (g.start ≤ x)).bind (·.owner)

/-- The owner of the pixel at column `x` of row `y` (R105, R106, R107). -/
def State.ownerAt (s : State) (b : Bank) (x y : Nat) : Owner :=
  if b.width ≤ x then .padding
  else
    match s.overrideOwner b x y with
    | some w => .window w true
    | none =>
      match b.stripOwnerAt x y with
      | some w => .window w false
      | none => .background

/-! ### What a pixel shows -/

/-- What a pixel shows (Table 6-4): a colour, canvas memory, or a pixel of a source's buffer in the body of a window. -/
inductive Shows where
  | colour (c : Colour)
  | plain
  | image (window : WindowId) (source : SourceId) (buffer : Letter) (sx sy : Nat)
  deriving DecidableEq, Repr

/-- The source a window shows. Commit admits source numbers 0–15 for content SOURCE (R73). -/
def Window.sourceId (w : Window) : SourceId := Fin.ofNat 16 w.source

/-- The window's content is SOURCE and its source is CONTAINED (R108, R109). -/
def State.windowContained (s : State) (w : Window) : Bool :=
  w.content == .source && s.sources[w.sourceId].state == .contained

/-- The window's content is SOURCE and its source's stale condition is set (R108, R109). -/
def State.windowStale (s : State) (w : Window) : Bool := w.content == .source && s.sources[w.sourceId].stale

/-- The effective border width (R108). -/
def State.borderOf (s : State) (w : Window) (viaOverride : Bool) : Nat :=
  if w.borderWidth = 0 then (if viaOverride || s.windowContained w || s.windowStale w then 2 else 0) else w.borderWidth

/-- The pixel lies in the border band of width `e` (R108). -/
def Window.inBand (w : Window) (e x y : Nat) : Bool :=
  decide (x < w.x + e) || decide (w.x + w.width ≤ x + e) || decide (y < w.y + e) || decide (w.y + w.height ≤ y + e)

/-- The palette entry of a group's alarm colour: 4 + g (R109). -/
def alarmEntry (g : Option GroupId) : Fin 9 := Fin.ofNat 9 (4 + (g.getD 0).val)

/-- The colour of a pixel in a window's border band (R109). -/
def State.bandColour (s : State) (w : Window) (viaOverride : Bool) : Colour :=
  if viaOverride then s.translator.palette[alarmEntry w.group]
  else if s.windowContained w then s.translator.palette[(3 : Fin 9)]
  else if s.windowStale w then s.translator.palette[(2 : Fin 9)]
  else w.borderColour

/-- The buffer whose pixels a source's windows show: FRONT of a LIVE source, or of a CONTAINED one that has it (R110, R111). -/
def Source.shownBuffer (x : Source) : Option Letter :=
  match x.state with
  | .live => x.bufs.withRole .front
  | .contained => x.bufs.withRole .front
  | .off => none
  | .await => none
  | .closing => none

/-- The source column a canvas column maps to (R111). -/
def Window.sxOf (w : Window) (x : Nat) : Nat := w.cropX + (x - w.x) / w.hscale

/-- The source row a canvas row maps to (R111). -/
def Window.syOf (w : Window) (y : Nat) : Nat := w.cropY + (y - w.y) / w.vscale

/-- What a body pixel shows (R110, R111). -/
def State.bodyShows (s : State) (n : WindowId) (w : Window) (x y : Nat) : Shows :=
  match w.content with
  | .fill => .colour w.fillColour
  | .source =>
    match s.sources[w.sourceId].shownBuffer with
    | none => .colour s.translator.palette[(1 : Fin 9)]
    | some l =>
      if s.sources[w.sourceId].cfg.width ≤ w.sxOf x ∨ s.sources[w.sourceId].cfg.height ≤ w.syOf y then
        .colour w.fillColour
      else .image n w.sourceId l (w.sxOf x) (w.syOf y)

/-- What the pixel at column `x` of row `y` shows (Table 6-4). -/
def State.showsAt (s : State) (b : Bank) (y x : Nat) : Shows :=
  match s.ownerAt b x y with
  | .padding => .plain
  | .background =>
    match b.layout.background with
    | .pass => .plain
    | .fill => .colour s.translator.palette[(0 : Fin 9)]
  | .window n via =>
    if b.layout.windows[n].inBand (s.borderOf b.layout.windows[n] via) x y then
      .colour (s.bandColour b.layout.windows[n] via)
    else s.bodyShows n b.layout.windows[n] x y

/-! ### Runs and pieces -/

/-- A pixel `p` continues the run that begins with `h` (R113, R114). -/
def Shows.continues (h p : Shows) : Bool :=
  match h, p with
  | .colour c, .colour d => c == d
  | .plain, .plain => true
  | .image w i l sx sy, .image w' i' l' sx' sy' =>
    w == w' && i == i' && l == l' && sy == sy' && decide (sx' / 8 ≤ sx / 8 + Config.maxBeatSpan)
  | _, _ => false

/-- The longest run that forms one piece, from the first pixel of a list (R102). -/
def runOf : List Shows → List Shows
  | [] => []
  | h :: ps => h :: ps.takeWhile h.continues

/-- The source column of the last IMAGE pixel of a run. -/
def lastSxOf (first : Nat) (run : List Shows) : Nat :=
  match run.getLast? with
  | some (.image _ _ _ sx _) => sx
  | _ => first

/-- The request pixels of the context from position `j` on, as they show now (R102, R105). -/
def State.showsFrom (s : State) (c : Context) (p : WalkPlace) (j : Nat) : List Shows :=
  (List.range (c.beats * 8 - j)).map fun k => s.showsAt (s.layout.bank p.bank) p.row (p.firstX + j + k)

/-- The kind of the piece that a run at row column `x` forms, with its sub-read (R113, R114, R115). -/
def State.pieceKind (s : State) (p : WalkPlace) (x : Nat) (run : List Shows) : PieceKind :=
  match run with
  | .colour c :: _ => .colour c
  | .image w i l sx sy :: _ =>
    .image
      { source := i
        buffer := l
        sy := sy
        firstSx := sx
        lastSx := lastSxOf sx run
        hscale := (s.layout.bank p.bank).layout.windows[w].hscale
        phase := (x - (s.layout.bank p.bank).layout.windows[w].x) % (s.layout.bank p.bank).layout.windows[w].hscale
        address := s.sources[i].cfg.bufferBase l + sy * s.sources[i].cfg.pitch + sx / 8 * 32
        beats := lastSxOf sx run / 8 - sx / 8 + 1 }
  | _ =>
    .plain
      ((s.layout.bank p.bank).base * Config.pageBytes + p.row * (s.layout.bank p.bank).pitch + x / 8 * 32)
      ((x + run.length - 1) / 8 - x / 8 + 1)

/-- The state a piece takes when it is generated: a COLOR piece is DONE, any other QUEUED (R100). -/
def PieceKind.firstState : PieceKind → PieceState
  | .colour _ => .done
  | .image _ => .queued
  | .plain _ _ => .queued

/-- The piece a context is due at request position `j` (R102, R113 to R115). -/
def State.pieceDue (s : State) (c : Context) (j : Nat) : PieceUse :=
  match c.place with
  | none =>
    { context := c.num, first := 0, count := c.beats * 8, kind := .plain c.address c.beats, state := .queued, data := none,
      errorFill := none }
  | some p =>
    let run := runOf (s.showsFrom c p j)
    { context := c.num, first := j, count := run.length, kind := s.pieceKind p (p.firstX + j) run,
      state := (s.pieceKind p (p.firstX + j) run).firstState, data := none, errorFill := none }

/-! ### Contexts and piece records -/

/-- The context with a number, if it holds a read. -/
def Translator.context (t : Translator) (n : ContextId) : Option Context := t.contexts.find? fun c => c.num == n

/-- A context changed. -/
def Translator.mapContext (t : Translator) (n : ContextId) (f : Context → Context) : Translator :=
  { t with contexts := t.contexts.map fun c => if c.num = n then f c else c }

def State.mapContext (s : State) (n : ContextId) (f : Context → Context) : State :=
  s.withTranslator (s.translator.mapContext n f)

/-- The use of a piece record changed; its generation bit stays (R99). -/
def State.putUse (s : State) (p : PieceId) (u : Option PieceUse) : State :=
  s.withTranslator
    { s.translator with
      pieces := putAt s.translator.pieces p { s.translator.pieces[p] with use := u } }

/-- The lowest-numbered free piece record (R99). -/
def Translator.freePiece (t : Translator) : Option PieceId :=
  (List.finRange 256).find? fun p => t.pieces[p].use.isNone

/-- The lowest-numbered free context (R96). -/
def Translator.freeContext (t : Translator) : Option ContextId :=
  (List.finRange 48).find? fun n => t.contexts.all fun c => c.num != n

/-- The pixels of a piece. -/
def Translator.pieceCount (t : Translator) (p : PieceId) : Nat :=
  match t.pieces[p].use with
  | some u => u.count
  | none => 0

/-- The first request pixel that no piece of the context yet covers (R102). -/
def Translator.nextPixel (t : Translator) (c : Context) : Nat := (c.pieces.map t.pieceCount).sum

/-- A piece record is DONE. -/
def Translator.pieceDone (t : Translator) (p : PieceId) : Bool :=
  match t.pieces[p].use with
  | some u => u.state == .done
  | none => true

/-- Every piece of a context is DONE (R97). -/
def Translator.allDone (t : Translator) (c : Context) : Bool := c.pieces.all t.pieceDone

/-! ### The walker -/

/-- The end of a walk (R104): the bank hold of a CANVAS context becomes NONE, which may end DRAIN (R84); the context becomes
COMPLETE or GATHERING (R97); the walker is idle. -/
def State.endWalk (s : State) (c : Context) : State :=
  let done := s.translator.allDone c
  let s1 :=
    s.withTranslator
      { s.translator.mapContext c.num fun x => { x with state := if done then .complete else .gathering } with
        walker := none, paused := false }
  match c.cls with
  | .canvas => (s1.withLayout { s1.layout with hold := none }).endDrainWait
  | .plain => s1
  | .refused => s1

/-- A generated piece takes its record, joins its context's list, and takes its read hold or joins the read lane (R99, R100,
R102). -/
def State.enterPiece (s : State) (c : Context) (p : PieceId) (u : PieceUse) : State :=
  let s1 := (s.putUse p (some u)).mapContext c.num fun x => { x with pieces := x.pieces ++ [p] }
  match u.kind with
  | .colour _ => s1
  | .plain _ _ => s1.withDport { s1.dport with readLane := s1.dport.readLane ++ [p] }
  | .image f => (s1.withDport { s1.dport with readLane := s1.dport.readLane ++ [p] }).takeReadHold f.source f.buffer

/-- A generation event of context `c` with free record `p`, and the walk's end if the piece covers the last pixel (R102,
R104). -/
def State.generateInto (s : State) (c : Context) (p : PieceId) : State :=
  let u := s.pieceDue c (s.translator.nextPixel c)
  let s1 := (s.enterPiece c p u).withTranslator { (s.enterPiece c p u).translator with paused := false }
  if c.beats * 8 ≤ u.first + u.count then s1.endWalk { c with pieces := c.pieces ++ [p] } else s1

/-- A generation event that is due: with no free record the walk pauses (R102, R103). -/
def State.generate (s : State) (c : Context) : State :=
  match s.translator.freePiece with
  | none => s.withTranslator { s.translator with paused := true }
  | some p => s.generateInto c p

/-- The context the walker walks. -/
def Translator.walking (t : Translator) : Option Context :=
  match t.walker with
  | none => none
  | some n => t.context n

/-- The earliest WAITING context (R101); a REFUSED context is not walked (R96). -/
def Translator.firstWaiting (t : Translator) : Option Context :=
  t.contexts.find? fun c => c.state == .waiting && c.cls != .refused

/-- What a CANVAS context records at its walk start (R101). -/
def State.placeOf (s : State) (c : Context) : WalkPlace :=
  { bank := s.layout.active
    row := (c.address - s.layout.activeBank.base * Config.pageBytes) / s.layout.activeBank.pitch
    firstX := (c.address - s.layout.activeBank.base * Config.pageBytes) % s.layout.activeBank.pitch / 4 }

/-- The start of a walk (R101): a CANVAS context takes the active bank and its hold; a PLAIN context's one generation event is the
walk start itself when a record is free. -/
def State.startWalk (s : State) (c : Context) : State :=
  match c.cls with
  | .canvas =>
    (s.withTranslator
      { s.translator.mapContext c.num fun x => { x with state := .walking, place := some (s.placeOf c) } with
        walker := some c.num, paused := false }).withLayout { s.layout with hold := some s.layout.active }
  | .plain =>
    (s.withTranslator
      { s.translator.mapContext c.num fun x => { x with state := .walking } with
        walker := some c.num, paused := false }).generate { c with state := .walking }
  | .refused => s

/-! ### Placement and answers -/

/-- The context a placed intake entry becomes (R96). -/
def placedContext (n : ContextId) (e : IntakeEntry) : Context :=
  { num := n, initiator := e.initiator, label := e.label, address := e.address, beats := e.beats, cls := e.cls,
    place := none, pieces := [], partialFlag := false, state := if e.cls = .refused then .complete else .waiting }

/-- Placement of the oldest intake entry into context `n` (R96). -/
def State.placeInto (s : State) (n : ContextId) (e : IntakeEntry) (rest : List IntakeEntry) : State :=
  (s.withUport { s.uport with intake := rest }).withTranslator
    { s.translator with contexts := s.translator.contexts ++ [placedContext n e] }

/-- Four bytes of returned data: data pixel `k` (R117). -/
def dataPixel (d : List Byte) (k : Nat) : List Byte := (d.drop (4 * k)).take 4

/-- The bytes of request pixel `first + k` of a piece of context `c` (R117). -/
def piecePixel (c : Context) (u : PieceUse) (k : Nat) : List Byte :=
  match u.errorFill with
  | some f => Colour.pixelBytes f
  | none =>
    match u.kind with
    | .colour f => Colour.pixelBytes f
    | .image f => dataPixel (u.data.getD []) (f.firstSx % 8 + (f.phase + k) / f.hscale)
    | .plain _ _ => dataPixel (u.data.getD []) (((c.place.map (·.firstX)).getD 0 + u.first) % 8 + k)

/-- The bytes of a piece (R117). -/
def pieceBytes (c : Context) (u : PieceUse) : List Byte := (List.range u.count).flatMap (piecePixel c u)

/-- The bytes of a piece record of context `c`. -/
def Translator.recordBytes (t : Translator) (c : Context) (p : PieceId) : List Byte :=
  match t.pieces[p].use with
  | some u => pieceBytes c u
  | none => []

/-- The assembled data of a read, piece by piece in pixel order (R117). -/
def Translator.assemble (t : Translator) (c : Context) : List Byte := c.pieces.flatMap (t.recordBytes c)

/-- The U-response of a COMPLETE context (R98). -/
def Translator.answerOf (t : Translator) (c : Context) : UResponse :=
  match c.cls with
  | .refused => { initiator := c.initiator, label := c.label, kind := .read, status := .refused, data := [] }
  | .canvas =>
    { initiator := c.initiator, label := c.label, kind := .read, status := if c.partialFlag then .partialData else .ok,
      data := t.assemble c }
  | .plain =>
    { initiator := c.initiator, label := c.label, kind := .read, status := if c.partialFlag then .partialData else .ok,
      data := t.assemble c }

/-- The answer of a context: the response leaves, the context and its piece records are freed (R98, R99). -/
def State.answerContext (s : State) (c : Context) : State :=
  let s1 := c.pieces.foldl (fun x p => x.putUse p none) (s.respond (s.translator.answerOf c))
  s1.withTranslator { s1.translator with contexts := s1.translator.contexts.filter fun x => x.num != c.num }

/-- The contexts that may be answered: COMPLETE, with no earlier unanswered read of the same initiator (R98). The list is in
acceptance order, and every read still in the intake list was accepted later. -/
def answerable : List Context → List Initiator → List Context
  | [], _ => []
  | c :: cs, seen =>
    if c.state = .complete ∧ c.initiator ∉ seen then c :: answerable cs (c.initiator :: seen)
    else answerable cs (c.initiator :: seen)

/-- The earliest context that may be answered. -/
def Translator.nextAnswer (t : Translator) : Option Context := (answerable t.contexts []).head?

/-! ### Consequences in the same event -/

/-- One consequence that the rules lay in the event that makes it possible (log 4): an answer (R98), a placement (R17, R96), the
resumption of a paused walk (R103), a walk start (R101). None is left when the answer is none. -/
def State.readConsequence (s : State) : Option State :=
  match s.translator.nextAnswer with
  | some c => some (s.answerContext c)
  | none =>
    match s.uport.intake, s.translator.freeContext with
    | e :: rest, some n => some (s.placeInto n e rest)
    | _, _ =>
      match s.translator.walking with
      | some c =>
        (match s.translator.paused, s.translator.freePiece with
         | true, some p => some (s.generateInto c p)
         | _, _ => none)
      | none =>
        match s.translator.firstWaiting with
        | some c => some (s.startWalk c)
        | none => none

/-- Consequences, at most `fuel` of them. -/
def State.readLoop : Nat → State → State
  | 0, s => s
  | n + 1, s =>
    match s.readConsequence with
    | some s' => State.readLoop n s'
    | none => s

/-- How many consequences one event can have: each read in the intake list or in a context is placed, walked, resumed and answered
at most once. -/
def State.readFuel (s : State) : Nat := 4 * (s.uport.intake.length + s.translator.contexts.length) + 1

/-- All consequences of an event on the read path. -/
def State.settleReads (s : State) : State := s.readLoop s.readFuel

end Sys2Proof.Machine
end

