-- ==== Sys2Proof/Machine/Dport.lean ====
section
/-! DEFINITION. The downstream port: grants (R123 to R126), response matching (R128), outcomes of reads and writes (R130 to R133). -/

namespace Sys2Proof.Machine

open Sys2Proof

/-! ### Grants -/

/-- A tracker changed. -/
def State.putTracker (s : State) (t : TrackerId) (x : Tracker) : State :=
  s.withDport { s.dport with trackers := putAt s.dport.trackers t x }

/-- The lowest-numbered FREE tracker (R126). -/
def DPort.freeTracker (d : DPort) : Option TrackerId := (List.finRange 64).find? fun t => d.trackers[t].use.isNone

/-- The write that stands at the head of a write lane: its origin, address, beats and data (R122). -/
structure LaneWrite where
  origin  : Origin
  address : Nat
  beats   : Nat
  data    : List DBeat
  deriving DecidableEq, Repr

/-- The head of write lane `l`: lanes 0–15 are the source write lanes, lane 16 the plain write list (R122). -/
def State.laneHead (s : State) (l : Fin 17) : Option LaneWrite :=
  if h : l.val < 16 then
    match s.dport.writeLanes[l.val]'h with
    | [] => none
    | w :: _ => some { origin := .aperture w.source w.buffer, address := w.address, beats := w.beats, data := w.data }
  else
    match s.uport.plainWrites with
    | [] => none
    | w :: _ => some { origin := .plain w.initiator, address := w.address, beats := w.beats, data := w.data }

/-- The head of write lane `l` leaves it (R122, R16). -/
def State.dropLaneHead (s : State) (l : Fin 17) : State :=
  if h : l.val < 16 then
    s.withDport { s.dport with writeLanes := putAt s.dport.writeLanes ⟨l.val, h⟩ (s.dport.writeLanes[l.val]'h).tail }
  else s.withUport { s.uport with plainWrites := s.uport.plainWrites.tail }

/-- The write lane the arbiter would grant: the first eligible after the last granted (R122, R124). -/
def State.writeChoice (s : State) : Option (Fin 17) :=
  if s.dport.freeTracker.isSome then (after s.dport.lastWriteLane).find? fun l => (s.laneHead l).isSome else none

/-- Grant of write lane head `w` of lane `l` to FREE tracker `t` (R126, R127); the read-run count becomes 0 (R123). -/
def State.grantWrite (s : State) (l : Fin 17) (w : LaneWrite) (t : TrackerId) : State :=
  let g := !s.dport.trackers[t].generation
  let s1 :=
    (s.dropLaneHead l).putTracker t
      { generation := g, use := some { origin := w.origin, address := w.address, beats := w.beats, timer := s.dport.deadline } }
  (s1.withDport { s1.dport with readRun := 0, lastWriteLane := l }).request (.write t g w.address w.beats w.data)

/-- The address and beats of a piece's sub-read (R115). -/
def PieceKind.subRead : PieceKind → Nat × Nat
  | .image f => (f.address, f.beats)
  | .plain a b => (a, b)
  | .colour _ => (0, 0)

/-- Grant of read lane head `p` (R125, R127), leaving the read-run count `run`. -/
def State.grantRead (s : State) (p : PieceId) (rest : List PieceId) (run : Nat) : State :=
  let s1 := s.withDport { s.dport with readLane := rest, readRun := run }
  match s.translator.pieces[p].use with
  | none => s1
  | some u =>
    let g := !s.translator.pieces[p].generation
    (s1.withTranslator
      { s1.translator with
        pieces :=
          putAt s1.translator.pieces p { generation := g, use := some { u with state := .issued s.dport.deadline } } }).request
      (.read p g u.kind.subRead.1 u.kind.subRead.2)

/-- A write lane is granted: the lane of R124 with the lowest FREE tracker. -/
def State.grantChosen (s : State) (l : Fin 17) : State :=
  match s.laneHead l, s.dport.freeTracker with
  | some w, some t => s.grantWrite l w t
  | _, _ => s

/-- One grant event of the arbiter, with the ready indication present (R123). -/
def State.arbitrate (s : State) : State :=
  match s.writeChoice, s.dport.readLane with
  | none, [] => s
  | none, p :: rest => s.grantRead p rest 0
  | some l, [] => s.grantChosen l
  | some l, p :: rest =>
    if s.dport.readRun < Config.maxReadRun then s.grantRead p rest (s.dport.readRun + 1) else s.grantChosen l

/-! ### Outcomes of a read -/

/-- A GATHERING context whose pieces are all DONE becomes COMPLETE (R97, R100). -/
def State.gatherContext (s : State) (n : ContextId) : State :=
  s.mapContext n fun c =>
    if c.state = .gathering ∧ s.translator.allDone c then { c with state := .complete } else c

/-- The read hold of a piece that has become DONE is released (R100). -/
def State.releasePiece (s : State) (u : PieceUse) : State :=
  match u.kind with
  | .image f => s.releaseReadHold f.source f.buffer
  | .plain _ _ => s
  | .colour _ => s

/-- An ISSUED piece takes its data and becomes DONE (R130). -/
def State.pieceData (s : State) (p : PieceId) (u : PieceUse) (d : List Byte) : State :=
  (((s.putUse p (some { u with state := .done, data := some d })).releasePiece u).gatherContext u.context).settleReads

/-- The initiator of a piece's context (R134). -/
def State.pieceInitiator (s : State) (u : PieceUse) : Option Initiator :=
  (s.translator.context u.context).map (·.initiator)

/-- The source a READ event carries: that of an IMAGE piece (R134). -/
def PieceUse.eventSource (u : PieceUse) : Option SourceId :=
  match u.kind with
  | .image f => some f.source
  | .plain _ _ => none
  | .colour _ => none

/-- The event of a failed sub-read (R134, Table 7-4). -/
def State.readEvent (s : State) (cls : ErrClass) (u : PieceUse) : ErrEvent :=
  { cls := cls, initiator := s.pieceInitiator u, address := some u.kind.subRead.1, source := u.eventSource, window := none }

/-- An ISSUED piece is error-filled with palette entry 8, made DONE, and its context's PARTIAL flag set; the event is sent (R118,
R130). -/
def State.pieceFails (s : State) (cls : ErrClass) (p : PieceId) (u : PieceUse) : State :=
  let s1 := s.record (s.readEvent cls u)
  let s2 := s1.putUse p (some { u with state := .done, errorFill := some s1.translator.palette[(8 : Fin 9)] })
  let s3 := s2.mapContext u.context fun c => { c with partialFlag := true }
  ((s3.releasePiece u).gatherContext u.context).settleReads

/-- The use of a piece record that is ISSUED, whatever its generation (R128). -/
def Translator.issuedUse (t : Translator) (p : PieceId) : Option PieceUse :=
  match t.pieces[p].use with
  | none => none
  | some u =>
    match u.state with
    | .issued _ => some u
    | .queued => none
    | .done => none

/-- The piece a READ response matches: ISSUED, with the tag's generation (R128). -/
def Translator.matchedPiece (t : Translator) (p : PieceId) (g : Bool) : Option PieceUse :=
  if t.pieces[p].generation = g then t.issuedUse p else none

/-- The event of an unmatched response (Table 7-4). -/
def lateEvent : ErrEvent := { cls := .lateResponse, initiator := none, address := none, source := none, window := none }

/-- An unmatched response is discarded (R133). -/
def State.lateResponse (s : State) : State := s.record lateEvent

/-! ### Outcomes of a write -/

/-- The tracker a WRITE response matches: BUSY, with the tag's generation (R128). -/
def DPort.matchedTracker (d : DPort) (t : TrackerId) (g : Bool) : Option TrackerUse :=
  if d.trackers[t].generation = g then d.trackers[t].use else none

/-- A tracker becomes FREE and keeps its generation bit (R126). -/
def State.freeTracker (s : State) (t : TrackerId) : State :=
  s.putTracker t { s.dport.trackers[t] with use := none }

/-- The write hold of a tracker's buffer is released (R131, R132). -/
def State.releaseOrigin (s : State) (o : Origin) : State :=
  match o with
  | .aperture i l => s.releaseWriteHold i l
  | .plain _ => s

/-- The buffer of a failed write is poisoned (R132). -/
def State.poisonOrigin (s : State) (o : Origin) : State :=
  match o with
  | .aperture i l => s.poisonBuffer i l
  | .plain _ => s

/-- A write is answered OK (R131). -/
def State.writeDone (s : State) (t : TrackerId) (u : TrackerUse) : State := (s.freeTracker t).releaseOrigin u.origin

/-- The event of a failed write (R134, Table 7-4). -/
def writeEvent (cls : ErrClass) (u : TrackerUse) : ErrEvent :=
  match u.origin with
  | .aperture i _ =>
    { cls := cls, initiator := some (i.castLE (by decide)), address := some u.address, source := some i, window := none }
  | .plain n => { cls := cls, initiator := some n, address := some u.address, source := none, window := none }

/-- A write fails, by an ERROR response or by its deadline: event, poison, tracker FREE, hold released, in this order (R132). -/
def State.writeFails (s : State) (cls : ErrClass) (t : TrackerId) (u : TrackerUse) : State :=
  (((s.record (writeEvent cls u)).poisonOrigin u.origin).freeTracker t).releaseOrigin u.origin

/-! ### Responses -/

/-- A downstream response (R128 to R133). -/
def State.takeResponse (s : State) : DResponse → State
  | .readOk p g d =>
    (match s.translator.matchedPiece p g with
     | none => s.lateResponse
     | some u => if d.length = 32 * u.kind.subRead.2 then s.pieceData p u d else s.pieceFails .readError p u)
  | .readError p g =>
    (match s.translator.matchedPiece p g with
     | none => s.lateResponse
     | some u => s.pieceFails .readError p u)
  | .writeOk t g =>
    (match s.dport.matchedTracker t g with
     | none => s.lateResponse
     | some u => s.writeDone t u)
  | .writeError t g =>
    (match s.dport.matchedTracker t g with
     | none => s.lateResponse
     | some u => s.writeFails .writeError t u)

end Sys2Proof.Machine
end

