-- ==== Sys2Proof/Machine/Governor.lean ====
section
/-! DEFINITION. Wall frame timing and the slot governor: allotments and credit (R140, R141), the strobe (R137), slots (R138), and
admission of aperture writes (R145, R146, R33). -/

namespace Sys2Proof.Machine

open Sys2Proof

/-- The allotment for slot `k` of a quota in effect `q` (R140). -/
def allotment (q k : Nat) : Nat :=
  q / Config.slots + ((k + 1) * (q % Config.slots) / Config.slots - k * (q % Config.slots) / Config.slots)

/-- A source in AWAIT, LIVE or CONTAINED. -/
def Source.running (x : Source) : Bool := x.state == .await || x.state == .live || x.state == .contained

/-- The allotment after the cut that keeps the frame allotment total within the quota in effect (R141). -/
def Source.cutAllotment (x : Source) (k : Nat) : Nat := min (allotment x.quotaInEffect k) (x.quotaInEffect - x.frameTotal)

/-- A source receives its allotment for slot `k` (R141). An allotment of 0 changes nothing. -/
def Source.receive (x : Source) (k : Nat) : Source :=
  if x.cutAllotment k = 0 then x
  else
    { x with
      frameTotal := x.frameTotal + x.cutAllotment k
      credit := min x.cfg.creditCap (x.credit + x.cutAllotment k)
      capSaturated := x.capSaturated || decide (x.cfg.creditCap < x.credit + x.cutAllotment k) }

/-- The allotment of slot `k` at one source: to a running source whose quota in effect is above 0 (R137, R138). -/
def Source.slot (x : Source) (k : Nat) : Source :=
  if x.running && decide (0 < x.quotaInEffect) then x.receive k else x

/-- The strobe's renewal at one source: frame total 0; a running source takes its quota, and loses its credit when that is 0; then
the allotment of slot 0 (R137). -/
def Source.renew (x : Source) : Source :=
  if x.running then
    Source.slot
      { x with frameTotal := 0, quotaInEffect := x.cfg.quota, credit := if x.cfg.quota = 0 then 0 else x.credit } 0
  else { x with frameTotal := 0 }

/-- Every source changed by `f`, in increasing number. -/
def State.mapSources (s : State) (f : Source → Source) : State :=
  allSources.foldl (fun t i => t.putSource i (f t.sources[i])) s

/-- The strobe at the governor (R137). -/
def State.strobeGovernor (s : State) : State :=
  (s.mapSources Source.renew).withGovernor
    { s.governor with
      frameCount := s.governor.frameCount + 1
      slotIndex := 0
      slotTimer := some s.governor.slotLength }

/-- The expiry of the slot timer, if it is running (R138). -/
def State.slotExpires (s : State) : State :=
  match s.governor.slotTimer with
  | none => s
  | some _ =>
    if s.governor.slotIndex < Config.lastSlot then
      (s.mapSources fun x => x.slot (s.governor.slotIndex + 1)).withGovernor
        { s.governor with slotIndex := s.governor.slotIndex + 1, slotTimer := some s.governor.slotLength }
    else s.withGovernor { s.governor with slotTimer := none }

/-- The strobe at every block, in the order the operand gives where the spec leaves it open (R136, R152, R156, R162; log 6): each
group counts its hold-off before or after it acts on the sources' stale trips, and, where the governor acts after the sources, acts on
them before or after it. The layout controller's action meets none of the others. -/
def State.strobe (s : State) (o : StrobeOrder) : State :=
  let s1 := (if o.countFirst then s.strobeGovernor else s).strobeThose (groupsIn o.groupsFirst)
  let s2 := (s1.strobeSources o.firstSource).evaluateThose (groupsIn (~~~o.groupsLate))
  let s3 := (if o.countFirst then s2 else s2.strobeGovernor).evaluateThose (groupsIn o.groupsLate)
  (s3.strobeThose (groupsIn (~~~o.groupsFirst))).strobeLayout

/-! ### Admission -/

/-- The admission conditions on the head of a source's hold queue (R145). -/
def State.admissible (s : State) (i : SourceId) (e : HoldEntry) : Bool :=
  !s.sources[i].fillWait && decide (s.dport.writeLanes[i].length < Config.writeLaneCapacity) &&
    (s.sources[i].quotaInEffect == 0 || decide (e.beats ≤ s.sources[i].credit))

/-- The buffer record after an admission into it: one more write hold, poisoned if a beat is (R32, R33). -/
def Buffer.takeWrite (b : Buffer) (e : HoldEntry) : Buffer :=
  { b with writeHold := b.writeHold + 1, poison := b.poison || e.data.any (·.poison) }

/-- The source record after the admission of head `e` into FILL buffer `l`: the entry leaves, the credit falls if the source is
governed, the hold is taken, poison is marked, and a completing write completes the frame (R33, R35, R36, R146). -/
def Source.takeWrite (x : Source) (e : HoldEntry) (rest : List HoldEntry) (l : Letter) : Source :=
  let y :=
    { x with
      holdQueue := rest
      credit := if 0 < x.quotaInEffect then x.credit - e.beats else x.credit
      bufs := x.bufs.put l ((x.bufs.get l).takeWrite e) }
  if x.cfg.completes e.offset e.beats then y.completeFrame l else y

/-- The translated write (R33). -/
def Source.translate (x : Source) (i : SourceId) (e : HoldEntry) (l : Letter) : SourceWrite :=
  { address := x.cfg.bufferBase l + e.offset, beats := e.beats, data := e.data.map WriteBeat.toMemory, source := i, buffer := l }

/-- The governor admits the head of a source's hold queue, if the conditions hold (R145, R146). -/
def State.admission (s : State) (i : SourceId) : State :=
  match s.sources[i].holdQueue, s.sources[i].bufs.withRole .fill with
  | e :: rest, some l =>
    if s.admissible i e then
      (s.putSource i (s.sources[i].takeWrite e rest l)).withDport
        { s.dport with writeLanes := putAt s.dport.writeLanes i (s.dport.writeLanes[i] ++ [s.sources[i].translate i e l]) }
    else s
  | _, _ => s

end Sys2Proof.Machine
end

