-- ==== Sys2Proof/Machine/Resets.lean ====
section
/-! DEFINITION. Resets (section 5.8, R177): what every block takes when a reset begins, and what happens when it ends; and the
start and the end of a boot load, which the end of a reset shares with the loader (R179, R181). -/

namespace Sys2Proof.Machine

open Sys2Proof

/-- Error capture when a reset begins: a power-on reset clears the statuses, the first-error pointer and the fault record; a pin or
soft reset keeps them; every reset sets detect enables, severities, flags and interrupt enables (R167). -/
def Capture.atReset (c : Capture) : ResetKind → Capture
  | .powerOn => Capture.reset
  | .pin =>
    { Capture.reset with
      status := c.status, pointerValid := c.pointerValid, pointerClass := c.pointerClass, fault := c.fault }
  | .soft =>
    { Capture.reset with
      status := c.status, pointerValid := c.pointerValid, pointerClass := c.pointerClass, fault := c.fault }

/-- The loader after every reset is taken (R179, R181). -/
def Loader.reset : Loader := { state := .idle, result := LoaderResult.none }

/-- A reset of kind `k` begins: every block takes its reset values in this event. The lanes stay with the link (R7). What only the
end of the reset samples keeps its value until then (R148, R170, R173; log 24). -/
def State.beginReset (s : State) (k : ResetKind) : State :=
  { resetting := some k
    uport := UPort.reset s.uport.lanes
    sources := Vector.replicate 16 Source.reset
    governor := Governor.reset
    layout := LayoutCtl.reset
    translator := Translator.reset
    dport := DPort.reset
    override := Override.reset s.override.sensed
    capture := s.capture.atReset k
    port := Port.reset s.port.targetAddress s.port.booten
    loader := Loader.reset
    links := Links.none
    pending := s.pending }

/-- The loader enters VERIFY; LOADER_RESULT becomes outcome NONE with both counts 0 (R179). -/
def State.startLoad (s : State) : State := s.withLoader { state := .verify, result := LoaderResult.none }

/-- The target address: 0x52 plus the straps (R170). -/
def strapAddress (mad : BitVec 2) : BitVec 7 := BitVec.ofNat 7 (Config.baseTargetAddress + mad.toNat)

/-- The reset in progress ends: the straps and BOOTEN are sampled, each sensed level takes the level of its pin, the raw conditions
are evaluated, and the loader starts if BOOTEN is high (R148, R158, R170, R173, R179). -/
def State.endReset (s : State) (pins : ResetPins) : State :=
  let s1 :=
    (((s.withResetting none).withPort
      { s.port with targetAddress := strapAddress pins.mad, booten := pins.booten }).withOverride
      { s.override with sensed := pins.alm }).evaluateGroups
  if pins.booten then s1.startLoad else s1

/-- The end of a load with an outcome and, for BAD, its reason; BAD sends a BOOT_IMAGE event with no optional field (R181). -/
def State.endLoad (s : State) (outcome : LoaderOutcome) (reason : Option BadReason) : State :=
  let s1 :=
    (s.withLoader { state := .idle, result := { s.loader.result with outcome := outcome, reason := reason } }).setLoaderEnd
  if outcome = .bad then
    s1.record { cls := .bootImage, initiator := none, address := none, source := none, window := none }
  else s1

end Sys2Proof.Machine
end

