-- ==== Sys2Proof/Machine/Management.lean ====
section
/-! DEFINITION. The management port: register and table reads (Tables 11-1 and 11-2), register and table writes with their reports
(R173, R174), commands (R175, R176), and the word taken at the working index (R171). -/

namespace Sys2Proof.Machine

open Sys2Proof

/-! ### Table reads (Table 11-2) -/

/-- Runtime field `f` of a source, in the order of SOURCE_STATE. -/
def Source.stateField (x : Source) : Nat → Nat
  | 0 => x.state.num
  | 1 => x.bufs.a.role.num
  | 2 => x.bufs.b.role.num
  | 3 => x.bufs.c.role.num
  | 4 => bit x.bufs.a.poison
  | 5 => bit x.bufs.b.poison
  | 6 => bit x.bufs.c.poison
  | 7 => x.bufs.a.readHold
  | 8 => x.bufs.b.readHold
  | 9 => x.bufs.c.readHold
  | 10 => x.bufs.a.writeHold
  | 11 => x.bufs.b.writeHold
  | 12 => x.bufs.c.writeHold
  | 13 => bit x.fillWait
  | 14 => x.framesSinceFlip
  | 15 => bit x.stale
  | 16 => bit x.trip
  | 17 => x.credit
  | 18 => bit x.capSaturated
  | 19 => x.quotaInEffect
  | 20 => x.presented.toNat
  | 21 => x.holdQueue.length
  | _ => 0

/-- A strip record's field (STRIP_ACTIVE). -/
def Strip.field (t : Strip) : Nat → Nat
  | 0 => t.top
  | 1 => t.bottom
  | 2 => t.first
  | 3 => t.count
  | _ => 0

/-- An owner's number: 32 for BACKGROUND (Table 11-2). -/
def ownerNum : Option WindowId → Nat
  | none => 32
  | some w => w.val

/-- A segment record's field (SEGMENT_ACTIVE). -/
def Segment.field (g : Segment) : Nat → Nat
  | 0 => g.start
  | 1 => ownerNum g.owner
  | _ => 0

/-- Runtime field `f` of a group (Table 9-4, Table 9-3). -/
def Group.stateField (g : Group) : Nat → Nat
  | 0 => g.state.num
  | 1 => g.holdCount
  | 2 => bit g.raw
  | 3 => (g.trigger.map (·.input.kindNum)).getD 0
  | 4 => (g.trigger.map (·.input.inputNum)).getD 0
  | 5 => (g.trigger.map (·.frame.toNat)).getD 0
  | _ => 0

/-- The present field of the fault record: initiator 1, address 2, source 4, window 8 (Table 10-2). -/
def ErrEvent.present (e : ErrEvent) : Nat :=
  bit e.initiator.isSome + 2 * bit e.address.isSome + 4 * bit e.source.isSome + 8 * bit e.window.isSome

/-- A field of the fault record (Table 10-2). -/
def FaultRecord.field (r : FaultRecord) : Nat → Nat
  | 0 => r.event.cls.num
  | 1 => r.event.present
  | 2 => (r.event.initiator.map (·.val)).getD 0
  | 3 => r.event.address.getD 0 / 4294967296
  | 4 => r.event.address.getD 0 % 4294967296
  | 5 => (r.event.source.map (·.val)).getD 0
  | 6 => (r.event.window.map (·.val)).getD 0
  | 7 => r.frame.toNat
  | _ => 0

/-- A field of the commit result record (Table 5-5). -/
def CommitResult.field (r : CommitResult) : Nat → Nat
  | 0 => r.outcome.num
  | 1 => (r.code.map FailCode.num).getD 0
  | 2 => (r.window.map (·.val)).getD 255
  | 3 => r.segments.getD 0
  | _ => 0

/-- A field of LOADER_RESULT (Table 11-4). -/
def LoaderResult.field (r : LoaderResult) : Nat → Nat
  | 0 => r.outcome.num
  | 1 => (r.reason.map BadReason.num).getD 0
  | 2 => r.applied
  | 3 => r.refused
  | 4 => r.firstRefused.getD 65535
  | _ => 0

/-- The field of a table by code, entry and field number (Table 11-2); 0 for table 0 (R174). -/
def State.tableField (s : State) (table entry f : Nat) : Nat :=
  match table with
  | 1 => if h : entry < 16 then (s.sources[entry]'h).cfg.get f else 0
  | 2 => if h : entry < 16 then (s.sources[entry]'h).stateField f else 0
  | 3 => if h : entry < 32 then (s.layout.staged.windows[entry]'h).get f else 0
  | 4 => s.layout.staged.stackField f
  | 5 => if h : entry < 32 then (s.layout.activeBank.layout.windows[entry]'h).get f else 0
  | 6 => s.layout.activeBank.layout.stackField f
  | 7 => ((s.layout.activeBank.strips[entry]?).map (·.field f)).getD 0
  | 8 => ((s.layout.activeBank.segments[entry]?).map (·.field f)).getD 0
  | 9 => if h : entry < 4 then (s.override.groups[entry]'h).cfg.get f else 0
  | 10 => if h : entry < 4 then (s.override.groups[entry]'h).stateField f else 0
  | 11 => if h : entry < 9 then (s.translator.palette[entry]'h).toNat else 0
  | 12 => s.capture.fault.field f
  | 13 => s.layout.result.field f
  | 14 => s.loader.result.field f
  | _ => 0

/-- The field at the table pointer (R174). -/
def State.pointedField (s : State) : Nat := s.tableField s.port.pointer.table s.port.pointer.entry s.port.pointer.field

/-! ### Register reads (Table 11-1) -/

/-- A set of sources as a number: bit s for source s. -/
def State.sourceSet (s : State) (f : Source → Bool) : Nat :=
  (allSources.map fun i => bit (f s.sources[i]) * 2 ^ i.val).sum

/-- The bank content code of LAYOUT_STATUS. -/
def Bank.contentBit (b : Bank) : Nat := bit b.holdsLayout

/-- The bank letter code of LAYOUT_STATUS. -/
def BankLetter.num : BankLetter → Nat
  | .a => 0
  | .b => 1

/-- LAYOUT_STATUS (Table 11-1, R81). -/
def LayoutCtl.status (l : LayoutCtl) : Nat :=
  l.ctl.num + 4 * l.active.num + 8 * l.bankA.contentBit + 16 * l.bankB.contentBit +
    32 * ((l.hold.map fun x => x.num + 1).getD 0) + 128 * l.activeBank.strips.length + 16384 * l.activeBank.segments.length

/-- GROUP_STATUS (Table 11-1, R158). -/
def Override.status (o : Override) : Nat :=
  (allGroups.map fun g => o.groups[g].state.num * 4 ^ g.val).sum + 256 * o.sensed.toNat

/-- COMMAND_RESULT (Table 11-1, R175). -/
def CommandResult.toNat (c : CommandResult) : Nat :=
  c.code.toNat + 256 * c.operand.toNat + 65536 * c.result.num + 16777216 * c.field

/-- PORT_STATUS (Table 11-1, R173). -/
def Port.status (p : Port) : Nat :=
  bit p.partialWord + 2 * bit p.writeRefused + 4 * bit p.booten + 16 * p.lastResult.num + 256 * p.lastIndex.toNat +
    65536 * p.lastField

/-- The value a read of a register returns (R172, Table 11-1). -/
def State.readRegister (s : State) (index : Nat) : Nat :=
  match index with
  | 0 => s.port.command.toNat
  | 1 => s.port.command.toNat
  | 2 => s.port.pointer.table + 256 * s.port.pointer.entry + 1048576 * s.port.pointer.field
  | 3 => s.pointedField
  | 4 => s.layout.canvas.base
  | 5 => s.layout.canvas.width
  | 6 => s.layout.canvas.height
  | 7 => s.layout.canvas.pitch
  | 8 => bit s.layout.canvas.enabled
  | 9 => s.governor.slotLength
  | 10 => s.dport.deadline.micros
  | 11 => s.layout.status
  | 12 => s.override.status
  | 13 => s.override.softBits.toNat
  | 14 => s.sourceSet (·.trip)
  | 15 => s.sourceSet (·.capSaturated)
  | 16 => s.capture.status.toNat
  | 17 => s.capture.detect.toNat
  | 18 => s.capture.severity.toNat
  | 19 => bit s.capture.pointerValid + 256 * s.capture.pointerClass.num
  | 20 => s.capture.causes.toNat
  | 21 => s.capture.intEnable.toNat
  | 22 => s.governor.frameCount.toNat + 65536 * s.governor.slotIndex
  | 23 => s.port.status
  | _ => 0

/-! ### Register writes by their owners -/

/-- TABLE_POINTER (R174). -/
def State.writePointer (s : State) (v : Word) : State × Report :=
  if (TablePointer.mk (field v 0 8) (field v 8 12) (field v 20 8)).valid then
    (s.withPort { s.port with pointer := ⟨field v 0 8, field v 8 12, field v 20 8⟩ }, .accepted)
  else (s, .invalid 255)

/-- SLOT_LENGTH (R139). -/
def State.writeSlotLength (s : State) (v : Word) : State × Report :=
  if 1 ≤ v.toNat ∧ v.toNat ≤ 65535 then (s.withGovernor { s.governor with slotLength := v.toNat }, .accepted)
  else (s, .invalid 255)

/-- RESPONSE_DEADLINE (R127). -/
def State.writeDeadline (s : State) (v : Word) : State × Report :=
  match deadlineOf v.toNat with
  | some d => (s.withDport { s.dport with deadline := d }, .accepted)
  | none => (s, .invalid 255)

/-- SOFT_BITS: all eight bits, and the groups act (R150, R152). -/
def State.writeSoftBits (s : State) (v : Word) : State :=
  (s.withOverride { s.override with softBits := v.extractLsb' 0 8 }).evaluateGroups

/-- The named sources changed by `f`. -/
def State.mapNamed (s : State) (named : Word) (f : Source → Source) : State :=
  allSources.foldl (fun t i => if named.getLsbD i.val then t.putSource i (f t.sources[i]) else t) s

/-- TRIP_CLEAR: the named sources' trip flags are cleared, and the groups act (R47, R152). -/
def State.clearTrips (s : State) (v : Word) : State :=
  (s.mapNamed v fun x => { x with trip := false }).evaluateGroups

/-- CAP_FLAG_CLEAR (R144). -/
def State.clearCapFlags (s : State) (v : Word) : State := s.mapNamed v fun x => { x with capSaturated := false }

/-- ERROR_STATUS (R163, R165). -/
def State.clearStatuses (s : State) (v : Word) : State := s.withCapture (s.capture.clearStatus (v.extractLsb' 0 12))

/-- DETECT_ENABLE (R161). -/
def State.writeDetect (s : State) (v : Word) : State := s.withCapture { s.capture with detect := v.extractLsb' 0 12 }

/-- SEVERITY (R164). -/
def State.writeSeverity (s : State) (v : Word) : State := s.withCapture { s.capture with severity := v.extractLsb' 0 12 }

/-- INT_CAUSE: a 1 in bits 2–4 clears the flag (R168, Table 11-1). -/
def State.clearCauses (s : State) (v : Word) : State :=
  s.withCapture
    { s.capture with
      commitEnd := s.capture.commitEnd && !v.getLsbD 2
      overrideChange := s.capture.overrideChange && !v.getLsbD 3
      loaderEnd := s.capture.loaderEnd && !v.getLsbD 4 }

/-- INT_ENABLE (R168). -/
def State.writeIntEnable (s : State) (v : Word) : State := s.withCapture { s.capture with intEnable := v.extractLsb' 0 5 }

/-- PORT_STATUS: a 1 in bits 0–1 clears the sticky flag (R173). -/
def State.clearPortFlags (s : State) (v : Word) : State :=
  s.withPort
    { s.port with
      partialWord := s.port.partialWord && !v.getLsbD 0
      writeRefused := s.port.writeRefused && !v.getLsbD 1 }

/-- A write of a register other than COMMAND and TABLE_DATA, passed to its owner (R173, Table 11-1). A register marked R and an
index 0x18–0xFF are refused. -/
def State.writeRegister (s : State) (index : Nat) (v : Word) : State × Report :=
  match index with
  | 2 => s.writePointer v
  | 4 => s.writeGeometry .base v.toNat
  | 5 => s.writeGeometry .width v.toNat
  | 6 => s.writeGeometry .height v.toNat
  | 7 => s.writeGeometry .pitch v.toNat
  | 8 => s.writeEnable v.toNat
  | 9 => s.writeSlotLength v
  | 10 => s.writeDeadline v
  | 13 => (s.writeSoftBits v, .accepted)
  | 14 => (s.clearTrips v, .accepted)
  | 15 => (s.clearCapFlags v, .accepted)
  | 16 => (s.clearStatuses v, .accepted)
  | 17 => (s.writeDetect v, .accepted)
  | 18 => (s.writeSeverity v, .accepted)
  | 20 => (s.clearCauses v, .accepted)
  | 21 => (s.writeIntEnable v, .accepted)
  | 23 => (s.clearPortFlags v, .accepted)
  | _ => (s, .invalid 255)

/-! ### Table writes -/

/-- A PALETTE write (R119). -/
def State.writePalette (s : State) (e : Fin 9) (v : Nat) : State × Report :=
  if v ≤ 0xFFFFFF then
    (s.withTranslator { s.translator with palette := putAt s.translator.palette e (BitVec.ofNat 24 v) }, .accepted)
  else (s, .invalid 0)

/-- A write of a table field, checked by its owner (R174). A pointer that names no field and a read-only table are refused. -/
def State.tableWrite (s : State) (p : TablePointer) (v : Nat) : State × Report :=
  match p.table with
  | 1 => if h : p.entry < 16 then s.writeSourceConfig ⟨p.entry, h⟩ p.field v else (s, .invalid 255)
  | 3 => if h : p.entry < 32 then s.writeWindow ⟨p.entry, h⟩ p.field v else (s, .invalid 255)
  | 4 => s.writeStack p.field v
  | 9 => if h : p.entry < 4 then s.writeGroup ⟨p.entry, h⟩ p.field v else (s, .invalid 255)
  | 11 => if h : p.entry < 9 then s.writePalette ⟨p.entry, h⟩ v else (s, .invalid 255)
  | _ => (s, .invalid 255)

/-- A table write whose pointer is checked first, as a record names it (R180). -/
def State.tableWriteChecked (s : State) (p : TablePointer) (v : Nat) : State × Report :=
  if p.valid then s.tableWrite p v else (s, .invalid 255)

/-! ### Commands -/

/-- A command that names a source: an operand above 15 is refused (R175). -/
def State.onSource (s : State) (operand : Nat) (f : State → SourceId → State × Report) : State × Report :=
  if h : operand < 16 then f s ⟨operand, h⟩ else (s, .invalid 254)

/-- The commands that a block of the data path takes, codes 1 to 6 of Table 11-3; any other code is refused with field 254
(R175). -/
def State.runCommand (s : State) (code operand : Nat) : State × Report :=
  match code with
  | 1 => s.onSource operand State.openSource
  | 2 => s.onSource operand State.closeSource
  | 3 => s.onSource operand State.releaseSource
  | 4 => s.commitCommand
  | 5 => s.abortCommand
  | 6 => s.restageCommand
  | _ => (s, .invalid 254)

/-- RELOAD_BOOT from the supervisor: the loader enters VERIFY, and the rest of the transaction goes unanswered (R176). -/
def State.reloadBoot (s : State) : State × Report :=
  if s.loader.state = .idle then (s.startLoad.withPort { s.port with transaction := .none }, .accepted) else (s, .busy)

/-- COMMAND_RESULT takes the code, the operand, the result and the field named (R175). -/
def State.reportCommand (s : State) (code operand : Byte) (r : Report) : State :=
  s.withPort { s.port with command := { code := code, operand := operand, result := r.code, field := r.field } }

/-- A command other than SOFT_RESET from the supervisor. -/
def State.superCommand (s : State) (code operand : Nat) : State × Report :=
  if code = 8 then s.reloadBoot else s.runCommand code operand

/-- A word taken as a write of COMMAND: SOFT_RESET begins a soft reset; any other command is handed to its block and reported in
COMMAND_RESULT, and the working index goes on (R171, R175, R176). -/
def State.takeCommand (s : State) (code operand : Byte) : State :=
  if code = 7 then s.beginReset .soft
  else
    let r := s.superCommand code.toNat operand.toNat
    let s1 := r.1.reportCommand code operand r.2
    s1.withPort { s1.port with workingIndex := 1 }

/-! ### The word taken -/

/-- The write-report fields and the write-refused flag of PORT_STATUS (R173). -/
def Port.report (p : Port) (index : Byte) (r : Report) : Port :=
  { p with
    lastResult := r.code, lastIndex := index, lastField := r.field
    writeRefused := p.writeRefused || r.code != .accepted }

/-- A word of TABLE_DATA: the pointed field is written, the write is reported, the pointer advances and the working index stays
(R171, R173, R174). -/
def State.takeTableWord (s : State) (v : Word) : State :=
  let r := s.tableWriteChecked s.port.pointer v.toNat
  r.1.withPort { r.1.port.report 3 r.2 with workingIndex := 3, pointer := r.1.port.pointer.advance }

/-- A word of any other register but COMMAND: written, reported, and the working index goes up by one, from 255 to 0 (R171,
R173). -/
def State.takeRegisterWord (s : State) (index : Byte) (v : Word) : State :=
  let r := s.writeRegister index.toNat v
  r.1.withPort { r.1.port.report index r.2 with workingIndex := index + 1 }

/-- The word `v` taken as a write of the register at `index`, where the working index stands (R171). -/
def State.takeWordOf (s : State) (index : Byte) (v : Word) : State :=
  if index = 0 then s.takeCommand (v.extractLsb' 0 8) (v.extractLsb' 8 8)
  else if index = 3 then s.takeTableWord v
  else s.takeRegisterWord index v

/-! ### Transactions -/

/-- A stop or a start condition ends the transaction under way; one to three data bytes of a word are discarded and set the
partial-word flag (R171). -/
def Port.ended (p : Port) : Port :=
  { p with transaction := .none, held := [], partialWord := p.partialWord || !p.held.isEmpty }

/-- A write transaction begins with an address and its index byte: at the port's own address the byte sets the start index and the
working index; addressed elsewhere it is no transaction of the port's (R170). -/
def State.takeIndex (s : State) (address : BitVec 7) (b : Byte) : State :=
  s.withPort
    (if address = s.port.targetAddress then
      { s.port.ended with transaction := .write, startIndex := b, workingIndex := b }
     else s.port.ended)

/-- A data byte of a write transaction: it is held, and the fourth of a word takes the word as a write of the register at the working
index (R171). -/
def State.takeByte (s : State) (b : Byte) : State :=
  if s.port.transaction = .write then
    match s.port.held with
    | [b0, b1, b2] => (s.withPort { s.port with held := [] }).takeWordOf s.port.workingIndex (wordOf b0 b1 b2 b)
    | held => s.withPort { s.port with held := held ++ [b] }
  else s

/-- Data bytes in the order they arrive. -/
def State.takeBytes (s : State) (bytes : List Byte) : State := bytes.foldl State.takeByte s

/-- A stop or a repeated start (R171). -/
def State.breakWord (s : State) : State := s.withPort s.port.ended

/-! ### The words that have rows of their own -/

/-- The port in a write transaction whose working index stands at `index`, with no byte held: as it is, or after a transaction has
begun with that index byte (R170; log 9). -/
def Port.standAt (p : Port) (index : Byte) : Port :=
  if p.transaction = .write ∧ p.held = [] ∧ p.workingIndex = index then p
  else { p.ended with transaction := .write, startIndex := index, workingIndex := index }

/-- The port at TABLE_DATA with the pointer at `q`: as it is, or after a TABLE_POINTER word has set the pointer (R174; log 10). -/
def Port.pointAt (p : Port) (q : TablePointer) : Port :=
  if p.pointer = q then p.standAt 3 else { p.standAt 2 with pointer := q, workingIndex := 3 }

/-- The word `v` taken as a write of the register at `index` (R171; log 9). -/
def State.takeWordAt (s : State) (index : Byte) (v : Word) : State :=
  (s.withPort (s.port.standAt index)).takeWordOf index v

/-- The word of COMMAND with a code and an operand (R175; log 9). -/
def State.takeCommandAt (s : State) (code operand : Byte) : State := (s.withPort (s.port.standAt 0)).takeCommand code operand

/-- The word `v` taken as a write of TABLE_DATA while the pointer names entry `e`, field `f` of table `t` (R174; log 10). -/
def State.takeWordIn (s : State) (t e f : Nat) (v : Word) : State :=
  (s.withPort (s.port.pointAt ⟨t, e, f⟩)).takeTableWord v

/-! ### Read transactions -/

/-- The port when a word of a read transaction is due (R170, R172): in the transaction under way; in one that begins at the port's own
address, with the working index at the start index; in one that stands at TABLE_DATA (log 10). -/
def Port.readBegun (p : Port) : PortRead → Port
  | .next => p
  | .first address =>
    if address = p.targetAddress then { p.ended with transaction := .read, workingIndex := p.startIndex } else p.ended
  | .tableData =>
    if p.transaction = .read ∧ p.workingIndex = 3 then p
    else { p.ended with transaction := .read, startIndex := 3, workingIndex := 3 }

/-- The port after the fourth byte of a read word: the working index goes up by one, or the pointer advances at TABLE_DATA (R172). -/
def Port.wordSent (p : Port) : Port :=
  if p.workingIndex = 3 then { p with pointer := p.pointer.advance } else { p with workingIndex := p.workingIndex + 1 }

/-- The word at the working index is sent, least significant byte first: all of it, or the first `sent` + 1 bytes, where the transaction
ends and nothing advances (R172). -/
def State.sendWord (s : State) (sent : Fin 4) : State :=
  (s.withLinks
    { s.links with
      readBytes := some ((wordBytes (word (s.readRegister s.port.workingIndex.toNat))).take (sent.val + 1)) }).withPort
    (if sent = 3 then s.port.wordSent else { s.port with transaction := .none })

/-- A word of a read transaction, if one is under way at the port (R170, R172). -/
def State.readPort (s : State) (r : PortRead) (sent : Fin 4) : State :=
  if (s.port.readBegun r).transaction = .read then (s.withPort (s.port.readBegun r)).sendWord sent
  else s.withPort (s.port.readBegun r)

end Sys2Proof.Machine
end

