-- ==== Sys2Proof/Machine/Boot.lean ====
section
/-! DEFINITION. The boot loader: the first pass over the image (R179), the records applied in the second (R180), and the end of a load
(R181). -/

namespace Sys2Proof.Machine

open Sys2Proof

/-! ### The first pass -/

/-- A 16-bit field of the image, least significant byte first (R178). -/
def imageField (image : List Byte) (at_ : Nat) : Nat := leNat ((image.drop at_).take 2)

/-- The sum of R179: bytes 0–3 and every byte of `count` records, modulo 65536. -/
def imageSum (image : List Byte) (count : Nat) : Nat :=
  ((image.take 4 ++ (image.drop 6).take (8 * count)).map (·.toNat)).sum % 65536

/-- How VERIFY ends (R179). -/
inductive VerifyEnd where
  | absent
  | bad (reason : BadReason)
  | apply (count : Nat)
  deriving DecidableEq, Repr

/-- The checks of VERIFY, in their order, on the bytes the memory gave before it first failed to acknowledge a read (R179;
log 16). -/
def verifyImage (image : List Byte) : VerifyEnd :=
  if image.length < Config.bootHeaderBytes then .absent
  else if imageField image 0 ≠ Config.bootSignature then .bad .signature
  else if Config.maxBootRecords < imageField image 2 then .bad .count
  else if image.length < Config.bootHeaderBytes + Config.bootRecordBytes * imageField image 2 then .bad .read
  else if imageSum image (imageField image 2) ≠ imageField image 4 then .bad .checksum
  else .apply (imageField image 2)

/-- The loader enters APPLY; an image of no records has had its last record applied (R179, R180; log 15). -/
def State.startApply (s : State) (count : Nat) : State :=
  if count = 0 then s.endLoad .done none else s.withLoader { s.loader with state := .apply count 0 }

/-- The end of VERIFY (R179). -/
def State.endVerify (s : State) (image : List Byte) : State :=
  match verifyImage image with
  | .absent => s.endLoad .absent none
  | .bad r => s.endLoad .bad (some r)
  | .apply count => s.startApply count

/-! ### The second pass -/

/-- The eight bytes of a record (R178): byte 0 the target kind, byte 1 the register index or the table code, bytes 2 and 3 the entry and
the field, bytes 4 to 7 the value, least significant byte first. -/
def BootRecord.ofBytes (b : Vector Byte 8) : BootRecord :=
  { kind := b[0], target := b[1], entry := b[2], field := b[3], value := wordOf b[4] b[5] b[6] b[7] }

/-- What the loader asks of the boot memory on BSCL and BSDA: the memory's bus address, the two-byte memory address, and how many bytes
it reads (R178). -/
structure BootRead where
  device  : BitVec 7
  address : BitVec 16
  bytes   : Nat
  deriving DecidableEq, Repr

/-- The read that the loader's next event waits for (R178 to R180): in VERIFY the header, from memory address 0, with the records after
it; in APPLY the next record, at 6 + 8i; none while it is IDLE. -/
def State.bootRead (s : State) : Option BootRead :=
  match s.loader.state with
  | .idle => none
  | .verify => some { device := Config.bootDevice, address := 0, bytes := Config.bootHeaderBytes }
  | .apply _ n =>
    some
      { device := Config.bootDevice
        address := BitVec.ofNat 16 (Config.bootHeaderBytes + Config.bootRecordBytes * n)
        bytes := Config.bootRecordBytes }

/-- A COMMAND record: SOFT_RESET is refused with REFUSED_STATE and RELOAD_BOOT with REFUSED_BUSY; the rest is a command (R175,
R176, R180). -/
def State.recordCommand (s : State) (code operand : Nat) : State × Report :=
  if code = 7 then (s, .wrongState) else if code = 8 then (s, .busy) else s.runCommand code operand

/-- A record as a write or a command: REGISTER records of 0x00–0x03 and other target kinds are refused (R180). -/
def State.runRecord (s : State) (r : BootRecord) : State × Report :=
  if r.kind = 1 then (if r.target.toNat < 4 then (s, .invalid 255) else s.writeRegister r.target.toNat r.value)
  else if r.kind = 2 then s.tableWriteChecked ⟨r.target.toNat, r.entry.toNat, r.field.toNat⟩ r.value.toNat
  else if r.kind = 3 then s.recordCommand (field r.value 0 8) (field r.value 8 8)
  else (s, .invalid 255)

/-- LOADER_RESULT after record `n` with report `r`: one of the counts goes up by 1 and the first refused record is kept (R180). -/
def LoaderResult.count (l : LoaderResult) (n : Nat) (r : Report) : LoaderResult :=
  if r.code = .accepted then { l with applied := l.applied + 1 }
  else { l with refused := l.refused + 1, firstRefused := some (l.firstRefused.getD n) }

/-- Records leave COMMAND_RESULT, TABLE_POINTER, the write-report fields and the write-refused flag as they are (R180); a record
that writes PORT_STATUS can clear the partial-word flag (log 17). -/
def Port.afterRecord (before after : Port) : Port := { before with partialWord := after.partialWord }

/-- Record `n` of `count` is applied; after the last the load ends DONE (R180, R181). -/
def State.applyRecordAt (s : State) (count n : Nat) (r : BootRecord) : State :=
  let q := s.runRecord r
  let s1 := q.1.withPort (s.port.afterRecord q.1.port)
  let s2 := s1.withLoader { state := .apply count (n + 1), result := s.loader.result.count n q.2 }
  if n + 1 < count then s2 else s2.endLoad .done none

/-- The next record is applied, while the loader is in APPLY (R180). -/
def State.applyNext (s : State) (bytes : Vector Byte 8) : State :=
  match s.loader.state with
  | .apply count n => s.applyRecordAt count n (BootRecord.ofBytes bytes)
  | .idle => s
  | .verify => s

/-- A read of the second pass is not acknowledged: the load ends BAD, reason READ (R180). -/
def State.applyBroken (s : State) : State :=
  match s.loader.state with
  | .apply _ _ => s.endLoad .bad (some .read)
  | .idle => s
  | .verify => s

/-- VERIFY completes, while the loader is in VERIFY (R179). -/
def State.verifyCompletes (s : State) (image : List Byte) : State :=
  match s.loader.state with
  | .verify => s.endVerify image
  | .idle => s
  | .apply _ _ => s

end Sys2Proof.Machine
end

