-- ==== Sys2Proof/WellFormed.lean ====
section
/-! DEFINITION. Which commands the links can carry. The types of `Instr` bound every operand but the lengths of a U-request
and of a READ response and the number of data bytes of a word; those are checked here (R1, Table 1-1, Table 7-1, R171). -/

namespace Sys2Proof

/-- Every beat of a write holds exactly 32 bytes (R1). -/
def WriteBeat.wellFormed (b : WriteBeat) : Bool := b.bytes.length == Config.beatBytes

/-- A request is 1 to 16 beats long; a write carries one data entry for each beat and a read carries none (R1). -/
def URequest.wellFormed (r : URequest) : Bool :=
  decide (1 ≤ r.beats) && decide (r.beats ≤ 16) &&
    match r.kind with
    | .read => r.data.isEmpty
    | .write => r.data.length == r.beats && r.data.all WriteBeat.wellFormed

/-- The data of a READ response with status OK are 1 to 16 whole beats (Table 7-1). -/
def DResponse.wellFormed : DResponse → Bool
  | .readOk _ _ data => decide (data.length % 32 = 0) && decide (32 ≤ data.length) && decide (data.length ≤ 512)
  | .readError _ _ => true
  | .writeOk _ _ => true
  | .writeError _ _ => true

/-- At most three data bytes follow the first of a word (R171). -/
def dataBytesFit (more : List Byte) : Bool := decide (more.length ≤ 3)

/-- A command that its link or bus can carry. Every operand but the three checked here has a type that holds exactly the values
its field has. -/
def Instr.wellFormed : Instr → Bool
  | .uRequest r => r.wellFormed
  | .downstreamResponse r => r.wellFormed
  | .powerOnReset => true
  | .pinReset => true
  | .resetEnd _ => true
  | .laneHeadAccept _ _ => true
  | .contextPlacement => true
  | .walkStart => true
  | .pieceGeneration => true
  | .readAnswer _ => true
  | .arbiterGrant _ => true
  | .readTimeout _ => true
  | .writeTimeout _ => true
  | .admission _ => true
  | .wfs _ => true
  | .slotTimerExpiry => true
  | .compileCompletion => true
  | .alarmLevelChange _ _ => true
  | .indexByte _ => true
  | .partialWord => true
  | .tableDataRead _ _ => true
  | .registerWrite _ more => dataBytesFit more
  | .tablePointer _ => true
  | .openSource _ => true
  | .closeSource _ => true
  | .releaseSource _ => true
  | .commit _ => true
  | .abort _ => true
  | .restage _ => true
  | .softReset _ => true
  | .reloadBoot _ => true
  | .canvasEnable => true
  | .canvasDisable => true
  | .canvasGeometryWrite _ _ => true
  | .slotLength _ => true
  | .responseDeadline _ => true
  | .softBits _ => true
  | .tripClear _ => true
  | .capFlagClear _ => true
  | .errorStatus _ => true
  | .detectEnable _ => true
  | .severity _ => true
  | .intCause _ => true
  | .intEnable _ => true
  | .portStatus _ => true
  | .sourceConfig _ _ _ => true
  | .creditCap _ _ => true
  | .windowStaged _ _ _ => true
  | .stackStaged _ _ => true
  | .groupConfig _ _ _ => true
  | .groupEnable _ => true
  | .groupDisable _ => true
  | .palette _ _ => true
  | .verify _ => true
  | .applyRecord _ => true
  | .applyReadNotAcknowledged => true

end Sys2Proof
end

