-- ==== Sys2Proof/Machine/DataPath.lean ====
section
/-! DEFINITION. The meanings of the rows of the data path: resets, the U-port, the translator, the D-port, the governor, the strobe,
the compiler and the alarm lines. -/

namespace Sys2Proof.Machine

open Sys2Proof

/-! ### Resets -/

/-- POWER_ON_RESET (R167, R177): a power-on reset begins. -/
def execPowerOnReset (s : State) : Result := .next (s.beginReset .powerOn)

/-- PIN_RESET (R167, R177): RSTn goes low and a pin reset begins. -/
def execPinReset (s : State) : Result := .next (s.beginReset .pin)

/-- RESET_END (R177): the reset in progress ends; with none in progress there is nothing to end (log 3). -/
def execResetEnd (pins : ResetPins) (s : State) : Result :=
  .next (if s.resetting.isSome then s.quiet.endReset pins else s.quiet)

/-! ### U-port -/

/-- A request joins the tail of its side of its initiator's lane (R1, R3). -/
def State.arrive (s : State) (r : URequest) : State :=
  s.withUport (s.uport.putSide r.initiator r.kind (s.uport.side r.initiator r.kind ++ [r]))

/-- U_REQUEST (R1, R3, R7): the lanes belong to the link, so a request arrives in every state; a record that the link cannot carry is
refused (log 20). -/
def execURequest (r : URequest) (s : State) : Result :=
  if r.wellFormed then .next (s.quiet.arrive r) else .refused .illFormed

/-- The offer of a lane head; a read then passes on through the intake list as R17 and R96 say. -/
def State.acceptHead (s : State) (i : Initiator) (k : Kind) : State :=
  match k with
  | .read => (s.offerHead i k).settleReads
  | .write => s.offerHead i k

/-- LANE_HEAD_ACCEPT (R4). -/
def execLaneHeadAccept (i : Initiator) (side : Kind) (s : State) : Result :=
  outsideReset (fun t => t.acceptHead i side) s

/-! ### Translator -/

/-- The oldest intake entry is placed if a context is free (R96). -/
def State.placeOldest (s : State) : State :=
  match s.uport.intake, s.translator.freeContext with
  | e :: rest, some n => (s.placeInto n e rest).settleReads
  | _, _ => s

/-- CONTEXT_PLACEMENT (R96). -/
def execContextPlacement (s : State) : Result := outsideReset State.placeOldest s

/-- The idle walker starts the earliest WAITING context (R101). -/
def State.startEarliest (s : State) : State :=
  match s.translator.walker, s.translator.firstWaiting with
  | none, some c => (s.startWalk c).settleReads
  | _, _ => s

/-- WALK_START (R101). -/
def execWalkStart (s : State) : Result := outsideReset State.startEarliest s

/-- The generation event that is due in the walk in progress (R102, R103). -/
def State.generateNext (s : State) : State :=
  match s.translator.walking with
  | some c => (s.generate c).settleReads
  | none => s

/-- PIECE_GENERATION (R102). -/
def execPieceGeneration (s : State) : Result := outsideReset State.generateNext s

/-- Context `n` is answered if it may be (R98). -/
def State.answerNumber (s : State) (n : ContextId) : State :=
  match (answerable s.translator.contexts []).find? fun c => c.num == n with
  | some c => (s.answerContext c).settleReads
  | none => s

/-- READ_ANSWER (R98). -/
def execReadAnswer (c : ContextId) (s : State) : Result := outsideReset (fun t => t.answerNumber c) s

/-! ### D-port -/

/-- ARBITER_GRANT (R123): one grant event; without the ready indication nothing is granted (log 27). -/
def execArbiterGrant (ready : Bool) (s : State) : Result :=
  outsideReset (fun t => if ready then t.arbitrate else t) s

/-- DOWNSTREAM_RESPONSE (R128): a record that the link cannot carry is refused (log 20). -/
def execDownstreamResponse (r : DResponse) (s : State) : Result :=
  if r.wellFormed then outsideReset (fun t => t.takeResponse r) s else .refused .illFormed

/-- The expiry of a piece's deadline: only an ISSUED piece has a running timer (R127, R130). -/
def State.readExpires (s : State) (p : PieceId) : State :=
  match s.translator.issuedUse p with
  | some u => s.pieceFails .readTimeout p u
  | none => s

/-- READ_TIMEOUT (R130). -/
def execReadTimeout (p : PieceId) (s : State) : Result := outsideReset (fun t => t.readExpires p) s

/-- The expiry of a tracker's deadline: only a BUSY tracker has a running timer (R127, R132). -/
def State.writeExpires (s : State) (t : TrackerId) : State :=
  match s.dport.trackers[t].use with
  | some u => s.writeFails .writeTimeout t u
  | none => s

/-- WRITE_TIMEOUT (R132). -/
def execWriteTimeout (t : TrackerId) (s : State) : Result := outsideReset (fun x => x.writeExpires t) s

/-! ### Governor, strobe, compiler, alarm lines -/

/-- ADMISSION (R145, R146). -/
def execAdmission (i : SourceId) (s : State) : Result := outsideReset (fun t => t.admission i) s

/-- WFS (R136). -/
def execWfs (o : StrobeOrder) (s : State) : Result := outsideReset (fun t => t.strobe o) s

/-- SLOT_TIMER_EXPIRY (R138). -/
def execSlotTimerExpiry (s : State) : Result := outsideReset State.slotExpires s

/-- COMPILE_COMPLETION (R85). -/
def execCompileCompletion (s : State) : Result := outsideReset State.compileCompletes s

/-- The sensed levels with line `l` at level `high`. -/
def setLevel (levels : BitVec 8) (l : Fin 8) (high : Bool) : BitVec 8 :=
  if high then levels ||| BitVec.twoPow 8 l.val else levels &&& ~~~(BitVec.twoPow 8 l.val)

/-- A line's sensed level changes and the groups act (R148, R152). -/
def State.alarmChange (s : State) (l : Fin 8) (high : Bool) : State :=
  (s.withOverride { s.override with sensed := setLevel s.override.sensed l high }).evaluateGroups

/-- ALARM_LEVEL_CHANGE (R148). -/
def execAlarmLevelChange (line : Fin 8) (high : Bool) (s : State) : Result :=
  outsideReset (fun t => t.alarmChange line high) s

end Sys2Proof.Machine
end

