-- ==== Sys2Proof/Machine/Supervisor.lean ====
section
/-! DEFINITION. The meanings of the rows of the management port (chapter 11): index bytes, words of registers, words of tables and
commands. -/

namespace Sys2Proof.Machine

open Sys2Proof

/-! ### The transaction -/

/-- INDEX_BYTE (R170). -/
def execIndexByte (b : WriteStart) (s : State) : Result := heard (fun t => t.takeIndex b.address b.index) s

/-- PARTIAL_WORD (R171). -/
def execPartialWord (s : State) : Result := heard State.breakWord s

/-- TABLE_DATA_READ (R172, R174): by itself the whole word of TABLE_DATA. -/
def execTableDataRead (s : State) (read : PortRead := .tableData) (sent : Fin 4 := 3) : Result :=
  heard (fun t => t.readPort read sent) s

/-- REGISTER_WRITE (R171, R173): data bytes, of which the fourth of a word writes the register at the working index; more than a word's
bytes are no single event (log 20). -/
def execRegisterWrite (first : Byte) (more : List Byte) (s : State) : Result :=
  if dataBytesFit more then heard (fun t => t.takeBytes (first :: more)) s else .refused .illFormed

/-- TABLE_POINTER (R174). -/
def execTablePointer (value : Word) (s : State) : Result := heard (fun t => t.takeWordAt 0x02 value) s

/-! ### Commands (R175) -/

/-- OPEN (R23 to R27). -/
def execOpenSource (operand : Byte) (s : State) : Result := heard (fun t => t.takeCommandAt 1 operand) s

/-- CLOSE (R28 to R30). -/
def execCloseSource (operand : Byte) (s : State) : Result := heard (fun t => t.takeCommandAt 2 operand) s

/-- RELEASE (R54). -/
def execReleaseSource (operand : Byte) (s : State) : Result := heard (fun t => t.takeCommandAt 3 operand) s

/-- COMMIT (R83). -/
def execCommit (operand : Byte) (s : State) : Result := heard (fun t => t.takeCommandAt 4 operand) s

/-- ABORT (R88). -/
def execAbort (operand : Byte) (s : State) : Result := heard (fun t => t.takeCommandAt 5 operand) s

/-- RESTAGE (R91). -/
def execRestage (operand : Byte) (s : State) : Result := heard (fun t => t.takeCommandAt 6 operand) s

/-- SOFT_RESET (R176). -/
def execSoftReset (operand : Byte) (s : State) : Result := heard (fun t => t.takeCommandAt 7 operand) s

/-- RELOAD_BOOT (R176). -/
def execReloadBoot (operand : Byte) (s : State) : Result := heard (fun t => t.takeCommandAt 8 operand) s

/-! ### Registers (Table 11-1) -/

/-- CANVAS_ENABLE with value 1 (R60, R61). -/
def execCanvasEnable (s : State) : Result := heard (fun t => t.takeWordAt 0x08 1) s

/-- CANVAS_ENABLE with value 0 (R62). -/
def execCanvasDisable (s : State) : Result := heard (fun t => t.takeWordAt 0x08 0) s

/-- CANVAS_BASE, CANVAS_WIDTH, CANVAS_HEIGHT and CANVAS_PITCH (R58, R59). -/
def execCanvasGeometryWrite (f : CanvasField) (value : Word) (s : State) : Result :=
  heard (fun t => t.takeWordAt (BitVec.ofNat 8 (canvasIndex f)) value) s

/-- SLOT_LENGTH (R139). -/
def execSlotLength (value : Word) (s : State) : Result := heard (fun t => t.takeWordAt 0x09 value) s

/-- RESPONSE_DEADLINE (R127). -/
def execResponseDeadline (value : Word) (s : State) : Result := heard (fun t => t.takeWordAt 0x0A value) s

/-- SOFT_BITS (R150). -/
def execSoftBits (value : Word) (s : State) : Result := heard (fun t => t.takeWordAt 0x0D value) s

/-- TRIP_CLEAR (R47). -/
def execTripClear (value : Word) (s : State) : Result := heard (fun t => t.takeWordAt 0x0E value) s

/-- CAP_FLAG_CLEAR (R144). -/
def execCapFlagClear (value : Word) (s : State) : Result := heard (fun t => t.takeWordAt 0x0F value) s

/-- ERROR_STATUS (R163). -/
def execErrorStatus (value : Word) (s : State) : Result := heard (fun t => t.takeWordAt 0x10 value) s

/-- DETECT_ENABLE (R161). -/
def execDetectEnable (value : Word) (s : State) : Result := heard (fun t => t.takeWordAt 0x11 value) s

/-- SEVERITY (R164). -/
def execSeverity (value : Word) (s : State) : Result := heard (fun t => t.takeWordAt 0x12 value) s

/-- INT_CAUSE (R168). -/
def execIntCause (value : Word) (s : State) : Result := heard (fun t => t.takeWordAt 0x14 value) s

/-- INT_ENABLE (R169). -/
def execIntEnable (value : Word) (s : State) : Result := heard (fun t => t.takeWordAt 0x15 value) s

/-- PORT_STATUS (R173). -/
def execPortStatus (value : Word) (s : State) : Result := heard (fun t => t.takeWordAt 0x17 value) s

/-! ### Tables (Table 11-2) -/

/-- SOURCE_CONFIG (R19, R20). -/
def execSourceConfig (i : SourceId) (f : Fin 11) (value : Word) (s : State) : Result :=
  heard (fun t => t.takeWordIn 1 i.val f.val value) s

/-- CREDIT_CAP (R143): field 9 of SOURCE_CONFIG. -/
def execCreditCap (i : SourceId) (value : Word) (s : State) : Result := heard (fun t => t.takeWordIn 1 i.val 9 value) s

/-- WINDOW_STAGED (R64, R70). -/
def execWindowStaged (w : WindowId) (f : Fin 15) (value : Word) (s : State) : Result :=
  heard (fun t => t.takeWordIn 3 w.val f.val value) s

/-- STACK_STAGED (R67, R69, R70). -/
def execStackStaged (f : Fin 34) (value : Word) (s : State) : Result := heard (fun t => t.takeWordIn 4 0 f.val value) s

/-- GROUP_CONFIG (R149). -/
def execGroupConfig (g : GroupId) (f : Fin 7) (value : Word) (s : State) : Result :=
  heard (fun t => t.takeWordIn 9 g.val f.val value) s

/-- GROUP_CONFIG, enabled field, value 1 (R157). -/
def execGroupEnable (g : GroupId) (s : State) : Result := heard (fun t => t.takeWordIn 9 g.val 0 1) s

/-- GROUP_CONFIG, enabled field, value 0 (R157). -/
def execGroupDisable (g : GroupId) (s : State) : Result := heard (fun t => t.takeWordIn 9 g.val 0 0) s

/-- PALETTE (R119). -/
def execPalette (e : Fin 9) (value : Word) (s : State) : Result := heard (fun t => t.takeWordIn 11 e.val 0 value) s

end Sys2Proof.Machine
end

