-- ==== Sys2Proof/Machine/Loading.lean ====
section
/-! DEFINITION. The meanings of the rows of the boot loader (section 11.5). -/

namespace Sys2Proof.Machine

open Sys2Proof

/-- VERIFY (R179). -/
def execVerify (image : List Byte) (s : State) : Result := outsideReset (fun t => t.verifyCompletes image) s

/-- APPLY_RECORD (R180). -/
def execApplyRecord (bytes : Vector Byte 8) (s : State) : Result := outsideReset (fun t => t.applyNext bytes) s

/-- APPLY_READ_NOT_ACKNOWLEDGED (R180). -/
def execApplyReadNotAcknowledged (s : State) : Result := outsideReset State.applyBroken s

end Sys2Proof.Machine
end

