-- ==== Sys2Proof/Machine/Dispatch.lean ====
section
/-! DEFINITION. One arm for each command, each a direct call of its meaning. -/

namespace Sys2Proof.Machine

open Sys2Proof

def exec (i : Instr) (s : State) : Host.Outcome State Fault Refusal :=
  match i with
  | .powerOnReset => Sys2Proof.Machine.execPowerOnReset s
  | .pinReset => Sys2Proof.Machine.execPinReset s
  | .resetEnd pins => Sys2Proof.Machine.execResetEnd pins s
  | .uRequest r => Sys2Proof.Machine.execURequest r s
  | .laneHeadAccept n side => Sys2Proof.Machine.execLaneHeadAccept n side s
  | .contextPlacement => Sys2Proof.Machine.execContextPlacement s
  | .walkStart => Sys2Proof.Machine.execWalkStart s
  | .pieceGeneration => Sys2Proof.Machine.execPieceGeneration s
  | .readAnswer c => Sys2Proof.Machine.execReadAnswer c s
  | .arbiterGrant ready => Sys2Proof.Machine.execArbiterGrant ready s
  | .downstreamResponse r => Sys2Proof.Machine.execDownstreamResponse r s
  | .readTimeout p => Sys2Proof.Machine.execReadTimeout p s
  | .writeTimeout t => Sys2Proof.Machine.execWriteTimeout t s
  | .admission n => Sys2Proof.Machine.execAdmission n s
  | .wfs o => Sys2Proof.Machine.execWfs o s
  | .slotTimerExpiry => Sys2Proof.Machine.execSlotTimerExpiry s
  | .compileCompletion => Sys2Proof.Machine.execCompileCompletion s
  | .alarmLevelChange line high => Sys2Proof.Machine.execAlarmLevelChange line high s
  | .indexByte b => Sys2Proof.Machine.execIndexByte b s
  | .partialWord => Sys2Proof.Machine.execPartialWord s
  | .tableDataRead read sent => Sys2Proof.Machine.execTableDataRead s read sent
  | .registerWrite first more => Sys2Proof.Machine.execRegisterWrite first more s
  | .tablePointer value => Sys2Proof.Machine.execTablePointer value s
  | .openSource operand => Sys2Proof.Machine.execOpenSource operand s
  | .closeSource operand => Sys2Proof.Machine.execCloseSource operand s
  | .releaseSource operand => Sys2Proof.Machine.execReleaseSource operand s
  | .commit operand => Sys2Proof.Machine.execCommit operand s
  | .abort operand => Sys2Proof.Machine.execAbort operand s
  | .restage operand => Sys2Proof.Machine.execRestage operand s
  | .softReset operand => Sys2Proof.Machine.execSoftReset operand s
  | .reloadBoot operand => Sys2Proof.Machine.execReloadBoot operand s
  | .canvasEnable => Sys2Proof.Machine.execCanvasEnable s
  | .canvasDisable => Sys2Proof.Machine.execCanvasDisable s
  | .canvasGeometryWrite f value => Sys2Proof.Machine.execCanvasGeometryWrite f value s
  | .slotLength value => Sys2Proof.Machine.execSlotLength value s
  | .responseDeadline value => Sys2Proof.Machine.execResponseDeadline value s
  | .softBits value => Sys2Proof.Machine.execSoftBits value s
  | .tripClear value => Sys2Proof.Machine.execTripClear value s
  | .capFlagClear value => Sys2Proof.Machine.execCapFlagClear value s
  | .errorStatus value => Sys2Proof.Machine.execErrorStatus value s
  | .detectEnable value => Sys2Proof.Machine.execDetectEnable value s
  | .severity value => Sys2Proof.Machine.execSeverity value s
  | .intCause value => Sys2Proof.Machine.execIntCause value s
  | .intEnable value => Sys2Proof.Machine.execIntEnable value s
  | .portStatus value => Sys2Proof.Machine.execPortStatus value s
  | .sourceConfig n f value => Sys2Proof.Machine.execSourceConfig n f value s
  | .creditCap n value => Sys2Proof.Machine.execCreditCap n value s
  | .windowStaged w f value => Sys2Proof.Machine.execWindowStaged w f value s
  | .stackStaged f value => Sys2Proof.Machine.execStackStaged f value s
  | .groupConfig g f value => Sys2Proof.Machine.execGroupConfig g f value s
  | .groupEnable g => Sys2Proof.Machine.execGroupEnable g s
  | .groupDisable g => Sys2Proof.Machine.execGroupDisable g s
  | .palette e value => Sys2Proof.Machine.execPalette e value s
  | .verify image => Sys2Proof.Machine.execVerify image s
  | .applyRecord bytes => Sys2Proof.Machine.execApplyRecord bytes s
  | .applyReadNotAcknowledged => Sys2Proof.Machine.execApplyReadNotAcknowledged s

end Sys2Proof.Machine
end

