-- ==== Sys2Proof/Safety.lean ====
section
/-! DEFINITION. What the model's statements speak of: when the part listens, what a word leaves in the management port, disjoint
regions, and the laws that every step keeps. -/

namespace Sys2Proof.Machine

open Sys2Proof

/-! ### When the part acts -/

/-- No reset is in progress, and the loader is IDLE: the management port acknowledges its address (R170). -/
abbrev State.listening (s : State) : Prop := s.resetting = none ∧ s.loader.state = .idle

/-- Nothing on the read path is left that a rule lays in the event that made it possible (R96, R98, R101, R103; log 4). -/
abbrev State.settled (s : State) : Prop := s.readConsequence.isNone = true

/-! ### What a word leaves in the management port -/

/-- The write-report fields and the write-refused flag after a word of register `index` with result `code` and field `named`
(R173). -/
def Port.reported (p : Port) (index : Byte) (code : ResultCode) (named : Nat) : Port :=
  { p with
    lastResult := code, lastIndex := index, lastField := named
    writeRefused := p.writeRefused || decide (code ≠ .accepted) }

/-- The port after a word of a register other than COMMAND and TABLE_DATA: reported, and the working index one further (R171,
R173). -/
def Port.wordTaken (p : Port) (index : Byte) (code : ResultCode) (named : Nat) : Port :=
  { (p.standAt index).reported index code named with workingIndex := index + 1 }

/-- The port after a word of TABLE_DATA for the field at `q`: reported, the working index still at TABLE_DATA, the pointer advanced
(R171, R173, R174). -/
def Port.fieldTaken (p : Port) (q : TablePointer) (code : ResultCode) (named : Nat) : Port :=
  { (p.pointAt q).reported 3 code named with workingIndex := 3, pointer := q.advance }

/-- The port after a word of COMMAND: COMMAND_RESULT, and the working index one further (R171, R175). -/
def Port.commandTaken (p : Port) (code operand : Byte) (result : ResultCode) (named : Nat) : Port :=
  { p.standAt 0 with command := ⟨code, operand, result, named⟩, workingIndex := 1 }

/-! ### Heads offered again -/

/-- What becomes of a write head that is offered while its destination needs no room (R4, R15, R18; log 5): an APERTURE write of a
CLOSING source is answered OK and dropped; a refused write is answered REFUSED and its event recorded; any other head stays. -/
def State.headOutcome (s : State) (i : Initiator) : Option (UResponse × List ErrEvent) :=
  match s.uport.side i .write with
  | [] => none
  | r :: _ =>
    match s.classify r with
    | .aperture j => if s.sources[j].state = .closing then some (⟨r.initiator, r.label, .write, .ok, []⟩, []) else none
    | .refused cls src =>
      some (⟨r.initiator, r.label, .write, .refused, []⟩, [⟨cls, some r.initiator, some r.address.toNat, src, none⟩])
    | .canvas => none
    | .plain => none

/-- The state after the write head of every lane, in increasing initiator number, has been offered once (R4; log 5): the heads that leave
have left, their answers are sent after what the event has sent already, and the events of refused ones are recorded. -/
def State.headsOffered (s : State) : State :=
  { s with
    uport :=
      { s.uport with
        lanes :=
          Vector.ofFn fun i =>
            { s.uport.lanes[i] with
              writes := if (s.headOutcome i).isSome then s.uport.lanes[i].writes.tail else s.uport.lanes[i].writes } }
    capture :=
      (allInitiators.flatMap fun i => ((s.headOutcome i).map (·.2)).getD []).foldl
        (fun c e => c.record s.governor.frameCount e) s.capture
    links := { s.links with responses := s.links.responses ++ allInitiators.filterMap fun i => (s.headOutcome i).map (·.1) } }

/-! ### Regions -/

/-- Two regions share no byte. -/
def Region.apart (g h : Region) : Prop := ∀ a, ¬(g.has a = true ∧ h.has a = true)

/-- The regions that exist at one time are pairwise disjoint (section 1.3). -/
def State.regionsApart (s : State) : Prop := s.regions.Pairwise Region.apart

/-- The byte at address `a` belongs to a CANVAS or PLAIN write that the U-port has accepted and memory has not answered (R26). -/
def State.plainWriteTo (s : State) (a : Nat) : Prop :=
  (∃ w ∈ s.uport.plainWrites, w.address ≤ a ∧ a < w.address + w.beats * 32) ∨
    ∃ (k : TrackerId) (u : TrackerUse) (n : Initiator), s.dport.trackers[k].use = some u ∧ u.origin = .plain n ∧
      u.address ≤ a ∧ a < u.address + u.beats * 32

/-- The list holds the enabled windows that carry a group, ordered by group and then by number (R78). -/
def Layout.isOverrideList (l : Layout) (ws : List WindowId) : Prop :=
  (∀ w, w ∈ ws ↔ l.windows[w].enabled = true ∧ l.windows[w].group ≠ none) ∧
    ws.Pairwise fun v w =>
      ∀ g h, l.windows[v].group = some g → l.windows[w].group = some h → g < h ∨ (g = h ∧ v < w)

/-! ### Checks and transitions in the spec's own words -/

/-- A configuration field is valid at OPEN: the column "Valid at OPEN" of Table 2-1. -/
def SourceConfig.validAtOpen (c : SourceConfig) : Nat → Prop
  | 0 => c.apertureBase ≤ 268435455 ∧ c.apertureBase * 4096 + c.pitch * c.height ≤ 1099511627776
  | 1 => 64 ≤ c.width ∧ c.width ≤ 8192 ∧ c.width % 8 = 0
  | 2 => 1 ≤ c.height ∧ c.height ≤ 8192
  | 3 => c.pitch % 32 = 0 ∧ c.width * 4 ≤ c.pitch ∧ c.pitch ≤ 65536
  | 4 => c.baseA ≤ 268435455 ∧ c.baseA * 4096 + c.pitch * c.height ≤ 1099511627776
  | 5 => c.baseB ≤ 268435455 ∧ c.baseB * 4096 + c.pitch * c.height ≤ 1099511627776
  | 6 => c.baseC ≤ 268435455 ∧ c.baseC * 4096 + c.pitch * c.height ≤ 1099511627776
  | 7 => c.staleDeadline ≤ 255
  | 8 => c.quota ≤ 262143
  | 9 => c.creditCap ≤ 65535 ∧ (0 < c.quota → 16 ≤ c.creditCap)
  | 10 => c.containment ≤ 1
  | _ => True

/-- A geometry field is valid at enable: the column "Valid at enable" of Table 4-1. -/
def Canvas.validAtEnable (c : Canvas) : CanvasField → Prop
  | .base => c.base ≤ 268435455 ∧ c.base * 4096 + c.pitch * c.height ≤ 1099511627776
  | .width => 64 ≤ c.width ∧ c.width ≤ 32768 ∧ c.width % 8 = 0
  | .height => 1 ≤ c.height ∧ c.height ≤ 16384
  | .pitch => c.pitch % 32 = 0 ∧ c.width * 4 ≤ c.pitch ∧ c.pitch ≤ 262144

/-- A value lies in the storage range of a window field: the column "Stored" of Table 4-2 and the codes of Table 4-3. -/
def windowStores (f v : Nat) : Prop :=
  match f with
  | 0 => v ≤ 1
  | 1 => v ≤ 1
  | 2 => v ≤ 255
  | 3 => v ≤ 65535
  | 4 => v ≤ 65535
  | 5 => v ≤ 65535
  | 6 => v ≤ 65535
  | 7 => v ≤ 8191
  | 8 => v ≤ 8191
  | 9 => v ≤ 15
  | 10 => v ≤ 15
  | 11 => v ≤ 8
  | 12 => v ≤ 0xFFFFFF
  | 13 => v ≤ 0xFFFFFF
  | _ => v ≤ 3 ∨ v = 7

/-- A value lies in the range of a field of STACK_STAGED (R67, R69, Table 4-4). -/
def stackStores (f v : Nat) : Prop := if f = 0 then v ≤ 32 else if f ≤ 32 then v ≤ 31 else v ≤ 1

/-- A value lies in the range of a field of GROUP_CONFIG (Table 9-1). -/
def groupStores (f v : Nat) : Prop :=
  match f with
  | 0 => v ≤ 1
  | 1 => v ≤ 255
  | 2 => v ≤ 255
  | 3 => v ≤ 65535
  | 4 => v ≤ 65535
  | 5 => v ≤ 3
  | _ => v ≤ 255

/-- A window meets a condition of R73 on a canvas. -/
def Window.failsAt (w : Window) (c : Canvas) : Prop :=
  c.width < w.x + w.width ∨ c.height < w.y + w.height ∨ w.width < 16 ∨ w.height = 0 ∨ w.width ≤ 2 * w.borderWidth ∨
    w.height ≤ 2 * w.borderWidth ∨ w.hscale = 0 ∨ 4 < w.hscale ∨ w.vscale = 0 ∨ 4 < w.vscale ∨
    (w.content = .source ∧ 15 < w.source)

/-- What a group becomes when its raw condition is evaluated as `raw`, with `t` the trigger record that an assertion would load: the
first two rows of Table 9-2 (R153 to R155, R157). -/
def Group.evaluated (x : Group) (raw : Bool) (t : Option Trigger) : Group :=
  match x.raw, raw with
  | false, true =>
    (match x.state with
     | .idle => if x.cfg.enabled then { x with state := .asserted, holdCount := 0, raw := true, trigger := t } else { x with raw := true }
     | .asserted => { x with raw := true }
     | .holding => { x with state := .asserted, holdCount := 0, raw := true })
  | true, false =>
    (match x.state with
     | .asserted =>
       if x.cfg.holdOff = 0 then { x with state := .idle, holdCount := 0, raw := false }
       else { x with state := .holding, holdCount := 0, raw := false }
     | .idle => { x with raw := false }
     | .holding => { x with raw := false })
  | true, true => x
  | false, false => x

/-- That evaluation sets OVERRIDE_CHANGE: the group enters ASSERTED from IDLE, or enters IDLE (R159). -/
def Group.evaluationChanges (x : Group) (raw : Bool) : Bool :=
  (x.state == .idle && x.cfg.enabled && !x.raw && raw) || (x.state == .asserted && x.cfg.holdOff == 0 && x.raw && !raw)

/-- From `s` to `t` every group has acted on its raw condition as it stands in `t` (R152 to R155, R157), and OVERRIDE_CHANGE is set in
`t` if it was set in `s` or a group entered ASSERTED from IDLE or entered IDLE (R159). -/
def State.groupsActed (s t : State) : Prop :=
  (∀ g : GroupId, t.override.groups[g] = s.override.groups[g].evaluated (t.rawCondition g) (t.triggerNow g)) ∧
    (t.capture.overrideChange = true ↔
      s.capture.overrideChange = true ∨
        ∃ g : GroupId, s.override.groups[g].evaluationChanges (t.rawCondition g) = true)

/-! ### What the release of a hold does to a source -/

/-- The buffer is SPENT with both hold counts 0 (R38). -/
def Source.unheldSpent (x : Source) (l : Letter) : Prop :=
  (x.bufs.get l).role = .spent ∧ (x.bufs.get l).readHold = 0 ∧ (x.bufs.get l).writeHold = 0

/-- `y` is the source `x` after fill wait has been tested (R38): if it is set and a buffer is SPENT with both hold counts 0, the
lowest-lettered such buffer becomes FILL, its poison mark is cleared and the flag is cleared; otherwise nothing changes. -/
def Source.fillWaitTested (x y : Source) : Prop :=
  (∀ l, x.fillWait = true → x.unheldSpent l → (∀ m, letters.idxOf m < letters.idxOf l → ¬x.unheldSpent m) →
      y = { x with bufs := x.bufs.put l ⟨.fill, false, 0, 0⟩, fillWait := false }) ∧
    ((x.fillWait = false ∨ ∀ l, ¬x.unheldSpent l) → y = x)

/-- `y` is the source `x` after buffer `l` has lost a read hold (R38, R39). -/
def Source.readHoldReleased (x : Source) (l : Letter) (y : Source) : Prop :=
  Source.fillWaitTested
    { x with bufs := x.bufs.put l { x.bufs.get l with readHold := (x.bufs.get l).readHold - 1 } } y

/-- `y` is source number `i`, the record `x` before, after its buffer `l` has lost a write hold, and `es` the events sent (R37, R38, R40,
R49, R50): a SEALING buffer left with none is resolved. Clean, it becomes READY, or SPENT in a CONTAINED source; poisoned, it becomes
SPENT with a POISON_DISCARD event, and a source that is AWAIT or LIVE with containment on enters CONTAINED with a CONTAIN event. -/
def Source.writeHoldReleased (x : Source) (i : SourceId) (l : Letter) (y : Source) (es : List ErrEvent) : Prop :=
  ∀ b : Buffer, b = x.bufs.get l →
    ((b.role ≠ .sealing ∨ 2 ≤ b.writeHold) →
        Source.fillWaitTested { x with bufs := x.bufs.put l { b with writeHold := b.writeHold - 1 } } y ∧ es = []) ∧
      (b.role = .sealing → b.writeHold ≤ 1 → b.poison = false → x.state ≠ .contained →
        Source.fillWaitTested { x with bufs := x.bufs.put l { b with writeHold := 0, role := .ready } } y ∧ es = []) ∧
      (b.role = .sealing → b.writeHold ≤ 1 → b.poison = false → x.state = .contained →
        Source.fillWaitTested { x with bufs := x.bufs.put l { b with writeHold := 0, role := .spent } } y ∧ es = []) ∧
      (b.role = .sealing → b.writeHold ≤ 1 → b.poison = true →
        (x.cfg.containment ≠ 1 ∨ (x.state ≠ .await ∧ x.state ≠ .live)) →
          Source.fillWaitTested { x with bufs := x.bufs.put l { b with writeHold := 0, role := .spent } } y ∧
            es = [⟨.poisonDiscard, some (i.castLE (by decide)), some (x.cfg.bufferBase l), some i, none⟩]) ∧
      (b.role = .sealing → b.writeHold ≤ 1 → b.poison = true → x.cfg.containment = 1 →
        (x.state = .await ∨ x.state = .live) →
          Source.fillWaitTested
              { x with state := .contained, bufs := x.bufs.put l { b with writeHold := 0, role := .spent } } y ∧
            es =
              [⟨.poisonDiscard, some (i.castLE (by decide)), some (x.cfg.bufferBase l), some i, none⟩,
                ⟨.contain, some (i.castLE (by decide)), some (x.cfg.bufferBase l), some i, none⟩])

/-! ### Laws -/

/-- When the first-error pointer is valid, the status of the class it names is set (R165). -/
def Capture.pointerLaw (c : Capture) : Prop := c.pointerValid = true → c.status.getLsbD c.pointerClass.num = true

/-- A buffer of the source has role `r`. -/
def Source.hasRole (x : Source) (r : Role) : Prop := ∃ l, (x.bufs.get l).role = r

/-- All three buffers are SPENT. -/
def Source.allSpent (x : Source) : Prop := ∀ l, (x.bufs.get l).role = .spent

/-- At most one buffer has role `r`. -/
def Source.oneOf (x : Source) (r : Role) : Prop :=
  ∀ l m, (x.bufs.get l).role = r → (x.bufs.get m).role = r → l = m

/-- The role laws of R31. -/
def Source.roleLaws (x : Source) : Prop :=
  x.oneOf .fill ∧ x.oneOf .sealing ∧ x.oneOf .ready ∧ x.oneOf .front ∧
    (x.state = .off → x.allSpent) ∧
    (x.state = .live → x.hasRole .front) ∧
    (x.state = .await → (x.hasRole .fill ∨ x.fillWait = true) ∧ ¬x.hasRole .front) ∧
    ((x.state = .contained ∨ x.state = .live) → x.fillWait = false → x.hasRole .fill)

/-- What the rules of chapters 2 and 3 keep beside R31: a source in fill wait has no FILL buffer (R36, R38); SEALING and READY never
stand together (R36, R37); a CONTAINED source has no READY buffer (R41); a CLOSING source has three SPENT buffers (R28); a source that
is OFF or CLOSING is not in fill wait (R22, R28). -/
def Source.roleSupport (x : Source) : Prop :=
  (x.fillWait = true → ¬x.hasRole .fill) ∧ ¬(x.hasRole .sealing ∧ x.hasRole .ready) ∧
    (x.state = .contained → ¬x.hasRole .ready) ∧ (x.state = .closing → x.allSpent) ∧
    ((x.state = .off ∨ x.state = .closing) → x.fillWait = false)

/-- The role laws hold of every source. -/
def State.roleLaws (s : State) : Prop := ∀ i : SourceId, s.sources[i].roleLaws ∧ s.sources[i].roleSupport

/-- The credit law of R142, and the credit cap that a governed source keeps (R20, R146). -/
def Source.creditLaw (x : Source) : Prop :=
  x.credit ≤ x.cfg.creditCap ∧ ((x.state = .off ∨ x.state = .closing ∨ x.quotaInEffect = 0) → x.credit = 0) ∧
    (x.state ≠ .off → (0 < x.cfg.quota ∨ 0 < x.quotaInEffect) → 16 ≤ x.cfg.creditCap)

/-- The credit law holds of every source. -/
def State.creditLaws (s : State) : Prop := ∀ i : SourceId, s.sources[i].creditLaw

/-- The capacities of the lists and the ranges of the counters. -/
def State.capacityLaws (s : State) : Prop :=
  s.uport.intake.length ≤ 16 ∧ s.uport.plainWrites.length ≤ 16 ∧ s.dport.readRun ≤ 8 ∧
    s.governor.slotIndex ≤ 1023 ∧ 1 ≤ s.governor.slotLength ∧ s.governor.slotLength ≤ 65535 ∧
    ∀ i : SourceId,
      s.sources[i].holdQueue.length ≤ 4 ∧ s.dport.writeLanes[i].length ≤ 4 ∧ s.sources[i].framesSinceFlip ≤ 255

/-- The laws of an override group beside Table 9-2: its stored raw condition is the one its inputs give (R152); with a false one it is
not ASSERTED, with a true one it is not HOLDING, and disabled it is IDLE. -/
def State.groupLaws (s : State) : Prop :=
  ∀ g : GroupId,
    s.override.groups[g].raw = s.rawCondition g ∧
      (s.override.groups[g].state = .asserted → s.override.groups[g].raw = true) ∧
      (s.override.groups[g].state = .holding → s.override.groups[g].raw = false) ∧
      (s.override.groups[g].cfg.enabled = false → s.override.groups[g].state = .idle)

/-- The contexts that hold reads have different numbers (R95), and nothing on the read path is left due: while a context is free the
intake list is empty (R17, R96); a COMPLETE context has an earlier unanswered read of its initiator before it (R98); while the walk is
paused every piece record is taken (R103); while the walker is idle no context that is to be walked is WAITING (R101). -/
def State.readPathLaw (s : State) : Prop :=
  (s.translator.contexts.map (·.num)).Nodup ∧
    ((∃ n : ContextId, ∀ c ∈ s.translator.contexts, c.num ≠ n) → s.uport.intake = []) ∧
    (∀ (pre post : List Context) (c : Context), s.translator.contexts = pre ++ c :: post → c.state = .complete →
      ∃ x ∈ pre, x.initiator = c.initiator) ∧
    (∀ c ∈ s.translator.contexts, s.translator.walker = some c.num → s.translator.paused = true →
      ∀ p : PieceId, s.translator.pieces[p].use ≠ none) ∧
    (s.translator.walker = none → ∀ c ∈ s.translator.contexts, c.cls ≠ .refused → c.state ≠ .waiting)

end Sys2Proof.Machine
end

