-- ==== Sys2Proof/Certificates/Slice0/Obligations.lean ====
section
/-! DEFINITION. The statements for the provers. Each says what an event or a command of the WR-16 leaves in every block: a conclusion
`t = { s with … }` names every block that changes, so the rest of the state is unchanged. -/

section Statements

open Sys2Proof Sys2Proof.Machine

/-! ### The machine -/

/-- A step takes the command at the front of the queue and runs it on the rest; on an empty queue the part idles (log 2, the model's
choice). -/
def Obligations.StepRunsFrontCommand : Prop :=
  (∀ (c : Instr) (q : List Instr) (s : State), s.pending = c :: q → step s = exec c { s with pending := q }) ∧
    ∀ s : State, s.pending = [] → step s = .next s

/-- The machine right after reset holds the values the spec states for reset (R22, R71, R76, R95, R99, R101, R119, R123, R124, R126, R138,
R149, R158, R170, R181, Table 11-1). GROUP_STATUS and bit 2 of PORT_STATUS read the pins as log 1 takes them: the model's choice. -/
def Obligations.ResetLeavesStatedValues : Prop :=
  ((List.range 24).map State.reset.readRegister =
      [0xFF000000, 0xFF000000, 0, 0, 0, 0, 0, 0, 0, 1627, 16, 0, 0, 0, 0, 0, 0, 0xFFF, 0xBE, 0, 0, 0, 0x03FF0000,
        0x00FF0000]) ∧
    (∀ i : SourceId,
      State.reset.sources[i].state = .off ∧ State.reset.sources[i].allSpent ∧
        (∀ l, ((State.reset.sources[i].bufs.get l).poison = false) ∧ (State.reset.sources[i].bufs.get l).readHold = 0 ∧
          (State.reset.sources[i].bufs.get l).writeHold = 0) ∧
        (∀ f, State.reset.sources[i].cfg.get f = 0) ∧ State.reset.sources[i].fillWait = false ∧
        State.reset.sources[i].framesSinceFlip = 0 ∧ State.reset.sources[i].stale = false ∧
        State.reset.sources[i].trip = false ∧ State.reset.sources[i].credit = 0 ∧
        State.reset.sources[i].capSaturated = false ∧ State.reset.sources[i].quotaInEffect = 0 ∧
        State.reset.sources[i].presented = 0 ∧ State.reset.sources[i].holdQueue = [] ∧
        State.reset.sources[i].frameTotal = 0 ∧ State.reset.dport.writeLanes[i] = []) ∧
    (State.reset.uport.intake = [] ∧ State.reset.uport.plainWrites = [] ∧ State.reset.translator.contexts = [] ∧
      State.reset.translator.walker = none ∧ State.reset.dport.readLane = []) ∧
    (∀ p : PieceId, State.reset.translator.pieces[p] = ⟨false, none⟩) ∧
    (∀ k : TrackerId, State.reset.dport.trackers[k] = ⟨false, none⟩) ∧
    State.reset.translator.palette.toList =
      [0x000000, 0x202020, 0xFFB000, 0xFF00FF, 0xFF0000, 0xFF4000, 0xFF8000, 0xFFFF00, 0x808080] ∧
    (State.reset.governor.slotTimer = none ∧ State.reset.dport.readRun = 0 ∧ State.reset.dport.lastWriteLane = 16 ∧
      State.reset.uport.intakeLast = 31 ∧ State.reset.uport.plainLast = 31) ∧
    (State.reset.layout.ctl = .idle ∧ State.reset.layout.active = .a ∧ State.reset.layout.hold = none ∧
      State.reset.layout.result = ⟨.none, none, none, none⟩) ∧
    (∀ l : Layout, (l = State.reset.layout.staged ∨ l = State.reset.layout.bankA.layout ∨
        l = State.reset.layout.bankB.layout) →
      (∀ w : WindowId, l.windows[w] = ⟨false, .source, 0, 0, 0, 0, 0, 0, 0, 1, 1, 0, 0, 0, none⟩) ∧ l.stackLen = 0 ∧
        (∀ k : Fin 32, l.stack[k] = 0) ∧ l.background = .pass) ∧
    (∀ b : Bank, (b = State.reset.layout.bankA ∨ b = State.reset.layout.bankB) →
      b.holdsLayout = false ∧ b.base = 0 ∧ b.width = 0 ∧ b.height = 0 ∧ b.pitch = 0 ∧ b.overrideList = [] ∧
        b.strips = [] ∧ b.segments = []) ∧
    (State.reset.port.startIndex = 0 ∧ State.reset.port.workingIndex = 0 ∧ State.reset.port.transaction = .none ∧
      State.reset.port.held = []) ∧
    (∀ g : GroupId, State.reset.override.groups[g] = ⟨⟨false, 0, 0, 0, 0, 0, 0⟩, .idle, 0, false, none⟩) ∧
    State.reset.loader = ⟨.idle, ⟨.none, none, 0, 0, none⟩⟩

/-- POWER_ON_RESET and PIN_RESET in every state, and SOFT_RESET whenever the port listens, begin their resets: every block takes the
values of the machine after reset; a pin or soft reset keeps the twelve statuses, the first-error pointer and the fault record, a
power-on reset clears them. The lanes stay with the link, and what only the reset's end samples keeps its value until then (log 24,
the model's choice). -/
def Obligations.ResetsTakeResetValues : Prop :=
  ∀ (s : State) (i : Instr) (k : ResetKind),
    ((i = .powerOnReset ∧ k = .powerOn) ∨ (i = .pinReset ∧ k = .pin) ∨
      (∃ operand, i = .softReset operand ∧ k = .soft ∧ s.listening)) →
      exec i s =
        .next
          { State.reset with
            resetting := some k
            uport := { State.reset.uport with lanes := s.uport.lanes }
            override := { State.reset.override with sensed := s.override.sensed }
            capture :=
              if k = .powerOn then State.reset.capture
              else
                { State.reset.capture with
                  status := s.capture.status, pointerValid := s.capture.pointerValid
                  pointerClass := s.capture.pointerClass, fault := s.capture.fault }
            port := { State.reset.port with targetAddress := s.port.targetAddress, booten := s.port.booten }
            pending := s.pending }

/-- RESET_END ends the reset in progress, every group being as the reset left it: the straps and BOOTEN are sampled, each sensed level
takes the level of its pin, and the loader enters VERIFY if BOOTEN is high. With no reset in progress nothing ends (log 3). -/
def Obligations.ResetEndSamplesPins : Prop :=
  (∀ (s : State) (pins : ResetPins), s.resetting.isSome = true →
    (∀ g : GroupId, s.override.groups[g] = ⟨⟨false, 0, 0, 0, 0, 0, 0⟩, .idle, 0, false, none⟩) →
      exec (.resetEnd pins) s =
        .next
          { s with
            resetting := none
            override := { s.override with sensed := pins.alm }
            port := { s.port with targetAddress := BitVec.ofNat 7 (0x52 + pins.mad.toNat), booten := pins.booten }
            loader := if pins.booten then ⟨.verify, ⟨.none, none, 0, 0, none⟩⟩ else s.loader
            links := Links.none }) ∧
    ∀ (s : State) (pins : ResetPins), s.resetting = none → exec (.resetEnd pins) s = .next { s with links := Links.none }

/-- While any reset is in progress nothing acts but the resets themselves, the reset's end and the arrival of requests on the lanes:
every other command leaves the state as it is, IRQn is released and DRSTn is low. That the expiry of a timer, a completion of the
compiler and an event of the loader, which no rule names during a reset, do nothing then is log 3, the model's choice. While the loader
is in VERIFY or APPLY the management port takes no index byte, no data byte, no read and, of the rows for commands and tables, no OPEN,
SOFT_RESET or SOURCE_CONFIG. -/
def Obligations.NothingActsDuringReset : Prop :=
  (∀ (c : Instr) (s : State), s.resetting.isSome = true → c.wellFormed = true →
    c ≠ .powerOnReset → c ≠ .pinReset → (∀ pins, c ≠ .resetEnd pins) → (∀ r, c ≠ .uRequest r) →
      exec c s = .next { s with links := Links.none }) ∧
    (∀ s : State, s.resetting.isSome = true → s.irqLow = false ∧ s.drstLow = true) ∧
    ∀ s : State, s.loader.state ≠ .idle →
      (∀ b, exec (.indexByte b) s = .next { s with links := Links.none }) ∧
        exec .partialWord s = .next { s with links := Links.none } ∧
        (∀ r n, exec (.tableDataRead r n) s = .next { s with links := Links.none }) ∧
        (∀ b more, more.length ≤ 3 →
          exec (.registerWrite b more) s = .next { s with links := Links.none }) ∧
        (∀ v, exec (.tablePointer v) s = .next { s with links := Links.none }) ∧
        (∀ o, exec (.openSource o) s = .next { s with links := Links.none }) ∧
        (∀ o, exec (.softReset o) s = .next { s with links := Links.none }) ∧
        ∀ i f v, exec (.sourceConfig i f v) s = .next { s with links := Links.none }

/-! ### The U-port -/

/-- U_REQUEST: a request joins the tail of its side of its initiator's lane, in every state; every other lane side is unchanged. -/
def Obligations.RequestJoinsItsLane : Prop :=
  ∀ (s : State) (r : URequest), r.wellFormed = true →
    ∃ t, exec (.uRequest r) s = .next t ∧
      t = { s with uport := { s.uport with lanes := t.uport.lanes }, links := Links.none } ∧
      t.uport.side r.initiator r.kind = s.uport.side r.initiator r.kind ++ [r] ∧
      ∀ i k, (i ≠ r.initiator ∨ k ≠ r.kind) → t.uport.side i k = s.uport.side i k

/-- A request, a READ response or data bytes that no link or bus carries are refused by name (log 20, the model's choice). A request is
1 to 16 beats long, with one 32-byte data entry for each beat of a write and none for a read; the data of a READ response with status OK
are 1 to 16 beats of 32 bytes, and any other response carries none; the data bytes of one word are one to four. -/
def Obligations.IllFormedRecordsAreRefused : Prop :=
  (∀ r : URequest, r.wellFormed = true ↔
    (1 ≤ r.beats ∧ r.beats ≤ 16 ∧ (r.kind = .read → r.data = []) ∧
      (r.kind = .write → r.data.length = r.beats ∧ ∀ b ∈ r.data, b.bytes.length = 32))) ∧
    (∀ (p : PieceId) (g : Bool) (d : List Byte), (DResponse.readOk p g d).wellFormed = true ↔
      ∃ n, 1 ≤ n ∧ n ≤ 16 ∧ d.length = 32 * n) ∧
    (∀ (p : PieceId) (k : TrackerId) (g : Bool), (DResponse.readError p g).wellFormed = true ∧
      (DResponse.writeOk k g).wellFormed = true ∧ (DResponse.writeError k g).wellFormed = true) ∧
    (∀ (r : URequest) (s : State), r.wellFormed = false → exec (.uRequest r) s = .refused .illFormed) ∧
    (∀ (r : DResponse) (s : State), r.wellFormed = false → exec (.downstreamResponse r) s = .refused .illFormed) ∧
    ∀ (b : Byte) (more : List Byte) (s : State), 3 < more.length → exec (.registerWrite b more) s = .refused .illFormed

/-- The regions of the decoder are the canvas region while the canvas is enabled and the aperture and buffers of every source that is
not OFF (Table 1-4). Classification goes by bytes (R8 to R13, Table 1-5): an unaligned request, one past the end of the address space
and one that is not wholly in one region is refused with DECODE; otherwise its region, kind and initiator give the class. -/
def Obligations.ClassificationFollowsRegions : Prop :=
  (∀ (s : State) (g : Region), g ∈ s.regions ↔
    (s.layout.canvas.enabled = true ∧
        g = ⟨.canvas, s.layout.canvas.base * 4096, s.layout.canvas.pitch * s.layout.canvas.height⟩) ∨
      ∃ i : SourceId, s.sources[i].state ≠ .off ∧
        (g = ⟨.aperture i, s.sources[i].cfg.apertureBase * 4096, s.sources[i].cfg.pitch * s.sources[i].cfg.height⟩ ∨
          g = ⟨.buffer i .a, s.sources[i].cfg.baseA * 4096, s.sources[i].cfg.pitch * s.sources[i].cfg.height⟩ ∨
          g = ⟨.buffer i .b, s.sources[i].cfg.baseB * 4096, s.sources[i].cfg.pitch * s.sources[i].cfg.height⟩ ∨
          g = ⟨.buffer i .c, s.sources[i].cfg.baseC * 4096, s.sources[i].cfg.pitch * s.sources[i].cfg.height⟩)) ∧
    ∀ (s : State) (r : URequest), 1 ≤ r.beats → s.regionsApart →
    ((r.address.toNat % 32 ≠ 0 ∨ 1099511627776 < r.address.toNat + r.beats * 32) →
        s.classify r = .refused .decode none) ∧
      (r.address.toNat % 32 = 0 → r.address.toNat + r.beats * 32 ≤ 1099511627776 →
        ((∀ g ∈ s.regions, ∀ a, r.address.toNat ≤ a → a < r.address.toNat + r.beats * 32 → g.has a = false) →
            s.classify r = .plain) ∧
          (∀ g ∈ s.regions, (∀ a, r.address.toNat ≤ a → a < r.address.toNat + r.beats * 32 → g.has a = true) →
            (g.id = .canvas → r.kind = .write → s.classify r = .canvas) ∧
              (g.id = .canvas → r.kind = .read →
                s.classify r =
                  if (r.address.toNat - s.layout.canvas.base * 4096) / s.layout.canvas.pitch =
                      (r.address.toNat + r.beats * 32 - 1 - s.layout.canvas.base * 4096) / s.layout.canvas.pitch then .canvas
                  else .refused .decode none) ∧
              (∀ i, g.id = .aperture i → r.kind = .read → s.classify r = .refused .decode (some i)) ∧
              (∀ i, g.id = .aperture i → r.kind = .write →
                s.classify r = if r.initiator.val = i.val then .aperture i else .refused .guard (some i)) ∧
              ∀ i l, g.id = .buffer i l → s.classify r = .refused .guard (some i)) ∧
          ((∃ g ∈ s.regions, ∃ a, r.address.toNat ≤ a ∧ a < r.address.toNat + r.beats * 32 ∧ g.has a = true) →
            (∀ g ∈ s.regions, ∃ a, r.address.toNat ≤ a ∧ a < r.address.toNat + r.beats * 32 ∧ g.has a = false) →
              s.classify r = .refused .decode none))

/-- The three arbiters go round (R6, R122, R124). A shared list of the U-port hands a free entry to the first waiting initiator in
increasing number after the one that last took an entry, wrapping from 31 to 0; the D-port grants the first eligible write lane after
the one last granted, wrapping from 16 to 0. Of all who wait, it is the one at the smallest distance. A read head always waits for the
intake list; a write head waits for the plain write list when its class is CANVAS or PLAIN (Table 1-3). -/
def Obligations.ArbitersAreRoundRobin : Prop :=
  (∀ (s : State) (i : Initiator), s.intakeTurn = some i ↔
    (s.uport.side i .read ≠ [] ∧
      ∀ j : Initiator, s.uport.side j .read ≠ [] →
        (i.val + 31 - s.uport.intakeLast.val) % 32 ≤ (j.val + 31 - s.uport.intakeLast.val) % 32)) ∧
    (∀ (s : State) (i : Initiator), s.plainTurn = some i ↔
      (s.waitsForPlainList i = true ∧
        ∀ j : Initiator, s.waitsForPlainList j = true →
          (i.val + 31 - s.uport.plainLast.val) % 32 ≤ (j.val + 31 - s.uport.plainLast.val) % 32)) ∧
    (∀ (s : State) (i : Initiator), s.waitsForPlainList i = true ↔
      ∃ r rest, s.uport.side i .write = r :: rest ∧ (s.classify r = .plain ∨ s.classify r = .canvas)) ∧
    ∀ (s : State) (l : Fin 17), s.writeChoice = some l ↔
      ((∃ k : TrackerId, s.dport.trackers[k].use = none) ∧ (s.laneHead l).isSome = true ∧
        ∀ m : Fin 17, (s.laneHead m).isSome = true →
          (l.val + 16 - s.dport.lastWriteLane.val) % 17 ≤ (m.val + 16 - s.dport.lastWriteLane.val) % 17)

/-- LANE_HEAD_ACCEPT of an APERTURE write (R4, R14, R15, R29): it enters the hold queue of a source that is not CLOSING if the queue
has room and waits if it has none; for a CLOSING source it is dropped; an accepted write is answered OK. -/
def Obligations.ApertureWriteAccepted : Prop :=
  ∀ (s : State) (r : URequest) (rest : List URequest) (i : SourceId), s.resetting = none →
    s.uport.side r.initiator .write = r :: rest → s.classify r = .aperture i →
      (s.sources[i].state ≠ .closing → s.sources[i].holdQueue.length < 4 →
        ∃ t, exec (.laneHeadAccept r.initiator .write) s = .next t ∧
          t =
            { s with
              uport := s.uport.putSide r.initiator .write rest
              sources :=
                putAt s.sources i
                  { s.sources[i] with
                    holdQueue :=
                      s.sources[i].holdQueue ++
                        [⟨r.address.toNat - s.sources[i].cfg.apertureBase * 4096, r.beats, r.data⟩] }
              links := ⟨[⟨r.initiator, r.label, .write, .ok, []⟩], [], none⟩ }) ∧
        (s.sources[i].state ≠ .closing → 4 ≤ s.sources[i].holdQueue.length →
          exec (.laneHeadAccept r.initiator .write) s = .next { s with links := Links.none }) ∧
        (s.sources[i].state = .closing →
          exec (.laneHeadAccept r.initiator .write) s =
            .next
              { s with
                uport := s.uport.putSide r.initiator .write rest
                links := ⟨[⟨r.initiator, r.label, .write, .ok, []⟩], [], none⟩ })

/-- LANE_HEAD_ACCEPT of other writes (R6, R14, R16, R18). A CANVAS or PLAIN write, with an entry free and its turn come, enters the
plain write list without poison marks and is answered OK; without an entry it waits. A refused write is answered REFUSED, discarded,
and one event of its class goes to error capture with its initiator, its address and the source of the region. -/
def Obligations.OtherWritesAccepted : Prop :=
  ∀ (s : State) (r : URequest) (rest : List URequest), s.resetting = none →
    s.uport.side r.initiator .write = r :: rest →
      ((s.classify r = .plain ∨ s.classify r = .canvas) → s.uport.plainWrites.length < 16 →
        s.plainTurn = some r.initiator →
          exec (.laneHeadAccept r.initiator .write) s =
            .next
              { s with
                uport :=
                  { s.uport.putSide r.initiator .write rest with
                    plainWrites :=
                      s.uport.plainWrites ++
                        [⟨r.initiator, r.address.toNat, r.beats, r.data.map fun b => ⟨b.bytes, b.enables⟩⟩]
                    plainLast := r.initiator }
                links := ⟨[⟨r.initiator, r.label, .write, .ok, []⟩], [], none⟩ }) ∧
        ((s.classify r = .plain ∨ s.classify r = .canvas) →
          (16 ≤ s.uport.plainWrites.length ∨ s.plainTurn ≠ some r.initiator) →
            exec (.laneHeadAccept r.initiator .write) s = .next { s with links := Links.none }) ∧
        ∀ (cls : ErrClass) (src : Option SourceId), s.classify r = .refused cls src →
          exec (.laneHeadAccept r.initiator .write) s =
            .next
              { s with
                uport := s.uport.putSide r.initiator .write rest
                capture :=
                  s.capture.record s.governor.frameCount ⟨cls, some r.initiator, some r.address.toNat, src, none⟩
                links := ⟨[⟨r.initiator, r.label, .write, .refused, []⟩], [], none⟩ }

/-- LANE_HEAD_ACCEPT of a read (R6, R14, R17, R18, R96, R98). With an entry free and its turn come it enters the intake list with its
class; it stays there while every context holds a read, and passes at once into the lowest-numbered free context otherwise. There it
waits for a walk in progress; an idle walker starts its walk in the same event, and a PLAIN read with a free piece record ends it there.
A refused read that finds a context and no earlier read of its initiator unanswered is answered REFUSED in the same event, without data;
with an earlier one it stays COMPLETE in its context. Without an entry a read waits. -/
def Obligations.ReadsEnterIntakeList : Prop :=
  ∀ (s : State) (r : URequest) (rest : List URequest), s.resetting = none → s.settled →
    s.uport.side r.initiator .read = r :: rest →
      (s.uport.intake.length < 16 → s.intakeTurn = some r.initiator →
        (∀ n : ContextId, ∃ c ∈ s.translator.contexts, c.num = n) →
          (s.classify r = .plain ∨ s.classify r = .canvas) →
            exec (.laneHeadAccept r.initiator .read) s =
              .next
                { s with
                  uport :=
                    { s.uport.putSide r.initiator .read rest with
                      intake :=
                        s.uport.intake ++
                          [⟨r.initiator, r.label, r.address.toNat, r.beats,
                            if s.classify r = .canvas then .canvas else .plain⟩]
                      intakeLast := r.initiator }
                  links := Links.none }) ∧
        (s.uport.intake = [] → s.intakeTurn = some r.initiator → s.translator.walking.isSome = true →
          ∀ n : ContextId, (∀ c ∈ s.translator.contexts, c.num ≠ n) →
            (∀ m : ContextId, m < n → ∃ c ∈ s.translator.contexts, c.num = m) →
              (s.classify r = .plain ∨ s.classify r = .canvas) →
                exec (.laneHeadAccept r.initiator .read) s =
                  .next
                    { s with
                      uport := { s.uport.putSide r.initiator .read rest with intakeLast := r.initiator }
                      translator :=
                        { s.translator with
                          contexts :=
                            s.translator.contexts ++
                              [⟨n, r.initiator, r.label, r.address.toNat, r.beats,
                                if s.classify r = .canvas then .canvas else .plain, none, [], false, .waiting⟩] }
                      links := Links.none }) ∧
        (s.uport.intake = [] → s.intakeTurn = some r.initiator → s.translator.walker = none →
          ∀ n : ContextId, (∀ c ∈ s.translator.contexts, c.num ≠ n) →
            (∀ m : ContextId, m < n → ∃ c ∈ s.translator.contexts, c.num = m) →
              (s.classify r = .canvas →
                exec (.laneHeadAccept r.initiator .read) s =
                  .next
                    { s with
                      uport := { s.uport.putSide r.initiator .read rest with intakeLast := r.initiator }
                      layout := { s.layout with hold := some s.layout.active }
                      translator :=
                        { s.translator with
                          contexts :=
                            s.translator.contexts ++
                              [⟨n, r.initiator, r.label, r.address.toNat, r.beats, .canvas,
                                some
                                  ⟨s.layout.active,
                                    (r.address.toNat - s.layout.activeBank.base * 4096) / s.layout.activeBank.pitch,
                                    (r.address.toNat - s.layout.activeBank.base * 4096) % s.layout.activeBank.pitch / 4⟩,
                                [], false, .walking⟩]
                          walker := some n
                          paused := false }
                      links := Links.none }) ∧
                (s.classify r = .plain → (∀ p : PieceId, s.translator.pieces[p].use = none →
                  (∀ q : PieceId, q < p → s.translator.pieces[q].use ≠ none) →
                    exec (.laneHeadAccept r.initiator .read) s =
                      .next
                        { s with
                          uport := { s.uport.putSide r.initiator .read rest with intakeLast := r.initiator }
                          translator :=
                            { s.translator with
                              contexts :=
                                s.translator.contexts ++
                                  [⟨n, r.initiator, r.label, r.address.toNat, r.beats, .plain, none, [p], false,
                                    .gathering⟩]
                              pieces :=
                                putAt s.translator.pieces p
                                  ⟨s.translator.pieces[p].generation,
                                    some ⟨n, 0, r.beats * 8, .plain r.address.toNat r.beats, .queued, none, none⟩⟩
                              paused := false }
                          dport := { s.dport with readLane := s.dport.readLane ++ [p] }
                          links := Links.none })) ∧
                (s.classify r = .plain → (∀ p : PieceId, s.translator.pieces[p].use ≠ none) →
                  exec (.laneHeadAccept r.initiator .read) s =
                    .next
                      { s with
                        uport := { s.uport.putSide r.initiator .read rest with intakeLast := r.initiator }
                        translator :=
                          { s.translator with
                            contexts :=
                              s.translator.contexts ++
                                [⟨n, r.initiator, r.label, r.address.toNat, r.beats, .plain, none, [], false, .walking⟩]
                            walker := some n
                            paused := true }
                        links := Links.none })) ∧
        (∀ (cls : ErrClass) (src : Option SourceId), s.classify r = .refused cls src → s.uport.intake.length < 16 →
          s.intakeTurn = some r.initiator → (∀ n : ContextId, ∃ c ∈ s.translator.contexts, c.num = n) →
            exec (.laneHeadAccept r.initiator .read) s =
              .next
                { s with
                  uport :=
                    { s.uport.putSide r.initiator .read rest with
                      intake := s.uport.intake ++ [⟨r.initiator, r.label, r.address.toNat, r.beats, .refused⟩]
                      intakeLast := r.initiator }
                  capture :=
                    s.capture.record s.governor.frameCount ⟨cls, some r.initiator, some r.address.toNat, src, none⟩
                  links := Links.none }) ∧
        (∀ (cls : ErrClass) (src : Option SourceId) (n : ContextId), s.classify r = .refused cls src →
          s.uport.intake = [] → s.intakeTurn = some r.initiator → (∀ c ∈ s.translator.contexts, c.num ≠ n) →
            (∀ m : ContextId, m < n → ∃ c ∈ s.translator.contexts, c.num = m) →
              (∃ c ∈ s.translator.contexts, c.initiator = r.initiator) →
                exec (.laneHeadAccept r.initiator .read) s =
                  .next
                    { s with
                      uport := { s.uport.putSide r.initiator .read rest with intakeLast := r.initiator }
                      translator :=
                        { s.translator with
                          contexts :=
                            s.translator.contexts ++
                              [⟨n, r.initiator, r.label, r.address.toNat, r.beats, .refused, none, [], false, .complete⟩] }
                      capture :=
                        s.capture.record s.governor.frameCount
                          ⟨cls, some r.initiator, some r.address.toNat, src, none⟩
                      links := Links.none }) ∧
        (∀ (cls : ErrClass) (src : Option SourceId), s.classify r = .refused cls src → s.uport.intake = [] →
          s.intakeTurn = some r.initiator → (∃ n : ContextId, ∀ c ∈ s.translator.contexts, c.num ≠ n) →
            (∀ c ∈ s.translator.contexts, c.initiator ≠ r.initiator) →
              exec (.laneHeadAccept r.initiator .read) s =
                .next
                  { s with
                    uport := { s.uport.putSide r.initiator .read rest with intakeLast := r.initiator }
                    capture :=
                      s.capture.record s.governor.frameCount
                        ⟨cls, some r.initiator, some r.address.toNat, src, none⟩
                    links := ⟨[⟨r.initiator, r.label, .read, .refused, []⟩], [], none⟩ }) ∧
        ((16 ≤ s.uport.intake.length ∨ s.intakeTurn ≠ some r.initiator) →
          exec (.laneHeadAccept r.initiator .read) s = .next { s with links := Links.none })

/-! ### The read translator -/

/-- CONTEXT_PLACEMENT (R96), on a waiting entry with a walk in progress and nothing else due: the oldest entry goes to the
lowest-numbered free context; a refused read with no earlier read of its initiator unanswered is answered at once; with no context
free nothing is placed. -/
def Obligations.PlacementTakesLowestFreeContext : Prop :=
  ∀ (s : State) (e : IntakeEntry), s.resetting = none → s.uport.intake = [e] →
    s.translator.walking.isSome = true →
      (s.translator.paused = false ∨ ∀ p : PieceId, s.translator.pieces[p].use ≠ none) →
        (∀ c ∈ s.translator.contexts, c.state ≠ .complete) →
          (∀ n : ContextId, (∀ c ∈ s.translator.contexts, c.num ≠ n) →
            (∀ m : ContextId, m < n → ∃ c ∈ s.translator.contexts, c.num = m) →
              (e.cls ≠ .refused →
                exec .contextPlacement s =
                  .next
                    { s with
                      uport := { s.uport with intake := [] }
                      translator :=
                        { s.translator with
                          contexts :=
                            s.translator.contexts ++
                              [⟨n, e.initiator, e.label, e.address, e.beats, e.cls, none, [], false, .waiting⟩] }
                      links := Links.none }) ∧
                (e.cls = .refused → (∀ c ∈ s.translator.contexts, c.initiator ≠ e.initiator) →
                  exec .contextPlacement s =
                    .next
                      { s with
                        uport := { s.uport with intake := [] }
                        links := ⟨[⟨e.initiator, e.label, .read, .refused, []⟩], [], none⟩ })) ∧
            ((∀ n : ContextId, ∃ c ∈ s.translator.contexts, c.num = n) →
              exec .contextPlacement s = .next { s with links := Links.none })

/-- WALK_START (R82, R101) of the earliest WAITING context by an idle walker: a CANVAS context records the active bank, its row and its
first column, and the walker's hold becomes that bank; a PLAIN context takes its one piece, whose sub-read joins the read lane, and
its walk ends; with no free piece record a PLAIN walk pauses. -/
def Obligations.WalkStartsEarliestWaiting : Prop :=
  ∀ (s : State) (pre post : List Context) (c : Context), s.resetting = none → s.translator.walker = none →
    s.uport.intake = [] → s.translator.contexts = pre ++ c :: post → (s.translator.contexts.map (·.num)).Nodup →
      c.state = .waiting → (∀ x ∈ pre, x.state ≠ .waiting) → (∀ x ∈ s.translator.contexts, x.state ≠ .complete) →
        (c.cls = .canvas →
          exec .walkStart s =
            .next
              { s with
                layout := { s.layout with hold := some s.layout.active }
                translator :=
                  { s.translator with
                    contexts :=
                      pre ++
                        { c with
                          state := .walking
                          place :=
                            some
                              ⟨s.layout.active,
                                (c.address - s.layout.activeBank.base * 4096) / s.layout.activeBank.pitch,
                                (c.address - s.layout.activeBank.base * 4096) % s.layout.activeBank.pitch / 4⟩ } :: post
                    walker := some c.num
                    paused := false }
                links := Links.none }) ∧
          (c.cls = .plain → c.place = none → c.pieces = [] → 1 ≤ c.beats → (∀ x ∈ post, x.state ≠ .waiting) →
            (∀ n : PieceId, s.translator.pieces[n].use = none →
              (∀ m : PieceId, m < n → s.translator.pieces[m].use ≠ none) →
                exec .walkStart s =
                  .next
                    { s with
                      translator :=
                        { s.translator with
                          contexts := pre ++ { c with state := .gathering, pieces := [n] } :: post
                          pieces :=
                            putAt s.translator.pieces n
                              ⟨s.translator.pieces[n].generation,
                                some ⟨c.num, 0, c.beats * 8, .plain c.address c.beats, .queued, none, none⟩⟩
                          walker := none
                          paused := false }
                      dport := { s.dport with readLane := s.dport.readLane ++ [n] }
                      links := Links.none }) ∧
              ((∀ m : PieceId, s.translator.pieces[m].use ≠ none) →
                exec .walkStart s =
                  .next
                    { s with
                      translator :=
                        { s.translator with
                          contexts := pre ++ { c with state := .walking } :: post
                          walker := some c.num
                          paused := true }
                      links := Links.none }))

/-- PIECE_GENERATION (R39, R84, R97 to R100, R102 to R104) in a CANVAS walk, with no other read waiting or complete: the piece that is due
takes the lowest-numbered free record and joins its context; unless it is a COLOR piece its sub-read joins the read lane, and an IMAGE
piece takes a read hold. The piece that covers the last pixel ends the walk and frees the bank, which in DRAIN makes the checks of a
commit and enters COMPILE or ends the commit. The context is then GATHERING while a piece of it is not DONE; otherwise it is COMPLETE,
and answered in the same event unless an earlier read of its initiator is unanswered. With no free record the walk pauses. -/
def Obligations.GenerationTakesLowestFreeRecord : Prop :=
  ∀ (s : State) (pre post : List Context) (c : Context) (place : WalkPlace) (u : PieceUse), s.resetting = none →
    s.uport.intake = [] → s.translator.walker = some c.num → s.translator.contexts = pre ++ c :: post →
      (s.translator.contexts.map (·.num)).Nodup → c.cls = .canvas → c.state = .walking → c.place = some place →
        (∀ x ∈ s.translator.contexts, x.state ≠ .complete ∧ x.state ≠ .waiting) →
          u = s.pieceDue c (c.pieces.map s.translator.pieceCount).sum →
            (∀ (n : PieceId) (e v : State), s.translator.pieces[n].use = none →
              (∀ m : PieceId, m < n → s.translator.pieces[m].use ≠ none) →
                e =
                  { s with
                    dport :=
                      (match u.kind with
                       | .colour _ => s.dport
                       | _ => { s.dport with readLane := s.dport.readLane ++ [n] })
                    sources :=
                      (match u.kind with
                       | .image f =>
                         putAt s.sources f.source
                           { s.sources[f.source] with
                             bufs :=
                               s.sources[f.source].bufs.put f.buffer
                                 { s.sources[f.source].bufs.get f.buffer with
                                   readHold := (s.sources[f.source].bufs.get f.buffer).readHold + 1 } }
                       | _ => s.sources)
                    links := Links.none } →
                (u.first + u.count < c.beats * 8 →
                  exec .pieceGeneration s =
                    .next
                      { e with
                        translator :=
                          { s.translator with
                            contexts := pre ++ { c with pieces := c.pieces ++ [n] } :: post
                            pieces := putAt s.translator.pieces n ⟨s.translator.pieces[n].generation, some u⟩
                            paused := false } }) ∧
                  (c.beats * 8 ≤ u.first + u.count →
                    (s.layout.ctl ≠ .drain → v = { e with layout := { s.layout with hold := none } }) →
                    (s.layout.ctl = .drain → s.layout.checkFailure = none →
                      v = { e with layout := { s.layout with hold := none, ctl := .compile } }) →
                    (∀ code w, s.layout.ctl = .drain → s.layout.checkFailure = some (code, w) →
                      v =
                        { e with
                          layout :=
                            { s.layout.putBank s.layout.inactive Bank.empty with
                              hold := none, ctl := .idle, result := ⟨.failed, some code, w, none⟩ }
                          capture :=
                            { s.capture.record s.governor.frameCount ⟨.commitFail, none, none, none, w⟩ with
                              commitEnd := true } }) →
                      (((∀ k, u.kind ≠ .colour k) ∨
                          ∃ q ∈ c.pieces, ∃ x, s.translator.pieces[q].use = some x ∧ x.state ≠ .done) →
                        exec .pieceGeneration s =
                          .next
                            { v with
                              translator :=
                                { s.translator with
                                  contexts := pre ++ { c with pieces := c.pieces ++ [n], state := .gathering } :: post
                                  pieces := putAt s.translator.pieces n ⟨s.translator.pieces[n].generation, some u⟩
                                  walker := none
                                  paused := false } }) ∧
                        ((∃ k, u.kind = .colour k) →
                          (∀ q ∈ c.pieces, ∃ x, s.translator.pieces[q].use = some x ∧ x.state = .done) →
                            ((∃ x ∈ pre, x.initiator = c.initiator) →
                              exec .pieceGeneration s =
                                .next
                                  { v with
                                    translator :=
                                      { s.translator with
                                        contexts := pre ++ { c with pieces := c.pieces ++ [n], state := .complete } :: post
                                        pieces := putAt s.translator.pieces n ⟨s.translator.pieces[n].generation, some u⟩
                                        walker := none
                                        paused := false } }) ∧
                              ((∀ x ∈ pre, x.initiator ≠ c.initiator) →
                                ∃ t, exec .pieceGeneration s = .next t ∧
                                  t =
                                    { v with
                                      translator :=
                                        { s.translator with
                                          contexts := pre ++ post, pieces := t.translator.pieces, walker := none, paused := false }
                                      links :=
                                        ⟨[⟨c.initiator, c.label, .read,
                                            if c.partialFlag = true then .partialData else .ok,
                                            c.pieces.flatMap (s.translator.recordBytes c) ++ pieceBytes c u⟩], [], none⟩ } ∧
                                  (∀ q ∈ c.pieces, t.translator.pieces[q] = ⟨s.translator.pieces[q].generation, none⟩) ∧
                                  ∀ q : PieceId, q ∉ c.pieces → t.translator.pieces[q] = s.translator.pieces[q])))) ∧
              ((∀ m : PieceId, s.translator.pieces[m].use ≠ none) →
                exec .pieceGeneration s =
                  .next { s with translator := { s.translator with paused := true }, links := Links.none })

/-- A pixel is owned, in a compiled bank, by the first window of the override list that is shown and covers it, else by the first
stacked window that covers it, else by BACKGROUND; beyond the canvas width it is PADDING (R68, R79, R105 to R107). The override list
holds the enabled windows that carry a group, by group and then by number (R78). The strips and segments of the compile lose nothing. -/
def Obligations.OwnerIsFirstWindowThatCovers : Prop :=
  (∀ (l : Layout) (canvas : Canvas), l.isOverrideList (l.compile canvas).overrideList) ∧
  ∀ (s : State) (l : Layout) (canvas : Canvas) (x y : Nat), y < canvas.height →
    (canvas.width ≤ x → s.ownerAt (l.compile canvas) x y = .padding) ∧
      (x < canvas.width →
        (∀ (pre post : List WindowId) (w : WindowId), (l.compile canvas).overrideList = pre ++ w :: post →
          (∃ g, l.windows[w].group = some g ∧ s.override.groups[g].state ≠ .idle) → l.windows[w].covers x y = true →
            (∀ v ∈ pre, (∀ g, l.windows[v].group = some g → s.override.groups[g].state = .idle) ∨
              l.windows[v].covers x y = false) →
              s.ownerAt (l.compile canvas) x y = .window w true) ∧
          ((∀ v ∈ (l.compile canvas).overrideList,
              (∀ g, l.windows[v].group = some g → s.override.groups[g].state = .idle) ∨ l.windows[v].covers x y = false) →
            (∀ (pre post : List WindowId) (w : WindowId), l.stacked = pre ++ w :: post → l.windows[w].covers x y = true →
              (∀ v ∈ pre, l.windows[v].covers x y = false) → s.ownerAt (l.compile canvas) x y = .window w false) ∧
              ((∀ v ∈ l.stacked, l.windows[v].covers x y = false) → s.ownerAt (l.compile canvas) x y = .background)))

/-- What a pixel shows (Table 6-4, R108 to R111): PADDING and BACKGROUND in mode PASS canvas memory; BACKGROUND in mode FILL palette
entry 0; a border band its colour by precedence, a shown group `g` palette entry 4 + `g`; a FILL body its fill colour; a SOURCE body
palette entry 1 without a shown frame, the fill colour outside the image, and else the mapped pixel of the FRONT buffer. `i` is the
source a SOURCE window names, a number that a commit admits only up to 15 (R73). -/
def Obligations.PixelShowsAsTableSays : Prop :=
  ∀ (s : State) (b : Bank) (x y : Nat),
    (s.ownerAt b x y = .padding → s.showsAt b y x = .plain) ∧
      (s.ownerAt b x y = .background → b.layout.background = .pass → s.showsAt b y x = .plain) ∧
      (s.ownerAt b x y = .background → b.layout.background = .fill →
        s.showsAt b y x = .colour s.translator.palette[(0 : Fin 9)]) ∧
      ∀ (n : WindowId) (via : Bool) (w : Window) (e : Nat) (i : SourceId), s.ownerAt b x y = .window n via →
        w = b.layout.windows[n] → (w.content = .source → w.source = i.val) →
        (e = if w.borderWidth ≠ 0 then w.borderWidth
          else if via = true ∨ (w.content = .source ∧
            (s.sources[i].state = .contained ∨ s.sources[i].stale = true)) then 2 else 0) →
          ((x < w.x + e ∨ w.x + w.width ≤ x + e ∨ y < w.y + e ∨ w.y + w.height ≤ y + e) →
            (via = true → ∃ g, w.group = some g ∧
                ∀ k : Fin 9, k.val = 4 + g.val → s.showsAt b y x = .colour s.translator.palette[k]) ∧
              (via = false → w.content = .source → s.sources[i].state = .contained →
                s.showsAt b y x = .colour s.translator.palette[(3 : Fin 9)]) ∧
              (via = false → w.content = .source → s.sources[i].state ≠ .contained →
                s.sources[i].stale = true → s.showsAt b y x = .colour s.translator.palette[(2 : Fin 9)]) ∧
              (via = false → (w.content = .fill ∨
                  (s.sources[i].state ≠ .contained ∧ s.sources[i].stale = false)) →
                s.showsAt b y x = .colour w.borderColour)) ∧
            (¬(x < w.x + e ∨ w.x + w.width ≤ x + e ∨ y < w.y + e ∨ w.y + w.height ≤ y + e) →
              (w.content = .fill → s.showsAt b y x = .colour w.fillColour) ∧
                (w.content = .source →
                  ((s.sources[i].state ≠ .live ∧ s.sources[i].state ≠ .contained) ∨
                    ¬s.sources[i].hasRole .front) →
                    s.showsAt b y x = .colour s.translator.palette[(1 : Fin 9)]) ∧
                (w.content = .source →
                  (s.sources[i].state = .live ∨ s.sources[i].state = .contained) →
                    s.sources[i].oneOf .front →
                      ∀ l, (s.sources[i].bufs.get l).role = .front →
                        s.showsAt b y x =
                          if s.sources[i].cfg.width ≤ w.cropX + (x - w.x) / w.hscale ∨
                              s.sources[i].cfg.height ≤ w.cropY + (y - w.y) / w.vscale then .colour w.fillColour
                          else .image n i l (w.cropX + (x - w.x) / w.hscale) (w.cropY + (y - w.y) / w.vscale)))

/-- The piece that is due at request pixel `j` of a CANVAS context (R102, R113 to R115): it begins at `j`, covers the longest run of
pixels of one kind, and its sub-read covers exactly the beats of that run, an IMAGE piece's at most 16. -/
def Obligations.PieceCoversLongestRun : Prop :=
  ∀ (s : State) (c : Context) (p : WalkPlace) (j : Nat) (b : Bank) (u : PieceUse), c.place = some p → j < c.beats * 8 →
    c.beats ≤ 16 → b = s.layout.bank p.bank → u = s.pieceDue c j →
      (u.first = j ∧ 1 ≤ u.count ∧ j + u.count ≤ c.beats * 8) ∧
        (∀ k, u.kind = .colour k →
          u.state = .done ∧ (∀ q, q < u.count → s.showsAt b p.row (p.firstX + j + q) = .colour k) ∧
            (j + u.count < c.beats * 8 → s.showsAt b p.row (p.firstX + j + u.count) ≠ .colour k)) ∧
        (∀ a n, u.kind = .plain a n →
          u.state = .queued ∧ (∀ q, q < u.count → s.showsAt b p.row (p.firstX + j + q) = .plain) ∧
            (j + u.count < c.beats * 8 → s.showsAt b p.row (p.firstX + j + u.count) ≠ .plain) ∧
            a = b.base * 4096 + p.row * b.pitch + (p.firstX + j) / 8 * 32 ∧
            n = (p.firstX + j + u.count - 1) / 8 - (p.firstX + j) / 8 + 1) ∧
        ∀ f : ImagePiece, u.kind = .image f →
          u.state = .queued ∧
            (∃ w, s.showsAt b p.row (p.firstX + j) = .image w f.source f.buffer f.firstSx f.sy ∧
              f.hscale = b.layout.windows[w].hscale ∧
              f.phase = (p.firstX + j - b.layout.windows[w].x) % b.layout.windows[w].hscale ∧
              (∀ q, q < u.count → ∃ sx, s.showsAt b p.row (p.firstX + j + q) = .image w f.source f.buffer sx f.sy ∧
                sx / 8 ≤ f.firstSx / 8 + 15) ∧
              s.showsAt b p.row (p.firstX + j + u.count - 1) = .image w f.source f.buffer f.lastSx f.sy ∧
              (j + u.count < c.beats * 8 → ∀ sx, sx / 8 ≤ f.firstSx / 8 + 15 →
                s.showsAt b p.row (p.firstX + j + u.count) ≠ .image w f.source f.buffer sx f.sy)) ∧
            f.address =
              s.sources[f.source].cfg.bufferBase f.buffer + f.sy * s.sources[f.source].cfg.pitch + f.firstSx / 8 * 32 ∧
            f.beats = f.lastSx / 8 - f.firstSx / 8 + 1 ∧ 1 ≤ f.beats ∧ f.beats ≤ 16

/-- Reassembly (R117, R118): a piece fills four bytes for each of its pixels; an error-filled or COLOR piece with its colour, an IMAGE
piece with the source pixel its scale and phase name, a PLAIN piece with the memory pixel at its place. -/
def Obligations.PieceFillsItsPixels : Prop :=
  ∀ (c : Context) (u : PieceUse) (d : List Byte),
    (∀ k, (u.errorFill = some k ∨ (u.errorFill = none ∧ u.kind = .colour k)) →
      (pieceBytes c u).length = 4 * u.count ∧
        ∀ q, q < u.count → ((pieceBytes c u).drop (4 * q)).take 4 = [0, k.extractLsb' 16 8, k.extractLsb' 8 8, k.extractLsb' 0 8]) ∧
      (∀ f : ImagePiece, u.errorFill = none → u.kind = .image f → u.data = some d → d.length = 32 * f.beats →
        (∀ q, q < u.count → f.firstSx % 8 + (f.phase + q) / f.hscale < 8 * f.beats) →
          (pieceBytes c u).length = 4 * u.count ∧
            ∀ q, q < u.count →
              ((pieceBytes c u).drop (4 * q)).take 4 =
                (d.drop (4 * (f.firstSx % 8 + (f.phase + q) / f.hscale))).take 4) ∧
      ∀ a n x, u.errorFill = none → u.kind = .plain a n → u.data = some d → d.length = 32 * n →
        x = (match c.place with | some p => p.firstX + u.first | none => u.first) → x % 8 + u.count ≤ 8 * n →
          (pieceBytes c u).length = 4 * u.count ∧
            ∀ q, q < u.count → ((pieceBytes c u).drop (4 * q)).take 4 = (d.drop (4 * (x % 8 + q))).take 4

/-- READ_ANSWER (R98, R99) of a COMPLETE context whose initiator has no earlier read unanswered, with a walk in progress and no other
read complete or waiting for a context: the response leaves with the status of the class and the PARTIAL flag and the bytes of the
pieces in order; the context and its piece records are freed, and the records keep their generation bits. A context that is not
COMPLETE, or has an earlier unanswered read before it, is not answered. -/
def Obligations.AnswerFreesContextAndPieces : Prop :=
  ∀ (s : State) (pre post : List Context) (c : Context), s.resetting = none →
    s.translator.contexts = pre ++ c :: post → (s.translator.contexts.map (·.num)).Nodup →
      (c.state = .complete → (∀ x ∈ pre ++ post, x.state ≠ .complete) → (∀ x ∈ pre, x.initiator ≠ c.initiator) →
        s.uport.intake = [] → s.translator.walking.isSome = true → s.translator.walker ≠ some c.num →
          s.translator.paused = false →
          ∃ t, exec (.readAnswer c.num) s = .next t ∧
            t =
              { s with
                translator := { s.translator with contexts := pre ++ post, pieces := t.translator.pieces }
                links :=
                  ⟨[⟨c.initiator, c.label, .read,
                      if c.cls = .refused then .refused else if c.partialFlag = true then .partialData else .ok,
                      if c.cls = .refused then [] else c.pieces.flatMap (s.translator.recordBytes c)⟩], [], none⟩ } ∧
            (∀ p ∈ c.pieces, t.translator.pieces[p] = ⟨s.translator.pieces[p].generation, none⟩) ∧
            ∀ p : PieceId, p ∉ c.pieces → t.translator.pieces[p] = s.translator.pieces[p]) ∧
        ((c.state ≠ .complete ∨ ∃ x ∈ pre, x.initiator = c.initiator) →
          exec (.readAnswer c.num) s = .next { s with links := Links.none })

/-! ### The downstream port -/

/-- ARBITER_GRANT (R122, R123, R125 to R127) with the ready indication, which is the command's operand (log 27, an inference). The read
lane head, which is no COLOR piece (R100), is granted if no write lane is eligible or
fewer than 8 reads ran before it: its piece is ISSUED with its generation bit inverted, its deadline starts and the READ request leaves.
Otherwise the head of the chosen write lane leaves it for the lowest-numbered FREE tracker, whose generation bit is inverted and whose
deadline starts; the WRITE request leaves and the read-run count becomes 0. Lane 16 is the plain write list. Without the indication, or
with nothing to grant, nothing changes. -/
def Obligations.ArbiterGrantsOneHead : Prop :=
  (∀ (s : State) (p : PieceId) (rest : List PieceId) (u : PieceUse), s.resetting = none → s.dport.readLane = p :: rest →
    s.translator.pieces[p].use = some u → (∀ k, u.kind ≠ .colour k) → (s.writeChoice = none ∨ s.dport.readRun < 8) →
      exec (.arbiterGrant true) s =
        .next
          { s with
            dport :=
              { s.dport with
                readLane := rest, readRun := if s.writeChoice = none then 0 else s.dport.readRun + 1 }
            translator :=
              { s.translator with
                pieces :=
                  putAt s.translator.pieces p
                    ⟨!s.translator.pieces[p].generation, some { u with state := .issued s.dport.deadline }⟩ }
            links :=
              ⟨[], [.read p (!s.translator.pieces[p].generation)
                  (match u.kind with | .image f => f.address | .plain a _ => a | .colour _ => 0)
                  (match u.kind with | .image f => f.beats | .plain _ n => n | .colour _ => 0)], none⟩ }) ∧
    (∀ (s : State) (l : Fin 17) (k : TrackerId), s.resetting = none → (s.dport.readLane = [] ∨ 8 ≤ s.dport.readRun) →
    s.writeChoice = some l → s.dport.trackers[k].use = none →
      (∀ m : TrackerId, m < k → s.dport.trackers[m].use ≠ none) →
        (∀ (i : SourceId) (w : SourceWrite) (rest : List SourceWrite), i.val = l.val →
          s.dport.writeLanes[i] = w :: rest →
            exec (.arbiterGrant true) s =
              .next
                { s with
                  dport :=
                    { s.dport with
                      writeLanes := putAt s.dport.writeLanes i rest
                      trackers :=
                        putAt s.dport.trackers k
                          ⟨!s.dport.trackers[k].generation,
                            some ⟨.aperture w.source w.buffer, w.address, w.beats, s.dport.deadline⟩⟩
                      readRun := 0
                      lastWriteLane := l }
                  links := ⟨[], [.write k (!s.dport.trackers[k].generation) w.address w.beats w.data], none⟩ }) ∧
          ∀ (w : PlainWrite) (rest : List PlainWrite), l.val = 16 → s.uport.plainWrites = w :: rest →
            exec (.arbiterGrant true) s =
              .next
                { s with
                  uport := { s.uport with plainWrites := rest }
                  dport :=
                    { s.dport with
                      trackers :=
                        putAt s.dport.trackers k
                          ⟨!s.dport.trackers[k].generation,
                            some ⟨.plain w.initiator, w.address, w.beats, s.dport.deadline⟩⟩
                      readRun := 0
                      lastWriteLane := l }
                  links := ⟨[], [.write k (!s.dport.trackers[k].generation) w.address w.beats w.data], none⟩ }) ∧
    ∀ s : State, s.resetting = none →
    exec (.arbiterGrant false) s = .next { s with links := Links.none } ∧
      (s.dport.readLane = [] → s.writeChoice = none →
        exec (.arbiterGrant true) s = .next { s with links := Links.none })

/-- DOWNSTREAM_RESPONSE, READ with OK and the right length (R38, R39, R97 to R100, R128, R130), for a PLAIN piece or for an IMAGE piece
of a source that is not CLOSING: the piece takes the data and is DONE, and an IMAGE piece releases its read hold, which may end fill
wait. While the context is walked, or another of its pieces is not DONE, nothing else happens. Otherwise it is COMPLETE: with an earlier
read of its initiator unanswered it stays so; with none, and nothing else due, it is answered in the same event with the assembled data,
and its context and its records are freed. -/
def Obligations.ReadDataCompletesPiece : Prop :=
  ∀ (s e : State) (p : PieceId) (g : Bool) (d : List Byte) (u : PieceUse) (timer : Deadline) (pre post : List Context)
      (c : Context), s.resetting = none → s.settled → s.translator.pieces[p] = ⟨g, some u⟩ → u.state = .issued timer →
    s.translator.contexts = pre ++ c :: post → (s.translator.contexts.map (·.num)).Nodup → u.context = c.num →
      ((∃ a n, u.kind = .plain a n ∧ 1 ≤ n ∧ n ≤ 16 ∧ d.length = 32 * n ∧ e = { s with links := Links.none }) ∨
        ∃ (f : ImagePiece) (y : Source), u.kind = .image f ∧ 1 ≤ f.beats ∧ f.beats ≤ 16 ∧ d.length = 32 * f.beats ∧
          s.sources[f.source].state ≠ .closing ∧
            s.sources[f.source].readHoldReleased f.buffer y ∧
              e = { s with sources := putAt s.sources f.source y, links := Links.none }) →
        ((c.state ≠ .gathering ∨ ∃ q ∈ c.pieces, q ≠ p ∧ ∃ v, s.translator.pieces[q].use = some v ∧ v.state ≠ .done) →
          exec (.downstreamResponse (.readOk p g d)) s =
            .next
              { e with
                translator :=
                  { s.translator with
                    pieces := putAt s.translator.pieces p ⟨g, some { u with state := .done, data := some d }⟩ } }) ∧
          (c.state = .gathering → p ∈ c.pieces →
            (∀ q ∈ c.pieces, q ≠ p → ∃ v, s.translator.pieces[q].use = some v ∧ v.state = .done) →
              ((∃ x ∈ pre, x.initiator = c.initiator) →
                exec (.downstreamResponse (.readOk p g d)) s =
                  .next
                    { e with
                      translator :=
                        { s.translator with
                          contexts := pre ++ { c with state := .complete } :: post
                          pieces := putAt s.translator.pieces p ⟨g, some { u with state := .done, data := some d }⟩ } }) ∧
                (c.cls ≠ .refused → s.uport.intake = [] → (s.translator.paused = false ∨ s.translator.walker = none) →
                  s.translator.walker ≠ some c.num → (∀ x ∈ pre, x.initiator ≠ c.initiator) →
                    (∀ x ∈ post, x.initiator = c.initiator → x.state ≠ .complete) →
                      ∃ t, exec (.downstreamResponse (.readOk p g d)) s = .next t ∧
                        t =
                          { e with
                            translator :=
                              { s.translator with contexts := pre ++ post, pieces := t.translator.pieces }
                            links :=
                              ⟨[⟨c.initiator, c.label, .read, if c.partialFlag = true then .partialData else .ok,
                                  c.pieces.flatMap
                                    (Translator.recordBytes
                                      { s.translator with
                                        pieces :=
                                          putAt s.translator.pieces p
                                            ⟨g, some { u with state := .done, data := some d }⟩ } c)⟩], [], none⟩ } ∧
                        (∀ q ∈ c.pieces, t.translator.pieces[q] = ⟨s.translator.pieces[q].generation, none⟩) ∧
                        ∀ q : PieceId, q ∉ c.pieces → t.translator.pieces[q] = s.translator.pieces[q]))

/-- READ_TIMEOUT, and DOWNSTREAM_RESPONSE with ERROR or with OK of a wrong length (R38, R39, R97 to R100, R118, R130, R134), at a PLAIN
piece or an IMAGE piece of a source that is not CLOSING: the piece is error-filled with palette entry 8 and DONE, its context is marked
PARTIAL, and one event with the initiator, the sub-read address and the source of an IMAGE piece goes to error capture; an IMAGE piece
releases its read hold. The last piece of a context makes it COMPLETE, and it is answered PARTIAL in the same event unless an earlier read
of its initiator is unanswered. A piece that is not ISSUED has no deadline to expire: that its READ_TIMEOUT does nothing is log 3, the
model's choice. -/
def Obligations.FailedReadErrorFillsPiece : Prop :=
  (∀ (s e : State) (p : PieceId) (g : Bool) (u w : PieceUse) (a n : Nat) (src : Option SourceId) (timer : Deadline)
      (pre post : List Context) (c : Context) (i : Instr) (cls : ErrClass), s.resetting = none → s.settled →
    s.translator.pieces[p] = ⟨g, some u⟩ → u.state = .issued timer → s.translator.contexts = pre ++ c :: post →
      (s.translator.contexts.map (·.num)).Nodup → u.context = c.num →
        ((u.kind = .plain a n ∧ src = none ∧ e = s) ∨
          ∃ (f : ImagePiece) (y : Source), u.kind = .image f ∧ a = f.address ∧ n = f.beats ∧ src = some f.source ∧
            s.sources[f.source].state ≠ .closing ∧
              s.sources[f.source].readHoldReleased f.buffer y ∧ e = { s with sources := putAt s.sources f.source y }) →
          ((i = .readTimeout p ∧ cls = .readTimeout) ∨
            (i = .downstreamResponse (.readError p g) ∧ cls = .readError) ∨
            (∃ d : List Byte, i = .downstreamResponse (.readOk p g d) ∧ i.wellFormed = true ∧ d.length ≠ 32 * n ∧
              cls = .readError)) →
            w = { u with state := .done, errorFill := some s.translator.palette[(8 : Fin 9)] } →
              ((c.state ≠ .gathering ∨
                  ∃ q ∈ c.pieces, q ≠ p ∧ ∃ v, s.translator.pieces[q].use = some v ∧ v.state ≠ .done) →
                exec i s =
                  .next
                    { e with
                      translator :=
                        { s.translator with
                          contexts := pre ++ { c with partialFlag := true } :: post
                          pieces := putAt s.translator.pieces p ⟨g, some w⟩ }
                      capture := s.capture.record s.governor.frameCount ⟨cls, some c.initiator, some a, src, none⟩
                      links := Links.none }) ∧
                (c.state = .gathering → p ∈ c.pieces →
                  (∀ q ∈ c.pieces, q ≠ p → ∃ v, s.translator.pieces[q].use = some v ∧ v.state = .done) →
                    ((∃ x ∈ pre, x.initiator = c.initiator) →
                      exec i s =
                        .next
                          { e with
                            translator :=
                              { s.translator with
                                contexts := pre ++ { c with partialFlag := true, state := .complete } :: post
                                pieces := putAt s.translator.pieces p ⟨g, some w⟩ }
                            capture := s.capture.record s.governor.frameCount ⟨cls, some c.initiator, some a, src, none⟩
                            links := Links.none }) ∧
                      (c.cls ≠ .refused → s.uport.intake = [] →
                        (s.translator.paused = false ∨ s.translator.walker = none) → s.translator.walker ≠ some c.num →
                          (∀ x ∈ pre, x.initiator ≠ c.initiator) →
                            (∀ x ∈ post, x.initiator = c.initiator → x.state ≠ .complete) →
                              ∃ t, exec i s = .next t ∧
                                t =
                                  { e with
                                    translator :=
                                      { s.translator with contexts := pre ++ post, pieces := t.translator.pieces }
                                    capture :=
                                      s.capture.record s.governor.frameCount ⟨cls, some c.initiator, some a, src, none⟩
                                    links :=
                                      ⟨[⟨c.initiator, c.label, .read, .partialData,
                                          c.pieces.flatMap
                                            (Translator.recordBytes
                                              { s.translator with
                                                pieces := putAt s.translator.pieces p ⟨g, some w⟩ } c)⟩], [], none⟩ } ∧
                                (∀ q ∈ c.pieces, t.translator.pieces[q] = ⟨s.translator.pieces[q].generation, none⟩) ∧
                                ∀ q : PieceId, q ∉ c.pieces → t.translator.pieces[q] = s.translator.pieces[q]))) ∧
    ∀ (s : State) (p : PieceId), s.resetting = none →
      (s.translator.pieces[p].use = none ∨ ∃ u, s.translator.pieces[p].use = some u ∧ (u.state = .queued ∨ u.state = .done)) →
        exec (.readTimeout p) s = .next { s with links := Links.none }

/-- DOWNSTREAM_RESPONSE, WRITE with OK (R37, R38, R40, R49, R50, R57, R128, R131, R152), for a source that is not CLOSING. The tracker
becomes FREE and keeps its generation bit; an APERTURE write's buffer loses a write hold. A SEALING buffer that loses its last is
resolved: clean, it becomes READY, or SPENT without an event in a CONTAINED source; poisoned, it becomes SPENT with a POISON_DISCARD
event, and a source that is AWAIT or LIVE with containment on enters CONTAINED with a CONTAIN event. A buffer left SPENT with no holds
ends fill wait: it becomes FILL with its mark cleared, and the flag is cleared. The groups then act on their inputs as they stand. -/
def Obligations.WriteOkReleasesHold : Prop :=
  ∀ (s : State) (k : TrackerId) (g : Bool) (u : TrackerUse), s.resetting = none → s.dport.trackers[k] = ⟨g, some u⟩ →
    (∀ n, u.origin = .plain n →
      exec (.downstreamResponse (.writeOk k g)) s =
        .next { s with dport := { s.dport with trackers := putAt s.dport.trackers k ⟨g, none⟩ }, links := Links.none }) ∧
      ∀ (i : SourceId) (l : Letter) (y : Source) (es : List ErrEvent), u.origin = .aperture i l →
        s.sources[i].state ≠ .closing → s.sources[i].writeHoldReleased i l y es →
            ∃ t, exec (.downstreamResponse (.writeOk k g)) s = .next t ∧
              t =
                { s with
                  dport := { s.dport with trackers := putAt s.dport.trackers k ⟨g, none⟩ }
                  sources := putAt s.sources i y
                  override := { s.override with groups := t.override.groups }
                  capture :=
                    { es.foldl (fun c e => c.record s.governor.frameCount e) s.capture with
                      overrideChange := t.capture.overrideChange }
                  links := Links.none } ∧
              s.groupsActed t

/-- WRITE_TIMEOUT, and DOWNSTREAM_RESPONSE with ERROR for a write (R37, R38, R40, R49, R50, R57, R132, R134, R152): the event goes to error
capture, the buffer of an APERTURE write is poisoned, the tracker becomes FREE and keeps its generation bit, and the hold of a source that
is not CLOSING is released: the last one of a SEALING buffer discards the poisoned frame with its events, a buffer left SPENT with no
holds ends fill wait, and the groups act. A FREE tracker has no deadline to expire: that its WRITE_TIMEOUT does nothing is log 3, the
model's choice. -/
def Obligations.FailedWritePoisonsBuffer : Prop :=
  (∀ (s : State) (k : TrackerId) (g : Bool) (u : TrackerUse) (i : Instr) (cls : ErrClass), s.resetting = none →
    s.dport.trackers[k] = ⟨g, some u⟩ →
      ((i = .writeTimeout k ∧ cls = .writeTimeout) ∨ (i = .downstreamResponse (.writeError k g) ∧ cls = .writeError)) →
        (∀ n, u.origin = .plain n →
          exec i s =
            .next
              { s with
                dport := { s.dport with trackers := putAt s.dport.trackers k ⟨g, none⟩ }
                capture := s.capture.record s.governor.frameCount ⟨cls, some n, some u.address, none, none⟩
                links := Links.none }) ∧
          ∀ (j : SourceId) (l : Letter) (x y : Source) (es : List ErrEvent), u.origin = .aperture j l →
            x =
              { s.sources[j] with
                bufs := s.sources[j].bufs.put l { s.sources[j].bufs.get l with poison := true } } →
              x.state ≠ .closing → x.writeHoldReleased j l y es →
                ∃ t, exec i s = .next t ∧
                  t =
                    { s with
                      dport := { s.dport with trackers := putAt s.dport.trackers k ⟨g, none⟩ }
                      sources := putAt s.sources j y
                      override := { s.override with groups := t.override.groups }
                      capture :=
                        { es.foldl (fun c e => c.record s.governor.frameCount e)
                            (s.capture.record s.governor.frameCount
                              ⟨cls, some (j.castLE (by decide)), some u.address, some j, none⟩) with
                          overrideChange := t.capture.overrideChange }
                      links := Links.none } ∧
                  s.groupsActed t) ∧
    ∀ (s : State) (k : TrackerId), s.resetting = none → s.dport.trackers[k].use = none →
      exec (.writeTimeout k) s = .next { s with links := Links.none }

/-- A response that matches no ISSUED piece and no BUSY tracker with its generation bit is discarded with a LATE_RESPONSE event that
carries no optional field (R128, R133). -/
def Obligations.UnmatchedResponseIsLate : Prop :=
  ∀ (s : State) (r : DResponse), s.resetting = none → r.wellFormed = true →
    (match r with
      | .readOk p g _ =>
        s.translator.pieces[p].generation ≠ g ∨ ∀ u, s.translator.pieces[p].use = some u → ∀ k, u.state ≠ .issued k
      | .readError p g =>
        s.translator.pieces[p].generation ≠ g ∨ ∀ u, s.translator.pieces[p].use = some u → ∀ k, u.state ≠ .issued k
      | .writeOk k g => s.dport.trackers[k].generation ≠ g ∨ s.dport.trackers[k].use = none
      | .writeError k g => s.dport.trackers[k].generation ≠ g ∨ s.dport.trackers[k].use = none) →
      exec (.downstreamResponse r) s =
        .next
          { s with
            capture := s.capture.record s.governor.frameCount ⟨.lateResponse, none, none, none, none⟩
            links := Links.none }

/-! ### Sources and the governor -/

/-- ADMISSION (R33, R145, R146): with no fill wait, room in the write lane and credit enough or no quota in effect, the head of the hold
queue is translated into the FILL buffer and joins its write lane without poison marks; the write hold, the poison mark and, if
governed, the credit change. Otherwise the head waits. -/
def Obligations.AdmissionTranslatesHead : Prop :=
  ∀ (s : State) (i : SourceId) (x : Source) (e : HoldEntry) (rest : List HoldEntry) (l : Letter), s.resetting = none →
    x = s.sources[i] → x.holdQueue = e :: rest → (x.bufs.get l).role = .fill → x.oneOf .fill →
      (x.fillWait = false → s.dport.writeLanes[i].length < 4 → (x.quotaInEffect = 0 ∨ e.beats ≤ x.credit) →
        ¬(e.offset ≤ (x.cfg.height - 1) * x.cfg.pitch + x.cfg.width * 4 - 32 ∧
          (x.cfg.height - 1) * x.cfg.pitch + x.cfg.width * 4 - 32 ≤ e.offset + (e.beats - 1) * 32) →
          exec (.admission i) s =
            .next
              { s with
                sources :=
                  putAt s.sources i
                    { x with
                      holdQueue := rest
                      credit := if 0 < x.quotaInEffect then x.credit - e.beats else x.credit
                      bufs :=
                        x.bufs.put l
                          { x.bufs.get l with
                            writeHold := (x.bufs.get l).writeHold + 1
                            poison := (x.bufs.get l).poison || e.data.any (·.poison) } }
                dport :=
                  { s.dport with
                    writeLanes :=
                      putAt s.dport.writeLanes i
                        (s.dport.writeLanes[i] ++
                          [⟨x.cfg.bufferBase l + e.offset, e.beats, e.data.map fun b => ⟨b.bytes, b.enables⟩, i, l⟩]) }
                links := Links.none }) ∧
        ((x.fillWait = true ∨ 4 ≤ s.dport.writeLanes[i].length ∨ (0 < x.quotaInEffect ∧ x.credit < e.beats)) →
          exec (.admission i) s = .next { s with links := Links.none })

/-- A frame completion (R35, R36) at an admission whose write covers the last beat, in the ordinary rotation of R31: the FILL buffer
becomes SEALING with the new write hold; a SEALING or READY buffer becomes SPENT and keeps its mark and holds; the lowest-lettered
buffer then SPENT with no holds becomes the clean FILL buffer, and with none the source enters fill wait. -/
def Obligations.CompletionSealsFrame : Prop :=
  ∀ (s : State) (i : SourceId) (x : Source) (e : HoldEntry) (rest : List HoldEntry) (l : Letter), s.resetting = none →
    x = s.sources[i] → x.holdQueue = e :: rest → (x.bufs.get l).role = .fill → x.oneOf .fill → x.fillWait = false →
      s.dport.writeLanes[i].length < 4 → (x.quotaInEffect = 0 ∨ e.beats ≤ x.credit) →
        e.offset ≤ (x.cfg.height - 1) * x.cfg.pitch + x.cfg.width * 4 - 32 →
          (x.cfg.height - 1) * x.cfg.pitch + x.cfg.width * 4 - 32 ≤ e.offset + (e.beats - 1) * 32 →
            ∃ t, exec (.admission i) s = .next t ∧
              t =
                { s with
                  sources :=
                    putAt s.sources i
                      { x with
                        holdQueue := rest
                        credit := if 0 < x.quotaInEffect then x.credit - e.beats else x.credit
                        bufs := t.sources[i].bufs
                        fillWait := t.sources[i].fillWait }
                  dport :=
                    { s.dport with
                      writeLanes :=
                        putAt s.dport.writeLanes i
                          (s.dport.writeLanes[i] ++
                            [⟨x.cfg.bufferBase l + e.offset, e.beats, e.data.map fun b => ⟨b.bytes, b.enables⟩, i, l⟩]) }
                  links := Links.none } ∧
              t.sources[i].bufs.get l =
                ⟨.sealing, (x.bufs.get l).poison || e.data.any (·.poison), (x.bufs.get l).readHold,
                  (x.bufs.get l).writeHold + 1⟩ ∧
              (∀ m, m ≠ l → (x.bufs.get m).role = .front → t.sources[i].bufs.get m = x.bufs.get m) ∧
              ((∀ n, n ≠ l → (x.bufs.get n).role ≠ .front → (x.bufs.get n).readHold ≠ 0 ∨ (x.bufs.get n).writeHold ≠ 0) →
                t.sources[i].fillWait = true) ∧
              ∀ m, m ≠ l → (x.bufs.get m).role ≠ .front →
                (((x.bufs.get m).readHold = 0 ∧ (x.bufs.get m).writeHold = 0 ∧
                    ∀ n, n ≠ l → (x.bufs.get n).role ≠ .front → (x.bufs.get n).readHold = 0 →
                      (x.bufs.get n).writeHold = 0 → letters.idxOf m ≤ letters.idxOf n) →
                  t.sources[i].bufs.get m = ⟨.fill, false, 0, 0⟩ ∧ t.sources[i].fillWait = false) ∧
                  (((x.bufs.get m).readHold ≠ 0 ∨ (x.bufs.get m).writeHold ≠ 0 ∨
                      ∃ n, n ≠ l ∧ (x.bufs.get n).role ≠ .front ∧ (x.bufs.get n).readHold = 0 ∧
                        (x.bufs.get n).writeHold = 0 ∧ letters.idxOf n < letters.idxOf m) →
                    t.sources[i].bufs.get m = { x.bufs.get m with role := .spent })

/-- The end of a CLOSING drain (R30): the release of the last hold of a CLOSING source leaves the source OFF with its buffers SPENT, and
its regions leave the decoder; the write heads of the lanes are then offered again (R4), in the order of log 5 and after the event of a
failed or expired write (log 19): both orders are the model's choice. The release is an OK or ERROR response to its last write, the expiry
of that write's deadline, or the data of the last IMAGE piece that it held. While another hold remains the source stays CLOSING. -/
def Obligations.LastHoldEndsDrain : Prop :=
  (∀ (s : State) (k : TrackerId) (g : Bool) (u : TrackerUse) (i : SourceId) (l : Letter) (x : Source) (c : Instr), s.resetting = none →
    s.dport.trackers[k] = ⟨g, some u⟩ → u.origin = .aperture i l → x = s.sources[i] → x.state = .closing → x.allSpent →
      x.fillWait = false → (∀ h : GroupId, s.override.groups[h].raw = s.rawCondition h) →
        (c = .writeTimeout k ∨ c = .downstreamResponse (.writeError k g) ∨ c = .downstreamResponse (.writeOk k g)) →
          ∀ e : State,
            e =
              { s with
                dport := { s.dport with trackers := putAt s.dport.trackers k ⟨g, none⟩ }
                sources :=
                  putAt s.sources i
                    { x with
                      bufs :=
                        x.bufs.put l
                          { x.bufs.get l with
                            writeHold := (x.bufs.get l).writeHold - 1
                            poison := if c = .downstreamResponse (.writeOk k g) then (x.bufs.get l).poison else true } }
                capture :=
                  if c = .downstreamResponse (.writeOk k g) then s.capture
                  else
                    s.capture.record s.governor.frameCount
                      ⟨if c = .writeTimeout k then .writeTimeout else .writeError, some (i.castLE (by decide)),
                        some u.address, some i, none⟩
                links := Links.none } →
              ((∀ m, (e.sources[i].bufs.get m).readHold = 0 ∧ (e.sources[i].bufs.get m).writeHold = 0) →
                ∃ t, exec c s = .next t ∧
                  t = State.headsOffered { e with sources := putAt s.sources i { e.sources[i] with state := .off } } ∧
                  t.sources[i].state = .off ∧ t.sources[i].allSpent ∧
                  ∀ r ∈ t.regions, r.id ≠ .aperture i ∧ ∀ m, r.id ≠ .buffer i m) ∧
                ((∃ m, (e.sources[i].bufs.get m).readHold ≠ 0 ∨ (e.sources[i].bufs.get m).writeHold ≠ 0) →
                  exec c s = .next e)) ∧
    ∀ (s e : State) (p : PieceId) (g : Bool) (d : List Byte) (u : PieceUse) (f : ImagePiece) (timer : Deadline) (c : Context)
      (x : Source), s.resetting = none → s.settled → s.translator.pieces[p] = ⟨g, some u⟩ → u.state = .issued timer →
      u.kind = .image f → d.length = 32 * f.beats → 1 ≤ f.beats → f.beats ≤ 16 → c ∈ s.translator.contexts →
        (s.translator.contexts.map (·.num)).Nodup → u.context = c.num →
          (c.state ≠ .gathering ∨ ∃ q ∈ c.pieces, q ≠ p ∧ ∃ v, s.translator.pieces[q].use = some v ∧ v.state ≠ .done) →
            x = s.sources[f.source] → x.state = .closing → x.allSpent → x.fillWait = false →
              e =
                { s with
                  translator :=
                    { s.translator with
                      pieces := putAt s.translator.pieces p ⟨g, some { u with state := .done, data := some d }⟩ }
                  sources :=
                    putAt s.sources f.source
                      { x with
                        bufs :=
                          x.bufs.put f.buffer
                            { x.bufs.get f.buffer with readHold := (x.bufs.get f.buffer).readHold - 1 } }
                  links := Links.none } →
                ((∀ m, (e.sources[f.source].bufs.get m).readHold = 0 ∧ (e.sources[f.source].bufs.get m).writeHold = 0) →
                  exec (.downstreamResponse (.readOk p g d)) s =
                    .next
                      (State.headsOffered
                        { e with sources := putAt s.sources f.source { e.sources[f.source] with state := .off } })) ∧
                  ((∃ m, (e.sources[f.source].bufs.get m).readHold ≠ 0 ∨
                      (e.sources[f.source].bufs.get m).writeHold ≠ 0) →
                    exec (.downstreamResponse (.readOk p g d)) s = .next e)

/-- WFS (R87, R136, R137), in every order of the operand, which stand for every order the spec leaves open (log 6, an inference): the
frame counter goes up by 1 and wraps, slot 0 begins and the slot
timer starts with the slot length; sources, groups, layout and error capture may change, every other block is unchanged; an ARMED
controller activates the compiled bank, records DONE with its segments and sets COMMIT_END, and any other controller state is
kept. -/
def Obligations.StrobeTimesAndActivates : Prop :=
  ∀ (s : State) (o : StrobeOrder), s.resetting = none →
    ∃ t, exec (.wfs o) s = .next t ∧
      t =
        { s with
          sources := t.sources
          governor :=
            { s.governor with
              frameCount := s.governor.frameCount + 1, slotIndex := 0, slotTimer := some s.governor.slotLength }
          layout := t.layout
          override := { s.override with groups := t.override.groups }
          capture := t.capture
          links := Links.none } ∧
      (s.layout.ctl ≠ .armed → t.layout = s.layout) ∧
      (s.layout.ctl = .armed →
        t.layout =
          { s.layout with
            active := (match s.layout.active with | .a => .b | .b => .a)
            ctl := .idle
            result :=
              ⟨.done, none, none,
                some (match s.layout.active with | .a => s.layout.bankB | .b => s.layout.bankA).segments.length⟩ } ∧
          t.capture.commitEnd = true)

/-- WFS at a source (R38, R41, R43, R44), in every order of the operand (log 6, an inference): an AWAIT or LIVE source with a READY buffer
flips it to FRONT, the old FRONT becoming SPENT, which may end fill wait; any other running source counts the strobe up to 255 and trips
when the new count equals its stale deadline; an OFF or CLOSING source does neither. -/
def Obligations.StrobeFlipsOrAges : Prop :=
  ∀ (s : State) (o : StrobeOrder) (i : SourceId) (x : Source), s.resetting = none → x = s.sources[i] →
    ∃ t, exec (.wfs o) s = .next t ∧
      ((x.state = .await ∨ x.state = .live) → x.oneOf .ready →
        ∀ l, (x.bufs.get l).role = .ready →
          t.sources[i].state = .live ∧ (t.sources[i].bufs.get l).role = .front ∧
            (∀ y z : Source, y.fillWait = x.fillWait →
              (∀ m, y.bufs.get m =
                if m = l then { x.bufs.get m with role := .front }
                else if (x.bufs.get m).role = .front then { x.bufs.get m with role := .spent } else x.bufs.get m) →
                y.fillWaitTested z → t.sources[i].bufs = z.bufs ∧ t.sources[i].fillWait = z.fillWait) ∧
            (∀ m, (x.bufs.get m).role = .front → x.fillWait = false →
              t.sources[i].bufs.get m = { x.bufs.get m with role := .spent }) ∧
            t.sources[i].framesSinceFlip = 0 ∧ t.sources[i].stale = false ∧ t.sources[i].trip = x.trip ∧
            t.sources[i].presented = x.presented + 1) ∧
      ((x.state = .contained ∨ ((x.state = .await ∨ x.state = .live) ∧ ¬x.hasRole .ready)) →
        t.sources[i].state = x.state ∧ t.sources[i].bufs = x.bufs ∧ t.sources[i].fillWait = x.fillWait ∧
          t.sources[i].presented = x.presented ∧ t.sources[i].framesSinceFlip = min 255 (x.framesSinceFlip + 1) ∧
          ((x.framesSinceFlip < 255 ∧ x.cfg.staleDeadline ≠ 0 ∧ x.framesSinceFlip + 1 = x.cfg.staleDeadline) →
            t.sources[i].stale = true ∧ t.sources[i].trip = true ∧
              (s.capture.detect.getLsbD 8 = true → t.capture.status.getLsbD 8 = true)) ∧
          (¬(x.framesSinceFlip < 255 ∧ x.cfg.staleDeadline ≠ 0 ∧ x.framesSinceFlip + 1 = x.cfg.staleDeadline) →
            t.sources[i].stale = x.stale ∧ t.sources[i].trip = x.trip)) ∧
      ((x.state = .off ∨ x.state = .closing) →
        t.sources[i] = { x with frameTotal := 0 })

/-- WFS at the governor (R137, R140 to R142), in every order of the operand (log 6, an inference): the frame allotment total is cleared; a
running source takes its quota field as quota in effect, loses its credit if that is 0, and otherwise receives the slot 0 allotment up to
its cap. -/
def Obligations.StrobeRenewsQuota : Prop :=
  ∀ (s : State) (o : StrobeOrder) (i : SourceId) (x : Source) (a : Nat), s.resetting = none → x = s.sources[i] →
    (x.state = .await ∨ x.state = .live ∨ x.state = .contained) →
      a = x.cfg.quota / 1024 →
        ∃ t, exec (.wfs o) s = .next t ∧ t.sources[i].cfg = x.cfg ∧ t.sources[i].quotaInEffect = x.cfg.quota ∧
          t.sources[i].holdQueue = x.holdQueue ∧
          (x.cfg.quota = 0 → t.sources[i].credit = 0 ∧ t.sources[i].frameTotal = 0 ∧
            t.sources[i].capSaturated = x.capSaturated) ∧
          (0 < x.cfg.quota → x.credit ≤ x.cfg.creditCap →
            t.sources[i].credit = min x.cfg.creditCap (x.credit + a) ∧ t.sources[i].frameTotal = a ∧
              t.sources[i].capSaturated = (x.capSaturated || decide (x.cfg.creditCap < x.credit + a)))

/-- WFS at a group (R57, R152 to R156), in every order of the operand (log 6, an inference), for a group whose raw condition has been
evaluated. A HOLDING group whose raw condition stays false counts the strobe, and returns to IDLE with OVERRIDE_CHANGE when the count
reaches its hold-off; an IDLE or ASSERTED group whose raw condition stays as it is does nothing. Where a trip of this strobe makes the
raw condition true, an enabled IDLE group enters ASSERTED, its trigger record taking the first true input and the frame counter before
or after the increment; a HOLDING group returns to ASSERTED, and does so from IDLE, with a new trigger record, if it takes the strobe
first and its count then reaches its hold-off. -/
def Obligations.StrobeCountsHoldOff : Prop :=
  ∀ (s : State) (o : StrobeOrder) (g : GroupId) (x : Group), s.resetting = none → x = s.override.groups[g] →
    x.raw = s.rawCondition g →
      ∃ t, exec (.wfs o) s = .next t ∧
        (t.rawCondition g = x.raw →
          (x.state ≠ .holding → t.override.groups[g] = x) ∧
            (x.state = .holding → x.holdCount + 1 < x.cfg.holdOff →
              t.override.groups[g] = { x with holdCount := x.holdCount + 1 }) ∧
            (x.state = .holding → x.cfg.holdOff ≤ x.holdCount + 1 →
              t.override.groups[g] = { x with state := .idle, holdCount := 0 } ∧ t.capture.overrideChange = true)) ∧
        (x.cfg.staleSel = 0 → t.rawCondition g = x.raw) ∧
        (x.raw = true → t.rawCondition g = true) ∧
        (x.raw = false → t.rawCondition g = true → ∀ (trigger : Option Trigger) (frame : BitVec 16),
          frame = (if o.countFirst || o.groupsLate.getLsbD g.val then s.governor.frameCount + 1 else s.governor.frameCount) →
            trigger = (t.firstInput g).map (fun n => ⟨n, frame⟩) →
              (x.state = .idle → x.cfg.enabled = false → t.override.groups[g] = { x with raw := true }) ∧
                (x.state = .idle → x.cfg.enabled = true →
                  t.override.groups[g] = { x with state := .asserted, holdCount := 0, raw := true, trigger := trigger } ∧
                    t.capture.overrideChange = true) ∧
                (x.state = .holding → (o.groupsFirst.getLsbD g.val = false ∨ x.holdCount + 1 < x.cfg.holdOff) →
                  t.override.groups[g] = { x with state := .asserted, holdCount := 0, raw := true }) ∧
                (x.state = .holding → x.cfg.enabled = true → o.groupsFirst.getLsbD g.val = true →
                  x.cfg.holdOff ≤ x.holdCount + 1 →
                    t.override.groups[g] = { x with state := .asserted, holdCount := 0, raw := true, trigger := trigger } ∧
                      t.capture.overrideChange = true))

/-- SLOT_TIMER_EXPIRY (R138, R140, R141): below slot 1023 the next slot begins, every governed running source receives its allotment,
cut to what its quota in effect leaves (log 18, an inference from R141) and clipped at its cap, and the timer starts with the slot
length; at slot 1023 the timer stops; a stopped timer does not expire (log 3). -/
def Obligations.SlotExpiryGivesAllotments : Prop :=
  ∀ s : State, s.resetting = none →
    (∀ n, s.governor.slotTimer = some n → s.governor.slotIndex < 1023 →
      ∃ t, exec .slotTimerExpiry s = .next t ∧
        t =
          { s with
            sources := t.sources
            governor :=
              { s.governor with slotIndex := s.governor.slotIndex + 1, slotTimer := some s.governor.slotLength }
            links := Links.none } ∧
        ∀ (i : SourceId) (x : Source) (a : Nat), x = s.sources[i] →
          a = min (x.quotaInEffect / 1024 +
              ((s.governor.slotIndex + 2) * (x.quotaInEffect % 1024) / 1024 -
                (s.governor.slotIndex + 1) * (x.quotaInEffect % 1024) / 1024)) (x.quotaInEffect - x.frameTotal) →
            ((x.state = .await ∨ x.state = .live ∨ x.state = .contained) → 0 < a →
              t.sources[i] =
                { x with
                  frameTotal := x.frameTotal + a
                  credit := min x.cfg.creditCap (x.credit + a)
                  capSaturated := x.capSaturated || decide (x.cfg.creditCap < x.credit + a) }) ∧
              ((x.state = .off ∨ x.state = .closing ∨ a = 0) → t.sources[i] = x)) ∧
      (∀ n, s.governor.slotTimer = some n → 1023 ≤ s.governor.slotIndex →
        exec .slotTimerExpiry s =
          .next { s with governor := { s.governor with slotTimer := none }, links := Links.none }) ∧
      (s.governor.slotTimer = none → exec .slotTimerExpiry s = .next { s with links := Links.none })

/-- The allotments of a quota in effect (R140): each is the main part or one beat more; those of slots 0 to `k` add up to the main parts
and the extra beats due by then; all 1024 add up to the quota; slot 0 has no extra beat; a quota below 1024 gives single beats in as
many slots as it has beats. -/
def Obligations.AllotmentsAddUpToQuota : Prop :=
  ∀ q k : Nat, k < 1024 →
    ((k + 1) * (q % 1024) / 1024 - k * (q % 1024) / 1024 ≤ 1) ∧
      allotment q k = q / 1024 + (if (k + 1) * (q % 1024) / 1024 - k * (q % 1024) / 1024 = 1 then 1 else 0) ∧
      ((List.range (k + 1)).map (allotment q)).sum = (k + 1) * (q / 1024) + (k + 1) * (q % 1024) / 1024 ∧
      ((List.range 1024).map (allotment q)).sum = q ∧ allotment q 0 = q / 1024 ∧
      (q < 1024 → allotment q k ≤ 1 ∧ ((List.range 1024).filter fun j => allotment q j == 1).length = q)

/-! ### Commands and configuration of sources -/

/-- OPEN (R23 to R27, R175): an OFF source whose fields are valid, whose regions share no byte with one another or with a region of the
decoder, and into whose buffers no CANVAS or PLAIN write is pending, becomes AWAIT with A as FILL, and the write heads of the lanes are
offered again (R4; log 5). Otherwise it is refused: with REFUSED_INVALID, naming the first invalid field; with REFUSED_OVERLAP, naming
the field of its first region, aperture 0 and buffers 4 to 6, that meets another; with REFUSED_BUSY while such a write is pending. A
source in AWAIT, LIVE or CONTAINED is refused with REFUSED_STATE, one in CLOSING with REFUSED_BUSY, and an operand above 15 with
REFUSED_INVALID and field 254. -/
def Obligations.OpenTakesValidSource : Prop :=
  ∀ (s : State) (o : Byte), s.listening →
    (15 < o.toNat →
      exec (.openSource o) s =
        .next { s with port := s.port.commandTaken 1 o .refusedInvalid 254, links := Links.none }) ∧
      ∀ (i : SourceId) (x : Source), o.toNat = i.val → x = s.sources[i] →
        (x.state = .off → (∀ f, x.cfg.validAtOpen f) →
          (∀ g ∈ x.cfg.regions i, (∀ h ∈ x.cfg.regions i, h.id ≠ g.id → g.apart h) ∧ ∀ h ∈ s.regions, g.apart h) →
            ((∀ a, s.plainWriteTo a → ∀ g ∈ x.cfg.regions i, g.id ≠ .aperture i → g.has a = false) →
              exec (.openSource o) s =
                .next
                  (State.headsOffered
                    { s with
                      sources :=
                        putAt s.sources i
                          { x with
                            state := .await
                            bufs := ⟨⟨.fill, false, 0, 0⟩, ⟨.spent, false, 0, 0⟩, ⟨.spent, false, 0, 0⟩⟩
                            fillWait := false
                            framesSinceFlip := 0
                            stale := false
                            credit := 0
                            presented := 0
                            quotaInEffect := x.cfg.quota }
                      port := s.port.commandTaken 1 o .accepted 255
                      links := Links.none })) ∧
              ((∃ a, s.plainWriteTo a ∧ ∃ g ∈ x.cfg.regions i, g.id ≠ .aperture i ∧ g.has a = true) →
                exec (.openSource o) s =
                  .next { s with port := s.port.commandTaken 1 o .refusedBusy 255, links := Links.none })) ∧
          (x.state = .off → (∀ f, x.cfg.validAtOpen f) →
            ∀ (pre post : List Region) (g : Region) (f : Nat), x.cfg.regions i = pre ++ g :: post →
              (∀ k ∈ pre, (∀ h ∈ x.cfg.regions i, h.id ≠ k.id → k.apart h) ∧ ∀ h ∈ s.regions, k.apart h) →
                ((∃ h ∈ x.cfg.regions i, h.id ≠ g.id ∧ ¬g.apart h) ∨ ∃ h ∈ s.regions, ¬g.apart h) →
                  ((g.id = .aperture i ∧ f = 0) ∨ (g.id = .buffer i .a ∧ f = 4) ∨ (g.id = .buffer i .b ∧ f = 5) ∨
                    (g.id = .buffer i .c ∧ f = 6)) →
                    exec (.openSource o) s =
                      .next { s with port := s.port.commandTaken 1 o .refusedOverlap f, links := Links.none }) ∧
          (x.state = .off → ∀ f : Nat, ¬x.cfg.validAtOpen f → (∀ k, k < f → x.cfg.validAtOpen k) →
            exec (.openSource o) s =
              .next { s with port := s.port.commandTaken 1 o .refusedInvalid f, links := Links.none }) ∧
          ((x.state = .await ∨ x.state = .live ∨ x.state = .contained) →
            exec (.openSource o) s =
              .next { s with port := s.port.commandTaken 1 o .refusedState 255, links := Links.none }) ∧
          (x.state = .closing →
            exec (.openSource o) s =
              .next { s with port := s.port.commandTaken 1 o .refusedBusy 255, links := Links.none })

/-- CLOSE (R28, R30) and RELEASE (R54). CLOSE makes a running source CLOSING: buffers SPENT with marks and holds kept, hold queue
dropped, credit 0, fill wait and stale condition cleared; the write heads of the lanes are offered against it (R4; log 5), so that an
APERTURE write that waited is answered OK and dropped. With no holds it reaches OFF in the same event, and the heads are offered once
more. An OFF source is refused with REFUSED_STATE and a CLOSING one with REFUSED_BUSY. RELEASE returns a CONTAINED source to LIVE if it
has a FRONT buffer and to AWAIT if not, and is accepted without effect in every other state. When a source leaves CONTAINED the groups
act on their inputs (R57, R152). -/
def Obligations.CloseAndReleaseLeaveStates : Prop :=
  ∀ (s : State) (o : Byte) (i : SourceId) (x : Source), s.listening → o.toNat = i.val → x = s.sources[i] →
    ((x.state = .await ∨ x.state = .live ∨ x.state = .contained) →
      ∀ (y : Source) (v w : State),
        y =
          { x with
            state := .closing
            bufs :=
              ⟨{ x.bufs.a with role := .spent }, { x.bufs.b with role := .spent }, { x.bufs.c with role := .spent }⟩
            holdQueue := []
            credit := 0
            fillWait := false
            stale := false } →
          v =
            State.headsOffered
              { s with
                sources := putAt s.sources i y, port := s.port.commandTaken 2 o .accepted 255, links := Links.none } →
            ((∀ l, (x.bufs.get l).readHold = 0 ∧ (x.bufs.get l).writeHold = 0) →
              w = State.headsOffered { v with sources := putAt s.sources i { y with state := .off } }) →
              ((∃ l, (x.bufs.get l).readHold ≠ 0 ∨ (x.bufs.get l).writeHold ≠ 0) → w = v) →
                ∃ t, exec (.closeSource o) s = .next t ∧
                  t =
                    { w with
                      override := { s.override with groups := t.override.groups }
                      capture := { w.capture with overrideChange := t.capture.overrideChange } } ∧
                  s.groupsActed t) ∧
      (x.state = .off →
        exec (.closeSource o) s =
          .next { s with port := s.port.commandTaken 2 o .refusedState 255, links := Links.none }) ∧
      (x.state = .closing →
        exec (.closeSource o) s =
          .next { s with port := s.port.commandTaken 2 o .refusedBusy 255, links := Links.none }) ∧
      (x.state = .contained →
        ∃ t, exec (.releaseSource o) s = .next t ∧
          t =
            { s with
              sources := putAt s.sources i { x with state := t.sources[i].state }
              override := { s.override with groups := t.override.groups }
              capture := { s.capture with overrideChange := t.capture.overrideChange }
              port := s.port.commandTaken 3 o .accepted 255
              links := Links.none } ∧
          (x.hasRole .front → t.sources[i].state = .live) ∧ (¬x.hasRole .front → t.sources[i].state = .await) ∧
          s.groupsActed t) ∧
      (x.state ≠ .contained →
        exec (.releaseSource o) s =
          .next { s with port := s.port.commandTaken 3 o .accepted 255, links := Links.none })

/-- SOURCE_CONFIG and CREDIT_CAP (R19, R20, R143, R173, R174). While OFF a page number above 268435455 is refused and any other value is
stored; while open the fields 0 to 6 are refused with REFUSED_STATE, a page number above 268435455 too (log 31, the model's choice), and
the fields 7 to 10 are checked; a credit cap stored while open cuts the credit. Every word is reported and moves the table pointer on; a
refusal that names no field reports 255 (log 13, an inference). -/
def Obligations.SourceConfigIsChecked : Prop :=
  (∀ (s : State) (i : SourceId) (f : Fin 11) (v : Word) (x : Source), s.listening → x = s.sources[i] →
    (x.state = .off → ((f = 0 ∨ f = 4 ∨ f = 5 ∨ f = 6) → v.toNat ≤ 268435455) →
      ∃ t, exec (.sourceConfig i f v) s = .next t ∧
        t =
          { s with
            sources := putAt s.sources i { x with cfg := t.sources[i].cfg }
            port := s.port.fieldTaken ⟨1, i.val, f.val⟩ .accepted 255
            links := Links.none } ∧
        t.sources[i].cfg.get f.val = v.toNat ∧ ∀ k, k < 11 → k ≠ f.val → t.sources[i].cfg.get k = x.cfg.get k) ∧
      (x.state = .off → (f = 0 ∨ f = 4 ∨ f = 5 ∨ f = 6) → 268435455 < v.toNat →
        exec (.sourceConfig i f v) s =
          .next
            { s with port := s.port.fieldTaken ⟨1, i.val, f.val⟩ .refusedInvalid f.val, links := Links.none }) ∧
      (x.state ≠ .off → f.val ≤ 6 →
        exec (.sourceConfig i f v) s =
          .next { s with port := s.port.fieldTaken ⟨1, i.val, f.val⟩ .refusedState 255, links := Links.none }) ∧
      (x.state ≠ .off →
        ((f = 7 ∧ v.toNat ≤ 255) ∨ (f = 8 ∧ v.toNat ≤ 262143 ∧ (v.toNat = 0 ∨ 16 ≤ x.cfg.creditCap)) ∨
          (f = 9 ∧ v.toNat ≤ 65535 ∧ (16 ≤ v.toNat ∨ (x.cfg.quota = 0 ∧ x.quotaInEffect = 0))) ∨
          (f = 10 ∧ v.toNat ≤ 1)) →
        ∃ t, exec (.sourceConfig i f v) s = .next t ∧
          t =
            { s with
              sources :=
                putAt s.sources i
                  { x with
                    cfg := t.sources[i].cfg, credit := if f = 9 then min x.credit v.toNat else x.credit }
              port := s.port.fieldTaken ⟨1, i.val, f.val⟩ .accepted 255
              links := Links.none } ∧
          t.sources[i].cfg.get f.val = v.toNat ∧ ∀ k, k < 11 → k ≠ f.val → t.sources[i].cfg.get k = x.cfg.get k) ∧
      (x.state ≠ .off →
        ((f = 7 ∧ 255 < v.toNat) ∨ (f = 8 ∧ (262143 < v.toNat ∨ (0 < v.toNat ∧ x.cfg.creditCap < 16))) ∨
          (f = 9 ∧ (65535 < v.toNat ∨ (v.toNat < 16 ∧ (0 < x.cfg.quota ∨ 0 < x.quotaInEffect)))) ∨
          (f = 10 ∧ 1 < v.toNat)) →
        exec (.sourceConfig i f v) s =
          .next
            { s with port := s.port.fieldTaken ⟨1, i.val, f.val⟩ .refusedInvalid f.val, links := Links.none })) ∧
    ∀ (s : State) (i : SourceId) (v : Word) (x : Source), s.listening → x = s.sources[i] → x.state ≠ .off →
      v.toNat ≤ 65535 → 16 ≤ v.toNat →
        exec (.creditCap i v) s =
          .next
            { s with
              sources :=
                putAt s.sources i
                  { x with cfg := { x.cfg with creditCap := v.toNat }, credit := min x.credit v.toNat }
              port := s.port.fieldTaken ⟨1, i.val, 9⟩ .accepted 255
              links := Links.none }

/-! ### The layout -/

/-- WINDOW_STAGED and STACK_STAGED (R64, R67, R69, R70): while the controller is IDLE a value in the field's range is stored and reads
back, every other field keeping its value, and one outside it is refused with REFUSED_INVALID, naming the field, that of a background
mode too (field 33: log 13, an inference); while a commit is in progress every write is refused with REFUSED_BUSY and, as the refusal
names no field, 255 (log 13). -/
def Obligations.StagedWritesWhileIdle : Prop :=
  (∀ (s : State) (w : WindowId) (f : Fin 15) (v : Word), s.listening →
    (s.layout.ctl = .idle → windowStores f.val v.toNat →
      ∃ t, exec (.windowStaged w f v) s = .next t ∧
        t =
          { s with
            layout :=
              { s.layout with
                staged :=
                  { s.layout.staged with windows := putAt s.layout.staged.windows w t.layout.staged.windows[w] } }
            port := s.port.fieldTaken ⟨3, w.val, f.val⟩ .accepted 255
            links := Links.none } ∧
        t.layout.staged.windows[w].get f.val = v.toNat ∧
        ∀ k, k < 15 → k ≠ f.val → t.layout.staged.windows[w].get k = s.layout.staged.windows[w].get k) ∧
      (s.layout.ctl = .idle → ¬windowStores f.val v.toNat →
        exec (.windowStaged w f v) s =
          .next
            { s with port := s.port.fieldTaken ⟨3, w.val, f.val⟩ .refusedInvalid f.val, links := Links.none }) ∧
      (s.layout.ctl ≠ .idle →
        exec (.windowStaged w f v) s =
          .next { s with port := s.port.fieldTaken ⟨3, w.val, f.val⟩ .refusedBusy 255, links := Links.none })) ∧
    ∀ (s : State) (f : Fin 34) (v : Word), s.listening →
      (s.layout.ctl = .idle → stackStores f.val v.toNat →
        ∃ t, exec (.stackStaged f v) s = .next t ∧
          t =
            { s with
              layout :=
                { s.layout with staged := { t.layout.staged with windows := s.layout.staged.windows } }
              port := s.port.fieldTaken ⟨4, 0, f.val⟩ .accepted 255
              links := Links.none } ∧
          t.layout.staged.stackField f.val = v.toNat ∧
          ∀ k, k < 34 → k ≠ f.val → t.layout.staged.stackField k = s.layout.staged.stackField k) ∧
        (s.layout.ctl = .idle → ¬stackStores f.val v.toNat →
          exec (.stackStaged f v) s =
            .next { s with port := s.port.fieldTaken ⟨4, 0, f.val⟩ .refusedInvalid f.val, links := Links.none }) ∧
        (s.layout.ctl ≠ .idle →
          exec (.stackStaged f v) s =
            .next { s with port := s.port.fieldTaken ⟨4, 0, f.val⟩ .refusedBusy 255, links := Links.none })

/-- The checks of a commit, in their order (R72 to R75): CANVAS_OFF; BAD_WINDOW with the first enabled window that meets a condition of
R73; BAD_STACK; OVERRIDE_LIMIT; and none of them for a layout that passes. -/
def Obligations.CommitChecksInOrder : Prop :=
  ∀ l : LayoutCtl,
    (l.canvas.enabled = false → l.checkFailure = some (.canvasOff, none)) ∧
      (l.canvas.enabled = true →
        (∀ w : WindowId, l.staged.windows[w].enabled = true → l.staged.windows[w].failsAt l.canvas →
          (∀ v : WindowId, v < w → l.staged.windows[v].enabled = true → ¬l.staged.windows[v].failsAt l.canvas) →
            l.checkFailure = some (.badWindow, some w)) ∧
          ((∀ w : WindowId, l.staged.windows[w].enabled = true → ¬l.staged.windows[w].failsAt l.canvas) →
            ((¬l.staged.stacked.Nodup ∨ ∃ w ∈ l.staged.stacked,
                l.staged.windows[w].enabled = false ∨ l.staged.windows[w].group ≠ none) →
              l.checkFailure = some (.badStack, none)) ∧
              ((l.staged.stacked.Nodup ∧ ∀ w ∈ l.staged.stacked,
                  l.staged.windows[w].enabled = true ∧ l.staged.windows[w].group = none) →
                l.checkFailure =
                  if 8 < (allWindows.filter fun w =>
                      l.staged.windows[w].enabled && l.staged.windows[w].group.isSome).length then
                    some (.overrideLimit, none)
                  else none)))

/-- COMMIT, COMPILE_COMPLETION, ABORT and RESTAGE (R76, R78, R83, R85, R86, R88 to R91, R94): the controller's transitions, with the
commit result record, the banks, the COMMIT_FAIL event and the COMMIT_END cause. The compiled bank, with its override list, is stored at
the completion (log 22, an inference); that a completion outside COMPILE does nothing is log 3, the model's choice. -/
def Obligations.CommitRunsThroughItsStates : Prop :=
  (∀ (s : State) (o : Byte), s.listening →
    (s.layout.ctl ≠ .idle →
      exec (.commit o) s = .next { s with port := s.port.commandTaken 4 o .refusedBusy 255, links := Links.none } ∧
        exec (.restage o) s = .next { s with port := s.port.commandTaken 6 o .refusedBusy 255, links := Links.none }) ∧
      (s.layout.ctl = .idle → s.layout.hold = some s.layout.inactive →
        exec (.commit o) s =
          .next
            { s with
              layout := { s.layout with ctl := .drain, result := ⟨.none, none, none, none⟩ }
              port := s.port.commandTaken 4 o .accepted 255
              links := Links.none }) ∧
      (s.layout.ctl = .idle → s.layout.hold ≠ some s.layout.inactive → s.layout.checkFailure = none →
        exec (.commit o) s =
          .next
            { s with
              layout := { s.layout with ctl := .compile, result := ⟨.none, none, none, none⟩ }
              port := s.port.commandTaken 4 o .accepted 255
              links := Links.none }) ∧
      (∀ (code : FailCode) (w : Option WindowId), s.layout.ctl = .idle → s.layout.hold ≠ some s.layout.inactive →
        s.layout.checkFailure = some (code, w) →
          exec (.commit o) s =
            .next
              { s with
                layout :=
                  { s.layout.putBank s.layout.inactive Bank.empty with
                    ctl := .idle, result := ⟨.failed, some code, w, none⟩ }
                capture :=
                  { s.capture.record s.governor.frameCount ⟨.commitFail, none, none, none, w⟩ with commitEnd := true }
                port := s.port.commandTaken 4 o .accepted 255
                links := Links.none }) ∧
      (s.layout.ctl = .idle →
        exec (.abort o) s = .next { s with port := s.port.commandTaken 5 o .accepted 255, links := Links.none } ∧
          exec (.restage o) s =
            .next
              { s with
                layout := { s.layout with staged := s.layout.activeBank.layout }
                port := s.port.commandTaken 6 o .accepted 255
                links := Links.none }) ∧
      (s.layout.ctl ≠ .idle →
        exec (.abort o) s =
          .next
            { s with
              layout :=
                { (if s.layout.ctl = .drain then s.layout else s.layout.putBank s.layout.inactive Bank.empty) with
                  ctl := .idle, result := ⟨.aborted, none, none, none⟩ }
              capture := { s.capture with commitEnd := true }
              port := s.port.commandTaken 5 o .accepted 255
              links := Links.none })) ∧
    ∀ (s : State) (b : Bank), s.resetting = none → b = s.layout.staged.compile s.layout.canvas →
      (s.layout.ctl = .compile → b.segments.length ≤ 1024 →
        exec .compileCompletion s =
          .next
            { s with
              layout := { s.layout.putBank s.layout.inactive b with ctl := .armed }, links := Links.none }) ∧
        (s.layout.ctl = .compile → 1024 < b.segments.length →
          exec .compileCompletion s =
            .next
              { s with
                layout :=
                  { s.layout.putBank s.layout.inactive Bank.empty with
                    ctl := .idle, result := ⟨.failed, some .segmentOverflow, none, none⟩ }
                capture :=
                  { s.capture.record s.governor.frameCount ⟨.commitFail, none, none, none, none⟩ with
                    commitEnd := true }
                links := Links.none }) ∧
        (s.layout.ctl ≠ .compile → exec .compileCompletion s = .next { s with links := Links.none }) ∧
        (b.holdsLayout = true ∧ b.layout = s.layout.staged ∧ b.base = s.layout.canvas.base ∧
          b.width = s.layout.canvas.width ∧ b.height = s.layout.canvas.height ∧ b.pitch = s.layout.canvas.pitch ∧
          s.layout.staged.isOverrideList b.overrideList)

/-- The canvas registers (R58 to R62). Geometry is writable while the canvas is disabled, the base up to the last page; while it is
enabled every write of it is refused with REFUSED_STATE, a base above the last page too (log 30, the model's choice). An enable request
passes its busy, validity and overlap checks and gives both banks the empty layout of the canvas. A disable request ends a commit in
progress with CANVAS_CHANGED. With the region gone or come the write heads of the lanes are offered again (R4), in the order of log 5 and
after the COMMIT_FAIL event of a commit that ends (log 19): both orders are the model's choice. A write of the value the field holds
changes nothing. A refusal names the register's index, or 255 where the rule names no field (log 13, an inference). -/
def Obligations.CanvasRegistersTakeRequests : Prop :=
  (∀ (s : State) (f : CanvasField) (v : Word), s.listening →
    (s.layout.canvas.enabled = true →
      exec (.canvasGeometryWrite f v) s =
        .next
          { s with
            port := s.port.wordTaken (BitVec.ofNat 8 (canvasIndex f)) .refusedState 255, links := Links.none }) ∧
      (s.layout.canvas.enabled = false → (f = .base → v.toNat ≤ 268435455) →
        exec (.canvasGeometryWrite f v) s =
          .next
            { s with
              layout :=
                { s.layout with
                  canvas :=
                    (match f with
                     | .base => { s.layout.canvas with base := v.toNat }
                     | .width => { s.layout.canvas with width := v.toNat }
                     | .height => { s.layout.canvas with height := v.toNat }
                     | .pitch => { s.layout.canvas with pitch := v.toNat }) }
              port := s.port.wordTaken (BitVec.ofNat 8 (canvasIndex f)) .accepted 255
              links := Links.none }) ∧
      (s.layout.canvas.enabled = false → f = .base → 268435455 < v.toNat →
        exec (.canvasGeometryWrite f v) s =
          .next { s with port := s.port.wordTaken 4 .refusedInvalid 4, links := Links.none })) ∧
    (∀ s : State, s.listening →
      (s.layout.canvas.enabled = true →
        exec .canvasEnable s = .next { s with port := s.port.wordTaken 8 .accepted 255, links := Links.none }) ∧
        (s.layout.canvas.enabled = false →
          (s.layout.ctl = .drain ∨ (∃ e ∈ s.uport.intake, e.cls = .canvas) ∨
            (∃ c ∈ s.translator.contexts, c.cls = .canvas ∧ (c.state = .waiting ∨ c.state = .walking))) →
            exec .canvasEnable s = .next { s with port := s.port.wordTaken 8 .refusedBusy 255, links := Links.none }) ∧
        (s.layout.canvas.enabled = false → s.layout.ctl ≠ .drain → (∀ e ∈ s.uport.intake, e.cls ≠ .canvas) →
          (∀ c ∈ s.translator.contexts, c.cls = .canvas → c.state ≠ .waiting ∧ c.state ≠ .walking) →
            (∀ f, ¬s.layout.canvas.validAtEnable f →
              (∀ k, canvasIndex k < canvasIndex f → s.layout.canvas.validAtEnable k) →
                exec .canvasEnable s =
                  .next
                    { s with port := s.port.wordTaken 8 .refusedInvalid (canvasIndex f), links := Links.none }) ∧
              ((∀ f, s.layout.canvas.validAtEnable f) →
                (∃ g ∈ s.regions, ¬g.apart s.layout.canvas.region) →
                  exec .canvasEnable s =
                    .next { s with port := s.port.wordTaken 8 .refusedOverlap 4, links := Links.none }) ∧
              ((∀ f, s.layout.canvas.validAtEnable f) → (∀ g ∈ s.regions, g.apart s.layout.canvas.region) →
                ∃ b : Bank, exec .canvasEnable s =
                  .next
                    (State.headsOffered
                      { s with
                        layout :=
                          { s.layout with
                            canvas := { s.layout.canvas with enabled := true }, bankA := b, bankB := b }
                        port := s.port.wordTaken 8 .accepted 255
                        links := Links.none }) ∧
                    b =
                      ⟨true, s.layout.canvas.base, s.layout.canvas.width, s.layout.canvas.height, s.layout.canvas.pitch,
                        ⟨Vector.replicate 32 ⟨false, .source, 0, 0, 0, 0, 0, 0, 0, 1, 1, 0, 0, 0, none⟩, 0,
                          Vector.replicate 32 0, .pass⟩, [], [⟨0, s.layout.canvas.height, 0, 1⟩], [⟨0, none⟩]⟩))) ∧
    ∀ s : State, s.listening →
      (s.layout.canvas.enabled = false →
        exec .canvasDisable s = .next { s with port := s.port.wordTaken 8 .accepted 255, links := Links.none }) ∧
        (s.layout.canvas.enabled = true → s.layout.ctl = .idle →
          exec .canvasDisable s =
            .next
              (State.headsOffered
                { s with
                  layout := { s.layout with canvas := { s.layout.canvas with enabled := false } }
                  port := s.port.wordTaken 8 .accepted 255
                  links := Links.none })) ∧
        (s.layout.canvas.enabled = true → s.layout.ctl ≠ .idle →
          exec .canvasDisable s =
            .next
              (State.headsOffered
                { s with
                  layout :=
                    { (if s.layout.ctl = .drain then s.layout else s.layout.putBank s.layout.inactive Bank.empty) with
                      canvas := { s.layout.canvas with enabled := false }
                      ctl := .idle
                      result := ⟨.failed, some .canvasChanged, none, none⟩ }
                  capture :=
                    { s.capture.record s.governor.frameCount ⟨.commitFail, none, none, none, none⟩ with
                      commitEnd := true }
                  port := s.port.wordTaken 8 .accepted 255
                  links := Links.none }))

/-! ### Override groups -/

/-- The raw condition is true exactly when a selected line is at its active level, a selected source has its trip flag set or is
CONTAINED, or an enabled software bit is 1 (R151), and the first true input is found in the order of R153. -/
def Obligations.RawConditionIsAnyInput : Prop :=
  ∀ (s : State) (g : GroupId) (c : GroupConfig) (line : Fin 8 → Prop) (trip contain : SourceId → Prop)
    (soft : Fin 2 → Prop), c = s.override.groups[g].cfg →
    (∀ n, line n ↔ c.alarmSel.getLsbD n.val = true ∧
      (s.override.sensed.getLsbD n.val = true ↔ c.polarity.getLsbD n.val = false)) →
      (∀ i, trip i ↔ c.staleSel.getLsbD i.val = true ∧ s.sources[i].trip = true) →
        (∀ i, contain i ↔ c.containSel.getLsbD i.val = true ∧ s.sources[i].state = .contained) →
          (∀ b, soft b ↔ c.softEnable.getLsbD b.val = true ∧ s.override.softBits.getLsbD (2 * g.val + b.val) = true) →
            (s.rawCondition g = true ↔ (∃ n, line n) ∨ (∃ i, trip i) ∨ (∃ i, contain i) ∨ ∃ b, soft b) ∧
              (s.firstInput g = none ↔ s.rawCondition g = false) ∧
              (∀ n, s.firstInput g = some (.alarm n) ↔ line n ∧ ∀ m, m < n → ¬line m) ∧
              (∀ i, s.firstInput g = some (.staleTrip i) ↔ (trip i ∧ ∀ j, j < i → ¬trip j) ∧ ∀ n, ¬line n) ∧
              (∀ i, s.firstInput g = some (.contain i) ↔
                (contain i ∧ ∀ j, j < i → ¬contain j) ∧ (∀ n, ¬line n) ∧ ∀ j, ¬trip j) ∧
              ∀ b, s.firstInput g = some (.software b) ↔
                (soft b ∧ ∀ k, k < b → ¬soft k) ∧ (∀ n, ¬line n) ∧ (∀ j, ¬trip j) ∧ ∀ j, ¬contain j

/-- ALARM_LEVEL_CHANGE, SOFT_BITS and TRIP_CLEAR (R47, R148, R150, R152 to R155, R159): the level, the eight bits or the named trip flags
take their values, and in the same event every group acts on its raw condition as it then stands; OVERRIDE_CHANGE is set when a group
enters ASSERTED from IDLE or enters IDLE. -/
def Obligations.GroupsFollowTheirInputs : Prop :=
  ∀ (s : State) (i : Instr), s.resetting = none →
    ((∃ n h, i = .alarmLevelChange n h) ∨
      (s.loader.state = .idle ∧ ∃ v, i = .softBits v ∨ i = .tripClear v)) →
      ∃ t, exec i s = .next t ∧
        t =
          { s with
            sources := t.sources
            override := { t.override with groups := t.override.groups }
            capture := { s.capture with overrideChange := t.capture.overrideChange }
            port := t.port
            links := Links.none } ∧
        (∀ g : GroupId, t.override.groups[g] = s.override.groups[g].evaluated (t.rawCondition g) (t.triggerNow g)) ∧
        (t.capture.overrideChange = true ↔
          s.capture.overrideChange = true ∨
            ∃ g : GroupId, s.override.groups[g].evaluationChanges (t.rawCondition g) = true) ∧
        (∀ n h, i = .alarmLevelChange n h →
          t.sources = s.sources ∧ t.port = s.port ∧ t.override.softBits = s.override.softBits ∧
            ∀ m : Fin 8, t.override.sensed.getLsbD m.val = if m = n then h else s.override.sensed.getLsbD m.val) ∧
        (∀ v, i = .softBits v →
          t.sources = s.sources ∧ t.port = s.port.wordTaken 0x0D .accepted 255 ∧
            t.override.sensed = s.override.sensed ∧ t.override.softBits = v.extractLsb' 0 8) ∧
        ∀ v, i = .tripClear v →
          t.port = s.port.wordTaken 0x0E .accepted 255 ∧ t.override.sensed = s.override.sensed ∧
            t.override.softBits = s.override.softBits ∧
            ∀ j : SourceId, t.sources[j] = { s.sources[j] with trip := s.sources[j].trip && !v.getLsbD j.val }

/-- GROUP_CONFIG, GROUP_ENABLE and GROUP_DISABLE (R149, R152, R157): a value in range is stored and the group acts on its raw condition
as it then stands, but for the hold-off; outside it is refused, naming the field; enabling asserts a group whose raw condition is true;
disabling returns a group to IDLE; OVERRIDE_CHANGE is set as R159 says. -/
def Obligations.GroupConfigTakesEffect : Prop :=
  (∀ (s : State) (g : GroupId) (f : Fin 7) (v : Word), s.listening →
    (¬groupStores f.val v.toNat →
      exec (.groupConfig g f v) s =
        .next { s with port := s.port.fieldTaken ⟨9, g.val, f.val⟩ .refusedInvalid f.val, links := Links.none }) ∧
      (f ≠ 0 → groupStores f.val v.toNat →
        ∃ t c, exec (.groupConfig g f v) s = .next t ∧
          t =
            { s with
              override :=
                { s.override with
                  groups :=
                    putAt s.override.groups g
                      (if f = 6 then { s.override.groups[g] with cfg := c }
                       else
                        ({ s.override.groups[g] with cfg := c } : Group).evaluated (t.rawCondition g)
                          (t.triggerNow g)) }
              capture :=
                { s.capture with
                  overrideChange :=
                    s.capture.overrideChange ||
                      (f != 6 && ({ s.override.groups[g] with cfg := c } : Group).evaluationChanges (t.rawCondition g)) }
              port := s.port.fieldTaken ⟨9, g.val, f.val⟩ .accepted 255
              links := Links.none } ∧
          c.get f.val = v.toNat ∧ ∀ k, k < 7 → k ≠ f.val → c.get k = s.override.groups[g].cfg.get k) ∧
      (f = 0 → v.toNat = 1 → exec (.groupConfig g f v) s = exec (.groupEnable g) s) ∧
      (f = 0 → v.toNat = 0 → exec (.groupConfig g f v) s = exec (.groupDisable g) s)) ∧
    ∀ (s : State) (g : GroupId) (x : Group), s.listening → x = s.override.groups[g] →
      (x.cfg.enabled = false → s.rawCondition g = true →
        exec (.groupEnable g) s =
          .next
            { s with
              override :=
                { s.override with
                  groups :=
                    putAt s.override.groups g
                      { x with
                        cfg := { x.cfg with enabled := true }, state := .asserted, holdCount := 0, raw := true
                        trigger := s.triggerNow g } }
              capture := { s.capture with overrideChange := true }
              port := s.port.fieldTaken ⟨9, g.val, 0⟩ .accepted 255
              links := Links.none }) ∧
        (x.cfg.enabled = false → s.rawCondition g = false →
          exec (.groupEnable g) s =
            .next
              { s with
                override :=
                  { s.override with
                    groups := putAt s.override.groups g { x with cfg := { x.cfg with enabled := true } } }
                port := s.port.fieldTaken ⟨9, g.val, 0⟩ .accepted 255
                links := Links.none }) ∧
        (x.cfg.enabled = true →
          exec (.groupDisable g) s =
            .next
              { s with
                override :=
                  { s.override with
                    groups :=
                      putAt s.override.groups g
                        { x with cfg := { x.cfg with enabled := false }, state := .idle, holdCount := 0 } }
                capture :=
                  { s.capture with overrideChange := s.capture.overrideChange || decide (x.state ≠ .idle) }
                port := s.port.fieldTaken ⟨9, g.val, 0⟩ .accepted 255
                links := Links.none }) ∧
        (x.cfg.enabled = true →
          exec (.groupEnable g) s =
            .next { s with port := s.port.fieldTaken ⟨9, g.val, 0⟩ .accepted 255, links := Links.none }) ∧
        (x.cfg.enabled = false →
          exec (.groupDisable g) s =
            .next { s with port := s.port.fieldTaken ⟨9, g.val, 0⟩ .accepted 255, links := Links.none })

/-! ### Error capture -/

/-- Error capture records an event (R161, R165, R166): with the detect enable of its class off nothing changes; with it on the status of
the class is set, and if the first-error pointer is invalid it takes the class and the fault record takes the event and the frame. -/
def Obligations.RecordingSetsStatus : Prop :=
  ∀ (c : Capture) (frame : BitVec 16) (e : ErrEvent),
    (c.detect.getLsbD e.cls.num = false → c.record frame e = c) ∧
      (c.detect.getLsbD e.cls.num = true →
        c.record frame e =
          { c with
            status := c.status ||| BitVec.twoPow 12 e.cls.num
            pointerValid := true
            pointerClass := if c.pointerValid = true then c.pointerClass else e.cls
            fault := if c.pointerValid = true then c.fault else ⟨e, frame⟩ })

/-- R163: a write of ERROR_STATUS clears the statuses of the classes its set names and no other, and the pointer if it names one of
them; an event of a named class that comes after the write leaves its status set, one that came before leaves it clear; ERROR_STATUS
reads as the set of statuses. -/
def Obligations.ErrorStatusClearsNamedClasses : Prop :=
  (∀ (s : State) (v : Word), s.listening →
    ∃ t, exec (.errorStatus v) s = .next t ∧
      t =
        { s with
          capture :=
            { s.capture with
              status := t.capture.status
              pointerValid := s.capture.pointerValid && !v.getLsbD s.capture.pointerClass.num
              pointerClass := t.capture.pointerClass }
          port := s.port.wordTaken 0x10 .accepted 255
          links := Links.none } ∧
      (t.capture.pointerValid = true → t.capture.pointerClass = s.capture.pointerClass) ∧
      (∀ c : ErrClass, t.capture.status.getLsbD c.num = (s.capture.status.getLsbD c.num && !v.getLsbD c.num)) ∧
      ∀ (e : ErrEvent) (u : State), v.getLsbD e.cls.num = true → s.capture.detect.getLsbD e.cls.num = true →
        (t.record e).capture.status.getLsbD e.cls.num = true ∧
          (exec (.errorStatus v) (s.record e) = .next u → u.capture.status.getLsbD e.cls.num = false)) ∧
    ∀ s : State, s.readRegister 16 = s.capture.status.toNat

/-- R164: a write of SEVERITY sets the severity of each class in the event that stores it; a set status drives the fault level when its
class is a fault and the notice level when it is a notice; statuses, pointer and fault record are unchanged, and recording does not
look at severity. -/
def Obligations.SeverityDecidesLevel : Prop :=
  (∀ (s : State) (v : Word), s.listening →
    exec (.severity v) s =
      .next
        { s with
          capture := { s.capture with severity := v.extractLsb' 0 12 }
          port := s.port.wordTaken 0x12 .accepted 255
          links := Links.none }) ∧
    (∀ c : Capture,
      (c.faultLevel = true ↔ ∃ k : ErrClass, c.status.getLsbD k.num = true ∧ c.severity.getLsbD k.num = true) ∧
        (c.noticeLevel = true ↔ ∃ k : ErrClass, c.status.getLsbD k.num = true ∧ c.severity.getLsbD k.num = false)) ∧
    ∀ (c : Capture) (v : BitVec 12) (frame : BitVec 16) (e : ErrEvent),
      Capture.record { c with severity := v } frame e = { c.record frame e with severity := v }

/-- R169: IRQn is driven low while at least one of the five causes holds with its enable on, outside a reset, and is released otherwise;
after a reset the enables are off, so it is released until an enable is turned on, which drives it low at once while its cause
holds. -/
def Obligations.IrqFollowsEnabledCauses : Prop :=
  (∀ s : State, s.irqLow = true ↔ s.resetting = none ∧
    ((s.capture.faultLevel = true ∧ s.capture.intEnable.getLsbD 0 = true) ∨
      (s.capture.noticeLevel = true ∧ s.capture.intEnable.getLsbD 1 = true) ∨
      (s.capture.commitEnd = true ∧ s.capture.intEnable.getLsbD 2 = true) ∨
      (s.capture.overrideChange = true ∧ s.capture.intEnable.getLsbD 3 = true) ∨
      (s.capture.loaderEnd = true ∧ s.capture.intEnable.getLsbD 4 = true))) ∧
    (∀ (s : State) (k : ResetKind) (pins : ResetPins) (t : State),
      exec (.resetEnd pins) (s.beginReset k) = .next t → t.capture.intEnable = 0 ∧ t.irqLow = false) ∧
    ∀ (s : State) (v : Word), s.listening →
      ∃ t, exec (.intEnable v) s = .next t ∧
        t =
          { s with
            capture := { s.capture with intEnable := v.extractLsb' 0 5 }
            port := s.port.wordTaken 0x15 .accepted 255
            links := Links.none } ∧
        (v.getLsbD 0 = true → s.capture.faultLevel = true → t.irqLow = true)

/-! ### The management port and the loader -/

/-- The registers of single values (R119, R127, R139, R144, R161, R168, R173): a value in range is stored in the register's field and
nowhere else, one outside it is refused with REFUSED_INVALID, and every word is reported; a refusal that names no field reports 255
(log 13, an inference). -/
def Obligations.RegistersStoreTheirFields : Prop :=
  ∀ (s : State) (v : Word), s.listening →
    exec (.detectEnable v) s =
        .next
          { s with
            capture := { s.capture with detect := v.extractLsb' 0 12 }
            port := s.port.wordTaken 0x11 .accepted 255
            links := Links.none } ∧
      exec (.intCause v) s =
        .next
          { s with
            capture :=
              { s.capture with
                commitEnd := s.capture.commitEnd && !v.getLsbD 2
                overrideChange := s.capture.overrideChange && !v.getLsbD 3
                loaderEnd := s.capture.loaderEnd && !v.getLsbD 4 }
            port := s.port.wordTaken 0x14 .accepted 255
            links := Links.none } ∧
      (∀ q : Port, q = s.port.wordTaken 0x17 .accepted 255 →
        exec (.portStatus v) s =
          .next
            { s with
              port :=
                { q with
                  partialWord := q.partialWord && !v.getLsbD 0
                  writeRefused := q.writeRefused && !v.getLsbD 1 }
              links := Links.none }) ∧
      (∃ t, exec (.capFlagClear v) s = .next t ∧
        t = { s with sources := t.sources, port := s.port.wordTaken 0x0F .accepted 255, links := Links.none } ∧
        ∀ i : SourceId,
          t.sources[i] = { s.sources[i] with capSaturated := s.sources[i].capSaturated && !v.getLsbD i.val }) ∧
      (1 ≤ v.toNat → v.toNat ≤ 65535 →
        exec (.slotLength v) s =
          .next
            { s with
              governor := { s.governor with slotLength := v.toNat }
              port := s.port.wordTaken 0x09 .accepted 255
              links := Links.none }) ∧
      ((v.toNat = 0 ∨ 65535 < v.toNat) →
        exec (.slotLength v) s =
          .next { s with port := s.port.wordTaken 0x09 .refusedInvalid 255, links := Links.none }) ∧
      (∀ d : Deadline, v.toNat = (match d with | .us1 => 1 | .us4 => 4 | .us16 => 16 | .us64 => 64) →
        exec (.responseDeadline v) s =
          .next
            { s with
              dport := { s.dport with deadline := d }
              port := s.port.wordTaken 0x0A .accepted 255
              links := Links.none }) ∧
      (v.toNat ≠ 1 → v.toNat ≠ 4 → v.toNat ≠ 16 → v.toNat ≠ 64 →
        exec (.responseDeadline v) s =
          .next { s with port := s.port.wordTaken 0x0A .refusedInvalid 255, links := Links.none }) ∧
      (∀ e : Fin 9, v.toNat ≤ 0xFFFFFF →
        exec (.palette e v) s =
          .next
            { s with
              translator := { s.translator with palette := putAt s.translator.palette e (v.extractLsb' 0 24) }
              port := s.port.fieldTaken ⟨11, e.val, 0⟩ .accepted 255
              links := Links.none }) ∧
      ∀ e : Fin 9, 0xFFFFFF < v.toNat →
        exec (.palette e v) s =
          .next { s with port := s.port.fieldTaken ⟨11, e.val, 0⟩ .refusedInvalid 0, links := Links.none }

/-- INDEX_BYTE, PARTIAL_WORD, REGISTER_WRITE, TABLE_POINTER and TABLE_DATA_READ (R170 to R175, Tables 11-1 and 11-2). A write transaction
at the port's own address begins with the index byte, which sets both indices; addressed elsewhere it is none of the port's; a stop or a
start discards the one to three data bytes held and sets the partial-word flag. Data bytes are held until the fourth completes a word,
least significant byte first, and the word is a write of the register at the working index: the command of that register's own row, or of
the table field at the pointer; at a read-only or unlisted index and in a read-only table it is refused and reported. Where a rule names
no field the report names 255: a TABLE_POINTER word, a read-only table and table 0; a CANVAS_ENABLE word above 1 names its register, 8
(log 13, an inference). Data bytes, and the next word of a read, with no transaction under way do nothing (log 3, the model's choice). A
read word is the value of the register at the working index, sent least significant byte first: the whole word moves the index, or at
TABLE_DATA the pointer; a word broken off moves nothing; that the one read row stands for every word of a read is log 12, an inference. A
row of one register stands for its word in the transaction under way, or in one of its own (logs 9 and 10, inferences). -/
def Obligations.PortTakesWords : Prop :=
  (∀ (s : State) (q : Port), s.listening →
    q =
      { s.port with
        transaction := .none, held := [], partialWord := s.port.partialWord || decide (s.port.held ≠ []) } →
      (∀ b, exec (.indexByte ⟨s.port.targetAddress, b⟩) s =
        .next
          { s with port := { q with transaction := .write, startIndex := b, workingIndex := b }, links := Links.none }) ∧
        (∀ a b, a ≠ s.port.targetAddress → exec (.indexByte ⟨a, b⟩) s = .next { s with port := q, links := Links.none }) ∧
        exec .partialWord s = .next { s with port := q, links := Links.none } ∧
        (∀ i : Byte, s.port.standAt i =
          if s.port.transaction = .write ∧ s.port.held = [] ∧ s.port.workingIndex = i then s.port
          else { q with transaction := .write, startIndex := i, workingIndex := i }) ∧
        (∀ p : TablePointer, s.port.pointAt p =
          if s.port.pointer = p then s.port.standAt 3 else { s.port.standAt 2 with pointer := p, workingIndex := 3 }) ∧
        (∀ (n : Fin 4) (r : PortRead) (z : Port) (v : Word),
          v = BitVec.ofNat 32 (State.readRegister { s with port := z } z.workingIndex.toNat) →
          ((r = .next ∧ s.port.transaction = .read ∧ z = s.port) ∨
            (r = .first s.port.targetAddress ∧ z = { q with transaction := .read, workingIndex := s.port.startIndex }) ∨
            (r = .tableData ∧ s.port.transaction = .read ∧ s.port.workingIndex = 3 ∧ z = s.port) ∨
            (r = .tableData ∧ (s.port.transaction ≠ .read ∨ s.port.workingIndex ≠ 3) ∧
              z = { q with transaction := .read, startIndex := 3, workingIndex := 3 })) →
            exec (.tableDataRead r n) s =
              .next
                { s with
                  port :=
                    if n = 3 then
                      (if z.workingIndex = 3 then { z with pointer := z.pointer.advance }
                       else { z with workingIndex := z.workingIndex + 1 })
                    else { z with transaction := .none }
                  links :=
                    ⟨[], [],
                      some
                        ([v.extractLsb' 0 8, v.extractLsb' 8 8, v.extractLsb' 16 8, v.extractLsb' 24 8].take
                          (n.val + 1))⟩ }) ∧
        (∀ n : Fin 4, s.port.transaction ≠ .read → exec (.tableDataRead .next n) s = .next { s with links := Links.none }) ∧
        ∀ (n : Fin 4) (a : BitVec 7), a ≠ s.port.targetAddress →
          exec (.tableDataRead (.first a) n) s = .next { s with port := q, links := Links.none }) ∧
    (∀ (s : State) (b : Byte) (more : List Byte), s.listening → more.length ≤ 3 →
      (s.port.transaction ≠ .write → exec (.registerWrite b more) s = .next { s with links := Links.none }) ∧
        (s.port.transaction = .write → s.port.held.length + more.length ≤ 2 →
          exec (.registerWrite b more) s =
            .next { s with port := { s.port with held := s.port.held ++ b :: more }, links := Links.none }) ∧
        (∀ (h : Byte) (hs : List Byte), s.port.transaction = .write → s.port.held = h :: hs →
          hs.length + more.length = 2 →
            exec (.registerWrite b more) s =
              exec (.registerWrite h (hs ++ b :: more)) { s with port := { s.port with held := [] } }) ∧
        ∀ pre post : List Byte, more = pre ++ post → s.port.transaction = .write → s.port.held.length + pre.length = 3 →
          ∃ t, exec (.registerWrite b pre) s = .next t ∧
            exec (.registerWrite b more) s =
              .next
                { t with port := { t.port with held := if t.port.transaction = .write then post else t.port.held } }) ∧
    (∀ (s : State) (b0 b1 b2 b3 : Byte) (v : Word) (w : List Byte), s.listening → s.port.transaction = .write →
      s.port.held = [] → w = [b1, b2, b3] →
        v.toNat = b0.toNat + 256 * b1.toNat + 65536 * b2.toNat + 16777216 * b3.toNat →
          (s.port.workingIndex = 0 →
            (b0 = 1 → exec (.registerWrite b0 w) s = exec (.openSource b1) s) ∧
              (b0 = 2 → exec (.registerWrite b0 w) s = exec (.closeSource b1) s) ∧
              (b0 = 3 → exec (.registerWrite b0 w) s = exec (.releaseSource b1) s) ∧
              (b0 = 4 → exec (.registerWrite b0 w) s = exec (.commit b1) s) ∧
              (b0 = 5 → exec (.registerWrite b0 w) s = exec (.abort b1) s) ∧
              (b0 = 6 → exec (.registerWrite b0 w) s = exec (.restage b1) s) ∧
              (b0 = 7 → exec (.registerWrite b0 w) s = exec (.softReset b1) s) ∧
              (b0 = 8 → exec (.registerWrite b0 w) s = exec (.reloadBoot b1) s) ∧
              ((b0 = 0 ∨ 8 < b0.toNat) →
                exec (.registerWrite b0 w) s =
                  .next { s with port := s.port.commandTaken b0 b1 .refusedInvalid 254, links := Links.none })) ∧
            (s.port.workingIndex = 0x02 → exec (.registerWrite b0 w) s = exec (.tablePointer v) s) ∧
            (s.port.workingIndex = 0x04 → exec (.registerWrite b0 w) s = exec (.canvasGeometryWrite .base v) s) ∧
            (s.port.workingIndex = 0x05 → exec (.registerWrite b0 w) s = exec (.canvasGeometryWrite .width v) s) ∧
            (s.port.workingIndex = 0x06 → exec (.registerWrite b0 w) s = exec (.canvasGeometryWrite .height v) s) ∧
            (s.port.workingIndex = 0x07 → exec (.registerWrite b0 w) s = exec (.canvasGeometryWrite .pitch v) s) ∧
            (s.port.workingIndex = 0x08 → v = 1 → exec (.registerWrite b0 w) s = exec .canvasEnable s) ∧
            (s.port.workingIndex = 0x08 → v = 0 → exec (.registerWrite b0 w) s = exec .canvasDisable s) ∧
            (s.port.workingIndex = 0x08 → 1 < v.toNat →
              exec (.registerWrite b0 w) s =
                .next { s with port := s.port.wordTaken 8 .refusedInvalid 8, links := Links.none }) ∧
            (s.port.workingIndex = 0x09 → exec (.registerWrite b0 w) s = exec (.slotLength v) s) ∧
            (s.port.workingIndex = 0x0A → exec (.registerWrite b0 w) s = exec (.responseDeadline v) s) ∧
            (s.port.workingIndex = 0x0D → exec (.registerWrite b0 w) s = exec (.softBits v) s) ∧
            (s.port.workingIndex = 0x0E → exec (.registerWrite b0 w) s = exec (.tripClear v) s) ∧
            (s.port.workingIndex = 0x0F → exec (.registerWrite b0 w) s = exec (.capFlagClear v) s) ∧
            (s.port.workingIndex = 0x10 → exec (.registerWrite b0 w) s = exec (.errorStatus v) s) ∧
            (s.port.workingIndex = 0x11 → exec (.registerWrite b0 w) s = exec (.detectEnable v) s) ∧
            (s.port.workingIndex = 0x12 → exec (.registerWrite b0 w) s = exec (.severity v) s) ∧
            (s.port.workingIndex = 0x14 → exec (.registerWrite b0 w) s = exec (.intCause v) s) ∧
            (s.port.workingIndex = 0x15 → exec (.registerWrite b0 w) s = exec (.intEnable v) s) ∧
            (s.port.workingIndex = 0x17 → exec (.registerWrite b0 w) s = exec (.portStatus v) s) ∧
            (∀ i : Byte, s.port.workingIndex = i →
              (i = 0x01 ∨ i = 0x0B ∨ i = 0x0C ∨ i = 0x13 ∨ i = 0x16 ∨ 0x18 ≤ i.toNat) →
                exec (.registerWrite b0 w) s =
                  .next { s with port := s.port.wordTaken i .refusedInvalid 255, links := Links.none }) ∧
            (s.port.workingIndex = 0x03 →
              (∀ (i : SourceId) (f : Fin 11), s.port.pointer = ⟨1, i.val, f.val⟩ →
                exec (.registerWrite b0 w) s = exec (.sourceConfig i f v) s) ∧
                (∀ (n : WindowId) (f : Fin 15), s.port.pointer = ⟨3, n.val, f.val⟩ →
                  exec (.registerWrite b0 w) s = exec (.windowStaged n f v) s) ∧
                (∀ f : Fin 34, s.port.pointer = ⟨4, 0, f.val⟩ → exec (.registerWrite b0 w) s = exec (.stackStaged f v) s) ∧
                (∀ (g : GroupId) (f : Fin 7), s.port.pointer = ⟨9, g.val, f.val⟩ →
                  exec (.registerWrite b0 w) s = exec (.groupConfig g f v) s) ∧
                (∀ e : Fin 9, s.port.pointer = ⟨11, e.val, 0⟩ → exec (.registerWrite b0 w) s = exec (.palette e v) s) ∧
                (s.port.pointer.table ∈ [2, 5, 6, 7, 8, 10, 12, 13, 14] →
                  exec (.registerWrite b0 w) s =
                    .next { s with port := s.port.fieldTaken s.port.pointer .refusedInvalid 255, links := Links.none }) ∧
                (s.port.pointer.table = 0 →
                  exec (.registerWrite b0 w) s =
                    .next { s with port := s.port.reported 3 .refusedInvalid 255, links := Links.none }))) ∧
    (∀ (s : State) (v : Word) (q : TablePointer), s.listening →
      q = ⟨v.toNat % 256, v.toNat / 256 % 4096, v.toNat / 1048576 % 256⟩ →
        ((∃ n m, tableShape q.table = some (n, m) ∧ q.entry < n ∧ q.field < m) →
          exec (.tablePointer v) s =
            .next { s with port := { s.port.wordTaken 2 .accepted 255 with pointer := q }, links := Links.none }) ∧
          (¬(∃ n m, tableShape q.table = some (n, m) ∧ q.entry < n ∧ q.field < m) →
            exec (.tablePointer v) s =
              .next { s with port := s.port.wordTaken 2 .refusedInvalid 255, links := Links.none })) ∧
    ((List.range 15).map tableShape =
        [none, some (16, 11), some (16, 22), some (32, 15), some (1, 34), some (32, 15), some (1, 34), some (65, 4),
          some (1024, 2), some (4, 7), some (4, 6), some (9, 1), some (1, 8), some (1, 4), some (1, 5)] ∧
      ∀ n, 15 ≤ n → tableShape n = none) ∧
    (∀ p : TablePointer,
      (tableShape p.table = none → p.advance = p) ∧
        ∀ n m, tableShape p.table = some (n, m) → p.entry < n → p.field < m →
          p.advance =
            if p.field + 1 < m then ⟨p.table, p.entry, p.field + 1⟩
            else if p.entry + 1 < n then ⟨p.table, p.entry + 1, 0⟩ else ⟨p.table, 0, 0⟩) ∧
    (∀ (s : State) (b : Bank) (number : Bool → Nat), number false = 0 → number true = 1 →
      b = (match s.layout.active with | .a => s.layout.bankA | .b => s.layout.bankB) →
        (List.range 24).map s.readRegister =
          [s.port.command.code.toNat + 256 * s.port.command.operand.toNat +
              65536 * [ResultCode.none, .accepted, .refusedBusy, .refusedState, .refusedInvalid, .refusedOverlap].idxOf
                s.port.command.result + 16777216 * s.port.command.field,
            s.port.command.code.toNat + 256 * s.port.command.operand.toNat +
              65536 * [ResultCode.none, .accepted, .refusedBusy, .refusedState, .refusedInvalid, .refusedOverlap].idxOf
                s.port.command.result + 16777216 * s.port.command.field,
            s.port.pointer.table + 256 * s.port.pointer.entry + 1048576 * s.port.pointer.field,
            s.tableField s.port.pointer.table s.port.pointer.entry s.port.pointer.field,
            s.layout.canvas.base, s.layout.canvas.width, s.layout.canvas.height, s.layout.canvas.pitch,
            number s.layout.canvas.enabled, s.governor.slotLength,
            (match s.dport.deadline with | .us1 => 1 | .us4 => 4 | .us16 => 16 | .us64 => 64),
            [CtlState.idle, .drain, .compile, .armed].idxOf s.layout.ctl +
              4 * [BankLetter.a, .b].idxOf s.layout.active + 8 * number s.layout.bankA.holdsLayout +
              16 * number s.layout.bankB.holdsLayout + 32 * [none, some BankLetter.a, some .b].idxOf s.layout.hold +
              128 * b.strips.length + 16384 * b.segments.length,
            (allGroups.map fun g =>
              4 ^ g.val * [GroupState.idle, .asserted, .holding].idxOf s.override.groups[g].state).sum +
              256 * s.override.sensed.toNat,
            s.override.softBits.toNat, (allSources.map fun i => 2 ^ i.val * number s.sources[i].trip).sum,
            (allSources.map fun i => 2 ^ i.val * number s.sources[i].capSaturated).sum, s.capture.status.toNat,
            s.capture.detect.toNat, s.capture.severity.toNat,
            number s.capture.pointerValid + 256 * s.capture.pointerClass.num,
            number s.capture.faultLevel + 2 * number s.capture.noticeLevel + 4 * number s.capture.commitEnd +
              8 * number s.capture.overrideChange + 16 * number s.capture.loaderEnd,
            s.capture.intEnable.toNat, s.governor.frameCount.toNat + 65536 * s.governor.slotIndex,
            number s.port.partialWord + 2 * number s.port.writeRefused + 4 * number s.port.booten +
              16 * [ResultCode.none, .accepted, .refusedBusy, .refusedState, .refusedInvalid, .refusedOverlap].idxOf
                s.port.lastResult + 256 * s.port.lastIndex.toNat + 65536 * s.port.lastField] ∧
          (∀ n, 24 ≤ n → s.readRegister n = 0) ∧ (∀ e f, s.tableField 0 e f = 0) ∧
          (∀ (i : SourceId) (x : Source), x = s.sources[i] →
            (List.range 11).map (s.tableField 1 i.val) =
                [x.cfg.apertureBase, x.cfg.width, x.cfg.height, x.cfg.pitch, x.cfg.baseA, x.cfg.baseB, x.cfg.baseC,
                  x.cfg.staleDeadline, x.cfg.quota, x.cfg.creditCap, x.cfg.containment] ∧
              (List.range 22).map (s.tableField 2 i.val) =
                [SourceState.off, .await, .live, .contained, .closing].idxOf x.state ::
                  ([x.bufs.a, x.bufs.b, x.bufs.c].map fun y =>
                    [Role.fill, .sealing, .ready, .front, .spent].idxOf y.role) ++
                  ([x.bufs.a, x.bufs.b, x.bufs.c].map fun y => number y.poison) ++
                  ([x.bufs.a, x.bufs.b, x.bufs.c].map (·.readHold)) ++ ([x.bufs.a, x.bufs.b, x.bufs.c].map (·.writeHold)) ++
                  [number x.fillWait, x.framesSinceFlip, number x.stale, number x.trip, x.credit, number x.capSaturated,
                    x.quotaInEffect, x.presented.toNat, x.holdQueue.length]) ∧
          (∀ (k : Nat) (l : Layout), ((k = 3 ∧ l = s.layout.staged) ∨ (k = 5 ∧ l = b.layout)) →
            (∀ n : WindowId, (List.range 15).map (s.tableField k n.val) =
              [number l.windows[n].enabled, [Content.source, .fill].idxOf l.windows[n].content, l.windows[n].source,
                l.windows[n].x, l.windows[n].y, l.windows[n].width, l.windows[n].height, l.windows[n].cropX,
                l.windows[n].cropY, l.windows[n].hscale, l.windows[n].vscale, l.windows[n].borderWidth,
                l.windows[n].borderColour.toNat, l.windows[n].fillColour.toNat,
                match l.windows[n].group with | none => 7 | some g => g.val]) ∧
              s.tableField (k + 1) 0 0 = l.stackLen ∧ (∀ n : Fin 32, s.tableField (k + 1) 0 (n.val + 1) = l.stack[n].val) ∧
              s.tableField (k + 1) 0 33 = [Background.pass, .fill].idxOf l.background) ∧
          (∀ (n : Nat) (y : Strip), b.strips[n]? = some y →
            (List.range 4).map (s.tableField 7 n) = [y.top, y.bottom, y.first, y.count]) ∧
          (∀ (n : Nat) (y : Segment), b.segments[n]? = some y →
            (List.range 2).map (s.tableField 8 n) = [y.start, match y.owner with | none => 32 | some w => w.val]) ∧
          (∀ (g : GroupId) (x : Group), x = s.override.groups[g] →
            (List.range 7).map (s.tableField 9 g.val) =
                [number x.cfg.enabled, x.cfg.alarmSel.toNat, x.cfg.polarity.toNat, x.cfg.staleSel.toNat,
                  x.cfg.containSel.toNat, x.cfg.softEnable.toNat, x.cfg.holdOff] ∧
              (List.range 6).map (s.tableField 10 g.val) =
                [[GroupState.idle, .asserted, .holding].idxOf x.state, x.holdCount, number x.raw] ++
                  (match x.trigger with
                   | none => [0, 0, 0]
                   | some ⟨.alarm n, frame⟩ => [1, n.val, frame.toNat]
                   | some ⟨.staleTrip i, frame⟩ => [2, i.val, frame.toNat]
                   | some ⟨.contain i, frame⟩ => [3, i.val, frame.toNat]
                   | some ⟨.software n, frame⟩ => [4, n.val + 1, frame.toNat])) ∧
          (∀ e : Fin 9, s.tableField 11 e.val 0 = s.translator.palette[e].toNat) ∧
          (∀ e : ErrEvent, e = s.capture.fault.event →
            (List.range 8).map (s.tableField 12 0) =
              [e.cls.num,
                number e.initiator.isSome + 2 * number e.address.isSome + 4 * number e.source.isSome +
                  8 * number e.window.isSome,
                (match e.initiator with | none => 0 | some n => n.val),
                (match e.address with | none => 0 | some a => a / 4294967296),
                (match e.address with | none => 0 | some a => a % 4294967296),
                (match e.source with | none => 0 | some n => n.val),
                (match e.window with | none => 0 | some n => n.val), s.capture.fault.frame.toNat]) ∧
          (List.range 4).map (s.tableField 13 0) =
            [[CommitOutcome.none, .done, .failed, .aborted].idxOf s.layout.result.outcome,
              (match s.layout.result.code with
               | none => 0
               | some c =>
                 [FailCode.canvasOff, .badWindow, .badStack, .overrideLimit, .segmentOverflow, .canvasChanged].idxOf c + 1),
              (match s.layout.result.window with | none => 255 | some w => w.val),
              (match s.layout.result.segments with | none => 0 | some n => n)] ∧
          (List.range 5).map (s.tableField 14 0) =
            [[LoaderOutcome.none, .absent, .bad, .done].idxOf s.loader.result.outcome,
              (match s.loader.result.reason with
               | none => 0
               | some r => [BadReason.signature, .count, .checksum, .read].idxOf r + 1), s.loader.result.applied,
              s.loader.result.refused, (match s.loader.result.firstRefused with | none => 65535 | some n => n)])

/-- RELOAD_BOOT, VERIFY, APPLY_RECORD and APPLY_READ_NOT_ACKNOWLEDGED (R176, R178 to R181): a load starts, the first pass ends at its
first failed check or enters APPLY, each record is read from its eight bytes and applied as the word it names would be, a record of no
known kind, of register 0x00 to 0x03, of no table field, SOFT_RESET and RELOAD_BOOT are refused, every record is counted, none changes
COMMAND_RESULT, TABLE_POINTER or the write report, and the load's end sets LOADER_END and, for BAD, sends BOOT_IMAGE. The loader reads the
memory at bus address 0x57. `le` numbers bytes least significant first. VERIFY's operand is the bytes acknowledged (log 16, an
inference), and a record can clear the partial-word flag (log 17). -/
def Obligations.LoaderChecksThenApplies : Prop :=
  (∀ (s : State) (o : Byte), s.listening →
    exec (.reloadBoot o) s =
      .next
        { s with
          loader := ⟨.verify, ⟨.none, none, 0, 0, none⟩⟩
          port := { s.port.commandTaken 8 o .accepted 255 with transaction := .none }
          links := Links.none }) ∧
    (∀ s : State,
      (s.loader.state = .idle → s.bootRead = none) ∧ (s.loader.state = .verify → s.bootRead = some ⟨0x57, 0, 6⟩) ∧
        ∀ n k, s.loader.state = .apply n k → s.bootRead = some ⟨0x57, BitVec.ofNat 16 (6 + 8 * k), 8⟩) ∧
    (∀ (s : State) (image : List Byte) (le : List Byte → Nat) (n : Nat), s.resetting = none → s.loader.state = .verify →
      (le [] = 0 ∧ ∀ b bs, le (b :: bs) = b.toNat + 256 * le bs) → n = le ((image.drop 2).take 2) →
        (image.length < 6 →
          exec (.verify image) s =
            .next
              { s with
                loader := ⟨.idle, { s.loader.result with outcome := .absent, reason := none }⟩
                capture := { s.capture with loaderEnd := true }
                links := Links.none }) ∧
          (∀ r : BadReason, 6 ≤ image.length →
            ((le (image.take 2) ≠ 0x4647 ∧ r = .signature) ∨
              (le (image.take 2) = 0x4647 ∧ 1023 < n ∧ r = .count) ∨
              (le (image.take 2) = 0x4647 ∧ n ≤ 1023 ∧ image.length < 6 + 8 * n ∧ r = .read) ∨
              (le (image.take 2) = 0x4647 ∧ n ≤ 1023 ∧ 6 + 8 * n ≤ image.length ∧
                ((image.take 4 ++ (image.drop 6).take (8 * n)).map (·.toNat)).sum % 65536 ≠
                  le ((image.drop 4).take 2) ∧ r = .checksum)) →
              exec (.verify image) s =
                .next
                  { s with
                    loader := ⟨.idle, { s.loader.result with outcome := .bad, reason := some r }⟩
                    capture :=
                      Capture.record { s.capture with loaderEnd := true } s.governor.frameCount
                        ⟨.bootImage, none, none, none, none⟩
                    links := Links.none }) ∧
          (le (image.take 2) = 0x4647 → 1 ≤ n → n ≤ 1023 → 6 + 8 * n ≤ image.length →
            ((image.take 4 ++ (image.drop 6).take (8 * n)).map (·.toNat)).sum % 65536 = le ((image.drop 4).take 2) →
              exec (.verify image) s =
                .next { s with loader := ⟨.apply n 0, s.loader.result⟩, links := Links.none })) ∧
    (∀ (s : State) (n k : Nat) (b : Vector Byte 8) (refused : State), s.resetting = none → s.loader.state = .apply n k →
      refused =
        { s with
          loader :=
            (if k + 1 < n then
              ⟨.apply n (k + 1),
                { s.loader.result with
                  refused := s.loader.result.refused + 1
                  firstRefused := some (s.loader.result.firstRefused.getD k) }⟩
            else
              ⟨.idle,
                { s.loader.result with
                  refused := s.loader.result.refused + 1
                  firstRefused := some (s.loader.result.firstRefused.getD k)
                  outcome := .done
                  reason := none }⟩)
          capture := if k + 1 < n then s.capture else { s.capture with loaderEnd := true }
          links := Links.none } →
        ((b[0].toNat < 1 ∨ 3 < b[0].toNat ∨ (b[0] = 1 ∧ b[1].toNat < 4) ∨
            (b[0] = 2 ∧ ¬∃ e f, tableShape b[1].toNat = some (e, f) ∧ b[2].toNat < e ∧ b[3].toNat < f) ∨
            (b[0] = 2 ∧ b[1].toNat ∈ [2, 5, 6, 7, 8, 10, 12, 13, 14]) ∨
            (b[0] = 3 ∧ (b[4] = 0 ∨ b[4] = 7 ∨ b[4] = 8 ∨ 8 < b[4].toNat))) →
          exec (.applyRecord b) s = .next refused) ∧
          (∀ (w : Port) (u : State),
            ((b[0] = 1 ∧ 4 ≤ b[1].toNat ∧ w = { s.port with transaction := .write, held := [], workingIndex := b[1] }) ∨
              (b[0] = 2 ∧
                w =
                  { s.port with
                    transaction := .write, held := [], workingIndex := 3
                    pointer := ⟨b[1].toNat, b[2].toNat, b[3].toNat⟩ }) ∨
              (b[0] = 3 ∧ b[4] ≠ 7 ∧ b[4] ≠ 8 ∧ w = { s.port with transaction := .write, held := [], workingIndex := 0 })) →
              exec (.registerWrite b[4] [b[5], b[6], b[7]])
                  { s with loader := { s.loader with state := .idle }, port := w } = .next u →
                exec (.applyRecord b) s =
                  .next
                    { u with
                      loader :=
                        (if (if b[0] = 3 then u.port.command.result else u.port.lastResult) = .accepted then
                          (if k + 1 < n then
                            ⟨.apply n (k + 1), { s.loader.result with applied := s.loader.result.applied + 1 }⟩
                          else
                            ⟨.idle,
                              { s.loader.result with
                                applied := s.loader.result.applied + 1, outcome := .done, reason := none }⟩)
                        else refused.loader)
                      capture := if k + 1 < n then u.capture else { u.capture with loaderEnd := true }
                      port := { s.port with partialWord := u.port.partialWord } }) ∧
          (b[0] = 1 → b[1] = 9 → ∀ v : Nat,
            v = b[4].toNat + 256 * b[5].toNat + 65536 * b[6].toNat + 16777216 * b[7].toNat → 1 ≤ v → v ≤ 65535 →
              exec (.applyRecord b) s =
                .next
                  { s with
                    governor := { s.governor with slotLength := v }
                    loader :=
                      if k + 1 < n then
                        ⟨.apply n (k + 1), { s.loader.result with applied := s.loader.result.applied + 1 }⟩
                      else
                        ⟨.idle,
                          { s.loader.result with
                            applied := s.loader.result.applied + 1, outcome := .done, reason := none }⟩
                    capture := if k + 1 < n then s.capture else { s.capture with loaderEnd := true }
                    links := Links.none }) ∧
          exec .applyReadNotAcknowledged s =
            .next
              { s with
                loader := ⟨.idle, { s.loader.result with outcome := .bad, reason := some .read }⟩
                capture :=
                  Capture.record { s.capture with loaderEnd := true } s.governor.frameCount
                    ⟨.bootImage, none, none, none, none⟩
                links := Links.none }) ∧
    ∀ (s : State) (b : Vector Byte 8) (t : State), s.resetting = none → exec (.applyRecord b) s = .next t →
      t.port.command = s.port.command ∧ t.port.pointer = s.port.pointer ∧ t.port.lastResult = s.port.lastResult ∧
        t.port.lastIndex = s.port.lastIndex ∧ t.port.lastField = s.port.lastField ∧
        t.port.writeRefused = s.port.writeRefused

/-! ### Laws that every step keeps -/

/-- R165's law, kept by every step: when the first-error pointer is valid, the status of the class it names is set. -/
def Obligations.FirstErrorLawIsKept : Prop :=
  ∀ s t : State, s.capture.pointerLaw → step s = .next t → t.capture.pointerLaw

/-- The role laws of R31 are kept by every step, with what the rules of chapters 2 and 3 keep beside them: at most one buffer is FILL,
SEALING, READY or FRONT; OFF has three SPENT buffers; LIVE has a FRONT; AWAIT has a FILL or is in fill wait and has no FRONT; CONTAINED
or LIVE out of fill wait has a FILL. -/
def Obligations.RoleLawsAreKept : Prop := ∀ s t : State, s.roleLaws → step s = .next t → t.roleLaws

/-- The governor's credit law (R142) is kept by every step: credit never exceeds the cap and is 0 while a source is OFF, CLOSING or
ungoverned; a governed open source keeps a cap of at least 16 (R20, R146). -/
def Obligations.CreditLawIsKept : Prop := ∀ s t : State, s.creditLaws → step s = .next t → t.creditLaws

/-- The regions of the decoder stay pairwise disjoint through every step (section 1.3, R25, R60, R63). -/
def Obligations.RegionsStayDisjoint : Prop := ∀ s t : State, s.regionsApart → step s = .next t → t.regionsApart

/-- Lists and counters stay within their capacities through every step (R15, R16, R17, R34, R43, R123, R138, R139). -/
def Obligations.CapacitiesAreKept : Prop := ∀ s t : State, s.capacityLaws → step s = .next t → t.capacityLaws

/-- The group laws are kept by every step (R152, section 9.4): the stored raw condition is the one the inputs give, a group with a false
one is not ASSERTED, with a true one not HOLDING, and a disabled group is IDLE. -/
def Obligations.GroupLawsAreKept : Prop := ∀ s t : State, s.groupLaws → step s = .next t → t.groupLaws

/-- Every step leaves nothing due on the read path (R17, R96, R98, R101, R103): the intake list is empty while a context is free, no
answerable context is unanswered, no paused walk has a free record, the idle walker has no WAITING context; and the contexts keep
different numbers. -/
def Obligations.ReadPathStaysSettled : Prop := ∀ s t : State, s.readPathLaw → step s = .next t → t.readPathLaw

/-- The machine right after reset obeys every law above. -/
def Obligations.ResetObeysTheLaws : Prop :=
  State.reset.capture.pointerLaw ∧ State.reset.roleLaws ∧ State.reset.creditLaws ∧ State.reset.regionsApart ∧
    State.reset.capacityLaws ∧ State.reset.groupLaws ∧ State.reset.readPathLaw

end Statements
end

