-- ==== Sys2Proof/Laws/State.lean ====
section
/-! SUPPORT. One lemma for each field and each replacement of a block, true by definition, so that no later proof unfolds a record
update; and the table lemmas of `putAt`. -/

namespace Sys2Proof.Machine

open Sys2Proof

/-! ### Replacing `resetting` -/

@[simp] theorem State.withResetting_resetting (s : State) (x : Option ResetKind) : (s.withResetting x).resetting = x := rfl

@[simp] theorem State.withResetting_uport (s : State) (x : Option ResetKind) : (s.withResetting x).uport = s.uport := rfl

@[simp] theorem State.withResetting_sources (s : State) (x : Option ResetKind) : (s.withResetting x).sources = s.sources := rfl

@[simp] theorem State.withResetting_governor (s : State) (x : Option ResetKind) : (s.withResetting x).governor = s.governor := rfl

@[simp] theorem State.withResetting_layout (s : State) (x : Option ResetKind) : (s.withResetting x).layout = s.layout := rfl

@[simp] theorem State.withResetting_translator (s : State) (x : Option ResetKind) : (s.withResetting x).translator = s.translator := rfl

@[simp] theorem State.withResetting_dport (s : State) (x : Option ResetKind) : (s.withResetting x).dport = s.dport := rfl

@[simp] theorem State.withResetting_override (s : State) (x : Option ResetKind) : (s.withResetting x).override = s.override := rfl

@[simp] theorem State.withResetting_capture (s : State) (x : Option ResetKind) : (s.withResetting x).capture = s.capture := rfl

@[simp] theorem State.withResetting_port (s : State) (x : Option ResetKind) : (s.withResetting x).port = s.port := rfl

@[simp] theorem State.withResetting_loader (s : State) (x : Option ResetKind) : (s.withResetting x).loader = s.loader := rfl

@[simp] theorem State.withResetting_links (s : State) (x : Option ResetKind) : (s.withResetting x).links = s.links := rfl

@[simp] theorem State.withResetting_pending (s : State) (x : Option ResetKind) : (s.withResetting x).pending = s.pending := rfl

/-! ### Replacing `uport` -/

@[simp] theorem State.withUport_resetting (s : State) (x : UPort) : (s.withUport x).resetting = s.resetting := rfl

@[simp] theorem State.withUport_uport (s : State) (x : UPort) : (s.withUport x).uport = x := rfl

@[simp] theorem State.withUport_sources (s : State) (x : UPort) : (s.withUport x).sources = s.sources := rfl

@[simp] theorem State.withUport_governor (s : State) (x : UPort) : (s.withUport x).governor = s.governor := rfl

@[simp] theorem State.withUport_layout (s : State) (x : UPort) : (s.withUport x).layout = s.layout := rfl

@[simp] theorem State.withUport_translator (s : State) (x : UPort) : (s.withUport x).translator = s.translator := rfl

@[simp] theorem State.withUport_dport (s : State) (x : UPort) : (s.withUport x).dport = s.dport := rfl

@[simp] theorem State.withUport_override (s : State) (x : UPort) : (s.withUport x).override = s.override := rfl

@[simp] theorem State.withUport_capture (s : State) (x : UPort) : (s.withUport x).capture = s.capture := rfl

@[simp] theorem State.withUport_port (s : State) (x : UPort) : (s.withUport x).port = s.port := rfl

@[simp] theorem State.withUport_loader (s : State) (x : UPort) : (s.withUport x).loader = s.loader := rfl

@[simp] theorem State.withUport_links (s : State) (x : UPort) : (s.withUport x).links = s.links := rfl

@[simp] theorem State.withUport_pending (s : State) (x : UPort) : (s.withUport x).pending = s.pending := rfl

/-! ### Replacing `sources` -/

@[simp] theorem State.withSources_resetting (s : State) (x : Vector Source 16) : (s.withSources x).resetting = s.resetting := rfl

@[simp] theorem State.withSources_uport (s : State) (x : Vector Source 16) : (s.withSources x).uport = s.uport := rfl

@[simp] theorem State.withSources_sources (s : State) (x : Vector Source 16) : (s.withSources x).sources = x := rfl

@[simp] theorem State.withSources_governor (s : State) (x : Vector Source 16) : (s.withSources x).governor = s.governor := rfl

@[simp] theorem State.withSources_layout (s : State) (x : Vector Source 16) : (s.withSources x).layout = s.layout := rfl

@[simp] theorem State.withSources_translator (s : State) (x : Vector Source 16) : (s.withSources x).translator = s.translator := rfl

@[simp] theorem State.withSources_dport (s : State) (x : Vector Source 16) : (s.withSources x).dport = s.dport := rfl

@[simp] theorem State.withSources_override (s : State) (x : Vector Source 16) : (s.withSources x).override = s.override := rfl

@[simp] theorem State.withSources_capture (s : State) (x : Vector Source 16) : (s.withSources x).capture = s.capture := rfl

@[simp] theorem State.withSources_port (s : State) (x : Vector Source 16) : (s.withSources x).port = s.port := rfl

@[simp] theorem State.withSources_loader (s : State) (x : Vector Source 16) : (s.withSources x).loader = s.loader := rfl

@[simp] theorem State.withSources_links (s : State) (x : Vector Source 16) : (s.withSources x).links = s.links := rfl

@[simp] theorem State.withSources_pending (s : State) (x : Vector Source 16) : (s.withSources x).pending = s.pending := rfl

/-! ### Replacing `governor` -/

@[simp] theorem State.withGovernor_resetting (s : State) (x : Governor) : (s.withGovernor x).resetting = s.resetting := rfl

@[simp] theorem State.withGovernor_uport (s : State) (x : Governor) : (s.withGovernor x).uport = s.uport := rfl

@[simp] theorem State.withGovernor_sources (s : State) (x : Governor) : (s.withGovernor x).sources = s.sources := rfl

@[simp] theorem State.withGovernor_governor (s : State) (x : Governor) : (s.withGovernor x).governor = x := rfl

@[simp] theorem State.withGovernor_layout (s : State) (x : Governor) : (s.withGovernor x).layout = s.layout := rfl

@[simp] theorem State.withGovernor_translator (s : State) (x : Governor) : (s.withGovernor x).translator = s.translator := rfl

@[simp] theorem State.withGovernor_dport (s : State) (x : Governor) : (s.withGovernor x).dport = s.dport := rfl

@[simp] theorem State.withGovernor_override (s : State) (x : Governor) : (s.withGovernor x).override = s.override := rfl

@[simp] theorem State.withGovernor_capture (s : State) (x : Governor) : (s.withGovernor x).capture = s.capture := rfl

@[simp] theorem State.withGovernor_port (s : State) (x : Governor) : (s.withGovernor x).port = s.port := rfl

@[simp] theorem State.withGovernor_loader (s : State) (x : Governor) : (s.withGovernor x).loader = s.loader := rfl

@[simp] theorem State.withGovernor_links (s : State) (x : Governor) : (s.withGovernor x).links = s.links := rfl

@[simp] theorem State.withGovernor_pending (s : State) (x : Governor) : (s.withGovernor x).pending = s.pending := rfl

/-! ### Replacing `layout` -/

@[simp] theorem State.withLayout_resetting (s : State) (x : LayoutCtl) : (s.withLayout x).resetting = s.resetting := rfl

@[simp] theorem State.withLayout_uport (s : State) (x : LayoutCtl) : (s.withLayout x).uport = s.uport := rfl

@[simp] theorem State.withLayout_sources (s : State) (x : LayoutCtl) : (s.withLayout x).sources = s.sources := rfl

@[simp] theorem State.withLayout_governor (s : State) (x : LayoutCtl) : (s.withLayout x).governor = s.governor := rfl

@[simp] theorem State.withLayout_layout (s : State) (x : LayoutCtl) : (s.withLayout x).layout = x := rfl

@[simp] theorem State.withLayout_translator (s : State) (x : LayoutCtl) : (s.withLayout x).translator = s.translator := rfl

@[simp] theorem State.withLayout_dport (s : State) (x : LayoutCtl) : (s.withLayout x).dport = s.dport := rfl

@[simp] theorem State.withLayout_override (s : State) (x : LayoutCtl) : (s.withLayout x).override = s.override := rfl

@[simp] theorem State.withLayout_capture (s : State) (x : LayoutCtl) : (s.withLayout x).capture = s.capture := rfl

@[simp] theorem State.withLayout_port (s : State) (x : LayoutCtl) : (s.withLayout x).port = s.port := rfl

@[simp] theorem State.withLayout_loader (s : State) (x : LayoutCtl) : (s.withLayout x).loader = s.loader := rfl

@[simp] theorem State.withLayout_links (s : State) (x : LayoutCtl) : (s.withLayout x).links = s.links := rfl

@[simp] theorem State.withLayout_pending (s : State) (x : LayoutCtl) : (s.withLayout x).pending = s.pending := rfl

/-! ### Replacing `translator` -/

@[simp] theorem State.withTranslator_resetting (s : State) (x : Translator) : (s.withTranslator x).resetting = s.resetting := rfl

@[simp] theorem State.withTranslator_uport (s : State) (x : Translator) : (s.withTranslator x).uport = s.uport := rfl

@[simp] theorem State.withTranslator_sources (s : State) (x : Translator) : (s.withTranslator x).sources = s.sources := rfl

@[simp] theorem State.withTranslator_governor (s : State) (x : Translator) : (s.withTranslator x).governor = s.governor := rfl

@[simp] theorem State.withTranslator_layout (s : State) (x : Translator) : (s.withTranslator x).layout = s.layout := rfl

@[simp] theorem State.withTranslator_translator (s : State) (x : Translator) : (s.withTranslator x).translator = x := rfl

@[simp] theorem State.withTranslator_dport (s : State) (x : Translator) : (s.withTranslator x).dport = s.dport := rfl

@[simp] theorem State.withTranslator_override (s : State) (x : Translator) : (s.withTranslator x).override = s.override := rfl

@[simp] theorem State.withTranslator_capture (s : State) (x : Translator) : (s.withTranslator x).capture = s.capture := rfl

@[simp] theorem State.withTranslator_port (s : State) (x : Translator) : (s.withTranslator x).port = s.port := rfl

@[simp] theorem State.withTranslator_loader (s : State) (x : Translator) : (s.withTranslator x).loader = s.loader := rfl

@[simp] theorem State.withTranslator_links (s : State) (x : Translator) : (s.withTranslator x).links = s.links := rfl

@[simp] theorem State.withTranslator_pending (s : State) (x : Translator) : (s.withTranslator x).pending = s.pending := rfl

/-! ### Replacing `dport` -/

@[simp] theorem State.withDport_resetting (s : State) (x : DPort) : (s.withDport x).resetting = s.resetting := rfl

@[simp] theorem State.withDport_uport (s : State) (x : DPort) : (s.withDport x).uport = s.uport := rfl

@[simp] theorem State.withDport_sources (s : State) (x : DPort) : (s.withDport x).sources = s.sources := rfl

@[simp] theorem State.withDport_governor (s : State) (x : DPort) : (s.withDport x).governor = s.governor := rfl

@[simp] theorem State.withDport_layout (s : State) (x : DPort) : (s.withDport x).layout = s.layout := rfl

@[simp] theorem State.withDport_translator (s : State) (x : DPort) : (s.withDport x).translator = s.translator := rfl

@[simp] theorem State.withDport_dport (s : State) (x : DPort) : (s.withDport x).dport = x := rfl

@[simp] theorem State.withDport_override (s : State) (x : DPort) : (s.withDport x).override = s.override := rfl

@[simp] theorem State.withDport_capture (s : State) (x : DPort) : (s.withDport x).capture = s.capture := rfl

@[simp] theorem State.withDport_port (s : State) (x : DPort) : (s.withDport x).port = s.port := rfl

@[simp] theorem State.withDport_loader (s : State) (x : DPort) : (s.withDport x).loader = s.loader := rfl

@[simp] theorem State.withDport_links (s : State) (x : DPort) : (s.withDport x).links = s.links := rfl

@[simp] theorem State.withDport_pending (s : State) (x : DPort) : (s.withDport x).pending = s.pending := rfl

/-! ### Replacing `override` -/

@[simp] theorem State.withOverride_resetting (s : State) (x : Override) : (s.withOverride x).resetting = s.resetting := rfl

@[simp] theorem State.withOverride_uport (s : State) (x : Override) : (s.withOverride x).uport = s.uport := rfl

@[simp] theorem State.withOverride_sources (s : State) (x : Override) : (s.withOverride x).sources = s.sources := rfl

@[simp] theorem State.withOverride_governor (s : State) (x : Override) : (s.withOverride x).governor = s.governor := rfl

@[simp] theorem State.withOverride_layout (s : State) (x : Override) : (s.withOverride x).layout = s.layout := rfl

@[simp] theorem State.withOverride_translator (s : State) (x : Override) : (s.withOverride x).translator = s.translator := rfl

@[simp] theorem State.withOverride_dport (s : State) (x : Override) : (s.withOverride x).dport = s.dport := rfl

@[simp] theorem State.withOverride_override (s : State) (x : Override) : (s.withOverride x).override = x := rfl

@[simp] theorem State.withOverride_capture (s : State) (x : Override) : (s.withOverride x).capture = s.capture := rfl

@[simp] theorem State.withOverride_port (s : State) (x : Override) : (s.withOverride x).port = s.port := rfl

@[simp] theorem State.withOverride_loader (s : State) (x : Override) : (s.withOverride x).loader = s.loader := rfl

@[simp] theorem State.withOverride_links (s : State) (x : Override) : (s.withOverride x).links = s.links := rfl

@[simp] theorem State.withOverride_pending (s : State) (x : Override) : (s.withOverride x).pending = s.pending := rfl

/-! ### Replacing `capture` -/

@[simp] theorem State.withCapture_resetting (s : State) (x : Capture) : (s.withCapture x).resetting = s.resetting := rfl

@[simp] theorem State.withCapture_uport (s : State) (x : Capture) : (s.withCapture x).uport = s.uport := rfl

@[simp] theorem State.withCapture_sources (s : State) (x : Capture) : (s.withCapture x).sources = s.sources := rfl

@[simp] theorem State.withCapture_governor (s : State) (x : Capture) : (s.withCapture x).governor = s.governor := rfl

@[simp] theorem State.withCapture_layout (s : State) (x : Capture) : (s.withCapture x).layout = s.layout := rfl

@[simp] theorem State.withCapture_translator (s : State) (x : Capture) : (s.withCapture x).translator = s.translator := rfl

@[simp] theorem State.withCapture_dport (s : State) (x : Capture) : (s.withCapture x).dport = s.dport := rfl

@[simp] theorem State.withCapture_override (s : State) (x : Capture) : (s.withCapture x).override = s.override := rfl

@[simp] theorem State.withCapture_capture (s : State) (x : Capture) : (s.withCapture x).capture = x := rfl

@[simp] theorem State.withCapture_port (s : State) (x : Capture) : (s.withCapture x).port = s.port := rfl

@[simp] theorem State.withCapture_loader (s : State) (x : Capture) : (s.withCapture x).loader = s.loader := rfl

@[simp] theorem State.withCapture_links (s : State) (x : Capture) : (s.withCapture x).links = s.links := rfl

@[simp] theorem State.withCapture_pending (s : State) (x : Capture) : (s.withCapture x).pending = s.pending := rfl

/-! ### Replacing `port` -/

@[simp] theorem State.withPort_resetting (s : State) (x : Port) : (s.withPort x).resetting = s.resetting := rfl

@[simp] theorem State.withPort_uport (s : State) (x : Port) : (s.withPort x).uport = s.uport := rfl

@[simp] theorem State.withPort_sources (s : State) (x : Port) : (s.withPort x).sources = s.sources := rfl

@[simp] theorem State.withPort_governor (s : State) (x : Port) : (s.withPort x).governor = s.governor := rfl

@[simp] theorem State.withPort_layout (s : State) (x : Port) : (s.withPort x).layout = s.layout := rfl

@[simp] theorem State.withPort_translator (s : State) (x : Port) : (s.withPort x).translator = s.translator := rfl

@[simp] theorem State.withPort_dport (s : State) (x : Port) : (s.withPort x).dport = s.dport := rfl

@[simp] theorem State.withPort_override (s : State) (x : Port) : (s.withPort x).override = s.override := rfl

@[simp] theorem State.withPort_capture (s : State) (x : Port) : (s.withPort x).capture = s.capture := rfl

@[simp] theorem State.withPort_port (s : State) (x : Port) : (s.withPort x).port = x := rfl

@[simp] theorem State.withPort_loader (s : State) (x : Port) : (s.withPort x).loader = s.loader := rfl

@[simp] theorem State.withPort_links (s : State) (x : Port) : (s.withPort x).links = s.links := rfl

@[simp] theorem State.withPort_pending (s : State) (x : Port) : (s.withPort x).pending = s.pending := rfl

/-! ### Replacing `loader` -/

@[simp] theorem State.withLoader_resetting (s : State) (x : Loader) : (s.withLoader x).resetting = s.resetting := rfl

@[simp] theorem State.withLoader_uport (s : State) (x : Loader) : (s.withLoader x).uport = s.uport := rfl

@[simp] theorem State.withLoader_sources (s : State) (x : Loader) : (s.withLoader x).sources = s.sources := rfl

@[simp] theorem State.withLoader_governor (s : State) (x : Loader) : (s.withLoader x).governor = s.governor := rfl

@[simp] theorem State.withLoader_layout (s : State) (x : Loader) : (s.withLoader x).layout = s.layout := rfl

@[simp] theorem State.withLoader_translator (s : State) (x : Loader) : (s.withLoader x).translator = s.translator := rfl

@[simp] theorem State.withLoader_dport (s : State) (x : Loader) : (s.withLoader x).dport = s.dport := rfl

@[simp] theorem State.withLoader_override (s : State) (x : Loader) : (s.withLoader x).override = s.override := rfl

@[simp] theorem State.withLoader_capture (s : State) (x : Loader) : (s.withLoader x).capture = s.capture := rfl

@[simp] theorem State.withLoader_port (s : State) (x : Loader) : (s.withLoader x).port = s.port := rfl

@[simp] theorem State.withLoader_loader (s : State) (x : Loader) : (s.withLoader x).loader = x := rfl

@[simp] theorem State.withLoader_links (s : State) (x : Loader) : (s.withLoader x).links = s.links := rfl

@[simp] theorem State.withLoader_pending (s : State) (x : Loader) : (s.withLoader x).pending = s.pending := rfl

/-! ### Replacing `links` -/

@[simp] theorem State.withLinks_resetting (s : State) (x : Links) : (s.withLinks x).resetting = s.resetting := rfl

@[simp] theorem State.withLinks_uport (s : State) (x : Links) : (s.withLinks x).uport = s.uport := rfl

@[simp] theorem State.withLinks_sources (s : State) (x : Links) : (s.withLinks x).sources = s.sources := rfl

@[simp] theorem State.withLinks_governor (s : State) (x : Links) : (s.withLinks x).governor = s.governor := rfl

@[simp] theorem State.withLinks_layout (s : State) (x : Links) : (s.withLinks x).layout = s.layout := rfl

@[simp] theorem State.withLinks_translator (s : State) (x : Links) : (s.withLinks x).translator = s.translator := rfl

@[simp] theorem State.withLinks_dport (s : State) (x : Links) : (s.withLinks x).dport = s.dport := rfl

@[simp] theorem State.withLinks_override (s : State) (x : Links) : (s.withLinks x).override = s.override := rfl

@[simp] theorem State.withLinks_capture (s : State) (x : Links) : (s.withLinks x).capture = s.capture := rfl

@[simp] theorem State.withLinks_port (s : State) (x : Links) : (s.withLinks x).port = s.port := rfl

@[simp] theorem State.withLinks_loader (s : State) (x : Links) : (s.withLinks x).loader = s.loader := rfl

@[simp] theorem State.withLinks_links (s : State) (x : Links) : (s.withLinks x).links = x := rfl

@[simp] theorem State.withLinks_pending (s : State) (x : Links) : (s.withLinks x).pending = s.pending := rfl

/-! ### Replacing `pending` -/

@[simp] theorem State.withPending_resetting (s : State) (x : List Instr) : (s.withPending x).resetting = s.resetting := rfl

@[simp] theorem State.withPending_uport (s : State) (x : List Instr) : (s.withPending x).uport = s.uport := rfl

@[simp] theorem State.withPending_sources (s : State) (x : List Instr) : (s.withPending x).sources = s.sources := rfl

@[simp] theorem State.withPending_governor (s : State) (x : List Instr) : (s.withPending x).governor = s.governor := rfl

@[simp] theorem State.withPending_layout (s : State) (x : List Instr) : (s.withPending x).layout = s.layout := rfl

@[simp] theorem State.withPending_translator (s : State) (x : List Instr) : (s.withPending x).translator = s.translator := rfl

@[simp] theorem State.withPending_dport (s : State) (x : List Instr) : (s.withPending x).dport = s.dport := rfl

@[simp] theorem State.withPending_override (s : State) (x : List Instr) : (s.withPending x).override = s.override := rfl

@[simp] theorem State.withPending_capture (s : State) (x : List Instr) : (s.withPending x).capture = s.capture := rfl

@[simp] theorem State.withPending_port (s : State) (x : List Instr) : (s.withPending x).port = s.port := rfl

@[simp] theorem State.withPending_loader (s : State) (x : List Instr) : (s.withPending x).loader = s.loader := rfl

@[simp] theorem State.withPending_links (s : State) (x : List Instr) : (s.withPending x).links = s.links := rfl

@[simp] theorem State.withPending_pending (s : State) (x : List Instr) : (s.withPending x).pending = x := rfl

/-! ### Tables -/

@[simp] theorem putAt_same {α : Type} {n : Nat} (v : Vector α n) (i : Fin n) (a : α) : (putAt v i a)[i.val] = a := by
  simp [putAt]

@[simp] theorem putAt_same_fin {α : Type} {n : Nat} (v : Vector α n) (i : Fin n) (a : α) : (putAt v i a)[i] = a := by
  simp [putAt]

theorem putAt_other {α : Type} {n : Nat} (v : Vector α n) (i j : Fin n) (a : α) (h : j ≠ i) : (putAt v i a)[j] = v[j] := by
  have h' : i.val ≠ j.val := fun e => h (Fin.ext e.symm)
  simp [putAt, h']

theorem putAt_get {α : Type} {n : Nat} (v : Vector α n) (i j : Fin n) (a : α) :
    (putAt v i a)[j] = if j = i then a else v[j] := by
  by_cases h : j = i
  · subst h; simp
  · simp [h, putAt_other v i j a h]

@[simp] theorem putAt_self {α : Type} {n : Nat} (v : Vector α n) (i : Fin n) : putAt v i v[i] = v := by
  simp [putAt]

@[simp] theorem putAt_self_val {α : Type} {n : Nat} (v : Vector α n) (i : Fin n) : putAt v i v[i.val] = v := by
  simp [putAt]

theorem putAt_get_val {α : Type} {n : Nat} (v : Vector α n) (i j : Fin n) (a : α) :
    (putAt v i a)[j.val] = if j = i then a else v[j.val] := putAt_get v i j a

@[simp] theorem putAt_putAt {α : Type} {n : Nat} (v : Vector α n) (i : Fin n) (a b : α) :
    putAt (putAt v i a) i b = putAt v i b := by
  simp [putAt]

/-! ### Equality of states -/

/-- Two states whose thirteen blocks are equal are equal. -/
theorem State.extensional {s t : State}
    (h_resetting : s.resetting = t.resetting) (h_uport : s.uport = t.uport) (h_sources : s.sources = t.sources)
    (h_governor : s.governor = t.governor) (h_layout : s.layout = t.layout)
    (h_translator : s.translator = t.translator) (h_dport : s.dport = t.dport)
    (h_override : s.override = t.override) (h_capture : s.capture = t.capture) (h_port : s.port = t.port)
    (h_loader : s.loader = t.loader) (h_links : s.links = t.links) (h_pending : s.pending = t.pending) : s = t := by
  cases s; cases t; simp_all

/-! ### One source, one group -/

@[simp] theorem State.putSource_resetting (s : State) (i : SourceId) (x : Source) : (s.putSource i x).resetting = s.resetting := rfl

@[simp] theorem State.putSource_uport (s : State) (i : SourceId) (x : Source) : (s.putSource i x).uport = s.uport := rfl

@[simp] theorem State.putSource_governor (s : State) (i : SourceId) (x : Source) : (s.putSource i x).governor = s.governor := rfl

@[simp] theorem State.putSource_layout (s : State) (i : SourceId) (x : Source) : (s.putSource i x).layout = s.layout := rfl

@[simp] theorem State.putSource_translator (s : State) (i : SourceId) (x : Source) : (s.putSource i x).translator = s.translator := rfl

@[simp] theorem State.putSource_dport (s : State) (i : SourceId) (x : Source) : (s.putSource i x).dport = s.dport := rfl

@[simp] theorem State.putSource_override (s : State) (i : SourceId) (x : Source) : (s.putSource i x).override = s.override := rfl

@[simp] theorem State.putSource_capture (s : State) (i : SourceId) (x : Source) : (s.putSource i x).capture = s.capture := rfl

@[simp] theorem State.putSource_port (s : State) (i : SourceId) (x : Source) : (s.putSource i x).port = s.port := rfl

@[simp] theorem State.putSource_loader (s : State) (i : SourceId) (x : Source) : (s.putSource i x).loader = s.loader := rfl

@[simp] theorem State.putSource_links (s : State) (i : SourceId) (x : Source) : (s.putSource i x).links = s.links := rfl

@[simp] theorem State.putSource_pending (s : State) (i : SourceId) (x : Source) : (s.putSource i x).pending = s.pending := rfl

@[simp] theorem State.putSource_sources (s : State) (i : SourceId) (x : Source) :
    (s.putSource i x).sources = putAt s.sources i x := rfl

@[simp] theorem State.putGroup_resetting (s : State) (g : GroupId) (x : Group) : (s.putGroup g x).resetting = s.resetting := rfl

@[simp] theorem State.putGroup_uport (s : State) (g : GroupId) (x : Group) : (s.putGroup g x).uport = s.uport := rfl

@[simp] theorem State.putGroup_sources (s : State) (g : GroupId) (x : Group) : (s.putGroup g x).sources = s.sources := rfl

@[simp] theorem State.putGroup_governor (s : State) (g : GroupId) (x : Group) : (s.putGroup g x).governor = s.governor := rfl

@[simp] theorem State.putGroup_layout (s : State) (g : GroupId) (x : Group) : (s.putGroup g x).layout = s.layout := rfl

@[simp] theorem State.putGroup_translator (s : State) (g : GroupId) (x : Group) : (s.putGroup g x).translator = s.translator := rfl

@[simp] theorem State.putGroup_dport (s : State) (g : GroupId) (x : Group) : (s.putGroup g x).dport = s.dport := rfl

@[simp] theorem State.putGroup_capture (s : State) (g : GroupId) (x : Group) : (s.putGroup g x).capture = s.capture := rfl

@[simp] theorem State.putGroup_port (s : State) (g : GroupId) (x : Group) : (s.putGroup g x).port = s.port := rfl

@[simp] theorem State.putGroup_loader (s : State) (g : GroupId) (x : Group) : (s.putGroup g x).loader = s.loader := rfl

@[simp] theorem State.putGroup_links (s : State) (g : GroupId) (x : Group) : (s.putGroup g x).links = s.links := rfl

@[simp] theorem State.putGroup_pending (s : State) (g : GroupId) (x : Group) : (s.putGroup g x).pending = s.pending := rfl

@[simp] theorem State.putGroup_override (s : State) (g : GroupId) (x : Group) :
    (s.putGroup g x).override = { s.override with groups := putAt s.override.groups g x } := rfl

/-! ### Events and responses -/

@[simp] theorem State.record_resetting (s : State) (e : ErrEvent) : (s.record e).resetting = s.resetting := rfl

@[simp] theorem State.record_uport (s : State) (e : ErrEvent) : (s.record e).uport = s.uport := rfl

@[simp] theorem State.record_sources (s : State) (e : ErrEvent) : (s.record e).sources = s.sources := rfl

@[simp] theorem State.record_governor (s : State) (e : ErrEvent) : (s.record e).governor = s.governor := rfl

@[simp] theorem State.record_layout (s : State) (e : ErrEvent) : (s.record e).layout = s.layout := rfl

@[simp] theorem State.record_translator (s : State) (e : ErrEvent) : (s.record e).translator = s.translator := rfl

@[simp] theorem State.record_dport (s : State) (e : ErrEvent) : (s.record e).dport = s.dport := rfl

@[simp] theorem State.record_override (s : State) (e : ErrEvent) : (s.record e).override = s.override := rfl

@[simp] theorem State.record_port (s : State) (e : ErrEvent) : (s.record e).port = s.port := rfl

@[simp] theorem State.record_loader (s : State) (e : ErrEvent) : (s.record e).loader = s.loader := rfl

@[simp] theorem State.record_links (s : State) (e : ErrEvent) : (s.record e).links = s.links := rfl

@[simp] theorem State.record_pending (s : State) (e : ErrEvent) : (s.record e).pending = s.pending := rfl

@[simp] theorem State.record_capture (s : State) (e : ErrEvent) :
    (s.record e).capture = s.capture.record s.governor.frameCount e := rfl

@[simp] theorem State.setCommitEnd_resetting (s : State) : s.setCommitEnd.resetting = s.resetting := rfl

@[simp] theorem State.setCommitEnd_uport (s : State) : s.setCommitEnd.uport = s.uport := rfl

@[simp] theorem State.setCommitEnd_sources (s : State) : s.setCommitEnd.sources = s.sources := rfl

@[simp] theorem State.setCommitEnd_governor (s : State) : s.setCommitEnd.governor = s.governor := rfl

@[simp] theorem State.setCommitEnd_layout (s : State) : s.setCommitEnd.layout = s.layout := rfl

@[simp] theorem State.setCommitEnd_translator (s : State) : s.setCommitEnd.translator = s.translator := rfl

@[simp] theorem State.setCommitEnd_dport (s : State) : s.setCommitEnd.dport = s.dport := rfl

@[simp] theorem State.setCommitEnd_override (s : State) : s.setCommitEnd.override = s.override := rfl

@[simp] theorem State.setCommitEnd_port (s : State) : s.setCommitEnd.port = s.port := rfl

@[simp] theorem State.setCommitEnd_loader (s : State) : s.setCommitEnd.loader = s.loader := rfl

@[simp] theorem State.setCommitEnd_links (s : State) : s.setCommitEnd.links = s.links := rfl

@[simp] theorem State.setCommitEnd_pending (s : State) : s.setCommitEnd.pending = s.pending := rfl

@[simp] theorem State.setOverrideChange_resetting (s : State) : s.setOverrideChange.resetting = s.resetting := rfl

@[simp] theorem State.setOverrideChange_uport (s : State) : s.setOverrideChange.uport = s.uport := rfl

@[simp] theorem State.setOverrideChange_sources (s : State) : s.setOverrideChange.sources = s.sources := rfl

@[simp] theorem State.setOverrideChange_governor (s : State) : s.setOverrideChange.governor = s.governor := rfl

@[simp] theorem State.setOverrideChange_layout (s : State) : s.setOverrideChange.layout = s.layout := rfl

@[simp] theorem State.setOverrideChange_translator (s : State) : s.setOverrideChange.translator = s.translator := rfl

@[simp] theorem State.setOverrideChange_dport (s : State) : s.setOverrideChange.dport = s.dport := rfl

@[simp] theorem State.setOverrideChange_override (s : State) : s.setOverrideChange.override = s.override := rfl

@[simp] theorem State.setOverrideChange_port (s : State) : s.setOverrideChange.port = s.port := rfl

@[simp] theorem State.setOverrideChange_loader (s : State) : s.setOverrideChange.loader = s.loader := rfl

@[simp] theorem State.setOverrideChange_links (s : State) : s.setOverrideChange.links = s.links := rfl

@[simp] theorem State.setOverrideChange_pending (s : State) : s.setOverrideChange.pending = s.pending := rfl

@[simp] theorem State.setLoaderEnd_resetting (s : State) : s.setLoaderEnd.resetting = s.resetting := rfl

@[simp] theorem State.setLoaderEnd_uport (s : State) : s.setLoaderEnd.uport = s.uport := rfl

@[simp] theorem State.setLoaderEnd_sources (s : State) : s.setLoaderEnd.sources = s.sources := rfl

@[simp] theorem State.setLoaderEnd_governor (s : State) : s.setLoaderEnd.governor = s.governor := rfl

@[simp] theorem State.setLoaderEnd_layout (s : State) : s.setLoaderEnd.layout = s.layout := rfl

@[simp] theorem State.setLoaderEnd_translator (s : State) : s.setLoaderEnd.translator = s.translator := rfl

@[simp] theorem State.setLoaderEnd_dport (s : State) : s.setLoaderEnd.dport = s.dport := rfl

@[simp] theorem State.setLoaderEnd_override (s : State) : s.setLoaderEnd.override = s.override := rfl

@[simp] theorem State.setLoaderEnd_port (s : State) : s.setLoaderEnd.port = s.port := rfl

@[simp] theorem State.setLoaderEnd_loader (s : State) : s.setLoaderEnd.loader = s.loader := rfl

@[simp] theorem State.setLoaderEnd_links (s : State) : s.setLoaderEnd.links = s.links := rfl

@[simp] theorem State.setLoaderEnd_pending (s : State) : s.setLoaderEnd.pending = s.pending := rfl

@[simp] theorem State.quiet_resetting (s : State) : s.quiet.resetting = s.resetting := rfl

@[simp] theorem State.quiet_uport (s : State) : s.quiet.uport = s.uport := rfl

@[simp] theorem State.quiet_sources (s : State) : s.quiet.sources = s.sources := rfl

@[simp] theorem State.quiet_governor (s : State) : s.quiet.governor = s.governor := rfl

@[simp] theorem State.quiet_layout (s : State) : s.quiet.layout = s.layout := rfl

@[simp] theorem State.quiet_translator (s : State) : s.quiet.translator = s.translator := rfl

@[simp] theorem State.quiet_dport (s : State) : s.quiet.dport = s.dport := rfl

@[simp] theorem State.quiet_override (s : State) : s.quiet.override = s.override := rfl

@[simp] theorem State.quiet_capture (s : State) : s.quiet.capture = s.capture := rfl

@[simp] theorem State.quiet_port (s : State) : s.quiet.port = s.port := rfl

@[simp] theorem State.quiet_loader (s : State) : s.quiet.loader = s.loader := rfl

@[simp] theorem State.quiet_pending (s : State) : s.quiet.pending = s.pending := rfl

@[simp] theorem State.quiet_links (s : State) : s.quiet.links = Links.none := rfl

@[simp] theorem State.respond_resetting (s : State) (r : UResponse) : (s.respond r).resetting = s.resetting := rfl

@[simp] theorem State.respond_uport (s : State) (r : UResponse) : (s.respond r).uport = s.uport := rfl

@[simp] theorem State.respond_sources (s : State) (r : UResponse) : (s.respond r).sources = s.sources := rfl

@[simp] theorem State.respond_governor (s : State) (r : UResponse) : (s.respond r).governor = s.governor := rfl

@[simp] theorem State.respond_layout (s : State) (r : UResponse) : (s.respond r).layout = s.layout := rfl

@[simp] theorem State.respond_translator (s : State) (r : UResponse) : (s.respond r).translator = s.translator := rfl

@[simp] theorem State.respond_dport (s : State) (r : UResponse) : (s.respond r).dport = s.dport := rfl

@[simp] theorem State.respond_override (s : State) (r : UResponse) : (s.respond r).override = s.override := rfl

@[simp] theorem State.respond_capture (s : State) (r : UResponse) : (s.respond r).capture = s.capture := rfl

@[simp] theorem State.respond_port (s : State) (r : UResponse) : (s.respond r).port = s.port := rfl

@[simp] theorem State.respond_loader (s : State) (r : UResponse) : (s.respond r).loader = s.loader := rfl

@[simp] theorem State.respond_pending (s : State) (r : UResponse) : (s.respond r).pending = s.pending := rfl

@[simp] theorem State.request_resetting (s : State) (r : DRequest) : (s.request r).resetting = s.resetting := rfl

@[simp] theorem State.request_uport (s : State) (r : DRequest) : (s.request r).uport = s.uport := rfl

@[simp] theorem State.request_sources (s : State) (r : DRequest) : (s.request r).sources = s.sources := rfl

@[simp] theorem State.request_governor (s : State) (r : DRequest) : (s.request r).governor = s.governor := rfl

@[simp] theorem State.request_layout (s : State) (r : DRequest) : (s.request r).layout = s.layout := rfl

@[simp] theorem State.request_translator (s : State) (r : DRequest) : (s.request r).translator = s.translator := rfl

@[simp] theorem State.request_dport (s : State) (r : DRequest) : (s.request r).dport = s.dport := rfl

@[simp] theorem State.request_override (s : State) (r : DRequest) : (s.request r).override = s.override := rfl

@[simp] theorem State.request_capture (s : State) (r : DRequest) : (s.request r).capture = s.capture := rfl

@[simp] theorem State.request_port (s : State) (r : DRequest) : (s.request r).port = s.port := rfl

@[simp] theorem State.request_loader (s : State) (r : DRequest) : (s.request r).loader = s.loader := rfl

@[simp] theorem State.request_pending (s : State) (r : DRequest) : (s.request r).pending = s.pending := rfl

end Sys2Proof.Machine
end

