-- ==== Sys2Proof/Laws/Frames.lean ====
section
/-! SUPPORT. The two frames of events, once: what an event does outside a reset and while the port listens. -/

namespace Sys2Proof.Machine

open Sys2Proof

theorem outsideReset_of_none {s : State} (h : s.resetting = none) (f : State → State) :
    outsideReset f s = .next (f s.quiet) := by
  simp [outsideReset, h]

theorem outsideReset_of_isSome {s : State} (h : s.resetting.isSome = true) (f : State → State) :
    outsideReset f s = .next s.quiet := by
  simp [outsideReset, h]

theorem State.silent_of_listening {s : State} (h : s.listening) : s.silent = false := by
  simp [State.silent, h.1, h.2]

theorem heard_of_listening {s : State} (h : s.listening) (f : State → State) : heard f s = .next (f s.quiet) := by
  simp [heard, State.silent_of_listening h]

theorem State.silent_of_resetting {s : State} (h : s.resetting.isSome = true) : s.silent = true := by
  simp [State.silent, h]

theorem State.silent_of_loading {s : State} (h : s.loader.state ≠ .idle) : s.silent = true := by
  simp [State.silent, h]

theorem heard_of_silent {s : State} (h : s.silent = true) (f : State → State) : heard f s = .next s.quiet := by
  simp [heard, h]

/-- An event of the data path that answers a next state left the state quiet, or acted on it. -/
theorem outsideReset_next {f : State → State} {s t : State} (h : outsideReset f s = .next t) : t = s.quiet ∨ t = f s.quiet := by
  unfold outsideReset at h
  split at h
  · exact .inl (Host.Outcome.next.inj h).symm
  · exact .inr (Host.Outcome.next.inj h).symm

/-- An event of the management port that answers a next state left the state quiet, or acted on it. -/
theorem heard_next {f : State → State} {s t : State} (h : heard f s = .next t) : t = s.quiet ∨ t = f s.quiet := by
  unfold heard at h
  split at h
  · exact .inl (Host.Outcome.next.inj h).symm
  · exact .inr (Host.Outcome.next.inj h).symm

end Sys2Proof.Machine
end

