-- ==== Sys2Proof/Laws/Groups.lean ====
section
/-! SUPPORT. What evaluating the override groups can do: each group becomes `Group.evaluated` of its raw condition, OVERRIDE_CHANGE may
be set, and nothing else changes. -/

namespace Sys2Proof.Machine

open Sys2Proof

/-- Two states in which group `g` reads the same inputs. -/
structure SameInputs (s t : State) (g : GroupId) : Prop where
  sensed : t.override.sensed = s.override.sensed
  softBits : t.override.softBits = s.override.softBits
  cfg : t.override.groups[g].cfg = s.override.groups[g].cfg
  trip : ∀ i : SourceId, t.sources[i].trip = s.sources[i].trip
  contained : ∀ i : SourceId, (t.sources[i].state = .contained ↔ s.sources[i].state = .contained)

theorem State.inputActive_congr {s t : State} {g : GroupId} (h : SameInputs s t g) (n : TriggerInput) :
    t.inputActive g n = s.inputActive g n := by
  cases n with
  | alarm l => simp only [State.inputActive, h.cfg, h.sensed]
  | staleTrip i => simp only [State.inputActive, h.cfg, h.trip]
  | contain i =>
    have hb : (t.sources[i].state == .contained) = (s.sources[i].state == .contained) := by
      rw [Bool.eq_iff_iff]; simpa using h.contained i
    simp only [State.inputActive, h.cfg, hb]
  | software b => simp only [State.inputActive, h.cfg, h.softBits]

theorem State.rawCondition_congr {s t : State} {g : GroupId} (h : SameInputs s t g) : t.rawCondition g = s.rawCondition g := by
  simp only [State.rawCondition, funext (State.inputActive_congr h)]

theorem State.firstInput_congr {s t : State} {g : GroupId} (h : SameInputs s t g) : t.firstInput g = s.firstInput g := by
  simp only [State.firstInput, funext (State.inputActive_congr h)]

theorem State.triggerNow_congr {s t : State} {g : GroupId} (h : SameInputs s t g)
    (hf : t.governor.frameCount = s.governor.frameCount) : t.triggerNow g = s.triggerNow g := by
  simp only [State.triggerNow, State.firstInput_congr h, hf]

/-- Group `g` replaced and OVERRIDE_CHANGE set if `c` holds. -/
def State.groupTo (s : State) (g : GroupId) (x : Group) (c : Bool) : State :=
  (s.putGroup g x).withCapture { s.capture with overrideChange := s.capture.overrideChange || c }

theorem State.groupTo_self (s : State) (g : GroupId) : s.groupTo g s.override.groups[g] false = s := by
  apply State.extensional <;> simp [State.groupTo]

theorem State.rawRise_eq (s : State) (g : GroupId) (t : Option Trigger) (ht : t = s.triggerNow g)
    (h : s.override.groups[g].raw = false) :
    s.rawRise g = s.groupTo g (s.override.groups[g].evaluated true t) (s.override.groups[g].evaluationChanges true) := by
  subst ht
  unfold State.rawRise Group.evaluated Group.evaluationChanges
  simp only [h]
  cases hs : s.override.groups[g].state
  · cases he : s.override.groups[g].cfg.enabled
    · simp [State.groupTo, State.withCapture, State.putGroup, State.withOverride]
    · simp [State.groupTo, State.assertGroup, State.setOverrideChange, State.withCapture, State.putGroup, State.withOverride]
  · simp [State.groupTo, State.withCapture, State.putGroup, State.withOverride, beq_eq_decide]
  · simp [State.groupTo, State.withCapture, State.putGroup, State.withOverride, beq_eq_decide]

theorem State.rawFall_eq (s : State) (g : GroupId) (t : Option Trigger) (h : s.override.groups[g].raw = true) :
    s.rawFall g = s.groupTo g (s.override.groups[g].evaluated false t) (s.override.groups[g].evaluationChanges false) := by
  unfold State.rawFall Group.evaluated Group.evaluationChanges
  simp only [h]
  cases hs : s.override.groups[g].state
  · simp [State.groupTo, State.withCapture, State.putGroup, State.withOverride, beq_eq_decide]
  · by_cases hh : s.override.groups[g.val].cfg.holdOff = 0
    · simp [State.groupTo, State.setOverrideChange, State.withCapture, State.putGroup, State.withOverride, hh]
    · simp [State.groupTo, State.withCapture, State.putGroup, State.withOverride, hh, beq_eq_decide]
  · simp [State.groupTo, State.withCapture, State.putGroup, State.withOverride, beq_eq_decide]

/-- A group whose raw condition is evaluated already does nothing. -/
theorem Group.evaluated_same (x : Group) (t : Option Trigger) : x.evaluated x.raw t = x := by
  unfold Group.evaluated; cases x.raw <;> rfl

theorem Group.evaluationChanges_same (x : Group) : x.evaluationChanges x.raw = false := by
  unfold Group.evaluationChanges; cases x.raw <;> simp

/-- The evaluation of one group (R152 to R155). -/
theorem State.evaluateGroup_eq (s : State) (g : GroupId) :
    s.evaluateGroup g =
      s.groupTo g (s.override.groups[g].evaluated (s.rawCondition g) (s.triggerNow g))
        (s.override.groups[g].evaluationChanges (s.rawCondition g)) := by
  unfold State.evaluateGroup
  split
  · next h => rw [h, Group.evaluated_same, Group.evaluationChanges_same, State.groupTo_self]
  · next h =>
    cases hr : s.rawCondition g
    · exact s.rawFall_eq g _ (by simpa [hr] using h)
    · exact s.rawRise_eq g _ rfl (by simpa [hr] using h)

@[simp] theorem State.groupTo_groups (s : State) (g h : GroupId) (x : Group) (c : Bool) :
    (s.groupTo g x c).override.groups[h] = if h = g then x else s.override.groups[h] := putAt_get _ _ _ _

@[simp] theorem State.groupTo_sensed (s : State) (g : GroupId) (x : Group) (c : Bool) :
    (s.groupTo g x c).override.sensed = s.override.sensed := rfl

@[simp] theorem State.groupTo_softBits (s : State) (g : GroupId) (x : Group) (c : Bool) :
    (s.groupTo g x c).override.softBits = s.override.softBits := rfl

@[simp] theorem State.groupTo_sources (s : State) (g : GroupId) (x : Group) (c : Bool) :
    (s.groupTo g x c).sources = s.sources := rfl

@[simp] theorem State.groupTo_governor (s : State) (g : GroupId) (x : Group) (c : Bool) :
    (s.groupTo g x c).governor = s.governor := rfl

@[simp] theorem Group.evaluated_cfg (x : Group) (r : Bool) (t : Option Trigger) : (x.evaluated r t).cfg = x.cfg := by
  unfold Group.evaluated
  repeat' split
  all_goals rfl

/-- `t` is `s` with the groups evaluated: every group of `gs` is what `Group.evaluated` makes of it, the others are unchanged,
OVERRIDE_CHANGE is set if one of them changes so, and every other field is unchanged. -/
structure GroupsEvaluated (gs : List GroupId) (s t : State) : Prop where
  rest : t =
    { s with
      override := { s.override with groups := t.override.groups }
      capture := { s.capture with overrideChange := t.capture.overrideChange } }
  evaluated : ∀ g ∈ gs, t.override.groups[g] = s.override.groups[g].evaluated (s.rawCondition g) (s.triggerNow g)
  kept : ∀ g, g ∉ gs → t.override.groups[g] = s.override.groups[g]
  changed : t.capture.overrideChange = true ↔
    s.capture.overrideChange = true ∨ ∃ g ∈ gs, s.override.groups[g].evaluationChanges (s.rawCondition g) = true

theorem GroupsEvaluated.sameInputs {gs : List GroupId} {s t : State} (h : GroupsEvaluated gs s t) (g : GroupId) :
    SameInputs s t g := by
  refine ⟨by rw [h.rest], by rw [h.rest], ?_, by rw [h.rest]; simp, by rw [h.rest]; simp⟩
  by_cases hg : g ∈ gs
  · rw [h.evaluated g hg, Group.evaluated_cfg]
  · rw [h.kept g hg]

theorem State.foldl_evaluateGroup (gs : List GroupId) (hd : gs.Nodup) (s : State) :
    GroupsEvaluated gs s (gs.foldl State.evaluateGroup s) := by
  induction gs generalizing s with
  | nil => exact ⟨rfl, by simp, by simp, by simp⟩
  | cons g gs ih =>
    obtain ⟨hg, hd⟩ := List.nodup_cons.mp hd
    have h := ih hd (s.evaluateGroup g)
    have hs : ∀ k, SameInputs s (s.evaluateGroup g) k := by
      intro k
      rw [State.evaluateGroup_eq]
      refine ⟨rfl, rfl, ?_, fun _ => rfl, fun _ => Iff.rfl⟩
      rw [State.groupTo_groups]
      split
      · next e => rw [Group.evaluated_cfg, e]
      · rfl
    have hf : (s.evaluateGroup g).governor.frameCount = s.governor.frameCount := by rw [State.evaluateGroup_eq]; rfl
    have hk : ∀ k, k ≠ g → (s.evaluateGroup g).override.groups[k] = s.override.groups[k] := by
      intro k hk; rw [State.evaluateGroup_eq, State.groupTo_groups, if_neg hk]
    refine ⟨?_, ?_, ?_, ?_⟩
    · rw [List.foldl_cons, h.rest, State.evaluateGroup_eq]; rfl
    · intro k hk'
      rw [List.foldl_cons]
      rcases List.mem_cons.mp hk' with rfl | hm
      · rw [h.kept k hg, State.evaluateGroup_eq, State.groupTo_groups, if_pos rfl]
      · have hne : k ≠ g := fun e => hg (e ▸ hm)
        rw [h.evaluated k hm, hk k hne, State.rawCondition_congr (hs k), State.triggerNow_congr (hs k) hf]
    · intro k hk'
      rw [List.foldl_cons, h.kept k (fun m => hk' (List.mem_cons_of_mem _ m)),
        hk k (fun e => hk' (e ▸ List.mem_cons_self))]
    · rw [List.foldl_cons, h.changed]
      have hc : (s.evaluateGroup g).capture.overrideChange =
          (s.capture.overrideChange || s.override.groups[g].evaluationChanges (s.rawCondition g)) := by
        rw [State.evaluateGroup_eq]; rfl
      rw [hc]
      constructor
      · rintro (hc | ⟨k, hm, hc⟩)
        · rcases Bool.or_eq_true _ _ ▸ hc with hc | hc
          · exact .inl hc
          · exact .inr ⟨g, List.mem_cons_self, hc⟩
        · have hne : k ≠ g := fun e => hg (e ▸ hm)
          rw [hk k hne, State.rawCondition_congr (hs k)] at hc
          exact .inr ⟨k, List.mem_cons_of_mem _ hm, hc⟩
      · rintro (hv | ⟨k, hm, hv⟩)
        · exact .inl (by simp [hv])
        · rcases List.mem_cons.mp hm with rfl | hm
          · exact .inl (Bool.or_eq_true _ _ ▸ .inr hv)
          · have hne : k ≠ g := fun e => hg (e ▸ hm)
            exact .inr ⟨k, hm, by rw [hk k hne, State.rawCondition_congr (hs k)]; exact hv⟩

theorem groupsIn_nodup (m : BitVec 4) : (groupsIn m).Nodup := (List.nodup_finRange 4).filter _

theorem mem_groupsIn {m : BitVec 4} {g : GroupId} : g ∈ groupsIn m ↔ m.getLsbD g.val = true := by
  simp [groupsIn, allGroups]

/-- The evaluation of the groups of a set (R152). -/
theorem State.evaluateIn_spec (s : State) (m : BitVec 4) : GroupsEvaluated (groupsIn m) s (s.evaluateThose (groupsIn m)) :=
  State.foldl_evaluateGroup _ (groupsIn_nodup m) s

/-- The evaluation of every group (R152). -/
theorem State.evaluateGroups_spec (s : State) : GroupsEvaluated allGroups s s.evaluateGroups :=
  State.foldl_evaluateGroup allGroups (List.nodup_finRange 4) s

/-- Groups whose raw conditions are evaluated already do nothing. -/
theorem State.evaluateGroups_of_evaluated {s : State} (h : ∀ g : GroupId, s.override.groups[g].raw = s.rawCondition g) :
    s.evaluateGroups = s := by
  have step : ∀ g, s.evaluateGroup g = s := fun g => by rw [State.evaluateGroup, if_pos (h g).symm]
  have fold : ∀ gs : List GroupId, gs.foldl State.evaluateGroup s = s := by
    intro gs
    induction gs with
    | nil => rfl
    | cons g gs ih => rw [List.foldl_cons, step, ih]
  exact fold allGroups

/-- A group whose enables select no input has a false raw condition. -/
theorem State.rawCondition_of_unselected {s : State} {g : GroupId} (ha : s.override.groups[g].cfg.alarmSel = 0)
    (ht : s.override.groups[g].cfg.staleSel = 0) (hc : s.override.groups[g].cfg.containSel = 0)
    (hb : s.override.groups[g].cfg.softEnable = 0) : s.rawCondition g = false := by
  have h : ∀ n, s.inputActive g n = false := by
    intro n
    cases n <;> simp only [State.inputActive, ha, ht, hc, hb] <;> simp
  simp [State.rawCondition, h]

end Sys2Proof.Machine
end

