-- ==== Sys2Proof/Laws/Ops.lean ====
section
/-! SUPPORT. The searches that every block shares: round robin, lowest free number, first of a list. -/

namespace Sys2Proof.Machine

open Sys2Proof

/-- How far `i` stands behind `last` in the round-robin order. -/
def distance {n : Nat} (last i : Fin (n + 1)) : Nat := (i.val + n - last.val) % (n + 1)

theorem after_getElem {n : Nat} (last : Fin (n + 1)) (k : Nat) (h : k < (after last).length) :
    (after last)[k] = Fin.ofNat (n + 1) (last.val + 1 + k) := by
  simp [after]

@[simp] theorem after_length {n : Nat} (last : Fin (n + 1)) : (after last).length = n + 1 := by simp [after]

theorem distance_after {n : Nat} (last : Fin (n + 1)) (k : Nat) (h : k < n + 1) :
    distance last (Fin.ofNat (n + 1) (last.val + 1 + k)) = k := by
  have hl := last.isLt
  unfold distance
  simp only [Fin.ofNat]
  by_cases hw : last.val + 1 + k < n + 1
  · rw [Nat.mod_eq_of_lt hw, show last.val + 1 + k + n - last.val = k + (n + 1) by omega, Nat.add_mod_right,
      Nat.mod_eq_of_lt h]
  · rw [Nat.mod_eq_sub_mod (a := last.val + 1 + k) (by omega),
      Nat.mod_eq_of_lt (a := last.val + 1 + k - (n + 1)) (by omega),
      show last.val + 1 + k - (n + 1) + n - last.val = k by omega, Nat.mod_eq_of_lt h]

theorem after_distance {n : Nat} (last i : Fin (n + 1)) : Fin.ofNat (n + 1) (last.val + 1 + distance last i) = i := by
  apply Fin.ext
  have hl := last.isLt
  have hi := i.isLt
  unfold distance
  simp only [Fin.ofNat]
  by_cases hw : last.val < i.val
  · rw [show i.val + n - last.val = (i.val - last.val - 1) + (n + 1) by omega, Nat.add_mod_right,
      Nat.mod_eq_of_lt (a := i.val - last.val - 1) (by omega), Nat.mod_eq_of_lt (by omega)]
    omega
  · rw [Nat.mod_eq_of_lt (a := i.val + n - last.val) (by omega), Nat.mod_eq_sub_mod (by omega), Nat.mod_eq_of_lt (by omega)]
    omega

theorem mem_after {n : Nat} (last i : Fin (n + 1)) : i ∈ after last := by
  rw [List.mem_iff_getElem]
  have hd : distance last i < n + 1 := Nat.mod_lt _ (Nat.succ_pos n)
  exact ⟨distance last i, by simpa using hd, by rw [after_getElem, after_distance]⟩

/-- A round-robin arbiter grants, of all who wait, the one at the smallest distance (R6, R124). -/
theorem after_find {n : Nat} (last i : Fin (n + 1)) (p : Fin (n + 1) → Bool) :
    (after last).find? p = some i ↔ p i = true ∧ ∀ j, p j = true → distance last i ≤ distance last j := by
  have hd : ∀ j : Fin (n + 1), distance last j < n + 1 := fun j => Nat.mod_lt _ (Nat.succ_pos n)
  rw [List.find?_eq_some_iff_getElem]
  constructor
  · rintro ⟨hi, k, hk, hki, hmin⟩
    refine ⟨hi, fun j hj => ?_⟩
    have hik : distance last i = k := by
      rw [← hki, after_getElem, distance_after last k (by simpa using hk)]
    rw [hik]
    by_contra hlt
    have hl : distance last j < k := by omega
    have := hmin (distance last j) hl
    rw [after_getElem, after_distance] at this
    simp [hj] at this
  · rintro ⟨hi, hmin⟩
    refine ⟨hi, distance last i, by simpa using hd i, by rw [after_getElem, after_distance], fun k hk => ?_⟩
    have hk' : k < n + 1 := Nat.lt_trans hk (hd i)
    rw [after_getElem]
    cases hp : p (Fin.ofNat (n + 1) (last.val + 1 + k))
    · rfl
    · have := hmin _ hp
      rw [distance_after last k hk'] at this
      omega

/-- The first number in increasing order with a property. -/
theorem finRange_find {n : Nat} {p : Fin n → Bool} {i : Fin n} :
    (List.finRange n).find? p = some i ↔ p i = true ∧ ∀ j, j < i → p j = false := by
  rw [List.find?_eq_some_iff_getElem]
  constructor
  · rintro ⟨hi, k, hk, hki, hmin⟩
    have hik : i.val = k := by rw [← hki]; simp
    refine ⟨hi, fun j hj => ?_⟩
    have hjk : j.val < k := by have : j.val < i.val := hj; omega
    simpa using hmin j.val hjk
  · rintro ⟨hi, hmin⟩
    refine ⟨hi, i.val, by simp, by simp, fun k hk => ?_⟩
    have := hmin ⟨k, by omega⟩ hk
    simpa using this

theorem finRange_find_none {n : Nat} {p : Fin n → Bool} : (List.finRange n).find? p = none ↔ ∀ i, p i = false := by
  simp

end Sys2Proof.Machine
end

