-- ==== Sys2Proof/Laws/ReadPath.lean ====
section
/-! SUPPORT. The consequences on the read path: a settled state has none, one consequence at a time, and after an event none is
left. -/

namespace Sys2Proof.Machine

open Sys2Proof

theorem State.readLoop_of_none {s : State} (n : Nat) (h : s.readConsequence = none) : State.readLoop n s = s := by
  cases n with
  | zero => rfl
  | succ n => simp [State.readLoop, h]

theorem State.readLoop_of_some {s t : State} (n : Nat) (h : s.readConsequence = some t) :
    State.readLoop (n + 1) s = State.readLoop n t := by
  simp [State.readLoop, h]

theorem State.settled_iff {s : State} : s.settled ↔ s.readConsequence = none := by
  simp [State.settled]

theorem State.settleReads_of_settled {s : State} (h : s.settled) : s.settleReads = s :=
  State.readLoop_of_none _ (State.settled_iff.mp h)

/-- One consequence, after which none is left. -/
theorem State.settleReads_one {s t : State} (h : s.readConsequence = some t) (ht : t.readConsequence = none) :
    s.settleReads = t := by
  rw [State.settleReads, State.readFuel, State.readLoop_of_some _ h, State.readLoop_of_none _ ht]

/-- Two consequences, after which none is left, with a read on the path. -/
theorem State.settleReads_two {s t u : State} (hn : 0 < s.uport.intake.length + s.translator.contexts.length)
    (h : s.readConsequence = some t) (ht : t.readConsequence = some u) (hu : u.readConsequence = none) :
    s.settleReads = u := by
  obtain ⟨m, hm⟩ : ∃ m, s.readFuel = m + 2 := ⟨s.readFuel - 2, by unfold State.readFuel; omega⟩
  rw [State.settleReads, hm, State.readLoop_of_some _ h, State.readLoop_of_some _ ht, State.readLoop_of_none _ hu]

/-- What a consequence depends on: the links, the lanes and error capture do not matter. -/
theorem State.settled_congr {s t : State} (ht : t.translator = s.translator) (hi : t.uport.intake = s.uport.intake) :
    t.settled ↔ s.settled := by
  unfold State.settled State.readConsequence
  rw [ht, hi]
  cases s.translator.nextAnswer with
  | some c => simp
  | none =>
    cases s.uport.intake with
    | nil =>
      simp only
      cases s.translator.walking with
      | none => cases s.translator.firstWaiting <;> simp
      | some c => cases s.translator.paused <;> cases s.translator.freePiece <;> simp
    | cons e rest =>
      cases s.translator.freeContext with
      | some n => simp
      | none =>
        simp only
        cases s.translator.walking with
        | none => cases s.translator.firstWaiting <;> simp
        | some c => cases s.translator.paused <;> cases s.translator.freePiece <;> simp

theorem State.settled_quiet {s : State} : s.quiet.settled ↔ s.settled := State.settled_congr rfl rfl

/-- No context may be answered when none is COMPLETE. -/
theorem answerable_of_not_complete : ∀ (cs : List Context) (seen : List Initiator), (∀ c ∈ cs, c.state ≠ .complete) →
    answerable cs seen = []
  | [], _, _ => rfl
  | c :: cs, seen, h => by
    rw [answerable, if_neg (fun hc => h c List.mem_cons_self hc.1)]
    exact answerable_of_not_complete cs _ (fun x hx => h x (List.mem_cons_of_mem _ hx))

/-- Contexts that were accepted later do not change who may be answered before them. -/
theorem answerable_append : ∀ (cs ds : List Context) (seen : List Initiator),
    answerable (cs ++ ds) seen = answerable cs seen ++ answerable ds ((cs.map (·.initiator)).reverse ++ seen)
  | [], ds, seen => by simp [answerable]
  | c :: cs, ds, seen => by
    simp only [List.cons_append, answerable, List.map_cons, List.reverse_cons, List.append_assoc]
    rw [answerable_append cs ds (c.initiator :: seen)]
    split <;> simp

/-- The contexts that may be answered: COMPLETE ones with no earlier read of their initiator. -/
theorem mem_answerable : ∀ (cs : List Context) (seen : List Initiator) (c : Context), c ∈ answerable cs seen ↔
    ∃ pre post, cs = pre ++ c :: post ∧ c.state = .complete ∧ c.initiator ∉ seen ∧ ∀ x ∈ pre, x.initiator ≠ c.initiator
  | [], seen, c => by simp [answerable]
  | d :: cs, seen, c => by
    have ih := mem_answerable cs (d.initiator :: seen) c
    constructor
    · intro h
      rw [answerable] at h
      split at h
      · next hd =>
        rcases List.mem_cons.mp h with rfl | h
        · exact ⟨[], cs, rfl, hd.1, hd.2, by simp⟩
        · obtain ⟨pre, post, rfl, h1, h2, h3⟩ := ih.mp h
          refine ⟨d :: pre, post, rfl, h1, fun m => h2 (List.mem_cons_of_mem _ m), ?_⟩
          intro x hx
          rcases List.mem_cons.mp hx with rfl | hx
          · exact fun e => h2 (e ▸ List.mem_cons_self)
          · exact h3 x hx
      · obtain ⟨pre, post, rfl, h1, h2, h3⟩ := ih.mp h
        refine ⟨d :: pre, post, rfl, h1, fun m => h2 (List.mem_cons_of_mem _ m), ?_⟩
        intro x hx
        rcases List.mem_cons.mp hx with rfl | hx
        · exact fun e => h2 (e ▸ List.mem_cons_self)
        · exact h3 x hx
    · rintro ⟨pre, post, e, h1, h2, h3⟩
      rw [answerable]
      cases pre with
      | nil =>
        obtain ⟨rfl, rfl⟩ := List.cons.inj e
        rw [if_pos ⟨h1, h2⟩]
        exact List.mem_cons_self
      | cons p pre =>
        obtain ⟨rfl, rfl⟩ := List.cons.inj e
        have hm : c ∈ answerable (pre ++ c :: post) (d.initiator :: seen) := by
          refine ih.mpr ⟨pre, post, rfl, h1, ?_, fun x hx => h3 x (List.mem_cons_of_mem _ hx)⟩
          intro m
          rcases List.mem_cons.mp m with e | m
          · exact h3 d List.mem_cons_self e.symm
          · exact h2 m
        split
        · exact List.mem_cons_of_mem _ hm
        · exact hm

/-! ### Nothing is left due -/

/-- How much a context still has before it: a WAITING one its walk and its answer, any other its answer. -/
def Context.due (c : Context) : Nat := if c.state = .waiting then 3 else 1

/-- How much the read path still has before it. It falls with every consequence. -/
def State.readDue (s : State) : Nat :=
  4 * s.uport.intake.length + (s.translator.contexts.map Context.due).sum + bit s.translator.paused

theorem Context.due_pos (c : Context) : 1 ≤ c.due := by unfold Context.due; split <;> omega

theorem Context.due_le (c : Context) : c.due ≤ 3 := by unfold Context.due; split <;> omega

theorem State.readDue_le (s : State) : s.readDue ≤ s.readFuel := by
  have h : ∀ cs : List Context, (cs.map Context.due).sum ≤ 3 * cs.length := by
    intro cs
    induction cs with
    | nil => simp
    | cons c cs ih => have := c.due_le; simp only [List.map_cons, List.sum_cons, List.length_cons]; omega
  have := h s.translator.contexts
  have hb : bit s.translator.paused ≤ 1 := by unfold bit; split <;> omega
  unfold State.readDue State.readFuel
  omega

theorem Translator.mapContext_due_le (t : Translator) (n : ContextId) (f : Context → Context)
    (hf : ∀ c ∈ t.contexts, (f c).due ≤ c.due) :
    ((t.mapContext n f).contexts.map Context.due).sum ≤ (t.contexts.map Context.due).sum := by
  unfold Translator.mapContext
  generalize t.contexts = cs at hf
  simp only
  induction cs with
  | nil => simp
  | cons c cs ih =>
    have h1 := ih (fun x hx => hf x (List.mem_cons_of_mem _ hx))
    have h2 := hf c List.mem_cons_self
    simp only [List.map_cons, List.sum_cons]
    split <;> omega

theorem Translator.mapContext_due_lt (t : Translator) (c : Context) (f : Context → Context)
    (hc : c ∈ t.contexts) (hf : ∀ c ∈ t.contexts, (f c).due ≤ c.due) (hd : (f c).due + 2 ≤ c.due) :
    ((t.mapContext c.num f).contexts.map Context.due).sum + 2 ≤ (t.contexts.map Context.due).sum := by
  unfold Translator.mapContext
  generalize t.contexts = cs at hc hf
  simp only
  induction cs with
  | nil => cases hc
  | cons d cs ih =>
    have h2 := hf d List.mem_cons_self
    have hr : ((cs.map fun x => if x.num = c.num then f x else x).map Context.due).sum ≤ (cs.map Context.due).sum :=
      Translator.mapContext_due_le { t with contexts := cs } c.num f (fun x hx => hf x (List.mem_cons_of_mem _ hx))
    simp only [List.map_cons, List.sum_cons]
    rcases List.mem_cons.mp hc with rfl | hm
    · rw [if_pos rfl]; omega
    · have h1 := ih hm (fun x hx => hf x (List.mem_cons_of_mem _ hx))
      split <;> omega

theorem Context.due_of_not_waiting {c : Context} (h : c.state ≠ .waiting) : c.due = 1 := by
  unfold Context.due; rw [if_neg h]

/-- Ending a walk, entering a piece and pausing leave the weights of the contexts no greater. -/
theorem State.endWalk_due (s : State) (c : Context) :
    ((s.endWalk c).translator.contexts.map Context.due).sum ≤ (s.translator.contexts.map Context.due).sum ∧
      (s.endWalk c).translator.paused = false ∧ (s.endWalk c).uport = s.uport := by
  have hm := s.translator.mapContext_due_le c.num
    (fun x => { x with state := if s.translator.allDone c then .complete else .gathering })
    (fun x _ => by
      rw [Context.due_of_not_waiting]
      · exact x.due_pos
      · simp only; split <;> simp)
  have hd : ∀ u : State, u.endDrainWait.translator = u.translator ∧ u.endDrainWait.uport = u.uport := by
    intro u
    unfold State.endDrainWait State.enterCompile State.failCommit
    repeat' split
    all_goals exact ⟨rfl, rfl⟩
  unfold State.endWalk
  split
  · simp only [hd]
    exact ⟨hm, rfl, rfl⟩
  · exact ⟨hm, rfl, rfl⟩
  · exact ⟨hm, rfl, rfl⟩

theorem State.enterPiece_due (s : State) (c : Context) (p : PieceId) (u : PieceUse) :
    ((s.enterPiece c p u).translator.contexts.map Context.due).sum ≤ (s.translator.contexts.map Context.due).sum ∧
      (s.enterPiece c p u).uport = s.uport := by
  have hm := (s.putUse p (some u)).translator.mapContext_due_le c.num (fun x => { x with pieces := x.pieces ++ [p] })
    (fun x _ => Nat.le_refl _)
  unfold State.enterPiece
  split
  · exact ⟨hm, rfl⟩
  · exact ⟨hm, rfl⟩
  · exact ⟨hm, rfl⟩

theorem State.generateInto_due (s : State) (c : Context) (p : PieceId) :
    ((s.generateInto c p).translator.contexts.map Context.due).sum ≤ (s.translator.contexts.map Context.due).sum ∧
      (s.generateInto c p).translator.paused = false ∧ (s.generateInto c p).uport = s.uport := by
  have he := s.enterPiece_due c p (s.pieceDue c (s.translator.nextPixel c))
  unfold State.generateInto
  simp only
  split
  · have hw := State.endWalk_due
      ((s.enterPiece c p (s.pieceDue c (s.translator.nextPixel c))).withTranslator
        { (s.enterPiece c p (s.pieceDue c (s.translator.nextPixel c))).translator with paused := false })
      { c with pieces := c.pieces ++ [p] }
    exact ⟨Nat.le_trans hw.1 he.1, hw.2.1, hw.2.2.trans he.2⟩
  · exact ⟨he.1, rfl, he.2⟩

theorem State.generate_due (s : State) (c : Context) :
    ((s.generate c).translator.contexts.map Context.due).sum ≤ (s.translator.contexts.map Context.due).sum ∧
      (s.generate c).uport = s.uport := by
  unfold State.generate
  split
  · exact ⟨Nat.le_refl _, rfl⟩
  · exact ⟨(s.generateInto_due c _).1, (s.generateInto_due c _).2.2⟩

theorem State.startWalk_due (s : State) (c : Context) (hc : c ∈ s.translator.contexts) (hw : c.state = .waiting)
    (hr : c.cls ≠ .refused) : (s.startWalk c).readDue < s.readDue := by
  have hb : ∀ b : Bool, bit b ≤ 1 := fun b => by unfold bit; split <;> omega
  have h3 : c.due = 3 := by unfold Context.due; rw [if_pos hw]
  unfold State.startWalk
  split
  · have hm := s.translator.mapContext_due_lt c (fun x => { x with state := .walking, place := some (s.placeOf c) }) hc
      (fun x _ => by rw [Context.due_of_not_waiting (by simp)]; exact x.due_pos)
      (by rw [Context.due_of_not_waiting (by simp), h3])
    have h0 : bit false = 0 := rfl
    simp only [State.readDue, State.withLayout_uport, State.withLayout_translator, State.withTranslator_uport,
      State.withTranslator_translator, h0]
    omega
  · have hm := s.translator.mapContext_due_lt c (fun x => { x with state := .walking }) hc
      (fun x _ => by rw [Context.due_of_not_waiting (by simp)]; exact x.due_pos)
      (by rw [Context.due_of_not_waiting (by simp), h3])
    have hk : ∀ (u : State) (d : Context), u.uport = s.uport →
        (u.translator.contexts.map Context.due).sum + 2 ≤ (s.translator.contexts.map Context.due).sum →
          (u.generate d).readDue < s.readDue := by
      intro u d hu hs
      have hg := u.generate_due d
      have h1 := hb (u.generate d).translator.paused
      have h2 := hg.1
      unfold State.readDue
      rw [hg.2, hu]
      omega
    exact hk _ _ rfl hm
  · next e => exact absurd e hr

theorem State.answerContext_frame (s : State) (c : Context) :
    (s.answerContext c).translator.contexts = s.translator.contexts.filter (fun x => x.num != c.num) ∧
      (s.answerContext c).translator.paused = s.translator.paused ∧
      (s.answerContext c).translator.walker = s.translator.walker ∧ (s.answerContext c).uport = s.uport := by
  have hf : ∀ (ps : List PieceId) (u : State),
      (ps.foldl (fun x p => x.putUse p none) u).translator.contexts = u.translator.contexts ∧
        (ps.foldl (fun x p => x.putUse p none) u).translator.paused = u.translator.paused ∧
        (ps.foldl (fun x p => x.putUse p none) u).translator.walker = u.translator.walker ∧
        (ps.foldl (fun x p => x.putUse p none) u).uport = u.uport := by
    intro ps
    induction ps with
    | nil => intro u; exact ⟨rfl, rfl, rfl, rfl⟩
    | cons p ps ih => intro u; exact ih (u.putUse p none)
  have h := hf c.pieces (s.respond (s.translator.answerOf c))
  unfold State.answerContext
  simp only [State.withTranslator_translator, State.withTranslator_uport, h]
  exact ⟨rfl, rfl, rfl, rfl⟩

theorem Translator.nextAnswer_mem {t : Translator} {c : Context} (h : t.nextAnswer = some c) :
    c ∈ t.contexts ∧ c.state = .complete := by
  have hm : c ∈ answerable t.contexts [] := List.mem_of_mem_head? h
  obtain ⟨pre, post, e, h1, _⟩ := (mem_answerable _ _ _).mp hm
  exact ⟨e ▸ List.mem_append_right _ List.mem_cons_self, h1⟩

theorem Translator.firstWaiting_mem {t : Translator} {c : Context} (h : t.firstWaiting = some c) :
    c ∈ t.contexts ∧ c.state = .waiting ∧ c.cls ≠ .refused := by
  have hp := List.find?_some h
  simp only [Bool.and_eq_true, beq_iff_eq, bne_iff_ne, ne_eq] at hp
  exact ⟨List.mem_of_find?_eq_some h, hp.1, hp.2⟩

/-- Every consequence lets the measure fall. -/
theorem State.readConsequence_due {s t : State} (h : s.readConsequence = some t) : t.readDue < s.readDue := by
  unfold State.readConsequence at h
  split at h
  · next c hc =>
    obtain rfl := Option.some.inj h
    have hf := s.answerContext_frame c
    have hm := (Translator.nextAnswer_mem hc).1
    have hd : ∀ cs : List Context, c ∈ cs →
        ((cs.filter fun x => x.num != c.num).map Context.due).sum < (cs.map Context.due).sum := by
      intro cs
      induction cs with
      | nil => intro h; cases h
      | cons d cs ih =>
        intro hcs
        have hle : ∀ ds : List Context,
            ((ds.filter fun x => x.num != c.num).map Context.due).sum ≤ (ds.map Context.due).sum := by
          intro ds
          induction ds with
          | nil => simp
          | cons x xs ihx => rw [List.filter_cons]; split <;> simp only [List.map_cons, List.sum_cons] <;> omega
        have hp := d.due_pos
        rw [List.filter_cons]
        rcases List.mem_cons.mp hcs with rfl | hm
        · have := hle cs
          simp only [bne_self_eq_false, Bool.false_eq_true, if_false, List.map_cons, List.sum_cons]
          omega
        · have := ih hm
          split <;> simp only [List.map_cons, List.sum_cons] <;> omega
    have := hd _ hm
    unfold State.readDue
    rw [hf.1, hf.2.1, hf.2.2.2]
    omega
  · split at h
    · next e rest n hi hn =>
      obtain rfl := Option.some.inj h
      have := (placedContext n e).due_le
      simp only [State.readDue, State.placeInto, State.withTranslator_translator, State.withTranslator_uport,
        State.withUport_uport, hi, List.length_cons, List.map_append, List.sum_append, List.map_cons, List.map_nil,
        List.sum_cons, List.sum_nil]
      omega
    · split at h
      · next c hc =>
        split at h
        · next p hp hfree =>
          obtain rfl := Option.some.inj h
          have hg := s.generateInto_due c p
          have h0 : bit false = 0 := rfl
          have h1 : bit true = 1 := rfl
          unfold State.readDue
          rw [hg.2.1, hg.2.2, hp, h0, h1]
          omega
        · cases h
      · split at h
        · next c hc =>
          obtain rfl := Option.some.inj h
          have hw := Translator.firstWaiting_mem hc
          exact s.startWalk_due c hw.1 hw.2.1 hw.2.2
        · cases h

theorem State.readLoop_settled : ∀ (n : Nat) (s : State), s.readDue ≤ n → (State.readLoop n s).settled
  | 0, s, h => by
    rw [State.settled_iff, State.readLoop]
    cases hc : s.readConsequence with
    | none => rfl
    | some t => have := State.readConsequence_due hc; omega
  | n + 1, s, h => by
    cases hc : s.readConsequence with
    | none => rw [State.readLoop_of_none _ hc]; exact State.settled_iff.mpr hc
    | some t =>
      rw [State.readLoop_of_some _ hc]
      exact State.readLoop_settled n t (by have := State.readConsequence_due hc; omega)

/-- After an event nothing on the read path is left due. -/
theorem State.settleReads_settled (s : State) : s.settleReads.settled := State.readLoop_settled _ _ s.readDue_le

/-- What every consequence keeps holds after the event. -/
theorem State.settleReads_keeps {P : State → Prop} (hP : ∀ s t, P s → s.readConsequence = some t → P t) {s : State}
    (h : P s) : P s.settleReads := by
  have hl : ∀ (n : Nat) (u : State), P u → P (State.readLoop n u) := by
    intro n
    induction n with
    | zero => intro u hu; exact hu
    | succ n ih =>
      intro u hu
      rw [State.readLoop]
      split
      · next t ht => exact ih t (hP u t hu ht)
      · exact hu
  exact hl _ _ h

end Sys2Proof.Machine
end

