-- ==== Sys2Proof/Laws/Sources.lean ====
section
/-! SUPPORT. What an action can do to one source record: every one keeps the role laws, the credit law and the capacities, and gives the
source no region that it had not. -/

namespace Sys2Proof.Machine

open Sys2Proof

/-! ### Roles, letter by letter -/

theorem Source.hasRole_iff (x : Source) (r : Role) :
    x.hasRole r ↔ x.bufs.a.role = r ∨ x.bufs.b.role = r ∨ x.bufs.c.role = r := by
  constructor
  · rintro ⟨l, h⟩; cases l
    · exact .inl h
    · exact .inr (.inl h)
    · exact .inr (.inr h)
  · rintro (h | h | h)
    · exact ⟨.a, h⟩
    · exact ⟨.b, h⟩
    · exact ⟨.c, h⟩

theorem Source.allSpent_iff (x : Source) :
    x.allSpent ↔ x.bufs.a.role = .spent ∧ x.bufs.b.role = .spent ∧ x.bufs.c.role = .spent := by
  constructor
  · intro h; exact ⟨h .a, h .b, h .c⟩
  · rintro ⟨ha, hb, hc⟩ l; cases l <;> assumption

theorem Source.oneOf_iff (x : Source) (r : Role) :
    x.oneOf r ↔ ¬(x.bufs.a.role = r ∧ x.bufs.b.role = r) ∧ ¬(x.bufs.a.role = r ∧ x.bufs.c.role = r) ∧
      ¬(x.bufs.b.role = r ∧ x.bufs.c.role = r) := by
  constructor
  · intro h
    refine ⟨?_, ?_, ?_⟩
    · rintro ⟨p, q⟩; cases h .a .b p q
    · rintro ⟨p, q⟩; cases h .a .c p q
    · rintro ⟨p, q⟩; cases h .b .c p q
  · rintro ⟨h1, h2, h3⟩ l m hl hm
    cases l <;> cases m <;> simp_all [Buffers.get]

/-- A source obeys the role laws and what is kept beside them. -/
def Source.ok (x : Source) : Prop := x.roleLaws ∧ x.roleSupport

/-- The role laws and their support, letter by letter. -/
theorem Source.ok_iff (x : Source) (a b c : Role) (ha : x.bufs.a.role = a) (hb : x.bufs.b.role = b)
    (hc : x.bufs.c.role = c) :
    x.ok ↔
      (a = b → a = .spent) ∧ (a = c → a = .spent) ∧ (b = c → b = .spent) ∧
        (x.state = .off ∨ x.state = .closing → a = .spent ∧ b = .spent ∧ c = .spent ∧ x.fillWait = false) ∧
        (x.state = .live → a = .front ∨ b = .front ∨ c = .front) ∧
        (x.state = .await → a ≠ .front ∧ b ≠ .front ∧ c ≠ .front) ∧
        (x.state = .await ∨ x.state = .contained ∨ x.state = .live → x.fillWait = false → a = .fill ∨ b = .fill ∨ c = .fill) ∧
        (x.fillWait = true → a ≠ .fill ∧ b ≠ .fill ∧ c ≠ .fill) ∧
        ((a = .sealing ∨ b = .sealing ∨ c = .sealing) → a ≠ .ready ∧ b ≠ .ready ∧ c ≠ .ready) ∧
        (x.state = .contained → a ≠ .ready ∧ b ≠ .ready ∧ c ≠ .ready) := by
  subst ha hb hc
  unfold Source.ok Source.roleLaws Source.roleSupport
  simp only [Source.hasRole_iff, Source.allSpent_iff, Source.oneOf_iff]
  generalize x.bufs.a.role = a
  generalize x.bufs.b.role = b
  generalize x.bufs.c.role = c
  cases a <;> cases b <;> cases c <;> simp <;> cases x.state <;> simp

/-! ### What an action keeps of a source -/

/-- What every change from `x` to `y` keeps: the role laws, the credit law and the two capacities. -/
structure SourceKeeps (x y : Source) : Prop where
  roles : x.ok → y.ok
  credit : x.creditLaw → y.creditLaw
  queue : x.holdQueue.length ≤ 4 → y.holdQueue.length ≤ 4
  frames : x.framesSinceFlip ≤ 255 → y.framesSinceFlip ≤ 255

/-- The change from `x` to `y` gives the source no region. -/
def RegionsKept (x y : Source) : Prop := y.state = .off ∨ (x.state ≠ .off ∧ ∀ i, y.cfg.regions i = x.cfg.regions i)

/-- The change from `x` to `y` leaves what an override group may watch of the source. -/
def InputsKept (x y : Source) : Prop := y.trip = x.trip ∧ (y.state = .contained ↔ x.state = .contained)

theorem InputsKept.of_same {x y : Source} (ht : y.trip = x.trip) (hs : y.state = x.state) : InputsKept x y :=
  ⟨ht, by rw [hs]⟩

theorem RegionsKept.of_same {x y : Source} (hs : y.state = x.state) (hc : y.cfg = x.cfg) : RegionsKept x y := by
  by_cases h : x.state = .off
  · exact .inl (hs.trans h)
  · exact .inr ⟨h, fun i => by rw [hc]⟩

theorem SourceKeeps.refl (x : Source) : SourceKeeps x x := ⟨id, id, id, id⟩

theorem SourceKeeps.trans {x y z : Source} (h : SourceKeeps x y) (k : SourceKeeps y z) : SourceKeeps x z :=
  ⟨fun a => k.roles (h.roles a), fun a => k.credit (h.credit a), fun a => k.queue (h.queue a), fun a => k.frames (h.frames a)⟩

theorem Source.ok_of_roles {x y : Source} (hs : y.state = x.state) (hw : y.fillWait = x.fillWait)
    (hb : ∀ l, (y.bufs.get l).role = (x.bufs.get l).role) (h : x.ok) : y.ok := by
  rw [Source.ok_iff x _ _ _ rfl rfl rfl] at h
  rw [Source.ok_iff y _ _ _ (hb .a) (hb .b) (hb .c), hs, hw]
  exact h

/-- A change that leaves state, fill wait, roles, configuration, credit, quota in effect and queue. -/
theorem SourceKeeps.of_marks {x y : Source} (hs : y.state = x.state) (hw : y.fillWait = x.fillWait)
    (hb : ∀ l, (y.bufs.get l).role = (x.bufs.get l).role) (hc : y.cfg = x.cfg) (hr : y.credit = x.credit)
    (hq : y.quotaInEffect = x.quotaInEffect) (hh : y.holdQueue = x.holdQueue)
    (hf : x.framesSinceFlip ≤ 255 → y.framesSinceFlip ≤ 255) : SourceKeeps x y := by
  refine ⟨Source.ok_of_roles hs hw hb, ?_, by rw [hh]; exact id, hf⟩
  unfold Source.creditLaw
  rw [hs, hc, hr, hq]
  exact id

theorem Buffers.get_put (b : Buffers) (l m : Letter) (v : Buffer) : (b.put l v).get m = if m = l then v else b.get m := by
  cases l <;> cases m <;> rfl

theorem Buffers.put_role {b : Buffers} {l : Letter} {v : Buffer} (h : v.role = (b.get l).role) (m : Letter) :
    ((b.put l v).get m).role = (b.get m).role := by
  rw [Buffers.get_put]
  split
  · next e => rw [h, e]
  · rfl

/-! ### Configuration -/

theorem Source.writeOpen_regions (x : Source) (f v : Nat) (i : SourceId) :
    (x.writeOpen f v).1.cfg.regions i = x.cfg.regions i ∧ (x.writeOpen f v).1.state = x.state := by
  unfold Source.writeOpen
  repeat' split
  all_goals exact ⟨rfl, rfl⟩

theorem Source.writeConfig_keeps (x : Source) (f v : Nat) :
    SourceKeeps x (x.writeConfig f v).1 ∧ RegionsKept x (x.writeConfig f v).1 := by
  unfold Source.writeConfig
  split
  · next ho =>
    split
    · exact ⟨SourceKeeps.refl x, .of_same rfl rfl⟩
    · refine ⟨⟨Source.ok_of_roles rfl rfl (fun _ => rfl), ?_, id, id⟩, .inl ho⟩
      rintro ⟨_, h2, _⟩
      have hz : x.credit = 0 := h2 (.inl ho)
      exact ⟨by simp only; omega, fun _ => hz, fun hn => absurd ho hn⟩
  · next ho =>
    refine ⟨?_, .inr ⟨ho, fun i => (x.writeOpen_regions f v i).1⟩⟩
    unfold Source.writeOpen
    split
    · split
      · exact ⟨Source.ok_of_roles rfl rfl (fun _ => rfl), id, id, id⟩
      · exact SourceKeeps.refl x
    · split
      · next h =>
        refine ⟨Source.ok_of_roles rfl rfl (fun _ => rfl), ?_, id, id⟩
        rintro ⟨h1, h2, h3⟩
        refine ⟨h1, h2, fun hn hq => ?_⟩
        simp only [SourceConfig.put] at hq ⊢
        rcases hq with hq | hq
        · by_contra hc; exact h.2 ⟨hq, by omega⟩
        · exact h3 hn (.inr hq)
      · exact SourceKeeps.refl x
    · split
      · next h =>
        refine ⟨Source.ok_of_roles rfl rfl (fun _ => rfl), ?_, id, id⟩
        rintro ⟨h1, h2, h3⟩
        refine ⟨Nat.min_le_right _ _, fun hz => ?_, fun _ hq => ?_⟩
        · have hc : x.credit = 0 := h2 hz
          simp only [hc]; exact Nat.min_eq_left (Nat.zero_le v)
        · simp only [SourceConfig.put] at hq ⊢
          by_contra hc; exact h.2 ⟨by omega, hq⟩
      · exact SourceKeeps.refl x
    · split
      · exact ⟨Source.ok_of_roles rfl rfl (fun _ => rfl), id, id, id⟩
      · exact SourceKeeps.refl x
    · exact SourceKeeps.refl x

/-! ### Buffers -/

theorem Buffers.freeSpent_some {b : Buffers} {l : Letter} (h : b.freeSpent = some l) :
    (b.get l).role = .spent ∧ (b.get l).readHold = 0 ∧ (b.get l).writeHold = 0 := by
  have := List.find?_some h
  simpa [Buffer.free] using this

theorem Buffers.withRole_some {b : Buffers} {r : Role} {l : Letter} (h : b.withRole r = some l) : (b.get l).role = r := by
  simpa using List.find?_some h

theorem Buffers.withRole_none {b : Buffers} {r : Role} (h : b.withRole r = none) (l : Letter) : (b.get l).role ≠ r := by
  have := List.find?_eq_none.mp h l (by cases l <;> simp [letters])
  simpa using this

theorem Source.endFillWait_keeps (x : Source) : SourceKeeps x x.endFillWait ∧ RegionsKept x x.endFillWait := by
  unfold Source.endFillWait
  split
  · next hw =>
    split
    · next l hl =>
      refine ⟨⟨fun h => ?_, id, id, id⟩, .of_same rfl rfl⟩
      have hs := (Buffers.freeSpent_some hl).1
      rw [Source.ok_iff x _ _ _ rfl rfl rfl] at h
      cases l <;>
        (rw [Source.ok_iff _ _ _ _ rfl rfl rfl]; simp only [Buffers.makeFill, Buffers.put, Buffers.get] at hs ⊢; grind)
    · exact ⟨SourceKeeps.refl x, .of_same rfl rfl⟩
  · exact ⟨SourceKeeps.refl x, .of_same rfl rfl⟩

/-- A SEALING buffer resolved (R37, R49, R50): READY, or SPENT if poisoned or in a CONTAINED source; with `c` the source enters
CONTAINED. -/
def Source.resolved (x : Source) (l : Letter) (r : Role) (c : Bool) : Source :=
  { x with bufs := x.bufs.setRole l r, state := if c then .contained else x.state }

theorem Source.resolved_keeps (x : Source) (l : Letter) (r : Role) (c : Bool) (hl : (x.bufs.get l).role = .sealing)
    (hr : r = .spent ∨ (r = .ready ∧ c = false ∧ x.state ≠ .contained))
    (hc : c = true → x.state = .await ∨ x.state = .live) :
    SourceKeeps x (x.resolved l r c) ∧ RegionsKept x (x.resolved l r c) := by
  refine ⟨⟨fun h => ?_, fun h => ?_, id, id⟩, ?_⟩
  · rw [Source.ok_iff x _ _ _ rfl rfl rfl] at h
    rw [Source.ok_iff _ _ _ _ rfl rfl rfl]
    cases l <;> cases c <;> simp only [Source.resolved, Buffers.setRole, Buffers.put, Buffers.get] at hl hr hc ⊢ <;> grind
  · obtain ⟨h1, h2, h3⟩ := h
    refine ⟨h1, fun hz => ?_, fun hn hq => ?_⟩
    · cases c <;> simp only [Source.resolved] at hz ⊢ <;> grind
    · cases c <;> simp only [Source.resolved] at hn hq ⊢ <;> grind
  · cases c
    · exact .of_same rfl rfl
    · refine .inr ⟨?_, fun _ => rfl⟩
      rcases hc rfl with h | h <;> simp [h]

/-- The end of a drain (R30). -/
theorem Source.drained_keeps (x : Source) (hc : x.state = .closing) :
    SourceKeeps x { x with state := .off } ∧ RegionsKept x { x with state := .off } := by
  refine ⟨⟨fun h => ?_, fun h => ?_, id, id⟩, .inl rfl⟩
  · rw [Source.ok_iff x _ _ _ rfl rfl rfl] at h
    rw [Source.ok_iff _ _ _ _ rfl rfl rfl]
    simp only; grind
  · obtain ⟨h1, h2, h3⟩ := h
    exact ⟨h1, fun _ => h2 (.inr (.inl hc)), fun hn => absurd rfl hn⟩

/-! ### OPEN, CLOSE, RELEASE -/

theorem Source.opened_keeps (x : Source) (hv : x.cfg.fieldValid 9 = true) : SourceKeeps x x.opened := by
  refine ⟨fun h => ?_, fun _ => ?_, id, fun _ => by simp [Source.opened]⟩
  · rw [Source.ok_iff _ _ _ _ rfl rfl rfl]; simp [Source.opened]
  · simp only [SourceConfig.fieldValid, Bool.and_eq_true, decide_eq_true_eq, Bool.or_eq_true, beq_iff_eq] at hv
    refine ⟨Nat.zero_le _, fun _ => rfl, fun _ hq => ?_⟩
    simp only [Source.opened] at hq ⊢
    omega

theorem Source.closed_keeps (x : Source) (hn : x.state ≠ .off) : SourceKeeps x x.closed ∧ RegionsKept x x.closed := by
  refine ⟨⟨fun _ => ?_, ?_, fun _ => by simp [Source.closed], id⟩, .inr ⟨hn, fun _ => rfl⟩⟩
  · rw [Source.ok_iff _ _ _ _ rfl rfl rfl]; simp [Source.closed, Buffers.allSpent]
  · rintro ⟨_, _, h3⟩
    exact ⟨Nat.zero_le _, fun _ => rfl, fun _ hq => h3 hn hq⟩

theorem Source.released_keeps (x : Source) (hc : x.state = .contained) :
    SourceKeeps x x.released ∧ RegionsKept x x.released := by
  refine ⟨⟨fun h => ?_, fun h => ?_, id, id⟩, .inr ⟨by simp [hc], fun _ => rfl⟩⟩
  · rw [Source.ok_iff x _ _ _ rfl rfl rfl] at h
    rw [Source.ok_iff _ _ _ _ rfl rfl rfl]
    unfold Source.released
    cases hf : x.bufs.withRole .front with
    | none =>
      have ha := Buffers.withRole_none hf .a
      have hb := Buffers.withRole_none hf .b
      have hcc := Buffers.withRole_none hf .c
      simp only [Buffers.get] at ha hb hcc
      simp only [Option.isSome]; grind
    | some l =>
      have hl := Buffers.withRole_some hf
      cases l <;> simp only [Buffers.get] at hl <;> simp only [Option.isSome] <;> grind
  · obtain ⟨h1, h2, h3⟩ := h
    refine ⟨h1, fun hz => ?_, fun _ hq => h3 (by simp [hc]) hq⟩
    refine h2 (.inr (.inr ?_))
    simp only [Source.released] at hz
    split at hz <;> simp_all

/-! ### The strobe -/

theorem Source.flips_some {x : Source} {l : Letter} (h : x.flips = some l) :
    (x.state = .await ∨ x.state = .live) ∧ (x.bufs.get l).role = .ready := by
  unfold Source.flips at h
  split at h <;> first
    | cases h
    | exact ⟨by simp [*], Buffers.withRole_some h⟩

theorem Source.flip_keeps (x : Source) (l : Letter) (hl : x.flips = some l) :
    SourceKeeps x (x.flip l) ∧ RegionsKept x (x.flip l) := by
  have hr := Source.flips_some hl
  have hk : SourceKeeps x
      { x with
        bufs := (x.bufs.supersede .front).setRole l .front, framesSinceFlip := 0, stale := false
        presented := x.presented + 1, state := .live } := by
    refine ⟨fun h => ?_, fun h => ?_, id, fun _ => Nat.zero_le _⟩
    · rw [Source.ok_iff x _ _ _ rfl rfl rfl] at h
      rw [Source.ok_iff _ _ _ _ rfl rfl rfl]
      cases l <;> simp only [Buffers.setRole, Buffers.supersede, Buffers.put, Buffers.get] at hr ⊢ <;> grind
    · obtain ⟨h1, h2, h3⟩ := h
      exact ⟨h1, fun hz => h2 (by simp only at hz; grind), fun _ hq => h3 (by grind) hq⟩
  refine ⟨hk.trans (Source.endFillWait_keeps _).1, .inr ⟨by grind, fun i => ?_⟩⟩
  unfold Source.flip Source.endFillWait
  repeat' split
  all_goals rfl

theorem Source.age_keeps (x : Source) : SourceKeeps x x.age ∧ RegionsKept x x.age :=
  ⟨.of_marks rfl rfl (fun _ => rfl) rfl rfl rfl rfl (fun _ => Nat.min_le_left _ _), .of_same rfl rfl⟩

theorem Source.slot_keeps (x : Source) (k : Nat) : SourceKeeps x (x.slot k) ∧ RegionsKept x (x.slot k) := by
  unfold Source.slot
  split
  · next h =>
    simp only [Bool.and_eq_true, decide_eq_true_eq] at h
    unfold Source.receive
    split
    · exact ⟨.refl x, .of_same rfl rfl⟩
    · refine ⟨⟨Source.ok_of_roles rfl rfl (fun _ => rfl), ?_, id, id⟩, .of_same rfl rfl⟩
      rintro ⟨h1, h2, h3⟩
      refine ⟨Nat.min_le_left _ _, fun hz => ?_, h3⟩
      have hr := h.1
      have hq := h.2
      simp only [Source.running, Bool.or_eq_true, beq_iff_eq] at hr
      simp only at hz
      grind
  · exact ⟨.refl x, .of_same rfl rfl⟩

theorem Source.slot_cfg (x : Source) (k : Nat) : (x.slot k).cfg = x.cfg ∧ (x.slot k).state = x.state := by
  unfold Source.slot Source.receive
  repeat' split
  all_goals exact ⟨rfl, rfl⟩

theorem Source.renew_keeps (x : Source) : SourceKeeps x x.renew ∧ RegionsKept x x.renew := by
  unfold Source.renew
  split
  · refine ⟨SourceKeeps.trans (y := { x with
      frameTotal := 0, quotaInEffect := x.cfg.quota, credit := if x.cfg.quota = 0 then 0 else x.credit }) ?_
        (Source.slot_keeps _ 0).1, .of_same (Source.slot_cfg _ 0).2 (Source.slot_cfg _ 0).1⟩
    refine ⟨Source.ok_of_roles rfl rfl (fun _ => rfl), ?_, id, id⟩
    rintro ⟨h1, h2, h3⟩
    refine ⟨?_, fun hz => ?_, fun hn hq => h3 hn ?_⟩
    · simp only; split <;> omega
    · simp only at hz ⊢
      split
      · rfl
      · grind
    · simp only at hq; grind
  · exact ⟨.of_marks rfl rfl (fun _ => rfl) rfl rfl rfl rfl id, .of_same rfl rfl⟩

/-! ### Admission -/

theorem Source.takeWrite_keeps (x : Source) (e : HoldEntry) (rest : List HoldEntry) (l : Letter)
    (hq : x.holdQueue = e :: rest) (hl : (x.bufs.get l).role = .fill) (hw : x.fillWait = false) :
    SourceKeeps x (x.takeWrite e rest l) ∧ RegionsKept x (x.takeWrite e rest l) := by
  have hk : SourceKeeps x
      { x with
        holdQueue := rest, credit := if 0 < x.quotaInEffect then x.credit - e.beats else x.credit
        bufs := x.bufs.put l ((x.bufs.get l).takeWrite e) } := by
    refine ⟨Source.ok_of_roles rfl rfl (fun m => Buffers.put_role (v := (x.bufs.get l).takeWrite e) rfl m), ?_, fun h => ?_, id⟩
    · rintro ⟨h1, h2, h3⟩
      refine ⟨?_, fun hz => ?_, h3⟩
      · simp only; split <;> omega
      · have := h2 hz
        simp only; split <;> omega
    · rw [hq] at h; simp only [List.length_cons] at h ⊢; omega
  have hl' : ∀ v : Buffer, v = (x.bufs.get l).takeWrite e → v.role = .fill := fun v hv => by rw [hv]; exact hl
  unfold Source.takeWrite
  simp only
  split
  · refine ⟨hk.trans ?_, ?_⟩
    · generalize hy : ({ x with
        holdQueue := rest, credit := if 0 < x.quotaInEffect then x.credit - e.beats else x.credit
        bufs := x.bufs.put l ((x.bufs.get l).takeWrite e) } : Source) = y
      have hyl : (y.bufs.get l).role = .fill := by
        rw [← hy]; simp only [Buffers.get_put, if_true]; exact hl
      have hyw : y.fillWait = false := by rw [← hy]; exact hw
      unfold Source.completeFrame Source.chooseFill
      refine ⟨fun h => ?_, ?_, ?_, ?_⟩
      · rw [Source.ok_iff y _ _ _ rfl rfl rfl] at h
        split
        · next m hm =>
          have hs := (Buffers.freeSpent_some hm).1
          rw [Source.ok_iff _ _ _ _ rfl rfl rfl]
          cases l <;> cases m <;>
            simp only [Buffers.makeFill, Buffers.setRole, Buffers.supersede, Buffers.put, Buffers.get] at hs hyl ⊢ <;> grind
        · rw [Source.ok_iff _ _ _ _ rfl rfl rfl]
          cases l <;> simp only [Buffers.setRole, Buffers.supersede, Buffers.put, Buffers.get] at hyl ⊢ <;> grind
      · split <;> exact id
      · split <;> exact id
      · split <;> exact id
    · unfold Source.completeFrame Source.chooseFill
      split <;> exact .of_same rfl rfl
  · exact ⟨hk, .of_same rfl rfl⟩

/-! ### What an override group may watch -/

theorem Source.writeConfig_inputs (x : Source) (f v : Nat) : InputsKept x (x.writeConfig f v).1 := by
  unfold Source.writeConfig Source.writeOpen
  repeat' split
  all_goals exact .of_same rfl rfl

theorem Source.endFillWait_inputs (x : Source) : InputsKept x x.endFillWait := by
  unfold Source.endFillWait
  repeat' split
  all_goals exact .of_same rfl rfl

theorem Source.drained_inputs (x : Source) (h : x.state = .closing) : InputsKept x { x with state := .off } :=
  ⟨rfl, by simp [h]⟩

theorem Source.opened_inputs (x : Source) (h : x.state = .off) : InputsKept x x.opened := ⟨rfl, by simp [Source.opened, h]⟩

theorem Source.slot_inputs (x : Source) (k : Nat) : InputsKept x (x.slot k) := by
  unfold Source.slot Source.receive
  repeat' split
  all_goals exact .of_same rfl rfl

theorem Source.renew_inputs (x : Source) : InputsKept x x.renew := by
  unfold Source.renew Source.slot Source.receive
  repeat' split
  all_goals exact .of_same rfl rfl

theorem Source.takeWrite_inputs (x : Source) (e : HoldEntry) (rest : List HoldEntry) (l : Letter) :
    InputsKept x (x.takeWrite e rest l) := by
  unfold Source.takeWrite Source.completeFrame Source.chooseFill
  simp only
  repeat' split
  all_goals exact .of_same rfl rfl

end Sys2Proof.Machine
end

