-- ==== Sys2Proof/Laws/Steps.lean ====
section
/-! SUPPORT. What a step can do, once: it is made of the actions listed in `Kept`, so a property that every action keeps is kept by
every step. -/

namespace Sys2Proof.Machine

open Sys2Proof

/-- The property `P` is kept by every action of the part. -/
structure Kept (P : State → Prop) : Prop where
  links : ∀ s l, P s → P (s.withLinks l)
  pending : ∀ s q, P s → P (s.withPending q)
  port : ∀ s p, P s → P (s.withPort p)
  loader : ∀ s l, P s → P (s.withLoader l)
  beginReset : ∀ s k, P s → P (s.beginReset k)
  endReset : ∀ s pins, P s → P (s.endReset pins)
  arrive : ∀ s r, P s → P (s.arrive r)
  acceptHead : ∀ s i k, P s → P (s.acceptHead i k)
  placeOldest : ∀ s, P s → P s.placeOldest
  startEarliest : ∀ s, P s → P s.startEarliest
  generateNext : ∀ s, P s → P s.generateNext
  answerNumber : ∀ s n, P s → P (s.answerNumber n)
  arbitrate : ∀ s, P s → P s.arbitrate
  takeResponse : ∀ s r, P s → P (s.takeResponse r)
  readExpires : ∀ s p, P s → P (s.readExpires p)
  writeExpires : ∀ s k, P s → P (s.writeExpires k)
  admission : ∀ s i, P s → P (s.admission i)
  strobe : ∀ s o, P s → P (s.strobe o)
  slotExpires : ∀ s, P s → P s.slotExpires
  compileCompletes : ∀ s, P s → P s.compileCompletes
  alarmChange : ∀ s l h, P s → P (s.alarmChange l h)
  openSource : ∀ s i, P s → P (s.openSource i).1
  closeSource : ∀ s i, P s → P (s.closeSource i).1
  releaseSource : ∀ s i, P s → P (s.releaseSource i).1
  commitCommand : ∀ s, P s → P s.commitCommand.1
  abortCommand : ∀ s, P s → P s.abortCommand.1
  restageCommand : ∀ s, P s → P s.restageCommand.1
  writeGeometry : ∀ s f v, P s → P (s.writeGeometry f v).1
  writeEnable : ∀ s v, P s → P (s.writeEnable v).1
  writeSlotLength : ∀ s v, P s → P (s.writeSlotLength v).1
  writeDeadline : ∀ s v, P s → P (s.writeDeadline v).1
  writeSoftBits : ∀ s v, P s → P (s.writeSoftBits v)
  clearTrips : ∀ s v, P s → P (s.clearTrips v)
  clearCapFlags : ∀ s v, P s → P (s.clearCapFlags v)
  clearStatuses : ∀ s v, P s → P (s.clearStatuses v)
  writeDetect : ∀ s v, P s → P (s.writeDetect v)
  writeSeverity : ∀ s v, P s → P (s.writeSeverity v)
  clearCauses : ∀ s v, P s → P (s.clearCauses v)
  writeIntEnable : ∀ s v, P s → P (s.writeIntEnable v)
  writeSourceConfig : ∀ s i f v, P s → P (s.writeSourceConfig i f v).1
  writeWindow : ∀ s w f v, P s → P (s.writeWindow w f v).1
  writeStack : ∀ s f v, P s → P (s.writeStack f v).1
  writeGroup : ∀ s g f v, P s → P (s.writeGroup g f v).1
  writePalette : ∀ s e v, P s → P (s.writePalette e v).1
  endLoad : ∀ s o r, P s → P (s.endLoad o r)

namespace Kept

variable {P : State → Prop}

theorem writeRegister (h : Kept P) (s : State) (n : Nat) (v : Word) (hs : P s) : P (s.writeRegister n v).1 := by
  unfold State.writeRegister
  split
  · unfold State.writePointer; split
    · exact h.port _ _ hs
    · exact hs
  · exact h.writeGeometry _ _ _ hs
  · exact h.writeGeometry _ _ _ hs
  · exact h.writeGeometry _ _ _ hs
  · exact h.writeGeometry _ _ _ hs
  · exact h.writeEnable _ _ hs
  · exact h.writeSlotLength _ _ hs
  · exact h.writeDeadline _ _ hs
  · exact h.writeSoftBits _ _ hs
  · exact h.clearTrips _ _ hs
  · exact h.clearCapFlags _ _ hs
  · exact h.clearStatuses _ _ hs
  · exact h.writeDetect _ _ hs
  · exact h.writeSeverity _ _ hs
  · exact h.clearCauses _ _ hs
  · exact h.writeIntEnable _ _ hs
  · exact h.port _ _ hs
  · exact hs

theorem tableWriteChecked (h : Kept P) (s : State) (p : TablePointer) (v : Nat) (hs : P s) : P (s.tableWriteChecked p v).1 := by
  unfold State.tableWriteChecked State.tableWrite
  repeat' split
  all_goals first
    | exact h.writeSourceConfig _ _ _ _ hs
    | exact h.writeWindow _ _ _ _ hs
    | exact h.writeStack _ _ _ hs
    | exact h.writeGroup _ _ _ _ hs
    | exact h.writePalette _ _ _ hs
    | exact hs

theorem runCommand (h : Kept P) (s : State) (c o : Nat) (hs : P s) : P (s.runCommand c o).1 := by
  unfold State.runCommand State.onSource
  repeat' split
  all_goals first
    | exact h.openSource _ _ hs
    | exact h.closeSource _ _ hs
    | exact h.releaseSource _ _ hs
    | exact h.commitCommand _ hs
    | exact h.abortCommand _ hs
    | exact h.restageCommand _ hs
    | exact hs

theorem takeCommand (h : Kept P) (s : State) (c o : Byte) (hs : P s) : P (s.takeCommand c o) := by
  unfold State.takeCommand
  split
  · exact h.beginReset _ _ hs
  · refine h.port _ _ (h.port _ _ ?_)
    unfold State.superCommand
    split
    · unfold State.reloadBoot
      split
      · exact h.port _ _ (h.loader _ _ hs)
      · exact hs
    · exact h.runCommand _ _ _ hs

theorem takeTableWord (h : Kept P) (s : State) (v : Word) (hs : P s) : P (s.takeTableWord v) :=
  h.port _ _ (h.tableWriteChecked _ _ _ hs)

theorem takeWordOf (h : Kept P) (s : State) (n : Byte) (v : Word) (hs : P s) : P (s.takeWordOf n v) := by
  unfold State.takeWordOf
  split
  · exact h.takeCommand _ _ _ hs
  · split
    · exact h.takeTableWord _ _ hs
    · exact h.port _ _ (h.writeRegister _ _ _ hs)

theorem takeWordAt (h : Kept P) (s : State) (n : Byte) (v : Word) (hs : P s) : P (s.takeWordAt n v) :=
  h.takeWordOf _ _ _ (h.port _ _ hs)

theorem takeCommandAt (h : Kept P) (s : State) (c o : Byte) (hs : P s) : P (s.takeCommandAt c o) :=
  h.takeCommand _ _ _ (h.port _ _ hs)

theorem takeBytes (h : Kept P) (s : State) (bytes : List Byte) (hs : P s) : P (s.takeBytes bytes) := by
  unfold State.takeBytes
  induction bytes generalizing s with
  | nil => exact hs
  | cons b bytes ih =>
    refine ih _ ?_
    unfold State.takeByte
    split
    · split
      · exact h.takeWordOf _ _ _ (h.port _ _ hs)
      · exact h.port _ _ hs
    · exact hs

theorem readPort (h : Kept P) (s : State) (r : PortRead) (n : Fin 4) (hs : P s) : P (s.readPort r n) := by
  unfold State.readPort
  split
  · exact h.port _ _ (h.links _ _ (h.port _ _ hs))
  · exact h.port _ _ hs

theorem takeWordIn (h : Kept P) (s : State) (t e f : Nat) (v : Word) (hs : P s) : P (s.takeWordIn t e f v) :=
  h.takeTableWord _ _ (h.port _ _ hs)

theorem applyNext (h : Kept P) (s : State) (bytes : Vector Byte 8) (hs : P s) : P (s.applyNext bytes) := by
  unfold State.applyNext
  split
  · unfold State.applyRecordAt
    have hr : P (s.runRecord (BootRecord.ofBytes bytes)).1 := by
      unfold State.runRecord State.recordCommand
      repeat' split
      all_goals first
        | exact h.writeRegister _ _ _ hs
        | exact h.tableWriteChecked _ _ _ hs
        | exact h.runCommand _ _ _ hs
        | exact hs
    simp only
    split
    · exact h.loader _ _ (h.port _ _ hr)
    · exact h.endLoad _ _ _ (h.loader _ _ (h.port _ _ hr))
  · exact hs
  · exact hs

theorem verifyCompletes (h : Kept P) (s : State) (b : List Byte) (hs : P s) : P (s.verifyCompletes b) := by
  unfold State.verifyCompletes State.endVerify State.startApply
  repeat' split
  all_goals first
    | exact h.endLoad _ _ _ hs
    | exact h.loader _ _ hs

theorem applyBroken (h : Kept P) (s : State) (hs : P s) : P s.applyBroken := by
  unfold State.applyBroken
  split
  · exact h.endLoad _ _ _ hs
  · exact hs
  · exact hs

theorem outside (h : Kept P) {f : State → State} (hf : ∀ u, P u → P (f u)) {s t : State} (hs : P s)
    (e : outsideReset f s = .next t) : P t := by
  rcases outsideReset_next e with rfl | rfl
  · exact h.links _ _ hs
  · exact hf _ (h.links _ _ hs)

theorem heard (h : Kept P) {f : State → State} (hf : ∀ u, P u → P (f u)) {s t : State} (hs : P s)
    (e : Machine.heard f s = .next t) : P t := by
  rcases heard_next e with rfl | rfl
  · exact h.links _ _ hs
  · exact hf _ (h.links _ _ hs)

/-- What every action keeps, every command keeps. -/
theorem exec (h : Kept P) {i : Instr} {s t : State} (hs : P s) (e : exec i s = .next t) : P t := by
  cases i with
  | powerOnReset => cases e; exact h.beginReset _ _ hs
  | pinReset => cases e; exact h.beginReset _ _ hs
  | resetEnd pins =>
    have e : (if s.resetting.isSome = true then s.quiet.endReset pins else s.quiet) = t := Host.Outcome.next.inj e
    rw [← e]
    split
    · exact h.endReset _ _ (h.links _ _ hs)
    · exact h.links _ _ hs
  | uRequest r =>
    simp only [Machine.exec, execURequest] at e
    split at e
    · cases e; exact h.arrive _ _ (h.links _ _ hs)
    · cases e
  | laneHeadAccept j k => exact h.outside (fun u hu => h.acceptHead u j k hu) hs e
  | contextPlacement => exact h.outside (fun u hu => h.placeOldest u hu) hs e
  | walkStart => exact h.outside (fun u hu => h.startEarliest u hu) hs e
  | pieceGeneration => exact h.outside (fun u hu => h.generateNext u hu) hs e
  | readAnswer c => exact h.outside (fun u hu => h.answerNumber u c hu) hs e
  | arbiterGrant ready =>
    refine h.outside (f := fun u => if ready then u.arbitrate else u) (fun u hu => ?_) hs e
    split
    · exact h.arbitrate u hu
    · exact hu
  | downstreamResponse r =>
    simp only [Machine.exec, execDownstreamResponse] at e
    split at e
    · exact h.outside (fun u hu => h.takeResponse u r hu) hs e
    · cases e
  | readTimeout p => exact h.outside (fun u hu => h.readExpires u p hu) hs e
  | writeTimeout k => exact h.outside (fun u hu => h.writeExpires u k hu) hs e
  | admission j => exact h.outside (fun u hu => h.admission u j hu) hs e
  | wfs o => exact h.outside (fun u hu => h.strobe u o hu) hs e
  | slotTimerExpiry => exact h.outside (fun u hu => h.slotExpires u hu) hs e
  | compileCompletion => exact h.outside (fun u hu => h.compileCompletes u hu) hs e
  | alarmLevelChange l b => exact h.outside (fun u hu => h.alarmChange u l b hu) hs e
  | indexByte b => exact h.heard (fun u hu => h.port u _ hu) hs e
  | partialWord => exact h.heard (fun u hu => h.port u _ hu) hs e
  | tableDataRead r n => exact h.heard (fun u hu => h.readPort u r n hu) hs e
  | registerWrite b more =>
    simp only [Machine.exec, execRegisterWrite] at e
    split at e
    · exact h.heard (fun u hu => h.takeBytes u (b :: more) hu) hs e
    · cases e
  | tablePointer v => exact h.heard (fun u hu => h.takeWordAt u _ v hu) hs e
  | openSource o => exact h.heard (fun u hu => h.takeCommandAt u _ o hu) hs e
  | closeSource o => exact h.heard (fun u hu => h.takeCommandAt u _ o hu) hs e
  | releaseSource o => exact h.heard (fun u hu => h.takeCommandAt u _ o hu) hs e
  | commit o => exact h.heard (fun u hu => h.takeCommandAt u _ o hu) hs e
  | abort o => exact h.heard (fun u hu => h.takeCommandAt u _ o hu) hs e
  | restage o => exact h.heard (fun u hu => h.takeCommandAt u _ o hu) hs e
  | softReset o => exact h.heard (fun u hu => h.takeCommandAt u _ o hu) hs e
  | reloadBoot o => exact h.heard (fun u hu => h.takeCommandAt u _ o hu) hs e
  | canvasEnable => exact h.heard (fun u hu => h.takeWordAt u _ _ hu) hs e
  | canvasDisable => exact h.heard (fun u hu => h.takeWordAt u _ _ hu) hs e
  | canvasGeometryWrite f v => exact h.heard (fun u hu => h.takeWordAt u _ v hu) hs e
  | slotLength v => exact h.heard (fun u hu => h.takeWordAt u _ v hu) hs e
  | responseDeadline v => exact h.heard (fun u hu => h.takeWordAt u _ v hu) hs e
  | softBits v => exact h.heard (fun u hu => h.takeWordAt u _ v hu) hs e
  | tripClear v => exact h.heard (fun u hu => h.takeWordAt u _ v hu) hs e
  | capFlagClear v => exact h.heard (fun u hu => h.takeWordAt u _ v hu) hs e
  | errorStatus v => exact h.heard (fun u hu => h.takeWordAt u _ v hu) hs e
  | detectEnable v => exact h.heard (fun u hu => h.takeWordAt u _ v hu) hs e
  | severity v => exact h.heard (fun u hu => h.takeWordAt u _ v hu) hs e
  | intCause v => exact h.heard (fun u hu => h.takeWordAt u _ v hu) hs e
  | intEnable v => exact h.heard (fun u hu => h.takeWordAt u _ v hu) hs e
  | portStatus v => exact h.heard (fun u hu => h.takeWordAt u _ v hu) hs e
  | sourceConfig j f v => exact h.heard (fun u hu => h.takeWordIn u _ _ _ v hu) hs e
  | creditCap j v => exact h.heard (fun u hu => h.takeWordIn u _ _ _ v hu) hs e
  | windowStaged w f v => exact h.heard (fun u hu => h.takeWordIn u _ _ _ v hu) hs e
  | stackStaged f v => exact h.heard (fun u hu => h.takeWordIn u _ _ _ v hu) hs e
  | groupConfig g f v => exact h.heard (fun u hu => h.takeWordIn u _ _ _ v hu) hs e
  | groupEnable g => exact h.heard (fun u hu => h.takeWordIn u _ _ _ _ hu) hs e
  | groupDisable g => exact h.heard (fun u hu => h.takeWordIn u _ _ _ _ hu) hs e
  | palette p v => exact h.heard (fun u hu => h.takeWordIn u _ _ _ v hu) hs e
  | verify b => exact h.outside (fun u hu => h.verifyCompletes u b hu) hs e
  | applyRecord r => exact h.outside (fun u hu => h.applyNext u r hu) hs e
  | applyReadNotAcknowledged => exact h.outside (fun u hu => h.applyBroken u hu) hs e

/-- What every action keeps, every step keeps. -/
theorem step (h : Kept P) {s t : State} (hs : P s) (e : step s = .next t) : P t := by
  unfold Machine.step at e
  split at e
  · cases e; exact hs
  · exact h.exec (h.pending _ _ hs) e

end Kept

end Sys2Proof.Machine
end

