-- ==== Sys2Proof/Laws/Uport.lean ====
section
/-! SUPPORT. Regions and classification: the interval tests of the decoder in terms of bytes, membership in the region list, and the
one region that holds a byte; and the write heads that are offered again. -/

namespace Sys2Proof.Machine

open Sys2Proof

theorem Region.has_iff {g : Region} {a : Nat} : g.has a = true ↔ g.base ≤ a ∧ a < g.base + g.length := by
  simp [Region.has]

/-- Every byte of a request lies in the region. -/
theorem Region.holds_iff {g : Region} {a n : Nat} (hn : 0 < n) :
    g.holds a n = true ↔ ∀ x, a ≤ x → x < a + n → g.has x = true := by
  simp only [Region.holds, Region.has, Bool.and_eq_true, decide_eq_true_eq]
  constructor
  · intro h x h1 h2; omega
  · intro h
    have h1 := h a (Nat.le_refl a) (by omega)
    have h2 := h (a + n - 1) (by omega) (by omega)
    omega

/-- Some byte of a request lies in the region. -/
theorem Region.meets_iff {g : Region} {a n : Nat} :
    g.meets a n = true ↔ ∃ x, a ≤ x ∧ x < a + n ∧ g.has x = true := by
  simp only [Region.meets, Region.has, Bool.and_eq_true, decide_eq_true_eq]
  constructor
  · intro h
    by_cases hb : g.base ≤ a
    · exact ⟨a, by omega, by omega, by omega, by omega⟩
    · exact ⟨g.base, by omega, by omega, by omega, by omega⟩
  · rintro ⟨x, h1, h2, h3, h4⟩; omega

theorem Region.apart_iff {g h : Region} : g.apart h ↔ g.overlaps h = false := by
  unfold Region.apart Region.overlaps
  rw [← Bool.not_eq_true, Region.meets_iff]
  constructor
  · rintro ha ⟨x, h1, h2, h3⟩
    exact ha x ⟨h3, Region.has_iff.mpr ⟨h1, h2⟩⟩
  · rintro ha x ⟨h1, h2⟩
    have h2 := Region.has_iff.mp h2
    exact ha ⟨x, h2.1, h2.2, h1⟩

theorem Region.apart_symm {g h : Region} (hg : g.apart h) : h.apart g := fun a ha => hg a ⟨ha.2, ha.1⟩

theorem State.regionsApart_iff {s : State} : s.regionsApart ↔ s.regions.Pairwise fun g h => g.overlaps h = false := by
  unfold State.regionsApart
  have h : Region.apart = fun g h => g.overlaps h = false := by
    funext g h; exact propext Region.apart_iff
  rw [h]

/-- Of regions that are pairwise disjoint, one at most holds a byte. -/
theorem Region.eq_of_has {l : List Region} (hl : l.Pairwise Region.apart) {g h : Region} (hg : g ∈ l) (hh : h ∈ l) {a : Nat}
    (ga : g.has a = true) (ha : h.has a = true) : g = h := by
  by_contra hne
  have hp : ∀ x ∈ l, ∀ y ∈ l, x ≠ y → x.apart y := by
    clear hg hh ga ha hne
    induction hl with
    | nil => simp
    | @cons z zs hz _ ih =>
      intro x hx y hy hxy
      rcases List.mem_cons.mp hx with hxz | hx' <;> rcases List.mem_cons.mp hy with hyz | hy'
      · exact absurd (hxz.trans hyz.symm) hxy
      · exact hxz ▸ hz y hy'
      · exact Region.apart_symm (hyz ▸ hz x hx')
      · exact ih x hx' y hy' hxy
  exact hp g hg h hh hne a ⟨ga, ha⟩

theorem State.mem_regions {s : State} {g : Region} :
    g ∈ s.regions ↔
      (s.layout.canvas.enabled = true ∧ g = s.layout.canvas.region) ∨
        ∃ i : SourceId, s.sources[i].state ≠ .off ∧ g ∈ s.sources[i].cfg.regions i := by
  simp only [State.regions, List.mem_append, List.mem_flatMap, State.canvasRegions, State.sourceRegions, allSources]
  constructor
  · rintro (h | ⟨i, _, h⟩)
    · split at h
      · next e => exact .inl ⟨e, List.mem_singleton.mp h⟩
      · cases h
    · split at h
      · cases h
      · next e => exact .inr ⟨i, e, h⟩
  · rintro (⟨e, rfl⟩ | ⟨i, e, h⟩)
    · exact .inl (by rw [if_pos e]; exact List.mem_singleton.mpr rfl)
    · exact .inr ⟨i, List.mem_finRange i, by rw [if_neg e]; exact h⟩

/-- A well-placed request that lies wholly in one region is classified by that region (R10 to R12). -/
theorem State.classify_in {s : State} {r : URequest} {g : Region} (hs : s.regionsApart) (hb : 1 ≤ r.beats)
    (ha : r.address.toNat % 32 = 0) (he : r.address.toNat + r.beats * 32 ≤ 1099511627776) (hg : g ∈ s.regions)
    (hh : ∀ a, r.address.toNat ≤ a → a < r.address.toNat + r.beats * 32 → g.has a = true) :
    s.classify r = s.classifyIn r g.id := by
  have hn : 0 < r.beats * 32 := by omega
  unfold State.classify
  rw [if_neg (by simp only [Config.addressSpace]; omega)]
  have hf : s.regions.find? (fun g => g.holds r.address.toNat (r.beats * 32)) = some g := by
    cases hc : s.regions.find? (fun g => g.holds r.address.toNat (r.beats * 32)) with
    | none => exact absurd ((Region.holds_iff hn).mpr hh) (by simpa using List.find?_eq_none.mp hc g hg)
    | some k =>
      have hk := (Region.holds_iff hn).mp (by simpa using List.find?_some hc)
      have hm := List.mem_of_find?_eq_some hc
      rw [Region.eq_of_has hs hm hg (hk _ (Nat.le_refl _) (by omega)) (hh _ (Nat.le_refl _) (by omega))]
  rw [hf]

/-- A well-placed request that lies wholly in no region is PLAIN if no region meets it and refused otherwise (R9, R13). -/
theorem State.classify_out {s : State} {r : URequest} (hb : 1 ≤ r.beats)
    (ha : r.address.toNat % 32 = 0) (he : r.address.toNat + r.beats * 32 ≤ 1099511627776)
    (hh : ∀ g ∈ s.regions, ∃ a, r.address.toNat ≤ a ∧ a < r.address.toNat + r.beats * 32 ∧ g.has a = false) :
    s.classify r =
      if s.regions.any fun g => g.meets r.address.toNat (r.beats * 32) then .refused .decode none else .plain := by
  have hn : 0 < r.beats * 32 := by omega
  unfold State.classify
  rw [if_neg (by simp only [Config.addressSpace]; omega)]
  have hf : s.regions.find? (fun g => g.holds r.address.toNat (r.beats * 32)) = none := by
    rw [List.find?_eq_none]
    intro g hg hc
    obtain ⟨a, h1, h2, h3⟩ := hh g hg
    rw [(Region.holds_iff hn).mp hc a h1 h2] at h3
    cases h3
  rw [hf]

/-! ### Heads offered again -/

/-- Classification looks at the canvas record and the sources only (R8 to R13). -/
theorem State.classify_congr {s t : State} (hc : t.layout.canvas = s.layout.canvas) (hs : t.sources = s.sources) (r : URequest) :
    t.classify r = s.classify r := by
  have hr : t.regions = s.regions := by
    have h : t.sourceRegions = s.sourceRegions := by funext i; simp only [State.sourceRegions, hs]
    simp only [State.regions, State.canvasRegions, hc, h]
  simp only [State.classify, State.classifyIn, hr, hc]

theorem State.headOutcome_congr {s t : State} {i : Initiator} (hc : t.layout.canvas = s.layout.canvas)
    (hs : t.sources = s.sources) (hl : t.uport.lanes[i] = s.uport.lanes[i]) : t.headOutcome i = s.headOutcome i := by
  simp only [State.headOutcome, UPort.side, hl, hs, State.classify_congr hc hs]

/-- One write head is offered again (R4). -/
theorem State.reofferHead_eq (s : State) (i : Initiator) :
    s.reofferHead i =
      match s.headOutcome i with
      | none => s
      | some (a, es) =>
        { s with
          uport := { s.uport with lanes := putAt s.uport.lanes i { s.uport.lanes[i] with writes := s.uport.lanes[i].writes.tail } }
          capture := es.foldl (fun c e => c.record s.governor.frameCount e) s.capture
          links := { s.links with responses := s.links.responses ++ [a] } } := by
  unfold State.reofferHead State.headOutcome UPort.side
  simp only
  cases hw : s.uport.lanes[i].writes with
  | nil => rfl
  | cons r rest =>
    simp only
    cases hc : s.classify r with
    | aperture j =>
      simp only [State.destination]
      by_cases hj : s.sources[j].state = .closing
      · simp only [if_pos hj]; rfl
      · simp only [if_neg hj]; rfl
    | refused cls src => rfl
    | canvas => rfl
    | plain => rfl

/-- The heads of some lanes offered again, with what becomes of each. -/
def State.offeredTo (s : State) (f : Initiator → Option (UResponse × List ErrEvent)) (is : List Initiator) : State :=
  { s with
    uport :=
      { s.uport with
        lanes :=
          Vector.ofFn fun i =>
            { s.uport.lanes[i] with
              writes := if i ∈ is ∧ (f i).isSome then s.uport.lanes[i].writes.tail else s.uport.lanes[i].writes } }
    capture := (is.flatMap fun i => ((f i).map (·.2)).getD []).foldl (fun c e => c.record s.governor.frameCount e) s.capture
    links := { s.links with responses := s.links.responses ++ is.filterMap fun i => (f i).map (·.1) } }

theorem State.foldl_reofferHead (f : Initiator → Option (UResponse × List ErrEvent)) (is : List Initiator) (hd : is.Nodup)
    (s : State) (hf : ∀ i ∈ is, s.headOutcome i = f i) : is.foldl State.reofferHead s = s.offeredTo f is := by
  induction is generalizing s with
  | nil =>
    simp [State.offeredTo]
  | cons i is ih =>
    obtain ⟨hi, hd⟩ := List.nodup_cons.mp hd
    have hne : ∀ j ∈ is, j ≠ i := fun j hj e => hi (e ▸ hj)
    have h1 := hf i List.mem_cons_self
    rw [List.foldl_cons, State.reofferHead_eq, h1]
    cases ho : f i with
    | none =>
      rw [ih hd s fun j hj => hf j (List.mem_cons_of_mem _ hj)]
      have hl : ∀ j : Initiator, (j ∈ i :: is ∧ (f j).isSome = true) ↔ (j ∈ is ∧ (f j).isSome = true) := by
        intro j
        constructor
        · rintro ⟨hm, hs⟩
          rcases List.mem_cons.mp hm with rfl | hm
          · rw [ho] at hs; cases hs
          · exact ⟨hm, hs⟩
        · exact fun h => ⟨List.mem_cons_of_mem _ h.1, h.2⟩
      unfold State.offeredTo
      simp only [hl]
      simp [ho]
    | some p =>
      rw [ih hd]
      · have hv : ∀ j : Initiator,
            (if j ∈ i :: is ∧ (f j).isSome then s.uport.lanes[j].writes.tail else s.uport.lanes[j].writes) =
              (if j ∈ is ∧ (f j).isSome then
                ((putAt s.uport.lanes i { s.uport.lanes[i] with writes := s.uport.lanes[i].writes.tail })[j]).writes.tail
               else ((putAt s.uport.lanes i { s.uport.lanes[i] with writes := s.uport.lanes[i].writes.tail })[j]).writes) := by
          intro j
          rw [putAt_get]
          by_cases e : j = i
          · subst e; simp [ho, hi]
          · simp [e]
        have hr : ∀ j : Initiator,
            ((putAt s.uport.lanes i { s.uport.lanes[i] with writes := s.uport.lanes[i].writes.tail })[j]).reads =
              s.uport.lanes[j].reads := by
          intro j
          rw [putAt_get]
          split
          · next e => rw [e]
          · rfl
        unfold State.offeredTo
        simp only [hv, hr]
        simp [ho]
      · intro j hj
        rw [← hf j (List.mem_cons_of_mem _ hj)]
        exact State.headOutcome_congr rfl rfl ((putAt_get _ _ _ _).trans (if_neg (hne j hj)))

/-- Every lane's write head is offered again (R4): `State.headsOffered`. -/
theorem State.reofferHeads_eq (s : State) : s.reofferHeads = s.headsOffered := by
  unfold State.reofferHeads
  rw [State.foldl_reofferHead s.headOutcome allInitiators (List.nodup_finRange 32) s fun _ _ => rfl]
  simp [State.offeredTo, State.headsOffered, allInitiators]

end Sys2Proof.Machine
end

