-- ==== Sys2Proof/Laws/Closed.lean ====
section
/-! SUPPORT. Every action is made of changes of single blocks, each of which keeps that block's laws: a property that these changes keep
is kept by every action. -/

namespace Sys2Proof.Machine

open Sys2Proof

/-! ### What the changes of single blocks keep -/

/-- The U-port's two lists stay within their capacities. -/
structure UPortKeeps (u v : UPort) : Prop where
  intake : u.intake.length ≤ 16 → v.intake.length ≤ 16
  plain : u.plainWrites.length ≤ 16 → v.plainWrites.length ≤ 16

/-- The D-port's read run and write lanes stay within their capacities. -/
structure DPortKeeps (d e : DPort) : Prop where
  run : d.readRun ≤ 8 → e.readRun ≤ 8
  lanes : (∀ i : SourceId, d.writeLanes[i].length ≤ 4) → ∀ i : SourceId, e.writeLanes[i].length ≤ 4

/-- The governor's slot index and slot length stay in range. -/
structure GovernorKeeps (g h : Governor) : Prop where
  index : g.slotIndex ≤ 1023 → h.slotIndex ≤ 1023
  length : 1 ≤ g.slotLength ∧ g.slotLength ≤ 65535 → 1 ≤ h.slotLength ∧ h.slotLength ≤ 65535

/-- `P` is kept by every change of one block, but the translator, the intake list and the override unit's inputs, that keeps the
block's own laws. -/
structure Base (P : State → Prop) : Prop where
  links : ∀ s l, P s → P (s.withLinks l)
  pending : ∀ s q, P s → P (s.withPending q)
  port : ∀ s p, P s → P (s.withPort p)
  loader : ∀ s l, P s → P (s.withLoader l)
  uport : ∀ s u, P s → UPortKeeps s.uport u → u.intake = s.uport.intake → P (s.withUport u)
  dport : ∀ s d, P s → DPortKeeps s.dport d → P (s.withDport d)
  governor : ∀ s g, P s → GovernorKeeps s.governor g → P (s.withGovernor g)
  capture : ∀ s c, P s → (s.capture.pointerLaw → c.pointerLaw) → P (s.withCapture c)
  layout : ∀ s l, P s → (s.regionsApart → (s.withLayout l).regionsApart) → P (s.withLayout l)
  source : ∀ s i x, P s → SourceKeeps s.sources[i] x → (s.regionsApart → (s.putSource i x).regionsApart) →
    InputsKept s.sources[i] x → P (s.putSource i x)

/-- `P` is kept by every change of one block, but the translator and the intake list, that keeps the block's own laws. -/
structure OffReads (P : State → Prop) : Prop extends Base P where
  resetting : ∀ s r, P s → P (s.withResetting r)
  override : ∀ s o, P s → P (s.withOverride o)
  anySource : ∀ s i x, P s → SourceKeeps s.sources[i] x → (s.regionsApart → (s.putSource i x).regionsApart) →
    P (s.putSource i x)

/-- `P` is kept by every change of one block, but the override unit's inputs, that keeps the block's own laws. -/
structure OnReads (P : State → Prop) : Prop extends Base P where
  translator : ∀ s t, P s → P (s.withTranslator t)
  intake : ∀ s u, P s → UPortKeeps s.uport u → P (s.withUport u)

/-- `P` is kept by every change of one block that keeps the block's own laws. -/
structure Closed (P : State → Prop) : Prop extends OffReads P, OnReads P where
  reset : ∀ s k, P s → P (s.beginReset k)

/-! ### Regions -/

theorem State.regionsApart_parts {s : State} :
    s.regionsApart ↔
      (∀ i, (s.sourceRegions i).Pairwise Region.apart) ∧
        (∀ i j, i ≠ j → ∀ g ∈ s.sourceRegions i, ∀ h ∈ s.sourceRegions j, g.apart h) ∧
        ∀ g ∈ s.canvasRegions, ∀ i, ∀ h ∈ s.sourceRegions i, g.apart h := by
  unfold State.regionsApart State.regions
  rw [List.pairwise_append, List.pairwise_flatMap]
  have hc : s.canvasRegions.Pairwise Region.apart := by
    unfold State.canvasRegions
    split <;> simp
  constructor
  · rintro ⟨_, ⟨h1, h2⟩, h3⟩
    refine ⟨fun i => h1 i (List.mem_finRange i), ?_, fun g hg i h hh =>
      h3 g hg h (List.mem_flatMap.mpr ⟨i, List.mem_finRange i, hh⟩)⟩
    intro i j hij g hg h hh
    have hlt : ∀ a b : SourceId, a < b → ∀ x ∈ s.sourceRegions a, ∀ y ∈ s.sourceRegions b, x.apart y := by
      intro a b hab
      have := List.pairwise_iff_getElem.mp h2 a.val b.val (by simp [allSources]) (by simp [allSources]) hab
      simpa [allSources] using this
    rcases lt_or_gt_of_ne hij with hl | hl
    · exact hlt i j hl g hg h hh
    · exact Region.apart_symm (hlt j i hl h hh g hg)
  · rintro ⟨h1, h2, h3⟩
    refine ⟨hc, ⟨fun i _ => h1 i, ?_⟩, ?_⟩
    · exact (List.nodup_finRange 16).imp (fun {a b} hab g hg h hh => h2 a b hab g hg h hh)
    · intro g hg h hh
      obtain ⟨i, _, hi⟩ := List.mem_flatMap.mp hh
      exact h3 g hg i h hi

/-- Regions that only leave the decoder leave the rest disjoint. -/
theorem State.regionsApart_of_fewer {s t : State} (hs : ∀ i, t.sourceRegions i = [] ∨ t.sourceRegions i = s.sourceRegions i)
    (hc : t.canvasRegions = [] ∨ t.canvasRegions = s.canvasRegions) (h : s.regionsApart) : t.regionsApart := by
  rw [State.regionsApart_parts] at h ⊢
  have hm : ∀ i g, g ∈ t.sourceRegions i → g ∈ s.sourceRegions i := by
    intro i g hg
    rcases hs i with e | e <;> rw [e] at hg
    · cases hg
    · exact hg
  refine ⟨fun i => ?_, fun i j hij g hg k hk => h.2.1 i j hij g (hm i g hg) k (hm j k hk), ?_⟩
  · rcases hs i with e | e <;> rw [e]
    · exact List.Pairwise.nil
    · exact h.1 i
  · intro g hg i k hk
    rcases hc with e | e <;> rw [e] at hg
    · cases hg
    · exact h.2.2 g hg i k (hm i k hk)

theorem State.sourceRegions_putSource (s : State) (i j : SourceId) (x : Source) :
    (s.putSource i x).sourceRegions j =
      if j = i then (if x.state = .off then [] else x.cfg.regions i) else s.sourceRegions j := by
  unfold State.sourceRegions
  simp only [State.putSource_sources, putAt_get]
  by_cases h : j = i
  · subst h; simp only [if_true]
  · simp only [if_neg h]

theorem State.regionsApart_putSource {s : State} {i : SourceId} {x : Source} (hx : RegionsKept s.sources[i] x)
    (h : s.regionsApart) : (s.putSource i x).regionsApart := by
  refine State.regionsApart_of_fewer (s := s) (fun j => ?_) (.inr rfl) h
  rw [State.sourceRegions_putSource]
  split
  · next e =>
    subst e
    rcases hx with ho | ⟨hn, hr⟩
    · exact .inl (by rw [if_pos ho])
    · by_cases ho : x.state = .off
      · exact .inl (by rw [if_pos ho])
      · exact .inr (by rw [if_neg ho, hr]; unfold State.sourceRegions; rw [if_neg hn])
  · exact .inr rfl

theorem State.regionsApart_layout {s : State} {l : LayoutCtl} (hl : l.canvas = s.layout.canvas) (h : s.regionsApart) :
    (s.withLayout l).regionsApart := by
  refine State.regionsApart_of_fewer (s := s) (fun _ => .inr rfl) (.inr ?_) h
  unfold State.canvasRegions
  rw [State.withLayout_layout, hl]

theorem State.regionsApart_canvasOff {s : State} {l : LayoutCtl} (hl : l.canvas.enabled = false) (h : s.regionsApart) :
    (s.withLayout l).regionsApart := by
  refine State.regionsApart_of_fewer (s := s) (fun _ => .inr rfl) (.inl ?_) h
  unfold State.canvasRegions
  rw [State.withLayout_layout, hl]
  rfl

/-- An OPEN that passes the overlap check keeps the regions disjoint (R25). -/
theorem State.regionsApart_opened {s : State} {i : SourceId} (ho : s.sources[i].state = .off) (hv : s.firstOverlap i = none)
    (h : s.regionsApart) : (s.putSource i s.sources[i].opened).regionsApart := by
  have hx : ∀ g ∈ s.sources[i].cfg.regions i,
      (∀ k ∈ s.sources[i].cfg.regions i, k.id ≠ g.id → g.apart k) ∧ ∀ k ∈ s.regions, g.apart k := by
    intro g hg
    have hm := List.find?_eq_none.mp hv g hg
    simp only [State.meetsAnother, Bool.or_eq_true, not_or, List.any_eq_true, not_exists, not_and, Bool.and_eq_true,
      bne_iff_ne, ne_eq, Bool.not_eq_true] at hm
    exact ⟨fun k hk hne => Region.apart_iff.mpr (hm.1 k hk hne), fun k hk => Region.apart_iff.mpr (hm.2 k hk)⟩
  rw [State.regionsApart_parts] at h ⊢
  have hown : (s.putSource i s.sources[i].opened).sourceRegions i = s.sources[i].cfg.regions i := by
    rw [State.sourceRegions_putSource, if_pos rfl, if_neg (by simp [Source.opened])]
    rfl
  have hother : ∀ j, j ≠ i → (s.putSource i s.sources[i].opened).sourceRegions j = s.sourceRegions j := fun j hj => by
    rw [State.sourceRegions_putSource, if_neg hj]
  have hreg : ∀ j, ∀ k ∈ s.sourceRegions j, k ∈ s.regions := fun j k hk =>
    List.mem_append_right _ (List.mem_flatMap.mpr ⟨j, List.mem_finRange j, hk⟩)
  refine ⟨fun j => ?_, fun j k hjk g hg u hu => ?_, fun g hg j u hu => ?_⟩
  · by_cases hj : j = i
    · subst hj
      rw [hown]
      have hp : ∀ g ∈ s.sources[j].cfg.regions j, ∀ k ∈ s.sources[j].cfg.regions j, g.id ≠ k.id → g.apart k :=
        fun g hg k hk hne => (hx g hg).1 k hk (Ne.symm hne)
      have hn : ((s.sources[j].cfg.regions j).map Region.id).Nodup := by
        simp [SourceConfig.regions]
      have hw := List.pairwise_map.mp hn
      exact hw.imp_of_mem (fun {a b} ha hb hab => hp a ha b hb hab)
    · rw [hother j hj]; exact h.1 j
  · by_cases hj : j = i
    · subst hj
      rw [hown] at hg
      rw [hother k (Ne.symm hjk)] at hu
      exact (hx g hg).2 u (hreg k u hu)
    · rw [hother j hj] at hg
      by_cases hk : k = i
      · subst hk
        rw [hown] at hu
        exact Region.apart_symm ((hx u hu).2 g (hreg j g hg))
      · rw [hother k hk] at hu
        exact h.2.1 j k hjk g hg u hu
  · have hg' : g ∈ s.canvasRegions := hg
    by_cases hj : j = i
    · subst hj
      rw [hown] at hu
      exact Region.apart_symm ((hx u hu).2 g (List.mem_append_left _ hg'))
    · rw [hother j hj] at hu
      exact h.2.2 g hg' j u hu

/-- A canvas enable that passes the overlap check keeps the regions disjoint (R60). -/
theorem State.regionsApart_canvasOn {s : State} {l : LayoutCtl} (ho : s.canvasOverlaps = false)
    (hr : l.canvas.region = s.layout.canvas.region) (h : s.regionsApart) : (s.withLayout l).regionsApart := by
  rw [State.regionsApart_parts] at h ⊢
  refine ⟨h.1, h.2.1, fun g hg i k hk => ?_⟩
  have hg' : g = s.layout.canvas.region := by
    unfold State.canvasRegions at hg
    split at hg
    · rw [List.mem_singleton.mp hg]; exact hr
    · cases hg
  have hk' : k ∈ allSources.flatMap s.sourceRegions := List.mem_flatMap.mpr ⟨i, List.mem_finRange i, hk⟩
  unfold State.canvasOverlaps at ho
  rw [List.any_eq_false] at ho
  have := ho k hk'
  rw [hg']
  exact Region.apart_symm (Region.apart_iff.mpr (by simpa using this))

/-! ### Error capture -/

theorem Capture.record_pointerLaw {c : Capture} (f : BitVec 16) (e : ErrEvent) (h : c.pointerLaw) : (c.record f e).pointerLaw := by
  have hm : ∀ k : ErrClass, (BitVec.twoPow 12 k.num).getLsbD k.num = true := by intro k; cases k <;> decide
  unfold Capture.record
  split
  · split
    · next hv =>
      intro _
      have := h hv
      simp only [ErrClass.mask, BitVec.getLsbD_or, this, Bool.true_or]
    · intro _
      simp only [ErrClass.mask, BitVec.getLsbD_or, hm, Bool.or_true]
  · exact h

theorem Capture.clearStatus_pointerLaw {c : Capture} (m : BitVec 12) (h : c.pointerLaw) : (c.clearStatus m).pointerLaw := by
  intro hv
  unfold Capture.clearStatus at hv ⊢
  simp only [Bool.and_eq_true, Bool.not_eq_true'] at hv
  have hk : c.pointerClass.num < 12 := by cases c.pointerClass <;> decide
  have hb := h hv.1
  have hm := hv.2
  rw [BitVec.getLsbD_and, BitVec.getLsbD_not, hb, hm]
  simp [hk]

namespace Base

variable {P : State → Prop}

theorem quiet (h : Base P) {s : State} (hs : P s) : P s.quiet := h.links _ _ hs

theorem respond (h : Base P) {s : State} (r : UResponse) (hs : P s) : P (s.respond r) := h.links _ _ hs

theorem request (h : Base P) {s : State} (r : DRequest) (hs : P s) : P (s.request r) := h.links _ _ hs

theorem record (h : Base P) {s : State} (e : ErrEvent) (hs : P s) : P (s.record e) :=
  h.capture _ _ hs (Capture.record_pointerLaw _ _)

theorem sourceKept (h : Base P) {s : State} {i : SourceId} {x : Source} (hs : P s)
    (hx : SourceKeeps s.sources[i] x ∧ RegionsKept s.sources[i] x) (hi : InputsKept s.sources[i] x) : P (s.putSource i x) :=
  h.source _ _ _ hs hx.1 (State.regionsApart_putSource hx.2) hi

theorem layoutKept (h : Base P) {s : State} {l : LayoutCtl} (hs : P s) (hl : l.canvas = s.layout.canvas) :
    P (s.withLayout l) :=
  h.layout _ _ hs (State.regionsApart_layout hl)

theorem setOverrideChange (h : Base P) {s : State} (hs : P s) : P s.setOverrideChange := h.capture _ _ hs id

theorem setCommitEnd (h : Base P) {s : State} (hs : P s) : P s.setCommitEnd := h.capture _ _ hs id

theorem setLoaderEnd (h : Base P) {s : State} (hs : P s) : P s.setLoaderEnd := h.capture _ _ hs id

/-! Lane heads -/

theorem putSide (h : Base P) {s : State} (i : Initiator) (k : Kind) (l : List URequest) (hs : P s) :
    P (s.withUport (s.uport.putSide i k l)) :=
  h.uport _ _ hs ⟨id, id⟩ rfl

theorem recordRefusal (h : Base P) {s : State} (r : URequest) (c : ReqClass) (hs : P s) : P (s.recordRefusal r c) := by
  unfold State.recordRefusal
  split
  · exact h.record _ hs
  · exact hs
  · exact hs
  · exact hs

theorem deposit (h : Base P) {s : State} (i : Initiator) (r : URequest) (c : ReqClass) (d : Destination) (hs : P s)
    (hq : ∀ j, d = .holdQueue j → s.sources[j].holdQueue.length < 4) (hp : d = .plainList → s.uport.plainWrites.length < 16)
    (hi : d ≠ .intake) : P (s.deposit i r c d) := by
  unfold State.deposit
  split
  · next j =>
    refine h.sourceKept hs ⟨⟨Source.ok_of_roles rfl rfl (fun _ => rfl), id, fun _ => ?_, id⟩, .of_same rfl rfl⟩ (.of_same rfl rfl)
    have := hq j rfl
    simp only [List.length_append, List.length_cons, List.length_nil]
    omega
  · refine h.uport _ _ hs ⟨id, fun _ => ?_⟩ rfl
    have := hp rfl
    simp only [List.length_append, List.length_cons, List.length_nil]
    omega
  · exact absurd rfl hi
  · exact hs
  · exact hs

/-- A write head is accepted. -/
theorem takeHead (h : Base P) {s : State} (i : Initiator) (r : URequest) (rest : List URequest) (c : ReqClass)
    (d : Destination) (hs : P s) (hq : ∀ j, d = .holdQueue j → s.sources[j].holdQueue.length < 4)
    (hp : d = .plainList → s.uport.plainWrites.length < 16) (hi : d ≠ .intake) :
    P (s.takeHead i .write r rest c d) :=
  h.respond _ (h.recordRefusal r c (h.deposit i r c d (h.putSide i .write rest hs) hq hp hi))

theorem destination_write (s : State) (c : ReqClass) : s.destination .write c ≠ .intake := by
  unfold State.destination
  simp only
  repeat' split
  all_goals intro e; cases e

theorem offerWrite (h : Base P) {s : State} (i : Initiator) (hs : P s) : P (s.offerHead i .write) := by
  unfold State.offerHead
  split
  · exact hs
  · split
    · next hr =>
      refine h.takeHead i _ _ _ _ hs (fun j e => ?_) (fun e => ?_) (destination_write _ _)
      · rw [e] at hr; simpa [State.hasRoom] using hr
      · rw [e] at hr
        simp only [State.hasRoom, Bool.and_eq_true, decide_eq_true_eq] at hr
        exact hr.1
    · exact hs

theorem reofferHeads (h : Base P) {s : State} (hs : P s) : P s.reofferHeads := by
  have hf : ∀ (is : List Initiator) (u : State), P u → P (is.foldl State.reofferHead u) := by
    intro is
    induction is with
    | nil => intro u hu; exact hu
    | cons i is ih =>
      intro u hu
      refine ih _ ?_
      unfold State.reofferHead
      split
      · exact hu
      · split
        · next hn =>
          refine h.takeHead i _ _ _ _ hu (fun j e => ?_) (fun e => ?_) (destination_write _ _) <;> (rw [e] at hn; cases hn)
        · exact hu
  exact hf _ _ hs

/-! Holds -/

theorem endDrain (h : Base P) {s : State} (i : SourceId) (hs : P s) : P (s.endDrain i) := by
  unfold State.endDrain
  split
  · next hc => exact h.reofferHeads (h.sourceKept hs (Source.drained_keeps _ hc.1) (Source.drained_inputs _ hc.1))
  · exact hs

theorem afterRelease (h : Base P) {s : State} (i : SourceId) (hs : P s) : P (s.afterRelease i) :=
  h.endDrain i (h.sourceKept hs (Source.endFillWait_keeps _) (Source.endFillWait_inputs _))

/-- A change of marks and holds of one buffer. -/
theorem marks (h : Base P) {s : State} (i : SourceId) (l : Letter) (b : Buffer)
    (hb : b.role = (s.sources[i].bufs.get l).role) (hs : P s) :
    P (s.putSource i { s.sources[i] with bufs := s.sources[i].bufs.put l b }) :=
  h.sourceKept hs
    ⟨.of_marks rfl rfl (fun m => Buffers.put_role hb m) rfl rfl rfl rfl id, .of_same rfl rfl⟩ (.of_same rfl rfl)

theorem takeReadHold (h : Base P) {s : State} (i : SourceId) (l : Letter) (hs : P s) : P (s.takeReadHold i l) :=
  h.marks i l _ rfl hs

theorem releaseReadHold (h : Base P) {s : State} (i : SourceId) (l : Letter) (hs : P s) : P (s.releaseReadHold i l) :=
  h.afterRelease i (h.marks i l _ rfl hs)

theorem poisonBuffer (h : Base P) {s : State} (i : SourceId) (l : Letter) (hs : P s) : P (s.poisonBuffer i l) :=
  h.marks i l _ rfl hs

/-! The layout controller -/

theorem failCommit (h : Base P) {s : State} (c : FailCode) (w : Option WindowId) (b : Bool) (hs : P s) :
    P (s.failCommit c w b) := by
  refine h.setCommitEnd (h.record _ (h.layoutKept hs ?_))
  have he : s.layout.emptyInactive.canvas = s.layout.canvas := by
    unfold LayoutCtl.emptyInactive LayoutCtl.putBank
    split <;> rfl
  cases b
  · exact he
  · rfl

theorem enterCompile (h : Base P) {s : State} (hs : P s) : P s.enterCompile := by
  unfold State.enterCompile
  split
  · exact h.failCommit _ _ _ hs
  · exact h.layoutKept hs rfl

theorem endDrainWait (h : Base P) {s : State} (hs : P s) : P s.endDrainWait := by
  unfold State.endDrainWait
  split
  · exact h.enterCompile hs
  · exact hs

/-! The D-port -/

theorem putTracker (h : Base P) {s : State} (k : TrackerId) (x : Tracker) (hs : P s) : P (s.putTracker k x) :=
  h.dport _ _ hs ⟨id, id⟩

theorem dropLaneHead (h : Base P) {s : State} (l : Fin 17) (hs : P s) : P (s.dropLaneHead l) := by
  unfold State.dropLaneHead
  split
  · next hl =>
    refine h.dport _ _ hs ⟨id, fun hd i => ?_⟩
    simp only [putAt_get]
    split
    · have := hd ⟨l.val, hl⟩
      simp only [Fin.getElem_fin] at this
      simp only [List.length_tail]; omega
    · exact hd i
  · refine h.uport _ _ hs ⟨id, fun hp => ?_⟩ rfl
    simp only [List.length_tail]; omega

theorem grantWrite (h : Base P) {s : State} (l : Fin 17) (w : LaneWrite) (k : TrackerId) (hs : P s) :
    P (s.grantWrite l w k) :=
  h.request _ (h.dport _ _ (h.putTracker _ _ (h.dropLaneHead l hs)) ⟨fun _ => Nat.zero_le _, id⟩)

theorem grantChosen (h : Base P) {s : State} (l : Fin 17) (hs : P s) : P (s.grantChosen l) := by
  unfold State.grantChosen
  split
  · exact h.grantWrite _ _ _ hs
  · exact hs

theorem releasePiece (h : Base P) {s : State} (u : PieceUse) (hs : P s) : P (s.releasePiece u) := by
  unfold State.releasePiece
  split
  · exact h.releaseReadHold _ _ hs
  · exact hs
  · exact hs

theorem poisonOrigin (h : Base P) {s : State} (o : Origin) (hs : P s) : P (s.poisonOrigin o) := by
  unfold State.poisonOrigin
  split
  · exact h.poisonBuffer _ _ hs
  · exact hs

/-! The governor and the strobe -/

theorem mapSources (h : Base P) {s : State} (f : Source → Source)
    (hf : ∀ x, SourceKeeps x (f x) ∧ RegionsKept x (f x)) (hi : ∀ x, InputsKept x (f x)) (hs : P s) : P (s.mapSources f) := by
  have hl : ∀ (is : List SourceId) (u : State), P u → P (is.foldl (fun t i => t.putSource i (f t.sources[i])) u) := by
    intro is
    induction is with
    | nil => intro u hu; exact hu
    | cons i is ih => intro u hu; exact ih _ (h.sourceKept hu (hf _) (hi _))
  exact hl _ _ hs

theorem strobeGovernor (h : Base P) {s : State} (hs : P s) : P s.strobeGovernor :=
  h.governor _ _ (h.mapSources _ Source.renew_keeps Source.renew_inputs hs) ⟨fun _ => Nat.zero_le _, by
    have : (s.mapSources Source.renew).governor = s.governor := by
      unfold State.mapSources
      generalize allSources = is
      have hl : ∀ (is : List SourceId) (u : State),
          (is.foldl (fun t i => t.putSource i (t.sources[i]).renew) u).governor = u.governor := by
        intro is
        induction is with
        | nil => intro u; rfl
        | cons i is ih => intro u; exact ih _
      exact hl is s
    rw [this]
    exact id⟩

theorem strobeLayout (h : Base P) {s : State} (hs : P s) : P s.strobeLayout := by
  unfold State.strobeLayout
  split
  · exact h.setCommitEnd (h.layoutKept hs rfl)
  · exact hs

theorem slotExpires (h : Base P) {s : State} (hs : P s) : P s.slotExpires := by
  unfold State.slotExpires
  split
  · exact hs
  · split
    · next hlt =>
      refine h.governor _ _ (h.mapSources _ (fun x => Source.slot_keeps x _) (fun x => Source.slot_inputs x _) hs) ?_
      have hg : ∀ (is : List SourceId) (u : State),
          (is.foldl (fun t i => t.putSource i ((t.sources[i]).slot (s.governor.slotIndex + 1))) u).governor = u.governor := by
        intro is
        induction is with
        | nil => intro u; rfl
        | cons i is ih => intro u; exact ih _
      have hg' : (s.mapSources fun x => x.slot (s.governor.slotIndex + 1)).governor = s.governor := hg _ _
      rw [hg']
      exact ⟨fun _ => by simp only [Config.lastSlot] at hlt ⊢; omega, id⟩
    · exact h.governor _ _ hs ⟨id, id⟩

theorem admission (h : Base P) {s : State} (i : SourceId) (hs : P s) : P (s.admission i) := by
  unfold State.admission
  split
  · next e rest l hq hl =>
    split
    · next ha =>
      simp only [State.admissible, Config.writeLaneCapacity, Bool.and_eq_true, Bool.not_eq_true', decide_eq_true_eq] at ha
      refine h.dport _ _ (h.sourceKept hs (Source.takeWrite_keeps _ e rest l hq (Buffers.withRole_some hl) ha.1.1)
        (Source.takeWrite_inputs _ e rest l)) ⟨id, ?_⟩
      intro hd j
      simp only [putAt_get]
      split
      · next e =>
        have := ha.1.2
        subst e
        simp only [List.length_append, List.length_cons, List.length_nil]; omega
      · exact hd j
    · exact hs
  · exact hs

end Base

namespace OffReads

variable {P : State → Prop}

theorem anyKept (h : OffReads P) {s : State} {i : SourceId} {x : Source} (hs : P s)
    (hx : SourceKeeps s.sources[i] x ∧ RegionsKept s.sources[i] x) : P (s.putSource i x) :=
  h.anySource _ _ _ hs hx.1 (State.regionsApart_putSource hx.2)

/-! Groups -/

theorem evaluated (h : OffReads P) {gs : List GroupId} {s t : State} (hs : P s) (ht : GroupsEvaluated gs s t) : P t := by
  rw [ht.rest]
  exact h.capture _ { s.capture with overrideChange := t.capture.overrideChange }
    (h.override _ { s.override with groups := t.override.groups } hs) id

theorem evaluateGroups (h : OffReads P) {s : State} (hs : P s) : P s.evaluateGroups := h.evaluated hs s.evaluateGroups_spec

theorem evaluateIn (h : OffReads P) {s : State} (m : BitVec 4) (hs : P s) : P (s.evaluateThose (groupsIn m)) :=
  h.evaluated hs (s.evaluateIn_spec m)

theorem evaluateGroup (h : OffReads P) {s : State} (g : GroupId) (hs : P s) : P (s.evaluateGroup g) :=
  h.evaluated hs (State.foldl_evaluateGroup [g] (by simp) s)

theorem putGroup (h : OffReads P) {s : State} (g : GroupId) (x : Group) (hs : P s) : P (s.putGroup g x) := h.override _ _ hs

theorem strobeThose (h : OffReads P) {s : State} (gs : List GroupId) (hs : P s) : P (s.strobeThose gs) := by
  have hf : ∀ (gs : List GroupId) (u : State), P u → P (gs.foldl State.strobeGroup u) := by
    intro gs
    induction gs with
    | nil => intro u hu; exact hu
    | cons g gs ih =>
      intro u hu
      refine ih _ ?_
      unfold State.strobeGroup
      repeat' split
      · exact h.setOverrideChange (h.putGroup _ _ hu)
      · exact h.putGroup _ _ hu
      · exact hu
  exact hf _ _ hs

theorem enableGroup (h : OffReads P) {s : State} (g : GroupId) (hs : P s) : P (s.enableGroup g) := by
  unfold State.enableGroup
  simp only
  repeat' split
  · exact hs
  · exact h.setOverrideChange (h.putGroup _ _ (h.putGroup _ _ hs))
  · exact h.putGroup _ _ hs

theorem disableGroup (h : OffReads P) {s : State} (g : GroupId) (hs : P s) : P (s.disableGroup g) := by
  unfold State.disableGroup
  simp only
  repeat' split
  · exact h.putGroup _ _ hs
  · exact h.setOverrideChange (h.putGroup _ _ hs)
  · exact hs

theorem resolveSealing (h : OffReads P) {s : State} (i : SourceId) (l : Letter)
    (hl : (s.sources[i].bufs.get l).role = .sealing) (hs : P s) : P (s.resolveSealing i l) := by
  unfold State.resolveSealing
  split
  · unfold State.containTest
    split
    · next hc =>
      simp only [State.record_sources, State.putSource_sources, putAt_same_fin] at hc
      have hp : P (s.putSource i (s.sources[i].resolved l .spent true)) :=
        h.anyKept hs (Source.resolved_keeps _ l .spent true hl (.inl rfl) (fun _ => hc.2))
      have hr := h.record (discardEvent .contain i (s.sources[i].cfg.bufferBase l))
        (h.record (discardEvent .poisonDiscard i (s.sources[i].cfg.bufferBase l)) hp)
      refine Eq.mp (congrArg P ?_) hr
      apply State.extensional <;> simp [State.record, Source.resolved]
    · exact h.record _ (h.anyKept hs (Source.resolved_keeps _ l .spent false hl (.inl rfl) (fun e => nomatch e)))
  · split
    · exact h.anyKept hs (Source.resolved_keeps _ l .spent false hl (.inl rfl) (fun e => nomatch e))
    · next hn =>
      exact h.anyKept hs (Source.resolved_keeps _ l .ready false hl (.inr ⟨rfl, rfl, hn⟩) (fun e => nomatch e))

theorem releaseWriteHold (h : OffReads P) {s : State} (i : SourceId) (l : Letter) (hs : P s) : P (s.releaseWriteHold i l) := by
  refine h.evaluateGroups (h.afterRelease i ?_)
  have hd : P (s.dropWriteHold i l) := h.marks i l _ rfl hs
  unfold State.resolveIfSealed
  split
  · next hc => exact h.resolveSealing i l hc.1 hd
  · exact hd

theorem releaseOrigin (h : OffReads P) {s : State} (o : Origin) (hs : P s) : P (s.releaseOrigin o) := by
  unfold State.releaseOrigin
  split
  · exact h.releaseWriteHold _ _ hs
  · exact hs

theorem writeDone (h : OffReads P) {s : State} (k : TrackerId) (u : TrackerUse) (hs : P s) : P (s.writeDone k u) :=
  h.releaseOrigin _ (h.putTracker _ _ hs)

theorem writeFails (h : OffReads P) {s : State} (c : ErrClass) (k : TrackerId) (u : TrackerUse) (hs : P s) :
    P (s.writeFails c k u) :=
  h.releaseOrigin _ (h.putTracker _ _ (h.poisonOrigin _ (h.record _ hs)))

theorem mapNamed (h : OffReads P) {s : State} (v : Word) (f : Source → Source)
    (hf : ∀ x, SourceKeeps x (f x) ∧ RegionsKept x (f x)) (hs : P s) : P (s.mapNamed v f) := by
  have hl : ∀ (is : List SourceId) (u : State), P u →
      P (is.foldl (fun t i => if v.getLsbD i.val then t.putSource i (f t.sources[i]) else t) u) := by
    intro is
    induction is with
    | nil => intro u hu; exact hu
    | cons i is ih =>
      intro u hu
      refine ih _ ?_
      simp only
      split
      · exact h.anyKept hu (hf _)
      · exact hu
  exact hl _ _ hs

theorem strobeSources (h : OffReads P) {s : State} (i : SourceId) (hs : P s) : P (s.strobeSources i) := by
  have hl : ∀ (is : List SourceId) (u : State), P u → P (is.foldl State.strobeSource u) := by
    intro is
    induction is with
    | nil => intro u hu; exact hu
    | cons j is ih =>
      intro u hu
      refine ih _ ?_
      unfold State.strobeSource
      simp only
      split
      · exact hu
      · exact hu
      · split
        · next hf => exact h.anyKept hu (Source.flip_keeps _ _ hf)
        · split
          · exact h.record _ (h.anyKept hu (Source.age_keeps _))
          · exact h.anyKept hu (Source.age_keeps _)
  exact hl _ _ hs

theorem strobe (h : OffReads P) {s : State} (o : StrobeOrder) (hs : P s) : P (s.strobe o) := by
  have first : ∀ {u : State}, P u → P (if o.countFirst then u.strobeGovernor else u) := by
    intro u hu
    cases o.countFirst
    · exact hu
    · exact h.strobeGovernor hu
  have last : ∀ {u : State}, P u → P (if o.countFirst then u else u.strobeGovernor) := by
    intro u hu
    cases o.countFirst
    · exact h.strobeGovernor hu
    · exact hu
  have h1 := h.strobeThose (groupsIn o.groupsFirst) (first hs)
  have h2 := h.evaluateIn (~~~o.groupsLate) (h.strobeSources o.firstSource h1)
  exact h.strobeLayout (h.strobeThose (groupsIn (~~~o.groupsFirst)) (h.evaluateIn o.groupsLate (last h2)))

end OffReads

namespace OnReads

variable {P : State → Prop}

theorem offerRead (h : OnReads P) {s : State} (i : Initiator) (hs : P s) : P (s.offerHead i .read) := by
  unfold State.offerHead
  split
  · exact hs
  · split
    · next hr =>
      simp only [State.destination, State.hasRoom, Bool.and_eq_true, decide_eq_true_eq] at hr
      refine h.recordRefusal _ _ (h.intake _ _ (h.putSide _ _ _ hs) ⟨fun _ => ?_, id⟩)
      have hl : s.uport.intake.length < 16 := hr.1
      simp only [State.withUport_uport, UPort.putSide, List.length_append, List.length_cons, List.length_nil]
      omega
    · exact hs

theorem offerHead (h : OnReads P) {s : State} (i : Initiator) (k : Kind) (hs : P s) : P (s.offerHead i k) := by
  cases k
  · exact h.offerRead i hs
  · exact h.offerWrite i hs

/-! The read path -/

theorem endWalk (h : OnReads P) {s : State} (c : Context) (hs : P s) : P (s.endWalk c) := by
  unfold State.endWalk
  simp only
  split
  · exact h.endDrainWait (h.layoutKept (h.translator _ _ hs) rfl)
  · exact h.translator _ _ hs
  · exact h.translator _ _ hs

theorem enterPiece (h : OnReads P) {s : State} (c : Context) (p : PieceId) (u : PieceUse) (hs : P s) :
    P (s.enterPiece c p u) := by
  have h1 : P ((s.putUse p (some u)).mapContext c.num fun x => { x with pieces := x.pieces ++ [p] }) :=
    h.translator _ _ (h.translator _ _ hs)
  unfold State.enterPiece
  simp only
  split
  · exact h1
  · exact h.dport _ _ h1 ⟨id, id⟩
  · exact h.takeReadHold _ _ (h.dport _ _ h1 ⟨id, id⟩)

theorem generateInto (h : OnReads P) {s : State} (c : Context) (p : PieceId) (hs : P s) : P (s.generateInto c p) := by
  have h1 := h.translator _ { (s.enterPiece c p (s.pieceDue c (s.translator.nextPixel c))).translator with paused := false }
    (h.enterPiece c p (s.pieceDue c (s.translator.nextPixel c)) hs)
  unfold State.generateInto
  simp only
  split
  · exact h.endWalk _ h1
  · exact h1

theorem generate (h : OnReads P) {s : State} (c : Context) (hs : P s) : P (s.generate c) := by
  unfold State.generate
  split
  · exact h.translator _ _ hs
  · exact h.generateInto _ _ hs

theorem startWalk (h : OnReads P) {s : State} (c : Context) (hs : P s) : P (s.startWalk c) := by
  unfold State.startWalk
  split
  · exact h.layoutKept (h.translator _ _ hs) rfl
  · exact h.generate _ (h.translator _ _ hs)
  · exact hs

theorem answerContext (h : OnReads P) {s : State} (c : Context) (hs : P s) : P (s.answerContext c) := by
  have hf : ∀ (ps : List PieceId) (u : State), P u → P (ps.foldl (fun x p => x.putUse p none) u) := by
    intro ps
    induction ps with
    | nil => intro u hu; exact hu
    | cons p ps ih => intro u hu; exact ih _ (h.translator _ _ hu)
  exact h.translator _ _ (hf _ _ (h.respond _ hs))

theorem placeInto (h : OnReads P) {s : State} (n : ContextId) (e : IntakeEntry) (rest : List IntakeEntry)
    (hi : s.uport.intake = e :: rest) (hs : P s) : P (s.placeInto n e rest) := by
  refine h.translator _ _ (h.intake _ _ hs ⟨fun hl => ?_, id⟩)
  rw [hi] at hl
  simp only [List.length_cons] at hl ⊢
  omega

theorem readConsequence (h : OnReads P) (s t : State) (hs : P s) (e : s.readConsequence = some t) : P t := by
  unfold State.readConsequence at e
  split at e
  · obtain rfl := Option.some.inj e
    exact h.answerContext _ hs
  · split at e
    · next hi _ =>
      obtain rfl := Option.some.inj e
      exact h.placeInto _ _ _ hi hs
    · split at e
      · split at e
        · obtain rfl := Option.some.inj e
          exact h.generateInto _ _ hs
        · cases e
      · split at e
        · obtain rfl := Option.some.inj e
          exact h.startWalk _ hs
        · cases e

theorem settleReads (h : OnReads P) {s : State} (hs : P s) : P s.settleReads :=
  State.settleReads_keeps h.readConsequence hs

theorem grantRead (h : OnReads P) {s : State} (p : PieceId) (rest : List PieceId) (run : Nat)
    (hr : s.dport.readRun ≤ 8 → run ≤ 8) (hs : P s) : P (s.grantRead p rest run) := by
  have h1 : P (s.withDport { s.dport with readLane := rest, readRun := run }) := h.dport _ _ hs ⟨hr, id⟩
  unfold State.grantRead
  simp only
  split
  · exact h1
  · exact h.request _ (h.translator _ _ h1)

theorem arbitrate (h : OnReads P) {s : State} (hs : P s) : P s.arbitrate := by
  unfold State.arbitrate
  split
  · exact hs
  · exact h.grantRead _ _ _ (fun _ => Nat.zero_le _) hs
  · exact h.grantChosen _ hs
  · split
    · next hlt => exact h.grantRead _ _ _ (fun _ => by simp only [Config.maxReadRun] at hlt; omega) hs
    · exact h.grantChosen _ hs

theorem pieceData (h : OnReads P) {s : State} (p : PieceId) (u : PieceUse) (d : List Byte) (hs : P s) : P (s.pieceData p u d) :=
  h.settleReads (h.translator _ _ (h.releasePiece _ (h.translator _ _ hs)))

theorem pieceFails (h : OnReads P) {s : State} (c : ErrClass) (p : PieceId) (u : PieceUse) (hs : P s) : P (s.pieceFails c p u) :=
  h.settleReads (h.translator _ _ (h.releasePiece _ (h.translator _ _ (h.translator _ _ (h.record _ hs)))))

end OnReads

namespace Closed

variable {P : State → Prop}

theorem takeResponse (h : Closed P) {s : State} (r : DResponse) (hs : P s) : P (s.takeResponse r) := by
  unfold State.takeResponse
  split
  · split
    · exact h.record _ hs
    · split
      · exact h.pieceData _ _ _ hs
      · exact h.pieceFails _ _ _ hs
  · split
    · exact h.record _ hs
    · exact h.pieceFails _ _ _ hs
  · split
    · exact h.record _ hs
    · exact h.writeDone _ _ hs
  · split
    · exact h.record _ hs
    · exact h.writeFails _ _ _ hs

end Closed

end Sys2Proof.Machine
end

