-- ==== Sys2Proof/Laws/Kept.lean ====
section
/-! SUPPORT. A property that the changes of single blocks keep is kept by every step. -/

namespace Sys2Proof.Machine

open Sys2Proof

theorem State.firstOverlap_of_opened {s : State} {i : SourceId} (h : s.sources[i].cfg.firstInvalid = none) :
    ∀ f, f < 11 → s.sources[i].cfg.fieldValid f = true := by
  intro f hf
  have := List.find?_eq_none.mp h f (List.mem_range.mpr hf)
  simpa using this

theorem LayoutCtl.putBank_canvas (l : LayoutCtl) (x : BankLetter) (b : Bank) : (l.putBank x b).canvas = l.canvas := by
  cases x <;> rfl

namespace Base

variable {P : State → Prop}

theorem compileCompletes (h : Base P) {s : State} (hs : P s) : P s.compileCompletes := by
  unfold State.compileCompletes
  split
  · split
    · exact h.failCommit _ _ _ hs
    · exact h.layoutKept hs (LayoutCtl.putBank_canvas _ _ _)
  · exact hs

theorem openSource (h : Base P) {s : State} (i : SourceId) (hs : P s) : P (s.openSource i).1 := by
  unfold State.openSource
  split
  · next ho =>
    unfold State.openChecked
    split
    · exact hs
    · next hv =>
      split
      · exact hs
      · next hf =>
        split
        · exact hs
        · dsimp only
          exact h.reofferHeads
            (h.source _ _ _ hs (Source.opened_keeps _ (State.firstOverlap_of_opened hv 9 (by decide)))
              (State.regionsApart_opened ho hf) (Source.opened_inputs _ ho))
  · exact hs
  · exact hs
  · exact hs
  · exact hs

theorem commitCommand (h : Base P) {s : State} (hs : P s) : P s.commitCommand.1 := by
  unfold State.commitCommand
  split
  · exact h.endDrainWait (h.layoutKept hs rfl)
  · exact hs

theorem abortCommand (h : Base P) {s : State} (hs : P s) : P s.abortCommand.1 := by
  unfold State.abortCommand
  simp only
  split
  · exact hs
  · refine h.setCommitEnd (h.layoutKept hs ?_)
    simp only
    split
    · rfl
    · exact LayoutCtl.putBank_canvas _ _ _

theorem restageCommand (h : Base P) {s : State} (hs : P s) : P s.restageCommand.1 := by
  unfold State.restageCommand
  split
  · exact h.layoutKept hs rfl
  · exact hs

theorem writeGeometry (h : Base P) {s : State} (f : CanvasField) (v : Nat) (hs : P s) : P (s.writeGeometry f v).1 := by
  unfold State.writeGeometry
  split
  · exact hs
  · next he =>
    split
    · exact hs
    · refine h.layout _ _ hs (State.regionsApart_canvasOff ?_)
      cases f <;> simpa [Canvas.put] using he

theorem writeEnable (h : Base P) {s : State} (v : Nat) (hs : P s) : P (s.writeEnable v).1 := by
  unfold State.writeEnable
  split
  · split
    · exact hs
    · unfold State.enableRequest
      split
      · exact hs
      · split
        · exact hs
        · split
          · exact hs
          · next ho =>
            dsimp only [State.canvasEnabled]
            exact h.reofferHeads (h.layout _ _ hs (State.regionsApart_canvasOn (by simpa using ho) rfl))
  · split
    · split
      · dsimp only [State.disableRequest]
        refine h.reofferHeads ?_
        have h1 : P (s.withLayout { s.layout with canvas := { s.layout.canvas with enabled := false } }) :=
          h.layout _ _ hs (State.regionsApart_canvasOff rfl)
        split
        · exact h1
        · exact h.failCommit _ _ _ h1
      · exact hs
    · exact hs

theorem trips (x : Source) : SourceKeeps x { x with trip := false } ∧ RegionsKept x { x with trip := false } :=
  ⟨.of_marks rfl rfl (fun _ => rfl) rfl rfl rfl rfl id, .of_same rfl rfl⟩

theorem caps (x : Source) : SourceKeeps x { x with capSaturated := false } ∧ RegionsKept x { x with capSaturated := false } :=
  ⟨.of_marks rfl rfl (fun _ => rfl) rfl rfl rfl rfl id, .of_same rfl rfl⟩

theorem clearCapFlags (h : Base P) {s : State} (v : Word) (hs : P s) : P (s.clearCapFlags v) := by
  have hl : ∀ (is : List SourceId) (u : State), P u →
      P (is.foldl (fun t i => if v.getLsbD i.val then t.putSource i { t.sources[i] with capSaturated := false } else t) u) := by
    intro is
    induction is with
    | nil => intro u hu; exact hu
    | cons i is ih =>
      intro u hu
      refine ih _ ?_
      simp only
      split
      · exact h.sourceKept hu (caps _) (.of_same rfl rfl)
      · exact hu
  exact hl _ _ hs

theorem endLoad (h : Base P) {s : State} (o : LoaderOutcome) (r : Option BadReason) (hs : P s) : P (s.endLoad o r) := by
  unfold State.endLoad
  simp only
  split
  · exact h.record _ (h.setLoaderEnd (h.loader _ _ hs))
  · exact h.setLoaderEnd (h.loader _ _ hs)

end Base

namespace OffReads

variable {P : State → Prop}

theorem endReset (h : OffReads P) {s : State} (pins : ResetPins) (hs : P s) : P (s.endReset pins) := by
  have h1 := h.evaluateGroups
    (h.override _ { s.override with sensed := pins.alm }
      (h.port _ { s.port with targetAddress := strapAddress pins.mad, booten := pins.booten } (h.resetting _ none hs)))
  unfold State.endReset
  simp only
  split
  · exact h.loader _ _ h1
  · exact h1

theorem writeExpires (h : OffReads P) {s : State} (k : TrackerId) (hs : P s) : P (s.writeExpires k) := by
  unfold State.writeExpires
  split
  · exact h.writeFails _ _ _ hs
  · exact hs

theorem closeTaken (h : OffReads P) {s : State} (i : SourceId) (hn : s.sources[i].state ≠ .off) (hs : P s) :
    P (s.closeTaken i) :=
  h.evaluateGroups (h.endDrain i (h.reofferHeads (h.anyKept hs (Source.closed_keeps _ hn))))

theorem closeSource (h : OffReads P) {s : State} (i : SourceId) (hs : P s) : P (s.closeSource i).1 := by
  unfold State.closeSource
  split
  · exact hs
  · exact hs
  · next e => exact h.closeTaken i (by rw [e]; simp) hs
  · next e => exact h.closeTaken i (by rw [e]; simp) hs
  · next e => exact h.closeTaken i (by rw [e]; simp) hs

theorem releaseSource (h : OffReads P) {s : State} (i : SourceId) (hs : P s) : P (s.releaseSource i).1 := by
  unfold State.releaseSource
  split
  · next e => exact h.evaluateGroups (h.anyKept hs (Source.released_keeps _ e))
  · exact hs

theorem writeGroup (h : OffReads P) {s : State} (g : GroupId) (f v : Nat) (hs : P s) : P (s.writeGroup g f v).1 := by
  unfold State.writeGroup
  simp only
  split
  · split
    · exact h.disableGroup g hs
    · split
      · exact h.enableGroup g hs
      · exact hs
  · split
    · exact hs
    · simp only
      split
      · exact h.putGroup _ _ hs
      · exact h.evaluateGroup g (h.putGroup _ _ hs)

end OffReads

namespace OnReads

variable {P : State → Prop}

theorem acceptHead (h : OnReads P) {s : State} (i : Initiator) (k : Kind) (hs : P s) : P (s.acceptHead i k) := by
  unfold State.acceptHead
  split
  · exact h.settleReads (h.offerHead i _ hs)
  · exact h.offerHead i _ hs

theorem placeOldest (h : OnReads P) {s : State} (hs : P s) : P s.placeOldest := by
  unfold State.placeOldest
  split
  · next hi _ => exact h.settleReads (h.placeInto _ _ _ hi hs)
  · exact hs

theorem startEarliest (h : OnReads P) {s : State} (hs : P s) : P s.startEarliest := by
  unfold State.startEarliest
  split
  · exact h.settleReads (h.startWalk _ hs)
  · exact hs

theorem generateNext (h : OnReads P) {s : State} (hs : P s) : P s.generateNext := by
  unfold State.generateNext
  split
  · exact h.settleReads (h.generate _ hs)
  · exact hs

theorem answerNumber (h : OnReads P) {s : State} (n : ContextId) (hs : P s) : P (s.answerNumber n) := by
  unfold State.answerNumber
  split
  · exact h.settleReads (h.answerContext _ hs)
  · exact hs

theorem readExpires (h : OnReads P) {s : State} (p : PieceId) (hs : P s) : P (s.readExpires p) := by
  unfold State.readExpires
  split
  · exact h.pieceFails _ _ _ hs
  · exact hs

end OnReads

namespace Closed

variable {P : State → Prop}

/-- A property that the changes of single blocks keep is kept by every action. -/
theorem kept (h : Closed P) : Kept P where
  links := h.links
  pending := h.pending
  port := h.port
  loader := h.loader
  beginReset := h.reset
  endReset _ pins hs := h.endReset pins hs
  arrive _ _ hs := h.putSide _ _ _ hs
  acceptHead _ i k hs := h.acceptHead i k hs
  placeOldest _ hs := h.placeOldest hs
  startEarliest _ hs := h.startEarliest hs
  generateNext _ hs := h.generateNext hs
  answerNumber _ n hs := h.answerNumber n hs
  arbitrate _ hs := h.arbitrate hs
  takeResponse _ r hs := h.takeResponse r hs
  readExpires _ p hs := h.readExpires p hs
  writeExpires _ k hs := h.writeExpires k hs
  admission _ i hs := h.admission i hs
  strobe _ o hs := h.strobe o hs
  slotExpires _ hs := h.slotExpires hs
  compileCompletes _ hs := h.compileCompletes hs
  alarmChange _ _ _ hs := h.evaluateGroups (h.override _ _ hs)
  openSource _ i hs := h.openSource i hs
  closeSource _ i hs := h.closeSource i hs
  releaseSource _ i hs := h.releaseSource i hs
  commitCommand _ hs := h.commitCommand hs
  abortCommand _ hs := h.abortCommand hs
  restageCommand _ hs := h.restageCommand hs
  writeGeometry _ f v hs := h.writeGeometry f v hs
  writeEnable _ v hs := h.writeEnable v hs
  writeSlotLength s v hs := by
    unfold State.writeSlotLength
    split
    · next hv => exact h.governor _ _ hs ⟨id, fun _ => hv⟩
    · exact hs
  writeDeadline s v hs := by
    unfold State.writeDeadline
    split
    · exact h.dport _ _ hs ⟨id, id⟩
    · exact hs
  writeSoftBits _ _ hs := h.evaluateGroups (h.override _ _ hs)
  clearTrips _ v hs := h.evaluateGroups (h.mapNamed v _ Base.trips hs)
  clearCapFlags _ v hs := h.clearCapFlags v hs
  clearStatuses _ _ hs := h.capture _ _ hs (Capture.clearStatus_pointerLaw _)
  writeDetect _ _ hs := h.capture _ _ hs id
  writeSeverity _ _ hs := h.capture _ _ hs id
  clearCauses _ _ hs := h.capture _ _ hs id
  writeIntEnable _ _ hs := h.capture _ _ hs id
  writeSourceConfig _ _ f v hs := h.sourceKept hs (Source.writeConfig_keeps _ f v) (Source.writeConfig_inputs _ f v)
  writeWindow s w f v hs := by
    unfold State.writeWindow
    split
    · split
      · exact hs
      · exact h.layoutKept hs rfl
    · exact hs
  writeStack s f v hs := by
    unfold State.writeStack
    split
    · split
      · exact hs
      · exact h.layoutKept hs rfl
    · exact hs
  writeGroup _ g f v hs := h.writeGroup g f v hs
  writePalette s e v hs := by
    unfold State.writePalette
    split
    · exact h.translator _ _ hs
    · exact hs
  endLoad _ o r hs := h.endLoad o r hs

end Closed

end Sys2Proof.Machine
end

