-- ==== Sys2Proof/Laws/Contexts.lean ====
section
/-! SUPPORT. The context numbers stay different, and what leaves the read path as it is. -/

namespace Sys2Proof.Machine

open Sys2Proof

/-- The contexts that hold reads have different numbers (R95). -/
def State.numsDistinct (s : State) : Prop := (s.translator.contexts.map (·.num)).Nodup

theorem Translator.mapContext_nums (t : Translator) (n : ContextId) (f : Context → Context) (hf : ∀ c, (f c).num = c.num) :
    (t.mapContext n f).contexts.map (·.num) = t.contexts.map (·.num) := by
  unfold Translator.mapContext
  rw [List.map_map]
  apply List.map_congr_left
  intro c _
  simp only [Function.comp_apply]
  split
  · exact hf c
  · rfl

/-- Everything a consequence of the read path looks at, but the pieces themselves, is the same. -/
structure SameReads (s t : State) : Prop where
  contexts : t.translator.contexts = s.translator.contexts
  walker : t.translator.walker = s.translator.walker
  paused : t.translator.paused = s.translator.paused
  free : ∀ p : PieceId, t.translator.pieces[p].use.isNone = s.translator.pieces[p].use.isNone
  intake : t.uport.intake = s.uport.intake

theorem SameReads.refl (s : State) : SameReads s s := ⟨rfl, rfl, rfl, fun _ => rfl, rfl⟩

theorem SameReads.settled {s t : State} (h : SameReads s t) : t.settled ↔ s.settled := by
  have hn : t.translator.nextAnswer = s.translator.nextAnswer := by unfold Translator.nextAnswer; rw [h.contexts]
  have hc : t.translator.freeContext = s.translator.freeContext := by unfold Translator.freeContext; rw [h.contexts]
  have hw : t.translator.walking = s.translator.walking := by
    unfold Translator.walking Translator.context; rw [h.contexts, h.walker]
  have hf : t.translator.firstWaiting = s.translator.firstWaiting := by unfold Translator.firstWaiting; rw [h.contexts]
  have hp : t.translator.freePiece = s.translator.freePiece := by unfold Translator.freePiece; simp only [h.free]
  unfold State.settled State.readConsequence
  rw [hn, hc, hw, hf, hp, h.intake, h.paused]
  cases s.translator.nextAnswer with
  | some c => simp
  | none =>
    simp only
    split
    · simp
    · split
      · split <;> simp
      · split <;> simp

theorem SameReads.readPathLaw {s t : State} (h : SameReads s t) (hs : s.readPathLaw) : t.readPathLaw := by
  have used : ∀ p : PieceId, t.translator.pieces[p].use ≠ none ↔ s.translator.pieces[p].use ≠ none := fun p => by
    simp only [ne_eq, ← Option.isNone_iff_eq_none, h.free p]
  unfold State.readPathLaw
  simp only [h.contexts, h.walker, h.paused, h.intake, used]
  exact hs

/-- What is not the translator or the intake list leaves the read path as it is. -/
theorem SameReads.offReads (s : State) : OffReads (SameReads s) where
  links _ _ h := ⟨h.1, h.2, h.3, h.4, h.5⟩
  pending _ _ h := ⟨h.1, h.2, h.3, h.4, h.5⟩
  resetting _ _ h := ⟨h.1, h.2, h.3, h.4, h.5⟩
  port _ _ h := ⟨h.1, h.2, h.3, h.4, h.5⟩
  loader _ _ h := ⟨h.1, h.2, h.3, h.4, h.5⟩
  override _ _ h := ⟨h.1, h.2, h.3, h.4, h.5⟩
  uport _ _ h _ e := ⟨h.1, h.2, h.3, h.4, e.trans h.5⟩
  dport _ _ h _ := ⟨h.1, h.2, h.3, h.4, h.5⟩
  governor _ _ h _ := ⟨h.1, h.2, h.3, h.4, h.5⟩
  capture _ _ h _ := ⟨h.1, h.2, h.3, h.4, h.5⟩
  layout _ _ h _ := ⟨h.1, h.2, h.3, h.4, h.5⟩
  source _ _ _ h _ _ _ := ⟨h.1, h.2, h.3, h.4, h.5⟩
  anySource _ _ _ h _ _ := ⟨h.1, h.2, h.3, h.4, h.5⟩

theorem State.numsDistinct_of_same {s t : State} (h : SameReads s t) (hs : s.numsDistinct) : t.numsDistinct := by
  unfold State.numsDistinct; rw [h.contexts]; exact hs

theorem State.numsDistinct_map {s : State} (n : ContextId) (f : Context → Context) (hf : ∀ c, (f c).num = c.num)
    (hs : s.numsDistinct) {t : Translator} (ht : t.contexts = (s.translator.mapContext n f).contexts) :
    (s.withTranslator t).numsDistinct := by
  unfold State.numsDistinct
  rw [State.withTranslator_translator, ht, Translator.mapContext_nums _ _ _ hf]
  exact hs

theorem State.numsDistinct_endWalk {s : State} (c : Context) (hs : s.numsDistinct) : (s.endWalk c).numsDistinct := by
  have h1 := State.numsDistinct_map c.num
    (fun x => { x with state := if s.translator.allDone c then .complete else .gathering }) (fun _ => rfl) hs
    (t := { s.translator.mapContext c.num fun x => { x with state := if s.translator.allDone c then .complete else .gathering } with
      walker := none, paused := false }) rfl
  unfold State.endWalk
  simp only
  split
  · exact State.numsDistinct_of_same ((SameReads.offReads _).endDrainWait ((SameReads.offReads _).layoutKept (.refl _) rfl)) h1
  · exact h1
  · exact h1

theorem State.numsDistinct_enterPiece {s : State} (c : Context) (p : PieceId) (u : PieceUse) (hs : s.numsDistinct) :
    (s.enterPiece c p u).numsDistinct := by
  have h0 : (s.putUse p (some u)).numsDistinct := hs
  have h1 : ((s.putUse p (some u)).mapContext c.num fun x => { x with pieces := x.pieces ++ [p] }).numsDistinct :=
    State.numsDistinct_map c.num (fun x => { x with pieces := x.pieces ++ [p] }) (fun _ => rfl) h0 rfl
  unfold State.enterPiece
  simp only
  split
  · exact h1
  · exact h1
  · exact h1

theorem State.numsDistinct_generateInto {s : State} (c : Context) (p : PieceId) (hs : s.numsDistinct) :
    (s.generateInto c p).numsDistinct := by
  have h1 : ((s.enterPiece c p (s.pieceDue c (s.translator.nextPixel c))).withTranslator
      { (s.enterPiece c p (s.pieceDue c (s.translator.nextPixel c))).translator with paused := false }).numsDistinct :=
    State.numsDistinct_enterPiece c p _ hs
  unfold State.generateInto
  simp only
  split
  · exact State.numsDistinct_endWalk _ h1
  · exact h1

theorem State.numsDistinct_generate {s : State} (c : Context) (hs : s.numsDistinct) : (s.generate c).numsDistinct := by
  unfold State.generate
  split
  · exact hs
  · exact State.numsDistinct_generateInto _ _ hs

theorem State.numsDistinct_startWalk {s : State} (c : Context) (hs : s.numsDistinct) : (s.startWalk c).numsDistinct := by
  unfold State.startWalk
  split
  · exact State.numsDistinct_map c.num (fun x => { x with state := .walking, place := some (s.placeOf c) }) (fun _ => rfl) hs rfl
  · exact State.numsDistinct_generate _
      (State.numsDistinct_map c.num (fun x => { x with state := .walking }) (fun _ => rfl) hs rfl)
  · exact hs

theorem State.numsDistinct_answerContext {s : State} (c : Context) (hs : s.numsDistinct) : (s.answerContext c).numsDistinct := by
  unfold State.numsDistinct
  rw [(s.answerContext_frame c).1]
  exact hs.sublist (List.filter_sublist.map _)

theorem Translator.freeContext_some {t : Translator} {n : ContextId} (h : t.freeContext = some n) :
    (∀ c ∈ t.contexts, c.num ≠ n) ∧ ∀ m, m < n → ∃ c ∈ t.contexts, c.num = m := by
  have hf := finRange_find.mp h
  refine ⟨?_, fun m hm => ?_⟩
  · simpa using hf.1
  · simpa using hf.2 m hm

theorem Translator.freeContext_none {t : Translator} : t.freeContext = none ↔ ∀ n, ∃ c ∈ t.contexts, c.num = n := by
  unfold Translator.freeContext
  rw [finRange_find_none]
  simp

theorem State.numsDistinct_placeInto {s : State} {n : ContextId} (e : IntakeEntry) (rest : List IntakeEntry)
    (hn : s.translator.freeContext = some n) (hs : s.numsDistinct) : (s.placeInto n e rest).numsDistinct := by
  unfold State.numsDistinct State.placeInto
  simp only [State.withTranslator_translator, List.map_append, List.map_cons, List.map_nil]
  rw [List.nodup_append]
  refine ⟨hs, by simp, fun a ha b hb => ?_⟩
  obtain ⟨c, hc, rfl⟩ := List.mem_map.mp ha
  rw [List.mem_singleton] at hb
  rw [hb]
  exact (Translator.freeContext_some hn).1 c hc

theorem State.numsDistinct_readConsequence (s t : State) (hs : s.numsDistinct) (h : s.readConsequence = some t) :
    t.numsDistinct := by
  unfold State.readConsequence at h
  split at h
  · obtain rfl := Option.some.inj h
    exact State.numsDistinct_answerContext _ hs
  · split at h
    · next hi hn =>
      obtain rfl := Option.some.inj h
      exact State.numsDistinct_placeInto _ _ hn hs
    · split at h
      · split at h
        · obtain rfl := Option.some.inj h
          exact State.numsDistinct_generateInto _ _ hs
        · cases h
      · split at h
        · obtain rfl := Option.some.inj h
          exact State.numsDistinct_startWalk _ hs
        · cases h

/-- With distinct numbers, the walker's context is the one of its number. -/
theorem Translator.walking_of_mem {t : Translator} {c : Context} (hd : (t.contexts.map (·.num)).Nodup) (hc : c ∈ t.contexts)
    (hw : t.walker = some c.num) : t.walking = some c := by
  unfold Translator.walking Translator.context
  rw [hw]
  obtain ⟨pre, post, e⟩ := List.mem_iff_append.mp hc
  rw [e, List.map_append, List.map_cons] at hd
  have hp : ∀ x ∈ pre, x.num ≠ c.num := fun x hx hn => by
    have := (List.nodup_append.mp hd).2.2 x.num (List.mem_map_of_mem hx) c.num List.mem_cons_self
    exact this hn
  simp only
  rw [e, List.find?_append, List.find?_eq_none.mpr (by simpa using hp)]
  simp

/-- No consequence is left: the facts of `State.readPathLaw`. -/
theorem State.readPathLaw_of_settled {s : State} (hd : s.numsDistinct) (h : s.settled) : s.readPathLaw := by
  rw [State.settled_iff] at h
  unfold State.readConsequence at h
  split at h
  · cases h
  · next ha =>
    have hi : (∃ n : ContextId, ∀ c ∈ s.translator.contexts, c.num ≠ n) → s.uport.intake = [] := by
      rintro ⟨n, hn⟩
      cases hf : s.translator.freeContext with
      | none =>
        obtain ⟨c, hc, e⟩ := Translator.freeContext_none.mp hf n
        exact absurd e (hn c hc)
      | some m =>
        cases he : s.uport.intake with
        | nil => rfl
        | cons e rest => rw [he, hf] at h; cases h
    have hc : ∀ (pre post : List Context) (c : Context), s.translator.contexts = pre ++ c :: post → c.state = .complete →
        ∃ x ∈ pre, x.initiator = c.initiator := by
      intro pre post c e hs
      by_contra hx
      have hm : c ∈ answerable s.translator.contexts [] :=
        (mem_answerable _ _ _).mpr ⟨pre, post, e, hs, by simp, fun x hp hi => hx ⟨x, hp, hi⟩⟩
      unfold Translator.nextAnswer at ha
      rw [List.head?_eq_none_iff.mp ha] at hm
      cases hm
    have hr : (match s.translator.walking with
        | some c =>
          (match s.translator.paused, s.translator.freePiece with
           | true, some p => some (s.generateInto c p)
           | _, _ => none)
        | none =>
          match s.translator.firstWaiting with
          | some c => some (s.startWalk c)
          | none => none) = none := by
      split at h
      · cases h
      · exact h
    refine ⟨hd, hi, hc, fun c hm hw hp p hu => ?_, fun hw c hm hcls hst => ?_⟩
    · rw [Translator.walking_of_mem hd hm hw, hp] at hr
      simp only at hr
      cases hf : s.translator.freePiece with
      | some q => rw [hf] at hr; cases hr
      | none =>
        have := finRange_find_none.mp hf p
        rw [hu] at this
        cases this
    · have hn : s.translator.walking = none := by unfold Translator.walking; rw [hw]
      rw [hn] at hr
      simp only at hr
      cases hf : s.translator.firstWaiting with
      | some q => rw [hf] at hr; cases hr
      | none =>
        have := List.find?_eq_none.mp hf c hm
        simp [hst, hcls] at this

/-- An event that ends with its consequences leaves nothing due. -/
theorem State.readPathLaw_settleReads {s : State} (hs : s.numsDistinct) : s.settleReads.readPathLaw :=
  State.readPathLaw_of_settled (State.settleReads_keeps State.numsDistinct_readConsequence hs) s.settleReads_settled

theorem State.numsDistinct_gatherContext {s : State} (n : ContextId) (hs : s.numsDistinct) : (s.gatherContext n).numsDistinct :=
  State.numsDistinct_map n (fun c => if c.state = .gathering ∧ s.translator.allDone c then { c with state := .complete } else c)
    (fun c => by split <;> rfl) hs rfl

/-- The end of a sub-read, with its data or its failure, leaves nothing due. -/
theorem State.readPathLaw_pieceData {s : State} (p : PieceId) (u : PieceUse) (d : List Byte) (hs : s.numsDistinct) :
    (s.pieceData p u d).readPathLaw := by
  have h0 : (s.putUse p (some { u with state := .done, data := some d })).numsDistinct := hs
  exact State.readPathLaw_settleReads
    (State.numsDistinct_gatherContext _
      (State.numsDistinct_of_same ((SameReads.offReads _).releasePiece u (.refl _)) h0))

theorem State.readPathLaw_pieceFails {s : State} (c : ErrClass) (p : PieceId) (u : PieceUse) (hs : s.numsDistinct) :
    (s.pieceFails c p u).readPathLaw := by
  have h0 : ((s.record (s.readEvent c u)).putUse p
      (some { u with state := .done, errorFill := some (s.record (s.readEvent c u)).translator.palette[(8 : Fin 9)] })).numsDistinct :=
    hs
  exact State.readPathLaw_settleReads
    (State.numsDistinct_gatherContext _
      (State.numsDistinct_of_same ((SameReads.offReads _).releasePiece u (.refl _))
        (State.numsDistinct_map u.context (fun x => { x with partialFlag := true }) (fun _ => rfl) h0 rfl)))

/-- A grant changes the use of no piece that is free and frees none. -/
theorem SameReads.arbitrate (s : State) : SameReads s s.arbitrate := by
  have hg : ∀ p rest run, SameReads s (s.grantRead p rest run) := by
    intro p rest run
    unfold State.grantRead
    simp only
    split
    · exact ⟨rfl, rfl, rfl, fun _ => rfl, rfl⟩
    · next u hu =>
      refine ⟨rfl, rfl, rfl, fun q => ?_, rfl⟩
      simp only [State.request, State.withLinks_translator, State.withTranslator_translator, State.withDport_translator,
        putAt_get]
      split
      · next e => rw [e, hu]; rfl
      · rfl
  unfold State.arbitrate
  split
  · exact .refl s
  · exact hg _ _ _
  · exact (SameReads.offReads s).grantChosen _ (.refl s)
  · split
    · exact hg _ _ _
    · exact (SameReads.offReads s).grantChosen _ (.refl s)

end Sys2Proof.Machine
end

