-- ==== Sys2Proof/Laws/Holds.lean ====
section
/-! SUPPORT. What the release of a hold does, once: the test of fill wait, the release of a read hold and of a write hold of a source that
is not CLOSING, and the groups that act after it; and the pending writes that OPEN looks for. -/

namespace Sys2Proof.Machine

open Sys2Proof

/-! ### Fill wait -/

theorem Letter.forall_iff {q : Letter → Prop} : (∀ m, q m) ↔ q .a ∧ q .b ∧ q .c :=
  ⟨fun h => ⟨h _, h _, h _⟩, fun h m => by cases m; exacts [h.1, h.2.1, h.2.2]⟩

/-- The lowest letter with a property. -/
theorem letters_find (p : Letter → Bool) (l : Letter) :
    letters.find? p = some l ↔ p l = true ∧ ∀ m, letters.idxOf m < letters.idxOf l → p m = false := by
  rw [Letter.forall_iff]
  have ia : letters.idxOf .a = 0 := rfl
  have ib : letters.idxOf .b = 1 := rfl
  have ic : letters.idxOf .c = 2 := rfl
  have il : letters.find? p = [Letter.a, .b, .c].find? p := rfl
  rw [il]
  cases l <;> simp only [ia, ib, ic, List.find?_cons, List.find?_nil] <;>
    cases p .a <;> cases p .b <;> cases p .c <;> simp

theorem Source.unheldSpent_iff (x : Source) (l : Letter) :
    x.unheldSpent l ↔ ((x.bufs.get l).role == .spent && (x.bufs.get l).free) = true := by
  simp [Source.unheldSpent, Buffer.free]

/-- The search for a buffer that ends fill wait, in the words of R38. -/
theorem Source.freeSpent_iff (x : Source) (l : Letter) : x.bufs.freeSpent = some l ↔
    x.unheldSpent l ∧ ∀ m, letters.idxOf m < letters.idxOf l → ¬x.unheldSpent m := by
  simp only [Source.unheldSpent_iff, Bool.not_eq_true]
  exact letters_find _ l

theorem Source.freeSpent_none (x : Source) : x.bufs.freeSpent = none ↔ ∀ l, ¬x.unheldSpent l := by
  simp only [Source.unheldSpent_iff, Letter.forall_iff, Buffers.freeSpent, letters, List.find?_eq_none]
  simp

theorem Buffers.makeFill_of_unheld {x : Source} {l : Letter} (h : x.unheldSpent l) :
    x.bufs.makeFill l = x.bufs.put l ⟨.fill, false, 0, 0⟩ := by
  simp only [Buffers.makeFill, h.2.1, h.2.2]

/-- `Source.fillWaitTested` says what the test of R38 does. -/
theorem Source.fillWaitTested_iff {x y : Source} : x.fillWaitTested y ↔ y = x.endFillWait := by
  unfold Source.endFillWait
  cases hw : x.fillWait with
  | false =>
    rw [if_neg (by simp)]
    exact ⟨fun h => h.2 (.inl hw), fun h => ⟨fun l hl => by simp [hw] at hl, fun _ => h⟩⟩
  | true =>
    rw [if_pos rfl]
    cases hf : x.bufs.freeSpent with
    | none =>
      have hn := x.freeSpent_none.mp hf
      exact ⟨fun h => h.2 (.inr hn), fun h => ⟨fun l _ hl => absurd hl (hn l), fun _ => h⟩⟩
    | some l =>
      obtain ⟨hl, hm⟩ := (x.freeSpent_iff l).mp hf
      simp only [Buffers.makeFill_of_unheld hl]
      refine ⟨fun h => h.1 l hw hl hm, fun h => ⟨fun k _ hk hkm => ?_, fun h' => ?_⟩⟩
      · rw [h, Option.some.inj (hf.symm.trans ((x.freeSpent_iff k).mpr ⟨hk, hkm⟩))]
      · rcases h' with h' | h'
        · rw [hw] at h'; cases h'
        · exact absurd hl (h' l)

/-! ### Releases -/

theorem State.record_putSource (s : State) (e : ErrEvent) (i : SourceId) (x : Source) :
    (s.putSource i x).record e = (s.record e).putSource i x := rfl

theorem State.putSource_putSource (s : State) (i : SourceId) (x y : Source) :
    (s.putSource i x).putSource i y = s.putSource i y := by
  apply State.extensional <;> simp [putAt]

theorem State.putSource_get (s : State) (i : SourceId) (x : Source) : (s.putSource i x).sources[i] = x := by
  simp

/-- After a release at a source that is not CLOSING only fill wait is tested. -/
theorem State.afterRelease_eq {s : State} {i : SourceId} {y : Source} (hc : s.sources[i].state ≠ .closing)
    (h : s.sources[i].fillWaitTested y) : s.afterRelease i = s.putSource i y := by
  have hy : y.state ≠ .closing := by
    rw [Source.fillWaitTested_iff.mp h]
    unfold Source.endFillWait
    repeat' split
    all_goals exact hc
  unfold State.afterRelease State.endDrain
  rw [← Source.fillWaitTested_iff.mp h, State.putSource_get, if_neg (fun k => hy k.1)]

/-- The release of a read hold (R38, R39). -/
theorem State.releaseReadHold_eq {s : State} {i : SourceId} {l : Letter} {y : Source} (hc : s.sources[i].state ≠ .closing)
    (h : s.sources[i].readHoldReleased l y) : s.releaseReadHold i l = s.putSource i y := by
  unfold State.releaseReadHold
  rw [State.afterRelease_eq (y := y) (by rw [State.putSource_get]; exact hc) (by rw [State.putSource_get]; exact h),
    State.putSource_putSource]

/-- The release of a write hold (R37, R38, R40, R49, R50): the events sent, the source it leaves, and then the groups. -/
theorem State.releaseWriteHold_eq {s : State} {i : SourceId} {l : Letter} {y : Source} {es : List ErrEvent}
    (hc : s.sources[i].state ≠ .closing) (h : s.sources[i].writeHoldReleased i l y es) :
    s.releaseWriteHold i l = ((es.foldl (fun t e => t.record e) s).putSource i y).evaluateGroups := by
  have hb := h _ rfl
  have finish : ∀ (t : State) (x : Source), x.state ≠ .closing → x.fillWaitTested y →
      (t.putSource i x).afterRelease i = t.putSource i y := fun t x hx hy => by
    rw [State.afterRelease_eq (y := y) (by rw [State.putSource_get]; exact hx) (by rw [State.putSource_get]; exact hy),
      State.putSource_putSource]
  have plain : ((s.sources[i].bufs.get l).role ≠ .sealing ∨ 2 ≤ (s.sources[i].bufs.get l).writeHold) →
      s.releaseWriteHold i l = ((es.foldl (fun t e => t.record e) s).putSource i y).evaluateGroups := fun hp => by
    obtain ⟨hy, rfl⟩ := hb.1 hp
    have hd : (s.dropWriteHold i l).resolveIfSealed i l = s.dropWriteHold i l := by
      unfold State.resolveIfSealed State.dropWriteHold
      rw [State.putSource_get, Buffers.get_put, if_pos rfl]
      exact if_neg (by simp only [not_and]; intro hr; rcases hp with hp | hp; exact absurd hr hp; omega)
    unfold State.releaseWriteHold
    rw [hd]
    exact congrArg State.evaluateGroups (finish s _ hc hy)
  by_cases hp : (s.sources[i].bufs.get l).role ≠ .sealing ∨ 2 ≤ (s.sources[i].bufs.get l).writeHold
  · exact plain hp
  obtain ⟨hr, hn⟩ := not_or.mp hp
  have hr := not_not.mp hr
  have hn : (s.sources[i].bufs.get l).writeHold ≤ 1 := by omega
  have hz : (s.sources[i].bufs.get l).writeHold - 1 = 0 := by omega
  have hd : (s.dropWriteHold i l).resolveIfSealed i l = (s.dropWriteHold i l).resolveSealing i l := by
    unfold State.resolveIfSealed State.dropWriteHold
    rw [State.putSource_get, Buffers.get_put, if_pos rfl]
    exact if_pos ⟨hr, hz⟩
  have role : ∀ (r : Role),
      (s.sources[i].bufs.put l { s.sources[i].bufs.get l with writeHold := 0 }).setRole l r =
        s.sources[i].bufs.put l { s.sources[i].bufs.get l with writeHold := 0, role := r } := fun r => by
    unfold Buffers.setRole
    rw [Buffers.get_put, if_pos rfl]
    cases l <;> rfl
  unfold State.releaseWriteHold
  rw [hd]
  unfold State.resolveSealing State.dropWriteHold
  simp only [State.putSource_get, Buffers.get_put, hz, role, State.putSource_putSource, if_true]
  by_cases hpo : (s.sources[i].bufs.get l).poison = true
  · rw [if_pos hpo]
    by_cases hk : s.sources[i].cfg.containment = 1 ∧ (s.sources[i].state = .await ∨ s.sources[i].state = .live)
    · obtain ⟨hy, rfl⟩ := hb.2.2.2.2 hr hn hpo hk.1 hk.2
      unfold State.containTest
      rw [if_pos (by rw [State.record_sources, State.putSource_get]; exact hk)]
      simp only [State.putSource_get, State.record_putSource, State.putSource_putSource]
      exact congrArg State.evaluateGroups (finish ((s.record _).record _) _ (by simp) hy)
    · obtain ⟨hy, rfl⟩ := hb.2.2.2.1 hr hn hpo (by
        by_cases e : s.sources[i].cfg.containment = 1
        · exact .inr (by simpa using fun h => hk ⟨e, h⟩)
        · exact .inl e)
      unfold State.containTest
      rw [if_neg (by rw [State.record_sources, State.putSource_get]; exact hk)]
      exact congrArg State.evaluateGroups (finish (s.record _) _ hc hy)
  · rw [if_neg hpo]
    have hpo := Bool.eq_false_iff.mpr hpo
    by_cases hk : s.sources[i].state = .contained
    · obtain ⟨hy, rfl⟩ := hb.2.2.1 hr hn hpo hk
      rw [if_pos hk]
      exact congrArg State.evaluateGroups (finish s _ hc hy)
    · obtain ⟨hy, rfl⟩ := hb.2.1 hr hn hpo hk
      rw [if_neg hk]
      exact congrArg State.evaluateGroups (finish s _ hc hy)

/-- After an event every group has acted, as `State.groupsActed` says (R152, R159). -/
theorem State.evaluateGroups_acted (s : State) : s.groupsActed s.evaluateGroups := by
  have h := s.evaluateGroups_spec
  have hr : ∀ g, s.evaluateGroups.rawCondition g = s.rawCondition g := fun g => State.rawCondition_congr (h.sameInputs g)
  have ht : ∀ g, s.evaluateGroups.triggerNow g = s.triggerNow g := fun g =>
    State.triggerNow_congr (h.sameInputs g) (by rw [h.rest])
  refine ⟨fun g => ?_, ?_⟩
  · rw [hr, ht]; exact h.evaluated g (List.mem_finRange g)
  · simp only [hr]
    rw [h.changed]
    simp [allGroups]

/-! ### Pending writes -/

/-- The byte belongs to a pending CANVAS or PLAIN write exactly when an entry of `pendingPlain` covers it (R26). -/
theorem State.plainWriteTo_iff (s : State) (a : Nat) :
    s.plainWriteTo a ↔ ∃ w ∈ s.pendingPlain, w.1 ≤ a ∧ a < w.1 + w.2 * 32 := by
  unfold State.plainWriteTo State.pendingPlain
  simp only [List.mem_append, or_and_right, exists_or]
  refine or_congr (by simp) ?_
  constructor
  · rintro ⟨k, u, n, hu, ho, h⟩
    refine ⟨(u.address, u.beats), List.mem_filterMap.mpr ⟨s.dport.trackers[k], by simp, ?_⟩, h⟩
    simp only [hu, ho]
  · rintro ⟨w, hw, h⟩
    obtain ⟨t, ht, e⟩ := List.mem_filterMap.mp hw
    obtain ⟨k, hk, rfl⟩ := Vector.mem_iff_getElem.mp (Vector.mem_toList_iff.mp ht)
    split at e
    · rename_i u hu
      split at e
      · rename_i n ho
        cases e
        exact ⟨⟨k, hk⟩, u, n, hu, ho, h⟩
      · cases e
    · cases e

/-- R26: such a write has a byte inside one of the three buffer regions. -/
theorem State.writePendingIn_iff (s : State) (i : SourceId) : s.writePendingIn i = true ↔
    ∃ a, s.plainWriteTo a ∧ ∃ g ∈ s.sources[i].cfg.regions i, g.id ≠ .aperture i ∧ g.has a = true := by
  have hd : ∀ g, g ∈ (s.sources[i].cfg.regions i).drop 1 ↔ g ∈ s.sources[i].cfg.regions i ∧ g.id ≠ .aperture i := fun g => by
    simp only [SourceConfig.regions, List.drop_succ_cons, List.drop_zero, List.mem_cons, List.not_mem_nil, or_false]
    constructor
    · rintro (rfl | rfl | rfl) <;> simp
    · rintro ⟨rfl | rfl | rfl | rfl, h⟩ <;> simp_all
  simp only [State.writePendingIn, List.any_eq_true, State.plainWriteTo_iff, Region.meets_iff, hd]
  constructor
  · rintro ⟨w, hw, g, ⟨hg, hi⟩, a, h1, h2, h3⟩
    exact ⟨a, ⟨w, hw, h1, h2⟩, g, hg, hi, h3⟩
  · rintro ⟨a, ⟨w, hw, h1, h2⟩, g, hg, hi, h3⟩
    exact ⟨w, hw, g, ⟨hg, hi⟩, a, h1, h2, h3⟩
end Sys2Proof.Machine
end

