-- ==== Sys2Proof/Laws/Overrides.lean ====
section
/-! SUPPORT. The group laws: what leaves the groups and their inputs as they are, and what an evaluation and a strobe make of them. -/

namespace Sys2Proof.Machine

open Sys2Proof

/-- A group's state agrees with its stored raw condition and its enabled field. -/
def Group.sound (x : Group) : Prop :=
  (x.state = .asserted → x.raw = true) ∧ (x.state = .holding → x.raw = false) ∧ (x.cfg.enabled = false → x.state = .idle)

/-- The groups, and everything they may watch, are the same. -/
structure SameGroups (s t : State) : Prop where
  groups : t.override.groups = s.override.groups
  inputs : ∀ g, SameInputs s t g

theorem SameGroups.refl (s : State) : SameGroups s s :=
  ⟨rfl, fun _ => ⟨rfl, rfl, rfl, fun _ => rfl, fun _ => Iff.rfl⟩⟩

theorem SameGroups.groupLaws {s t : State} (h : SameGroups s t) (hs : s.groupLaws) : t.groupLaws := by
  intro g
  rw [State.rawCondition_congr (h.inputs g), h.groups]
  exact hs g

theorem SameGroups.of_eq {s t : State} {u : State} (h : SameGroups s t) (ho : u.override = t.override)
    (hs : u.sources = t.sources) : SameGroups s u :=
  ⟨by rw [ho]; exact h.groups, fun g => by
    have k := h.inputs g
    exact ⟨by rw [ho]; exact k.sensed, by rw [ho]; exact k.softBits, by rw [ho]; exact k.cfg, by rw [hs]; exact k.trip,
      by rw [hs]; exact k.contained⟩⟩

theorem SameGroups.onReads (s : State) : OnReads (SameGroups s) where
  links _ _ h := h.of_eq rfl rfl
  pending _ _ h := h.of_eq rfl rfl
  port _ _ h := h.of_eq rfl rfl
  loader _ _ h := h.of_eq rfl rfl
  uport _ _ h _ _ := h.of_eq rfl rfl
  dport _ _ h _ := h.of_eq rfl rfl
  governor _ _ h _ := h.of_eq rfl rfl
  capture _ _ h _ := h.of_eq rfl rfl
  layout _ _ h _ := h.of_eq rfl rfl
  translator _ _ h := h.of_eq rfl rfl
  intake _ _ h _ := h.of_eq rfl rfl
  source u i x h _ _ hi := by
    refine ⟨h.groups, fun g => ?_⟩
    have k := h.inputs g
    refine ⟨k.sensed, k.softBits, k.cfg, fun j => ?_, fun j => ?_⟩
    · rw [State.putSource_sources, putAt_get]
      split
      · next e => subst e; exact hi.1.trans (k.trip j)
      · exact k.trip j
    · rw [State.putSource_sources, putAt_get]
      split
      · next e => subst e; exact hi.2.trans (k.contained j)
      · exact k.contained j

/-- Every group is sound. -/
def State.groupsSound (s : State) : Prop := ∀ g : GroupId, s.override.groups[g].sound

theorem State.groupsSound_of_laws {s : State} (h : s.groupLaws) : s.groupsSound := fun g => (h g).2

theorem Group.evaluated_raw (x : Group) (r : Bool) (t : Option Trigger) : (x.evaluated r t).raw = r := by
  cases r <;> cases h : x.raw <;> cases hs : x.state <;> simp [Group.evaluated, h, hs] <;> split <;> simp

theorem Group.evaluated_sound {x : Group} (r : Bool) (t : Option Trigger) (h : x.sound) : (x.evaluated r t).sound := by
  unfold Group.sound at h ⊢
  cases r <;> cases hr : x.raw <;> cases hs : x.state <;> simp_all [Group.evaluated] <;> split <;> simp_all

/-- An evaluation of every group of `gs` leaves those at their raw conditions and all sound. -/
theorem GroupsEvaluated.laws {gs : List GroupId} {s t : State} (h : GroupsEvaluated gs s t) (hs : s.groupsSound)
    (hk : ∀ g, g ∉ gs → s.override.groups[g].raw = s.rawCondition g) : t.groupLaws := by
  intro g
  rw [State.rawCondition_congr (h.sameInputs g)]
  by_cases hg : g ∈ gs
  · rw [h.evaluated g hg]
    exact ⟨Group.evaluated_raw _ _ _, Group.evaluated_sound _ _ (hs g)⟩
  · rw [h.kept g hg]
    exact ⟨hk g hg, hs g⟩

theorem State.groupLaws_evaluateGroups {s : State} (hs : s.groupsSound) : s.evaluateGroups.groupLaws :=
  s.evaluateGroups_spec.laws hs (fun g hg => absurd (List.mem_finRange g) hg)

/-- A strobe at some groups leaves each group at its raw condition and sound. -/
theorem State.groupLaws_strobeThose {s : State} (gs : List GroupId) (hs : s.groupLaws) : (s.strobeThose gs).groupLaws := by
  have hf : ∀ (gs : List GroupId) (u : State), u.groupLaws → (gs.foldl State.strobeGroup u).groupLaws := by
    intro gs
    induction gs with
    | nil => intro u hu; exact hu
    | cons g gs ih =>
      intro u hu
      refine ih _ ?_
      have hput : ∀ x : Group, x.cfg = u.override.groups[g].cfg → x.raw = u.override.groups[g].raw → x.sound →
          (u.putGroup g x).groupLaws := by
        intro x hc hr hx k
        have hk : SameInputs u (u.putGroup g x) k := by
          refine ⟨rfl, rfl, ?_, fun _ => rfl, fun _ => Iff.rfl⟩
          simp only [State.putGroup_override, putAt_get]
          split
          · next e => rw [hc, e]
          · rfl
        rw [State.rawCondition_congr hk]
        simp only [State.putGroup_override, putAt_get]
        split
        · next e => subst e; exact ⟨hr.trans (hu k).1, hx⟩
        · exact hu k
      have hg := hu g
      unfold State.strobeGroup
      split
      · next hh =>
        split
        · exact hput _ rfl rfl ⟨by simp, by simp, by simp⟩
        · exact hput _ rfl rfl hg.2
      · exact hu
  exact hf _ _ hs

/-- What a strobe at some groups leaves of the other blocks. -/
theorem State.strobeThose_rest (s : State) (gs : List GroupId) :
    s.strobeThose gs =
      { s with
        override := { s.override with groups := (s.strobeThose gs).override.groups }
        capture := { s.capture with overrideChange := (s.strobeThose gs).capture.overrideChange } } := by
  unfold State.strobeThose
  induction gs generalizing s with
  | nil => rfl
  | cons g gs ih =>
    rw [List.foldl_cons, ih]
    unfold State.strobeGroup
    repeat' split
    all_goals rfl

end Sys2Proof.Machine
end

