-- ==== Sys2Proof/Laws/Port.lean ====
section
/-! SUPPORT. The management port, once: the words that bytes make, what begins and ends a transaction, and what the data bytes of a write
transaction do. -/

namespace Sys2Proof.Machine

open Sys2Proof

/-! ### Words and bytes -/

/-- A word's first byte is its least significant one (R171). -/
theorem wordOf_toNat (b0 b1 b2 b3 : Byte) :
    (wordOf b0 b1 b2 b3).toNat = b0.toNat + 256 * b1.toNat + 65536 * b2.toNat + 16777216 * b3.toNat := by
  have := b0.isLt; have := b1.isLt; have := b2.isLt
  simp only [wordOf, BitVec.toNat_append]
  rw [← Nat.shiftLeft_add_eq_or_of_lt b2.isLt, ← Nat.shiftLeft_add_eq_or_of_lt b1.isLt, ← Nat.shiftLeft_add_eq_or_of_lt b0.isLt]
  simp only [Nat.shiftLeft_eq]
  omega

/-- A word is the one its number spells. -/
theorem wordOf_eq {b0 b1 b2 b3 : Byte} {v : Word}
    (h : v.toNat = b0.toNat + 256 * b1.toNat + 65536 * b2.toNat + 16777216 * b3.toNat) : wordOf b0 b1 b2 b3 = v :=
  BitVec.eq_of_toNat_eq (by rw [wordOf_toNat, h])

@[simp] theorem wordOf_low (b0 b1 b2 b3 : Byte) : (wordOf b0 b1 b2 b3).extractLsb' 0 8 = b0 := by
  apply BitVec.eq_of_toNat_eq
  simp only [BitVec.extractLsb'_toNat, wordOf_toNat, Nat.shiftRight_zero]
  have := b0.isLt
  omega

@[simp] theorem wordOf_second (b0 b1 b2 b3 : Byte) : (wordOf b0 b1 b2 b3).extractLsb' 8 8 = b1 := by
  apply BitVec.eq_of_toNat_eq
  simp only [BitVec.extractLsb'_toNat, wordOf_toNat, Nat.shiftRight_eq_div_pow]
  have := b0.isLt; have := b1.isLt
  omega

/-! ### Where a word finds the port -/

/-- A word that comes where the transaction under way stands leaves the port as it is (R171). -/
theorem Port.standAt_here {p : Port} {i : Byte} (h : p.transaction = .write ∧ p.held = [] ∧ p.workingIndex = i) :
    p.standAt i = p := if_pos h

/-- The port is in a write transaction with no byte held, its working index at `i`. -/
theorem Port.standAt_stands (p : Port) (i : Byte) :
    (p.standAt i).transaction = .write ∧ (p.standAt i).held = [] ∧ (p.standAt i).workingIndex = i := by
  unfold Port.standAt
  split
  · assumption
  · exact ⟨rfl, rfl, rfl⟩

/-- Nothing else of the port but its start index and the partial-word flag depends on where it stood. -/
theorem Port.standAt_rest (p : Port) (i : Byte) : ∃ start partialWord,
    p.standAt i =
      { p with transaction := .write, held := [], workingIndex := i, startIndex := start, partialWord := partialWord } := by
  unfold Port.standAt
  split
  · next h => exact ⟨p.startIndex, p.partialWord, by rw [← h.1, ← h.2.1, ← h.2.2]⟩
  · exact ⟨i, p.partialWord || !p.held.isEmpty, rfl⟩

/-- Standing twice at one index is standing there once. -/
theorem Port.standAt_standAt (p : Port) (i : Byte) : (p.standAt i).standAt i = p.standAt i :=
  Port.standAt_here (p.standAt_stands i)

/-- A word of the pointed field in a transaction at TABLE_DATA leaves the port as it is (R171, R174). -/
theorem Port.pointAt_here {p : Port} (h : p.transaction = .write ∧ p.held = [] ∧ p.workingIndex = 3) :
    p.pointAt p.pointer = p := by
  unfold Port.pointAt
  rw [if_pos rfl, Port.standAt_here h]

/-- A stop or a start sets the partial-word flag when bytes of a word are held (R171). -/
theorem Port.ended_eq (p : Port) : p.ended =
    { p with transaction := .none, held := [], partialWord := p.partialWord || decide (p.held ≠ []) } := by
  unfold Port.ended
  cases p.held <;> rfl

/-! ### Data bytes -/

theorem State.takeBytes_append (s : State) (xs ys : List Byte) : s.takeBytes (xs ++ ys) = (s.takeBytes xs).takeBytes ys :=
  List.foldl_append ..

/-- Outside a write transaction a data byte is none of the port's (R170). -/
theorem State.takeByte_unheard {s : State} (h : s.port.transaction ≠ .write) (b : Byte) : s.takeByte b = s := if_neg h

theorem State.takeBytes_unheard {s : State} (h : s.port.transaction ≠ .write) (bytes : List Byte) :
    s.takeBytes bytes = s := by
  induction bytes with
  | nil => rfl
  | cons b bs ih => rw [State.takeBytes, List.foldl_cons, State.takeByte_unheard h]; exact ih

/-- Up to three data bytes of a word are held (R171). -/
theorem State.takeByte_held {s : State} (h : s.port.transaction = .write) {b : Byte} (hl : s.port.held.length ≤ 2) :
    s.takeByte b = s.withPort { s.port with held := s.port.held ++ [b] } := by
  unfold State.takeByte
  rw [if_pos h]
  split
  · next e => simp [e] at hl
  · rfl

theorem State.takeBytes_held {s : State} (h : s.port.transaction = .write) {bytes : List Byte}
    (hl : s.port.held.length + bytes.length ≤ 3) :
    s.takeBytes bytes = s.withPort { s.port with held := s.port.held ++ bytes } := by
  induction bytes generalizing s with
  | nil => simp [State.takeBytes, State.withPort]
  | cons b bs ih =>
    simp only [List.length_cons] at hl
    rw [State.takeBytes, List.foldl_cons, State.takeByte_held h (by omega), ← State.takeBytes,
      ih (by exact h) (by simp [State.withPort]; omega)]
    simp [State.withPort]

/-- The fourth data byte takes the word at the working index (R171). -/
theorem State.takeBytes_word {s : State} (h : s.port.transaction = .write) (hh : s.port.held = []) (b0 b1 b2 b3 : Byte) :
    s.takeBytes [b0, b1, b2, b3] = s.takeWordOf s.port.workingIndex (wordOf b0 b1 b2 b3) := by
  have e : [b0, b1, b2, b3] = [b0, b1, b2] ++ [b3] := rfl
  rw [e, State.takeBytes_append, State.takeBytes_held h (by simp [hh])]
  have hs : s.withPort { s.port with transaction := .write, held := [] } = s := by rw [← h, ← hh]; rfl
  simp only [State.takeBytes, List.foldl_cons, List.foldl_nil, State.takeByte, State.withPort, hh, List.nil_append, h, if_true]
  exact congrArg (fun t : State => t.takeWordOf s.port.workingIndex (wordOf b0 b1 b2 b3)) hs

/-- Bytes that end a word with the bytes held before them are that word's (R171). -/
theorem State.takeBytes_rest {s : State} (h : s.port.transaction = .write) {bytes : List Byte}
    (hl : s.port.held.length ≤ 3) :
    s.takeBytes bytes = (s.withPort { s.port with held := [] }).takeBytes (s.port.held ++ bytes) := by
  rw [State.takeBytes_append, State.takeBytes_held (s := s.withPort { s.port with held := [] }) h (by simpa [State.withPort] using hl)]
  simp [State.withPort]

end Sys2Proof.Machine
end

