-- ==== Sys2Proof/Tests/Slice0.lean ====
section
/-! SUPPORT. The model's own tests: ill-formed terms that the check refuses, outcomes of the spec's examples, and for every statement
with hypotheses a concrete state and operands that meet them, clause by clause. -/

namespace Sys2Proof.Tests

open Sys2Proof Sys2Proof.Machine

/-! ### Small states -/

def beat (poison : Bool) : WriteBeat := ⟨List.replicate 32 0, 0xFFFFFFFF, poison⟩

/-- A write of `n` beats by initiator `i` at address `a`. -/
def wr (i : Initiator) (a n : Nat) : URequest := ⟨i, 5, .write, BitVec.ofNat 40 a, n, List.replicate n (beat false)⟩

/-- A read of `n` beats by initiator `i` at address `a`. -/
def rd (i : Initiator) (a n : Nat) : URequest := ⟨i, 5, .read, BitVec.ofNat 40 a, n, []⟩

/-- Regions of 256 bytes: aperture at 65536, buffers at 131072, 196608 and 262144; the last beat is at offset 224. -/
def cfg : SourceConfig := ⟨16, 64, 1, 256, 32, 48, 64, 3, 0, 0, 0⟩

def buf (r : Role) (readHold writeHold : Nat) (poison : Bool) : Buffer := ⟨r, poison, readHold, writeHold⟩

def source (st : SourceState) (a b c : Buffer) : Source := { Source.reset with cfg := cfg, state := st, bufs := ⟨a, b, c⟩ }

def clean (r : Role) : Buffer := buf r 0 0 false

def live : Source := source .live (clean .front) (clean .fill) (clean .spent)

/-- A source that is OFF, with its fields as given. -/
def shut (c : SourceConfig) : Source := { Source.reset with cfg := c }

/-- The machine after reset with source 3 as given. -/
def with3 (x : Source) : State := State.reset.putSource 3 x

def queued (n : Nat) : HoldEntry := ⟨0, n, List.replicate n (beat false)⟩

/-- The state after a command, or the machine after reset where it is refused. -/
def after1 (s : State) (i : Instr) : State :=
  match exec i s with
  | .next t => t
  | .fault _ => State.reset
  | .refused _ => State.reset

/-- The canvas at address 4194304, 64 columns of 4 rows, pitch 512, enabled with the empty layout in both banks. -/
def canvas : Canvas := ⟨1024, 64, 4, 512, true⟩

def withCanvas (s : State) : State :=
  s.withLayout { s.layout with canvas := canvas, bankA := canvas.emptyLayout, bankB := canvas.emptyLayout }

/-- A window of 16 columns and 2 rows at the top left. -/
def win : Window := ⟨true, .fill, 0, 0, 0, 16, 2, 0, 0, 1, 1, 0, 0x404040, 0x101010, none⟩

/-- Window 1 stacked over window 2, which is 32 columns wide; window 5 carries group 0. -/
def layout : Layout :=
  { windows :=
      putAt (putAt (putAt Layout.reset.windows 1 { win with borderWidth := 0 }) 2 { win with width := 32, borderWidth := 0 }) 5
        { win with x := 40, group := some 0, borderWidth := 0 }
    stackLen := 2
    stack := putAt (putAt Layout.reset.stack 0 1) 1 2
    background := .pass }

/-- The canvas with `layout` staged. -/
def staged : State := (withCanvas State.reset).withLayout { (withCanvas State.reset).layout with staged := layout }

/-- The canvas with `layout` compiled into the active bank. -/
def shown : State :=
  (withCanvas State.reset).withLayout { (withCanvas State.reset).layout with bankA := layout.compile canvas }

def ctx (n : ContextId) (cls : ReadClass) (st : ContextState) (ps : List PieceId) : Context :=
  ⟨n, 20, 5, 4194304, 2, cls, none, ps, false, st⟩

def withContexts (s : State) (cs : List Context) (w : Option ContextId) : State :=
  s.withTranslator { s.translator with contexts := cs, walker := w }

def piece (st : PieceState) (k : PieceKind) : Piece := ⟨true, some ⟨0, 0, 8, k, st, none, none⟩⟩

def imagePiece : ImagePiece := ⟨3, .a, 0, 0, 7, 1, 0, 131072, 1⟩

/-- Source 3 with a read hold on its FRONT buffer. -/
def heldFront : Source := { live with bufs := ⟨buf .front 1 0 false, clean .fill, clean .spent⟩ }

/-- A source in fill wait, whose buffer A has lost its role and keeps one read hold. -/
def waitsForFill : Source :=
  { source .live (buf .spent 1 0 true) (clean .front) (buf .spent 0 1 false) with fillWait := true }

/-- The same source when A has become its FILL buffer. -/
def filled : Source := source .live (clean .fill) (clean .front) (buf .spent 0 1 false)

/-- Context 0, GATHERING pieces 0 and 1. -/
def gathered : Context := ctx 0 .plain .gathering [0, 1]

def issuedUse (k : PieceKind) : PieceUse := ⟨0, 0, 8, k, .issued .us16, none, none⟩

/-- Source 3 as given and, after the contexts `pre`, context 0, whose piece 0 is ISSUED and whose piece 1 is in state `st`. -/
def reading (k : PieceKind) (st : PieceState) (x : Source) (pre : List Context) : State :=
  let s := withContexts (with3 x) (pre ++ [gathered]) none
  s.withTranslator
    { s.translator with
      pieces := putAt (putAt s.translator.pieces 0 ⟨true, some (issuedUse k)⟩) 1 (piece st (.plain 0 1)) }

theorem otherDone {s : State} {u : PieceUse} (h : s.translator.pieces[(1 : PieceId)].use = some u)
    (hd : u.state = .done := by decide) :
    ∀ q ∈ gathered.pieces, q ≠ 0 → ∃ v, s.translator.pieces[q].use = some v ∧ v.state = .done := by
  intro q hq hp
  obtain rfl | rfl : q = 0 ∨ q = 1 := by simpa [gathered, ctx] using hq
  · exact absurd rfl hp
  · exact ⟨u, h, hd⟩

/-- The source with containment on. -/
def contains (x : Source) : Source := { x with cfg := { x.cfg with containment := 1 } }

/-- A source with buffer B as given between a clean FRONT and a clean FILL buffer. -/
def facing (st : SourceState) (b : Buffer) : Source := source st (clean .front) b (clean .fill)

/-- A source in fill wait, with buffer B as given and buffer C sealed. -/
def starved (b : Buffer) : Source := { source .live (clean .front) b (buf .sealing 0 1 false) with fillWait := true }

/-- A source in fill wait, with buffers A and B clean in two roles and a write hold on buffer C. -/
def resting (a b : Role) : Source := { source .live (clean a) (clean b) (buf .spent 0 1 false) with fillWait := true }

/-- Tracker 5 BUSY with a write of origin `o`. -/
def writing (s : State) (o : Origin) : State := s.putTracker 5 ⟨true, some ⟨o, 131072, 1, .us16⟩⟩

def groupOn : Group :=
  { Group.reset with cfg := { Group.reset.cfg with enabled := true, alarmSel := 4, softEnable := 1, holdOff := 2 } }

/-- The sources, beginning with 3, act before the governor; groups 0 and 2 count before they act, group 1 acts after the governor. -/
def order : StrobeOrder := ⟨false, 0b0101, 0b0010, 3⟩

/-- A group asserted by line 2, which is active low. -/
def asserted : Group :=
  { groupOn with cfg := { groupOn.cfg with alarmSel := 4, polarity := 4 }, state := .asserted, raw := true }

/-- A group that watches the trip of source 3, with hold-off 2. -/
def watcher (st : GroupState) (n : Nat) (enabled : Bool) : Group :=
  { groupOn with cfg := { groupOn.cfg with enabled := enabled, staleSel := 8 }, state := st, holdCount := n }

/-- Group `g` as given, with source 3 one strobe before its stale deadline. -/
def watching (g : GroupId) (x : Group) : State := (with3 { live with framesSinceFlip := 2 }).putGroup g x

/-- A request waiting at the head of its lane. -/
def offer (s : State) (r : URequest) : State := after1 s (.uRequest r)

def withPlain (s : State) (n : Nat) : State :=
  s.withUport { s.uport with plainWrites := List.replicate n ⟨9, 0, 1, []⟩ }

def entry (c : ReadClass) : IntakeEntry := ⟨9, 5, 0, 2, c⟩

def withIntake (s : State) (es : List IntakeEntry) : State := s.withUport { s.uport with intake := es }

/-- Context numbers below `n` taken by WALKING canvas reads. -/
def taken (n : Nat) : List Context := ((List.finRange 48).take n).map fun n => ctx n .canvas .walking []

/-- The first `n` piece records taken. -/
def withPieces (s : State) (n : Nat) : State :=
  s.withTranslator
    { s.translator with
      pieces := Vector.ofFn fun p => if p.val < n then ⟨false, some ⟨0, 0, 8, .plain 0 1, .queued, none, none⟩⟩ else ⟨false, none⟩ }

/-- A canvas walk of 16 pixels from column `x` of row `y` of the active bank. -/
def walk (y x : Nat) : Context :=
  { ctx 1 .canvas .walking [] with address := 4194304 + 512 * y + 4 * x, place := some ⟨.a, y, x⟩ }

def walkingAt (s : State) (y x : Nat) : State :=
  let t := withContexts s [ctx 0 .plain .gathering [], walk y x] (some 1)
  t.withLayout { t.layout with hold := some .a }

/-- Windows 6 and 7 show source 3 in row 2: 8 columns at column 0, and 16 columns at column 16. -/
def imageLayout : Layout :=
  { Layout.reset with
    windows :=
      putAt (putAt Layout.reset.windows 6 { win with content := .source, source := 3, y := 2, width := 8, height := 1, borderWidth := 0 })
        7 { win with content := .source, source := 3, x := 16, y := 2, height := 1, cropX := 56, borderWidth := 0 }
    stackLen := 2
    stack := putAt (putAt Layout.reset.stack 0 6) 1 7 }

def images (x : Source) : State :=
  (withCanvas (with3 x)).withLayout { (withCanvas (with3 x)).layout with bankA := imageLayout.compile canvas }

/-- Read lane with pieces 0 and 1, 7 read runs before, and lane 3 holding a write. -/
def readLane (x : Source) (n : Nat) : State :=
  let s := withPieces (with3 x) 2
  s.withDport { s.dport with readLane := [0, 1], readRun := n, writeLanes := putAt s.dport.writeLanes 3 [⟨131072, 1, [], 3, .a⟩] }

def laned (s : State) (n : Nat) : State :=
  s.withDport
    { s.dport with
      readLane := [0, 1], readRun := n, writeLanes := putAt s.dport.writeLanes 3 [⟨131072, 1, [], 3, .a⟩]
      trackers := Vector.ofFn fun k => if k.val < 5 then ⟨true, some ⟨.plain 9, 0, 1, .us16⟩⟩ else ⟨false, none⟩ }

def plainLaned (s : State) : State :=
  let t := withPlain s 1
  t.withDport
    { t.dport with
      trackers := Vector.ofFn fun k => if k.val < 63 then ⟨true, some ⟨.plain 9, 0, 1, .us16⟩⟩ else ⟨false, none⟩ }

/-- A governed source with quota 1025, cap 20 and credit 19. -/
def governed (x : Source) : Source :=
  { x with cfg := { x.cfg with quota := 1025, creditCap := 20 }, credit := 19, quotaInEffect := 1025 }

def withSlot (s : State) (k : Nat) : State := s.withGovernor { s.governor with slotIndex := k, slotTimer := some 16 }

def armed : State :=
  let s := withCanvas (with3 live)
  s.withLayout { s.layout with ctl := .armed, bankB := layout.compile canvas }

/-- A canvas layout controller with `l` staged, in state `c`. -/
def ctl (c : CtlState) (l : Layout) : State :=
  let s := withCanvas (with3 live)
  s.withLayout { s.layout with staged := l, ctl := c }

/-- Window 1 does not fit in the canvas. -/
def tooWide : Layout := { layout with windows := putAt layout.windows 1 { win with x := 49 } }

/-- Window 5, which has a group, is in the stack. -/
def badStack : Layout := { layout with stackLen := 3, stack := putAt layout.stack 2 5 }

/-- Every window enabled at 16 columns, nine of them with a group. -/
def crowded : Layout :=
  { layout with
    windows := Vector.ofFn fun w => { win with enabled := decide (w.val < 9), group := some 0 }, stackLen := 0 }

/-- Sixteen upright windows over sixteen one-row windows: more segments than the pool holds. -/
def striped : Layout :=
  { layout with
    windows := Vector.ofFn fun w =>
      if w.val < 16 then { win with x := 32 * w.val, height := 64 } else { win with x := 512, y := 2 * (w.val - 16) + 1, height := 1 }
    stackLen := 32
    stack := Vector.ofFn id }

def overflowing : State :=
  let s := ctl .compile striped
  s.withLayout { s.layout with canvas := ⟨1024, 1024, 64, 4096, true⟩ }

/-- A walk of row 3 that a commit of `layout` waits for. -/
def draining (s : State) : State :=
  let t := walkingAt s 3 0
  t.withLayout { t.layout with staged := layout, ctl := .drain }

/-- A read of initiator 4 that is being gathered. -/
def otherRead : Context := { ctx 0 .plain .gathering [] with initiator := 4 }

/-- A canvas walk of row 0, of whose 16 pixels piece 0 covers the first eight. -/
def secondHalf : Context := { walk 0 0 with pieces := [0] }

/-- The walk `secondHalf` with piece 0 in state `st`, after a read `c`, with `l` staged and the controller in state `k`. -/
def halfWalked (st : PieceState) (c : Context) (k : CtlState) (l : Layout) : State :=
  let t := withContexts shown [c, secondHalf] (some 1)
  (t.withTranslator
    { t.translator with pieces := putAt t.translator.pieces 0 ⟨true, some ⟨1, 0, 8, .plain 4194304 1, st, none, none⟩⟩ }).withLayout
    { t.layout with hold := some .a, staged := l, ctl := k }

/-- The machine after reset with its management port in a transaction. -/
def inTransaction (k : Transaction) (i : Byte) (q : TablePointer) (held : List Byte) : State :=
  State.reset.withPort { State.reset.port with transaction := k, workingIndex := i, pointer := q, held := held }

/-- A load in APPLY, at record 1 of 3, after one refused record. -/
def loaded : State := { with3 live with loader := ⟨.apply 3 1, ⟨.none, none, 0, 1, some 0⟩⟩ }

def image : List Byte := [0x47, 0x46, 1, 0, 0x40, 1, 1, 9, 0, 0, 0xA1, 7, 0, 0]

/-- The canvas configured and disabled. -/
def dark (c : Canvas) : State := (with3 live).withLayout { (with3 live).layout with canvas := { c with enabled := false } }

/-! ### The well-formedness check -/

theorem test_refuses_request_of_no_beats : (Instr.uRequest (rd 3 0 0)).wellFormed = false := by decide

theorem test_refuses_request_of_17_beats : (Instr.uRequest (rd 3 0 17)).wellFormed = false := by decide

theorem test_refuses_read_with_data : (Instr.uRequest { rd 3 0 1 with data := [beat false] }).wellFormed = false := by decide

theorem test_refuses_write_without_data : (Instr.uRequest { wr 3 0 2 with data := [beat false] }).wellFormed = false := by
  decide

theorem test_refuses_short_beat : (Instr.uRequest { wr 3 0 1 with data := [⟨[0], 0, false⟩] }).wellFormed = false := by decide

theorem test_refuses_broken_read_data : (Instr.downstreamResponse (.readOk 0 true [0])).wellFormed = false := by decide

theorem test_refuses_empty_read_data : (Instr.downstreamResponse (.readOk 0 true [])).wellFormed = false := by decide

theorem test_refuses_read_data_of_17_beats :
    (Instr.downstreamResponse (.readOk 0 true (List.replicate 544 0))).wellFormed = false := by decide +kernel

theorem test_refuses_word_of_5_bytes : (Instr.registerWrite 1 [2, 3, 4, 5]).wellFormed = false := by decide

theorem test_admits_request : (Instr.uRequest (wr 3 65536 16)).wellFormed = true := by decide

/-! ### Examples of the spec -/

/-- Section 8.5: the first slots of quota 2500. -/
theorem test_allotments_of_2500 : (List.range 10).map (allotment 2500) = [2, 2, 3, 2, 3, 2, 3, 2, 2, 3] := by decide

/-- Section 11.6: the image passes VERIFY, and with byte 10 as A2 it ends BAD with reason CHECKSUM. -/
theorem test_example_image :
    verifyImage [0x47, 0x46, 1, 0, 0x40, 1, 1, 9, 0, 0, 0xA1, 7, 0, 0] = .apply 1 ∧
      verifyImage [0x47, 0x46, 1, 0, 0x40, 1, 1, 9, 0, 0, 0xA2, 7, 0, 0] = .bad .checksum := by decide

/-- Section 5.6: the strips and segments of the three-source layout. -/
def wall : Layout :=
  { Layout.reset with
    windows :=
      putAt
        (putAt
          (putAt
            (putAt Layout.reset.windows 0 { Window.reset with enabled := true, width := 5760, height := 2160 })
            1 { Window.reset with enabled := true, source := 5, x := 3840, y := 540, width := 1920, height := 1080 })
          3 { Window.reset with enabled := true, source := 2, x := 5760, width := 1920, height := 1080 })
        8 { Window.reset with enabled := true, content := .fill, width := 1920, height := 540, group := some 0 }
    stackLen := 3
    stack := putAt (putAt (putAt Layout.reset.stack 0 3) 1 1) 2 0 }

theorem test_example_compile :
    (wall.compile ⟨0x400000, 7680, 2160, 30720, true⟩).strips =
        [⟨0, 540, 0, 2⟩, ⟨540, 1080, 2, 3⟩, ⟨1080, 1620, 5, 3⟩, ⟨1620, 2160, 8, 2⟩] ∧
      (wall.compile ⟨0x400000, 7680, 2160, 30720, true⟩).segments =
        [⟨0, some 0⟩, ⟨5760, some 3⟩, ⟨0, some 0⟩, ⟨3840, some 1⟩, ⟨5760, some 3⟩, ⟨0, some 0⟩, ⟨3840, some 1⟩,
          ⟨5760, none⟩, ⟨0, some 0⟩, ⟨5760, none⟩] ∧
      (wall.compile ⟨0x400000, 7680, 2160, 30720, true⟩).overrideList = [8] := by decide

/-- Section 3.7, steps 1 and 2: a poisoned frame contains the source. -/
theorem test_example_containment :
    let s := writing (with3 { source .live (clean .front) (buf .sealing 0 1 true) (clean .fill) with
      cfg := { cfg with containment := 1 } }) (.aperture 3 .b)
    (after1 s (.downstreamResponse (.writeOk 5 true))).sources[(3 : SourceId)].state = .contained ∧
      (after1 s (.downstreamResponse (.writeOk 5 true))).capture.status = 0x0C0 := by decide

/-- Section 7.10, steps 1 and 3: a write times out, and its response comes late. -/
theorem test_example_late_response :
    let s := writing (with3 (source .live (clean .front) (buf .sealing 0 1 false) (clean .fill))) (.aperture 3 .b)
    (after1 s (.writeTimeout 5)).capture.status = 0x050 ∧
      (after1 (after1 s (.writeTimeout 5)) (.downstreamResponse (.writeOk 5 true))).capture.status = 0x850 := by
  decide

/-- Section 11.2: the register window reads its reset values. -/
theorem test_reset_registers : (State.reset.readRegister 0, State.reset.readRegister 22, State.reset.readRegister 23) =
    (0xFF000000, 0x03FF0000, 0x00FF0000) := by decide

/-- R4 at CLOSE: a write that waits for a full hold queue is answered OK and dropped. -/
theorem test_example_waiting_write :
    let s := offer (with3 { live with holdQueue := List.replicate 4 (queued 1) }) (wr 3 65536 8)
    (after1 s (.laneHeadAccept 3 .write)).uport.side 3 .write = [wr 3 65536 8] ∧
      (after1 s (.closeSource 3)).links.responses = [⟨3, 5, .write, .ok, []⟩] ∧
      (after1 s (.closeSource 3)).sources[(3 : SourceId)].state = .off := by decide +kernel

/-- R136, R153: a trip of strobe 0 asserts group 1 after the governor has counted it, and group 2 before. -/
theorem test_strobe_stamps_either_frame :
    (after1 (watching 1 (watcher .idle 0 true)) (.wfs order)).override.groups[(1 : GroupId)].trigger =
        some ⟨.staleTrip 3, 1⟩ ∧
      (after1 (watching 2 (watcher .idle 0 true)) (.wfs order)).override.groups[(2 : GroupId)].trigger =
        some ⟨.staleTrip 3, 0⟩ := by decide +kernel

/-- R156: the strobe and the rise of the raw condition reach two groups in different orders. -/
theorem test_strobe_orders_mix :
    (after1 ((watching 1 (watcher .holding 1 true)).putGroup 2 (watcher .holding 1 true)) (.wfs order)).override.groups.toList.map
        (·.trigger.isSome) = [false, false, true, false] := by decide +kernel

/-- R172: a word broken off after two bytes moves nothing, and the next read begins at the start index again. -/
theorem test_read_broken_off :
    let s := after1 (inTransaction .read 9 ⟨0, 0, 0⟩ []) (.tableDataRead .next 1)
    s.links.readBytes = some [0x5B, 0x06] ∧ s.port.workingIndex = 9 ∧ s.port.transaction = .none ∧
      (after1 s (.tableDataRead (.first 0x52) 3)).port.workingIndex = 1 := by decide

/-- R170: a transaction addressed elsewhere gives the port no byte. -/
theorem test_addressed_elsewhere :
    (after1 (after1 (with3 live) (.indexByte ⟨0, 9⟩)) (.registerWrite 1 [0, 0, 0])).governor = (with3 live).governor := by decide

/-- R171: a word comes in three parts. -/
theorem test_word_in_parts :
    let s := after1 (after1 (inTransaction .write 9 ⟨0, 0, 0⟩ []) (.registerWrite 0xA1 [])) (.registerWrite 7 [0, 0, 5])
    s.governor.slotLength = 0x7A1 ∧ s.port.workingIndex = 10 ∧ s.port.held = [5] := by decide

/-! ### Every hypothesis can be met

A variable that a hypothesis defines by an equation (the state `e` or `v` that a conclusion is built on) is left out: its equation is met by
what it defines. -/

theorem outside {s : State} {a n : Nat} (h : ∀ g ∈ s.regions, g.meets a n = false) :
    ∀ g ∈ s.regions, ∀ x, a ≤ x → x < a + n → g.has x = false := by
  intro g hg x h1 h2
  by_contra hx
  have := Region.meets_iff.mpr ⟨x, h1, h2, Bool.not_eq_false _ ▸ hx⟩
  rw [h g hg] at this
  cases this

theorem touches {s : State} {a n : Nat} (h : ∃ g ∈ s.regions, g.meets a n = true) :
    ∃ g ∈ s.regions, ∃ x, a ≤ x ∧ x < a + n ∧ g.has x = true := by
  obtain ⟨g, hg, hm⟩ := h
  exact ⟨g, hg, Region.meets_iff.mp hm⟩

theorem leaves {s : State} {a n : Nat} (hn : 0 < n ∧ ∀ g ∈ s.regions, g.holds a n = false) :
    ∀ g ∈ s.regions, ∃ x, a ≤ x ∧ x < a + n ∧ g.has x = false := by
  intro g hg
  have h := mt (Region.holds_iff hn.1).mpr (by rw [hn.2 g hg]; simp)
  push Not at h
  obtain ⟨x, h1, h2, h3⟩ := h
  exact ⟨x, h1, h2, Bool.not_eq_true _ ▸ h3⟩

theorem misses {s : State} {gs : List Region} {i : SourceId}
    (h : ∀ w ∈ s.pendingPlain, ∀ g ∈ gs, g.id ≠ .aperture i → g.meets w.1 (w.2 * 32) = false) :
    ∀ a, s.plainWriteTo a → ∀ g ∈ gs, g.id ≠ .aperture i → g.has a = false := by
  intro a ha g hg hi
  obtain ⟨w, hw, h1, h2⟩ := (s.plainWriteTo_iff a).mp ha
  by_contra hx
  have := Region.meets_iff.mpr ⟨a, h1, h2, Bool.not_eq_false _ ▸ hx⟩
  rw [h w hw g hg hi] at this
  cases this

theorem ran {s : State} {i : Instr}
    (h : (match exec i s with | .next _ => true | .fault _ => false | .refused _ => false) = true) :
    exec i s = .next (after1 s i) := by
  unfold after1
  split at h <;> simp_all

theorem notColour {q : PieceKind} (h : (match q with | .colour _ => false | .image _ => true | .plain _ _ => true) = true) :
    ∀ k, q ≠ .colour k := by
  rintro k rfl
  cases h

theorem test_meets_StepRunsFrontCommand :
    (∃ (c : Instr) (q : List Instr) (s : State), s.pending = c :: q) ∧
    (∃ (s : State), s.pending = []) :=
  ⟨⟨.walkStart, [.partialWord], { with3 live with pending := [.walkStart, .partialWord] }, by decide⟩,
    ⟨with3 live, by decide⟩⟩

theorem test_meets_ResetLeavesStatedValues :
    (∃ l : Layout, l = State.reset.layout.staged ∨ l = State.reset.layout.bankA.layout ∨ l = State.reset.layout.bankB.layout) ∧
    (∃ b : Bank, b = State.reset.layout.bankA ∨ b = State.reset.layout.bankB) :=
  ⟨⟨_, .inl rfl⟩, ⟨_, .inr rfl⟩⟩

theorem test_meets_ResetsTakeResetValues :
    (∃ (s : State) (i : Instr) (k : ResetKind), (i = .powerOnReset ∧ k = .powerOn ∨ i = .pinReset ∧
      k = .pin ∨ ∃ operand, i = .softReset operand ∧ k = .soft ∧ s.listening)) :=
  ⟨with3 live, .softReset 7, .soft, by decide⟩

theorem test_meets_ResetEndSamplesPins :
    (∃ (s : State), s.resetting.isSome = true ∧
      (∀ (g : GroupId), s.override.groups[g] = ⟨⟨false, 0, 0, 0, 0, 0, 0⟩, .idle, 0, false, none⟩)) ∧
    (∃ (s : State), s.resetting = none) :=
  ⟨⟨(with3 live).beginReset .pin, by decide⟩,
    ⟨with3 live, by decide⟩⟩

theorem test_meets_NothingActsDuringReset :
    (∃ (c : Instr) (s : State), s.resetting.isSome = true ∧ c.wellFormed = true ∧ c ≠ .powerOnReset ∧ c ≠ .pinReset ∧
      (∀ (pins : ResetPins), c ≠ .resetEnd pins) ∧ (∀ (r : URequest), c ≠ .uRequest r)) ∧
    (∃ (s : State), s.resetting.isSome = true) ∧
    (∃ (s : State), s.loader.state ≠ .idle) ∧
    (∃ (s : State) (bytes : List Byte), s.loader.state ≠ .idle ∧ 1 ≤ bytes.length ∧ bytes.length ≤ 4) :=
  ⟨⟨.registerWrite 1 [0, 0, 0], (with3 live).beginReset .pin, by decide, by decide, by decide, by decide,
    by simp, by simp⟩,
    ⟨(with3 live).beginReset .pin, by decide⟩,
    ⟨(with3 live).startLoad, by decide⟩,
    ⟨loaded, [1, 0, 0, 0], by decide⟩⟩

theorem test_meets_RequestJoinsItsLane :
    (∃ (r : URequest), r.wellFormed = true) :=
  ⟨rd 31 64 16, by decide⟩

theorem test_meets_IllFormedRecordsAreRefused :
    (∃ (r : URequest), r.wellFormed = false) ∧
    (∃ (r : DResponse), r.wellFormed = false) ∧
    (∃ (bytes : List Byte), bytes = [] ∨ 4 < bytes.length) :=
  ⟨⟨rd 3 0 17, by decide⟩,
    ⟨.readOk 0 true [], by decide⟩,
    ⟨[1, 2, 3, 4, 5], by decide⟩⟩

theorem test_meets_ClassificationFollowsRegions :
    (∃ (s : State) (r : URequest), 1 ≤ r.beats ∧ s.regionsApart ∧
      (r.address.toNat % 32 ≠ 0 ∨ 1099511627776 < r.address.toNat + r.beats * 32)) ∧
    (∃ (s : State) (r : URequest), 1 ≤ r.beats ∧ s.regionsApart ∧ r.address.toNat % 32 = 0 ∧
      r.address.toNat + r.beats * 32 ≤ 1099511627776 ∧
      (∀ g ∈ s.regions, ∀ (a : Nat), r.address.toNat ≤ a → a < r.address.toNat + r.beats * 32 → g.has a = false)) ∧
    (∃ (s : State) (r : URequest) (g : Region), 1 ≤ r.beats ∧ s.regionsApart ∧ r.address.toNat % 32 = 0 ∧
      r.address.toNat + r.beats * 32 ≤ 1099511627776 ∧ g ∈ s.regions ∧
      (∀ (a : Nat), r.address.toNat ≤ a → a < r.address.toNat + r.beats * 32 → g.has a = true) ∧ g.id = .canvas ∧
      r.kind = .write) ∧
    (∃ (s : State) (r : URequest) (g : Region), 1 ≤ r.beats ∧ s.regionsApart ∧ r.address.toNat % 32 = 0 ∧
      r.address.toNat + r.beats * 32 ≤ 1099511627776 ∧ g ∈ s.regions ∧
      (∀ (a : Nat), r.address.toNat ≤ a → a < r.address.toNat + r.beats * 32 → g.has a = true) ∧ g.id = .canvas ∧
      r.kind = .read) ∧
    (∃ (s : State) (r : URequest) (g : Region) (i : SourceId), 1 ≤ r.beats ∧ s.regionsApart ∧ r.address.toNat % 32 = 0 ∧
      r.address.toNat + r.beats * 32 ≤ 1099511627776 ∧ g ∈ s.regions ∧
      (∀ (a : Nat), r.address.toNat ≤ a → a < r.address.toNat + r.beats * 32 → g.has a = true) ∧ g.id = .aperture i ∧
      r.kind = .read) ∧
    (∃ (s : State) (r : URequest) (g : Region) (i : SourceId), 1 ≤ r.beats ∧ s.regionsApart ∧ r.address.toNat % 32 = 0 ∧
      r.address.toNat + r.beats * 32 ≤ 1099511627776 ∧ g ∈ s.regions ∧
      (∀ (a : Nat), r.address.toNat ≤ a → a < r.address.toNat + r.beats * 32 → g.has a = true) ∧ g.id = .aperture i ∧
      r.kind = .write) ∧
    (∃ (s : State) (r : URequest) (g : Region) (i : SourceId) (l : Letter), 1 ≤ r.beats ∧ s.regionsApart ∧
      r.address.toNat % 32 = 0 ∧ r.address.toNat + r.beats * 32 ≤ 1099511627776 ∧ g ∈ s.regions ∧
      (∀ (a : Nat), r.address.toNat ≤ a → a < r.address.toNat + r.beats * 32 → g.has a = true) ∧ g.id = .buffer i l) ∧
    (∃ (s : State) (r : URequest), 1 ≤ r.beats ∧ s.regionsApart ∧ r.address.toNat % 32 = 0 ∧
      r.address.toNat + r.beats * 32 ≤ 1099511627776 ∧
      (∃ g ∈ s.regions, ∃ a, r.address.toNat ≤ a ∧ a < r.address.toNat + r.beats * 32 ∧ g.has a = true) ∧
      (∀ g ∈ s.regions, ∃ a, r.address.toNat ≤ a ∧ a < r.address.toNat + r.beats * 32 ∧ g.has a = false)) :=
  ⟨⟨withCanvas (with3 live), wr 3 65537 1, by decide, State.regionsApart_iff.mpr (by decide),
    by decide⟩,
    ⟨withCanvas (with3 live), wr 3 1099511627744 1, by decide, State.regionsApart_iff.mpr (by decide),
      by decide, by decide, outside (by decide)⟩,
    ⟨withCanvas (with3 live), wr 3 (4194304 + 2016) 1, ⟨.canvas, 4194304, 2048⟩, by decide,
      State.regionsApart_iff.mpr (by decide), by decide, by decide, by decide,
      (Region.holds_iff (by decide)).mp (by decide), by decide, by decide⟩,
    ⟨withCanvas (with3 live), rd 3 (4194304 + 480) 2, ⟨.canvas, 4194304, 2048⟩, by decide,
      State.regionsApart_iff.mpr (by decide), by decide, by decide, by decide,
      (Region.holds_iff (by decide)).mp (by decide), by decide, by decide⟩,
    ⟨withCanvas (with3 live), rd 3 (65536 + 224) 1, ⟨.aperture 3, 65536, 256⟩, 3, by decide,
      State.regionsApart_iff.mpr (by decide), by decide, by decide, by decide,
      (Region.holds_iff (by decide)).mp (by decide), by decide, by decide⟩,
    ⟨withCanvas (with3 live), wr 4 65536 8, ⟨.aperture 3, 65536, 256⟩, 3, by decide,
      State.regionsApart_iff.mpr (by decide), by decide, by decide, by decide,
      (Region.holds_iff (by decide)).mp (by decide), by decide, by decide⟩,
    ⟨withCanvas (with3 live), rd 5 131072 1, ⟨.buffer 3 .a, 131072, 256⟩, 3, .a, by decide,
      State.regionsApart_iff.mpr (by decide), by decide, by decide, by decide,
      (Region.holds_iff (by decide)).mp (by decide), by decide⟩,
    ⟨withCanvas (with3 live), wr 3 (65536 + 224) 2, by decide, State.regionsApart_iff.mpr (by decide),
      by decide, by decide, touches (by decide), leaves (by decide)⟩⟩

theorem test_meets_ApertureWriteAccepted :
    (∃ (s : State) (r : URequest) (rest : List URequest) (i : SourceId), s.resetting = none ∧
      s.uport.side r.initiator .write = r :: rest ∧ s.classify r = .aperture i ∧ s.sources[i].state ≠ .closing ∧
      s.sources[i].holdQueue.length < 4) ∧
    (∃ (s : State) (r : URequest) (rest : List URequest) (i : SourceId), s.resetting = none ∧
      s.uport.side r.initiator .write = r :: rest ∧ s.classify r = .aperture i ∧ s.sources[i].state ≠ .closing ∧
      4 ≤ s.sources[i].holdQueue.length) ∧
    (∃ (s : State) (r : URequest) (rest : List URequest) (i : SourceId), s.resetting = none ∧
      s.uport.side r.initiator .write = r :: rest ∧ s.classify r = .aperture i ∧ s.sources[i].state = .closing) :=
  ⟨⟨offer (with3 { live with holdQueue := List.replicate 3 (queued 1) }) (wr 3 65536 8), wr 3 65536 8, [], 3,
    by decide⟩,
    ⟨offer (with3 { live with holdQueue := List.replicate 4 (queued 1) }) (wr 3 65568 1), wr 3 65568 1, [], 3,
      by decide⟩,
    ⟨offer (with3 (source .closing (buf .spent 0 1 false) (clean .spent) (clean .spent))) (wr 3 65536 1), wr 3 65536 1, [], 3,
      by decide⟩⟩

theorem test_meets_OtherWritesAccepted :
    (∃ (s : State) (r : URequest) (rest : List URequest), s.resetting = none ∧ s.uport.side r.initiator .write = r :: rest ∧
      (s.classify r = .plain ∨ s.classify r = .canvas) ∧ s.uport.plainWrites.length < 16 ∧ s.plainTurn = some r.initiator) ∧
    (∃ (s : State) (r : URequest) (rest : List URequest), s.resetting = none ∧ s.uport.side r.initiator .write = r :: rest ∧
      (s.classify r = .plain ∨ s.classify r = .canvas) ∧ (16 ≤ s.uport.plainWrites.length ∨ s.plainTurn ≠ some r.initiator)) ∧
    (∃ (s : State) (r : URequest) (rest : List URequest) (cls : ErrClass) (src : Option SourceId), s.resetting = none ∧
      s.uport.side r.initiator .write = r :: rest ∧ s.classify r = .refused cls src) :=
  ⟨⟨offer (withPlain (with3 live) 15) (wr 0 0 16), wr 0 0 16, [], by decide⟩,
    ⟨offer (withPlain (with3 live) 16) (wr 0 0 16), wr 0 0 16, [], by decide⟩,
    ⟨offer (with3 live) (wr 4 65536 1), wr 4 65536 1, [], .guard, some 3, by decide⟩⟩

/-- The read of lane `r.initiator` is at its head, its turn has come, and nothing on the read path is due. -/
abbrev headRead (s : State) (r : URequest) (rest : List URequest) : Prop :=
  s.resetting = none ∧ s.settled ∧ s.uport.side r.initiator .read = r :: rest ∧ s.intakeTurn = some r.initiator

/-- Context `n` is the lowest-numbered free one. -/
abbrev lowestFree (s : State) (n : ContextId) : Prop :=
  (∀ c ∈ s.translator.contexts, c.num ≠ n) ∧ ∀ m : ContextId, m < n → ∃ c ∈ s.translator.contexts, c.num = m

theorem test_meets_ReadsEnterIntakeList :
    (∃ (s : State) (r : URequest) (rest : List URequest), headRead s r rest ∧ s.uport.intake.length < 16 ∧
      (∀ n : ContextId, ∃ c ∈ s.translator.contexts, c.num = n) ∧ (s.classify r = .plain ∨ s.classify r = .canvas)) ∧
    (∃ (s : State) (r : URequest) (rest : List URequest) (n : ContextId), headRead s r rest ∧ s.uport.intake = [] ∧
      s.translator.walking.isSome = true ∧ lowestFree s n ∧ (s.classify r = .plain ∨ s.classify r = .canvas)) ∧
    (∃ (s : State) (r : URequest) (rest : List URequest) (n : ContextId), headRead s r rest ∧ s.uport.intake = [] ∧
      s.translator.walker = none ∧ lowestFree s n ∧ s.classify r = .canvas) ∧
    (∃ (s : State) (r : URequest) (rest : List URequest) (n : ContextId) (p : PieceId), headRead s r rest ∧
      s.uport.intake = [] ∧ s.translator.walker = none ∧ lowestFree s n ∧ s.classify r = .plain ∧
      s.translator.pieces[p].use = none ∧ ∀ q : PieceId, q < p → s.translator.pieces[q].use ≠ none) ∧
    (∃ (s : State) (r : URequest) (rest : List URequest) (n : ContextId), headRead s r rest ∧ s.uport.intake = [] ∧
      s.translator.walker = none ∧ lowestFree s n ∧ s.classify r = .plain ∧
      ∀ p : PieceId, s.translator.pieces[p].use ≠ none) ∧
    (∃ (s : State) (r : URequest) (rest : List URequest) (cls : ErrClass) (src : Option SourceId), headRead s r rest ∧
      s.classify r = .refused cls src ∧ s.uport.intake.length < 16 ∧
      ∀ n : ContextId, ∃ c ∈ s.translator.contexts, c.num = n) ∧
    (∃ (s : State) (r : URequest) (rest : List URequest) (cls : ErrClass) (src : Option SourceId) (n : ContextId),
      headRead s r rest ∧ s.classify r = .refused cls src ∧ s.uport.intake = [] ∧ lowestFree s n ∧
      ∃ c ∈ s.translator.contexts, c.initiator = r.initiator) ∧
    (∃ (s : State) (r : URequest) (rest : List URequest) (cls : ErrClass) (src : Option SourceId), headRead s r rest ∧
      s.classify r = .refused cls src ∧ s.uport.intake = [] ∧
      (∃ n : ContextId, ∀ c ∈ s.translator.contexts, c.num ≠ n) ∧ ∀ c ∈ s.translator.contexts, c.initiator ≠ r.initiator) ∧
    (∃ (s : State) (r : URequest) (rest : List URequest), s.resetting = none ∧ s.settled ∧
      s.uport.side r.initiator .read = r :: rest ∧ (16 ≤ s.uport.intake.length ∨ s.intakeTurn ≠ some r.initiator)) :=
  ⟨⟨offer (withIntake (withContexts (with3 live) (taken 48) none) (List.replicate 15 (entry .plain))) (rd 0 0 16), rd 0 0 16,
    [], by decide⟩,
    ⟨offer (withContexts (with3 live) (taken 47) (some 0)) (rd 0 0 16), rd 0 0 16, [], 47, by decide⟩,
    ⟨offer (withContexts (withCanvas (with3 live)) (taken 1) none) (rd 0 4194304 16), rd 0 4194304 16, [], 1, by decide⟩,
    ⟨offer (withPieces (withContexts (with3 live) (taken 1) none) 9) (rd 0 0 16), rd 0 0 16, [], 1, 9, by decide +kernel⟩,
    ⟨offer (withPieces (withContexts (with3 live) (taken 1) none) 256) (rd 0 0 16), rd 0 0 16, [], 1, by decide +kernel⟩,
    ⟨offer (withIntake (withContexts (with3 live) (taken 48) none) (List.replicate 15 (entry .plain))) (rd 0 65536 1),
      rd 0 65536 1, [], .decode, some 3, by decide⟩,
    ⟨offer (withContexts (with3 live) (taken 2) none) (rd 20 131072 1), rd 20 131072 1, [], .guard, some 3, 2, by decide⟩,
    ⟨offer (withContexts (with3 live) (taken 47) none) (rd 0 65536 1), rd 0 65536 1, [], .decode, some 3, by decide⟩,
    ⟨offer (withIntake (withContexts (with3 live) (taken 48) none) (List.replicate 16 (entry .plain))) (rd 0 0 16), rd 0 0 16,
      [], by decide⟩⟩

theorem test_meets_PlacementTakesLowestFreeContext :
    (∃ (s : State) (e : IntakeEntry) (n : ContextId), s.resetting = none ∧ s.uport.intake = [e] ∧
      s.translator.walking.isSome = true ∧
      (s.translator.paused = false ∨ ∀ (p : PieceId), s.translator.pieces[p].use ≠ none) ∧
      (∀ c ∈ s.translator.contexts, c.state ≠ .complete) ∧ (∀ c ∈ s.translator.contexts, c.num ≠ n) ∧
      (∀ m < n, ∃ c ∈ s.translator.contexts, c.num = m) ∧ e.cls ≠ .refused) ∧
    (∃ (s : State) (e : IntakeEntry) (n : ContextId), s.resetting = none ∧ s.uport.intake = [e] ∧
      s.translator.walking.isSome = true ∧
      (s.translator.paused = false ∨ ∀ (p : PieceId), s.translator.pieces[p].use ≠ none) ∧
      (∀ c ∈ s.translator.contexts, c.state ≠ .complete) ∧ (∀ c ∈ s.translator.contexts, c.num ≠ n) ∧
      (∀ m < n, ∃ c ∈ s.translator.contexts, c.num = m) ∧ e.cls = .refused ∧
      (∀ c ∈ s.translator.contexts, c.initiator ≠ e.initiator)) ∧
    (∃ (s : State) (e : IntakeEntry), s.resetting = none ∧ s.uport.intake = [e] ∧ s.translator.walking.isSome = true ∧
      (s.translator.paused = false ∨ ∀ (p : PieceId), s.translator.pieces[p].use ≠ none) ∧
      (∀ c ∈ s.translator.contexts, c.state ≠ .complete) ∧ (∀ (n : ContextId), ∃ c ∈ s.translator.contexts, c.num = n)) :=
  ⟨⟨withIntake (withContexts (with3 live) (taken 47) (some 0)) [entry .canvas], entry .canvas, 47, by decide⟩,
    ⟨withIntake (withContexts (with3 live) (taken 1) (some 0)) [entry .refused], entry .refused, 1, by decide⟩,
    ⟨withIntake (withContexts (with3 live) (taken 48) (some 0)) [entry .plain], entry .plain, by decide⟩⟩

theorem test_meets_WalkStartsEarliestWaiting :
    (∃ (s : State) (pre : List Context) (post : List Context) (c : Context), s.resetting = none ∧ s.translator.walker = none ∧
      s.uport.intake = [] ∧ s.translator.contexts = pre ++ c :: post ∧
      (List.map (fun x => x.num) s.translator.contexts).Nodup ∧ c.state = .waiting ∧ (∀ x ∈ pre, x.state ≠ .waiting) ∧
      (∀ x ∈ s.translator.contexts, x.state ≠ .complete) ∧ c.cls = .canvas) ∧
    (∃ (s : State) (pre : List Context) (post : List Context) (c : Context) (n : PieceId), s.resetting = none ∧
      s.translator.walker = none ∧ s.uport.intake = [] ∧ s.translator.contexts = pre ++ c :: post ∧
      (List.map (fun x => x.num) s.translator.contexts).Nodup ∧ c.state = .waiting ∧ (∀ x ∈ pre, x.state ≠ .waiting) ∧
      (∀ x ∈ s.translator.contexts, x.state ≠ .complete) ∧ c.cls = .plain ∧ c.place = none ∧ c.pieces = [] ∧ 1 ≤ c.beats ∧
      (∀ x ∈ post, x.state ≠ .waiting) ∧ s.translator.pieces[n].use = none ∧ (∀ m < n, s.translator.pieces[m].use ≠ none)) ∧
    (∃ (s : State) (pre : List Context) (post : List Context) (c : Context), s.resetting = none ∧ s.translator.walker = none ∧
      s.uport.intake = [] ∧ s.translator.contexts = pre ++ c :: post ∧
      (List.map (fun x => x.num) s.translator.contexts).Nodup ∧ c.state = .waiting ∧ (∀ x ∈ pre, x.state ≠ .waiting) ∧
      (∀ x ∈ s.translator.contexts, x.state ≠ .complete) ∧ c.cls = .plain ∧ c.place = none ∧ c.pieces = [] ∧ 1 ≤ c.beats ∧
      (∀ x ∈ post, x.state ≠ .waiting) ∧ (∀ (m : PieceId), s.translator.pieces[m].use ≠ none)) :=
  ⟨⟨withContexts (withCanvas (with3 live)) [ctx 0 .plain .gathering [0], { ctx 1 .canvas .waiting [] with address := 4194304 + 512 * 3 + 448 }, ctx 2 .canvas .waiting []] none,
    [ctx 0 .plain .gathering [0]], [ctx 2 .canvas .waiting []],
    { ctx 1 .canvas .waiting [] with address := 4194304 + 512 * 3 + 448 }, by decide⟩,
    ⟨withPieces (withContexts (with3 live) [ctx 0 .canvas .gathering [], ctx 1 .plain .waiting []] none) 255,
      [ctx 0 .canvas .gathering []], [], ctx 1 .plain .waiting [], 255, by decide +kernel⟩,
    ⟨withPieces (withContexts (with3 live) [ctx 0 .canvas .gathering [], ctx 1 .plain .waiting []] none) 256,
      [ctx 0 .canvas .gathering []], [], ctx 1 .plain .waiting [], by decide +kernel⟩⟩

/-- Context `c` is walked, no read is waiting or complete, and `u` is the piece that is due. -/
abbrev pieceIsDue (s : State) (pre post : List Context) (c : Context) (place : WalkPlace) (u : PieceUse) : Prop :=
  s.resetting = none ∧ s.uport.intake = [] ∧ s.translator.walker = some c.num ∧ s.translator.contexts = pre ++ c :: post ∧
    (s.translator.contexts.map (·.num)).Nodup ∧ c.cls = .canvas ∧ c.state = .walking ∧ c.place = some place ∧
    (∀ x ∈ s.translator.contexts, x.state ≠ .complete ∧ x.state ≠ .waiting) ∧
    u = s.pieceDue c (c.pieces.map s.translator.pieceCount).sum

/-- Record `n` is the lowest-numbered free one. -/
abbrev lowestRecord (s : State) (n : PieceId) : Prop :=
  s.translator.pieces[n].use = none ∧ ∀ m : PieceId, m < n → s.translator.pieces[m].use ≠ none

theorem lowestRecord_zero {s : State} (h : s.translator.pieces[(0 : PieceId)].use = none) : lowestRecord s 0 :=
  ⟨h, fun m hm => absurd hm (Nat.not_lt_zero m.val)⟩

theorem lowestRecord_one {s : State} (h : s.translator.pieces[(1 : PieceId)].use = none)
    (h0 : s.translator.pieces[(0 : PieceId)].use ≠ none) : lowestRecord s 1 :=
  ⟨h, fun m hm => by
    obtain rfl : m = 0 := Fin.ext (by have : m.val < 1 := hm; omega)
    exact h0⟩

/-- The clauses on the end of DRAIN hold in each of its three cases. -/
theorem test_meets_GenerationTakesLowestFreeRecord :
    (∃ (s : State) (pre post : List Context) (c : Context) (place : WalkPlace) (u : PieceUse) (n : PieceId),
      pieceIsDue s pre post c place u ∧ lowestRecord s n ∧ u.first + u.count < c.beats * 8) ∧
    (∃ (s : State) (pre post : List Context) (c : Context) (place : WalkPlace) (u : PieceUse) (n : PieceId),
      pieceIsDue s pre post c place u ∧ lowestRecord s n ∧ c.beats * 8 ≤ u.first + u.count ∧ s.layout.ctl ≠ .drain ∧
      ∀ k, u.kind ≠ .colour k) ∧
    (∃ (s : State) (pre post : List Context) (c : Context) (place : WalkPlace) (u : PieceUse) (n : PieceId),
      pieceIsDue s pre post c place u ∧ lowestRecord s n ∧ c.beats * 8 ≤ u.first + u.count ∧ s.layout.ctl = .drain ∧
      s.layout.checkFailure = none ∧ ∀ k, u.kind ≠ .colour k) ∧
    (∃ (s : State) (pre post : List Context) (c : Context) (place : WalkPlace) (u : PieceUse) (n : PieceId) (code : FailCode)
        (w : Option WindowId),
      pieceIsDue s pre post c place u ∧ lowestRecord s n ∧ c.beats * 8 ≤ u.first + u.count ∧ s.layout.ctl = .drain ∧
      s.layout.checkFailure = some (code, w) ∧
      ∃ q ∈ c.pieces, ∃ x, s.translator.pieces[q].use = some x ∧ x.state ≠ .done) ∧
    (∃ (s : State) (pre post : List Context) (c : Context) (place : WalkPlace) (u : PieceUse) (n : PieceId),
      pieceIsDue s pre post c place u ∧ lowestRecord s n ∧ c.beats * 8 ≤ u.first + u.count ∧ s.layout.ctl ≠ .drain ∧
      (∃ k, u.kind = .colour k) ∧ (∀ q ∈ c.pieces, ∃ x, s.translator.pieces[q].use = some x ∧ x.state = .done) ∧
      ∃ x ∈ pre, x.initiator = c.initiator) ∧
    (∃ (s : State) (pre post : List Context) (c : Context) (place : WalkPlace) (u : PieceUse) (n : PieceId),
      pieceIsDue s pre post c place u ∧ lowestRecord s n ∧ c.beats * 8 ≤ u.first + u.count ∧ s.layout.ctl ≠ .drain ∧
      (∃ k, u.kind = .colour k) ∧ (∀ q ∈ c.pieces, ∃ x, s.translator.pieces[q].use = some x ∧ x.state = .done) ∧
      ∀ x ∈ pre, x.initiator ≠ c.initiator) ∧
    (∃ (s : State) (pre post : List Context) (c : Context) (place : WalkPlace) (u : PieceUse),
      pieceIsDue s pre post c place u ∧ ∀ m : PieceId, s.translator.pieces[m].use ≠ none) :=
  ⟨⟨walkingAt shown 0 24, [ctx 0 .plain .gathering []], [], walk 0 24, ⟨.a, 0, 24⟩,
    (walkingAt shown 0 24).pieceDue (walk 0 24) 0, 0, by decide +kernel⟩,
    ⟨walkingAt shown 3 0, [ctx 0 .plain .gathering []], [], walk 3 0, ⟨.a, 3, 0⟩, _,
      0, ⟨by decide, by decide, by decide, by decide, by decide, by decide, by decide, by decide, by decide, rfl⟩,
      lowestRecord_zero rfl, by decide, by decide, notColour (by decide)⟩,
    ⟨draining shown, [ctx 0 .plain .gathering []], [], walk 3 0, ⟨.a, 3, 0⟩, _,
      0, ⟨by decide, by decide, by decide, by decide, by decide, by decide, by decide, by decide, by decide, rfl⟩,
      lowestRecord_zero rfl, by decide, by decide, by decide, notColour (by decide)⟩,
    ⟨halfWalked .queued (ctx 0 .plain .gathering []) .drain tooWide, [ctx 0 .plain .gathering []], [], secondHalf, ⟨.a, 0, 0⟩,
      _, 1, .badWindow, some 1,
      ⟨by decide, by decide, by decide, by decide, by decide, by decide, by decide, by decide, by decide, rfl⟩,
      lowestRecord_one rfl (by decide), by decide, by decide, by decide, ⟨0, by decide, _, rfl, by decide⟩⟩,
    ⟨halfWalked .done (ctx 0 .plain .gathering []) .idle layout, [ctx 0 .plain .gathering []], [], secondHalf, ⟨.a, 0, 0⟩,
      _, 1,
      ⟨by decide, by decide, by decide, by decide, by decide, by decide, by decide, by decide, by decide, rfl⟩,
      lowestRecord_one rfl (by decide), by decide, by decide, ⟨_, rfl⟩, by intro q hq; obtain rfl := List.mem_singleton.mp hq; exact ⟨_, rfl, rfl⟩,
      by decide⟩,
    ⟨halfWalked .done otherRead .idle layout, [otherRead], [], secondHalf, ⟨.a, 0, 0⟩,
      _, 1,
      ⟨by decide, by decide, by decide, by decide, by decide, by decide, by decide, by decide, by decide, rfl⟩,
      lowestRecord_one rfl (by decide), by decide, by decide, ⟨_, rfl⟩, by intro q hq; obtain rfl := List.mem_singleton.mp hq; exact ⟨_, rfl, rfl⟩,
      by decide⟩,
    ⟨withPieces (walkingAt shown 3 0) 256, [ctx 0 .plain .gathering []], [], walk 3 0, ⟨.a, 3, 0⟩,
      (withPieces (walkingAt shown 3 0) 256).pieceDue (walk 3 0) 0, by decide +kernel⟩⟩

theorem test_meets_OwnerIsFirstWindowThatCovers :
    (∃ (canvas : Canvas) (x : Nat) (y : Nat), y < canvas.height ∧ canvas.width ≤ x) ∧
    (∃ (s : State) (l : Layout) (canvas : Canvas) (x : Nat) (y : Nat) (pre : List WindowId) (post : List WindowId) (w :
      WindowId), y < canvas.height ∧
      x < canvas.width ∧ (l.compile canvas).overrideList = pre ++ w :: post ∧
      (∃ g, l.windows[w].group = some g ∧ s.override.groups[g].state ≠ .idle) ∧ l.windows[w].covers x y = true ∧
      (∀ v ∈ pre, (∀ (g : GroupId), l.windows[v].group = some g →
        s.override.groups[g].state = .idle) ∨ l.windows[v].covers x y = false)) ∧
    (∃ (s : State) (l : Layout) (canvas : Canvas) (x : Nat) (y : Nat) (pre : List WindowId) (post : List WindowId) (w :
      WindowId), y < canvas.height ∧
      x < canvas.width ∧
      (∀ v ∈ (l.compile canvas).overrideList, (∀ (g : GroupId), l.windows[v].group = some g →
        s.override.groups[g].state = .idle) ∨ l.windows[v].covers x y = false) ∧
      l.stacked = pre ++ w :: post ∧ l.windows[w].covers x y = true ∧ (∀ v ∈ pre, l.windows[v].covers x y = false)) ∧
    (∃ (s : State) (l : Layout) (canvas : Canvas) (x : Nat) (y : Nat), y < canvas.height ∧ x < canvas.width ∧
      (∀ v ∈ (l.compile canvas).overrideList, (∀ (g : GroupId), l.windows[v].group = some g →
        s.override.groups[g].state = .idle) ∨ l.windows[v].covers x y = false) ∧
      (∀ v ∈ l.stacked, l.windows[v].covers x y = false)) :=
  ⟨⟨canvas, 64, 3, by decide⟩,
    ⟨shown.putGroup 0 { groupOn with state := .holding }, layout, canvas, 55, 1, [], [], 5, by decide⟩,
    ⟨shown.putGroup 0 { groupOn with state := .holding }, layout, canvas, 16, 0, [1], [], 2, by decide⟩,
    ⟨shown.putGroup 0 { groupOn with state := .holding }, layout, canvas, 63, 3, by decide⟩⟩

/-- Window `n` owns the pixel; `w` is its record, `i` the source it names if it shows one, and `e` the width of its border. -/
abbrev ownedBy (s : State) (b : Bank) (x y : Nat) (n : WindowId) (via : Bool) (w : Window) (e : Nat) (i : SourceId) : Prop :=
  s.ownerAt b x y = .window n via ∧ w = b.layout.windows[n] ∧ (w.content = .source → w.source = i.val) ∧
    e = if w.borderWidth ≠ 0 then w.borderWidth
      else if via = true ∨ (w.content = .source ∧ (s.sources[i].state = .contained ∨ s.sources[i].stale = true)) then 2 else 0

/-- The pixel lies in a border band of width `e`. -/
abbrev inBorder (w : Window) (x y e : Nat) : Prop :=
  x < w.x + e ∨ w.x + w.width ≤ x + e ∨ y < w.y + e ∨ w.y + w.height ≤ y + e

theorem test_meets_PixelShowsAsTableSays :
    (∃ (s : State) (b : Bank) (x y : Nat), s.ownerAt b x y = .padding) ∧
    (∃ (s : State) (b : Bank) (x y : Nat), s.ownerAt b x y = .background ∧ b.layout.background = .pass) ∧
    (∃ (s : State) (b : Bank) (x y : Nat), s.ownerAt b x y = .background ∧ b.layout.background = .fill) ∧
    (∃ (s : State) (b : Bank) (x y : Nat) (n : WindowId) (via : Bool) (w : Window) (e : Nat) (i : SourceId) (g : GroupId)
        (k : Fin 9),
      ownedBy s b x y n via w e i ∧ inBorder w x y e ∧ via = true ∧ w.group = some g ∧ k.val = 4 + g.val) ∧
    (∃ (s : State) (b : Bank) (x y : Nat) (n : WindowId) (via : Bool) (w : Window) (e : Nat) (i : SourceId),
      ownedBy s b x y n via w e i ∧ inBorder w x y e ∧ via = false ∧ w.content = .source ∧
      s.sources[i].state = .contained) ∧
    (∃ (s : State) (b : Bank) (x y : Nat) (n : WindowId) (via : Bool) (w : Window) (e : Nat) (i : SourceId),
      ownedBy s b x y n via w e i ∧ inBorder w x y e ∧ via = false ∧ w.content = .source ∧
      s.sources[i].state ≠ .contained ∧ s.sources[i].stale = true) ∧
    (∃ (s : State) (b : Bank) (x y : Nat) (n : WindowId) (via : Bool) (w : Window) (e : Nat) (i : SourceId),
      ownedBy s b x y n via w e i ∧ inBorder w x y e ∧ via = false ∧
      (w.content = .fill ∨ (s.sources[i].state ≠ .contained ∧ s.sources[i].stale = false))) ∧
    (∃ (s : State) (b : Bank) (x y : Nat) (n : WindowId) (via : Bool) (w : Window) (e : Nat) (i : SourceId),
      ownedBy s b x y n via w e i ∧ ¬inBorder w x y e ∧ w.content = .fill) ∧
    (∃ (s : State) (b : Bank) (x y : Nat) (n : WindowId) (via : Bool) (w : Window) (e : Nat) (i : SourceId),
      ownedBy s b x y n via w e i ∧ ¬inBorder w x y e ∧ w.content = .source ∧
      ((s.sources[i].state ≠ .live ∧ s.sources[i].state ≠ .contained) ∨ ¬s.sources[i].hasRole .front)) ∧
    (∃ (s : State) (b : Bank) (x y : Nat) (n : WindowId) (via : Bool) (w : Window) (e : Nat) (i : SourceId) (l : Letter),
      ownedBy s b x y n via w e i ∧ ¬inBorder w x y e ∧ w.content = .source ∧
      (s.sources[i].state = .live ∨ s.sources[i].state = .contained) ∧ s.sources[i].oneOf .front ∧
      (s.sources[i].bufs.get l).role = .front) :=
  ⟨⟨shown, layout.compile canvas, 64, 0, by decide⟩,
    ⟨shown, layout.compile canvas, 63, 3, by decide⟩,
    ⟨shown, {layout with background := .fill}.compile canvas, 63, 3, by decide⟩,
    ⟨shown.putGroup 0 { groupOn with state := .holding }, layout.compile canvas, 55, 1, 5, true,
      { win with x := 40, group := some 0, borderWidth := 0 }, 2, 0, 0, 4, by decide⟩,
    ⟨images { live with state := .contained }, imageLayout.compile canvas, 0, 2, 6, false, imageLayout.windows[6], 2, 3,
      by decide⟩,
    ⟨images { live with stale := true }, imageLayout.compile canvas, 6, 2, 6, false, imageLayout.windows[6], 2, 3,
      by decide⟩,
    ⟨shown, {layout with windows := putAt layout.windows 1 { win with borderWidth := 1 }}.compile canvas, 15, 1, 1, false,
      { win with borderWidth := 1 }, 1, 0, by decide⟩,
    ⟨shown, layout.compile canvas, 15, 1, 1, false, { win with borderWidth := 0 }, 0, 0, by decide⟩,
    ⟨images (source .await (clean .spent) (clean .fill) (clean .spent)), imageLayout.compile canvas, 0, 2, 6, false,
      imageLayout.windows[6], 0, 3, by decide, by decide, by decide, .inr (mt (Source.hasRole_iff _ _).mp (by decide))⟩,
    ⟨images live, imageLayout.compile canvas, 23, 2, 7, false, imageLayout.windows[7], 0, 3, .a, by decide,
      by decide, by decide, by decide, (Source.oneOf_iff _ _).mpr (by decide), by decide⟩⟩

theorem test_meets_PieceCoversLongestRun :
    (∃ (s : State) (c : Context) (p : WalkPlace) (j : Nat) (b : Bank) (u : PieceUse), c.place = some p ∧ j < c.beats * 8 ∧
      c.beats ≤ 16 ∧ b = s.layout.bank p.bank ∧ u = s.pieceDue c j) :=
  ⟨shown, walk 0 24, ⟨.a, 0, 24⟩, 0, layout.compile canvas, shown.pieceDue (walk 0 24) 0, by decide⟩

theorem test_meets_PieceFillsItsPixels :
    (∃ (u : PieceUse) (k : Colour), (u.errorFill = some k ∨ u.errorFill = none ∧ u.kind = .colour k)) ∧
    (∃ (u : PieceUse) (d : List Byte) (f : ImagePiece), u.errorFill = none ∧ u.kind = .image f ∧ u.data = some d ∧
      d.length = 32 * f.beats ∧ (∀ q < u.count, f.firstSx % 8 + (f.phase + q) / f.hscale < 8 * f.beats)) ∧
    (∃ (c : Context) (u : PieceUse) (d : List Byte) (a : Nat) (n : Nat) (x : Nat), u.errorFill = none ∧ u.kind = .plain a n ∧
      u.data = some d ∧ d.length = 32 * n ∧ (x =   match c.place with   | some p => p.firstX + u.first   | none => u.first) ∧
      x % 8 + u.count ≤ 8 * n) :=
  ⟨⟨⟨0, 3, 5, .plain 0 1, .done, none, some 0x123456⟩, 0x123456, by decide⟩,
    ⟨⟨0, 0, 16, .image ⟨3, .a, 0, 4, 11, 2, 1, 131072, 2⟩, .done, some ((List.range 64).map (BitVec.ofNat 8 ·)), none⟩,
      (List.range 64).map (BitVec.ofNat 8 ·), ⟨3, .a, 0, 4, 11, 2, 1, 131072, 2⟩, by decide⟩,
    ⟨walk 0 4, ⟨0, 3, 9, .plain 0 2, .done, some ((List.range 64).map (BitVec.ofNat 8 ·)), none⟩,
      (List.range 64).map (BitVec.ofNat 8 ·), 0, 2, 7, by decide⟩⟩

theorem test_meets_AnswerFreesContextAndPieces :
    (∃ (s : State) (pre : List Context) (post : List Context) (c : Context), s.resetting = none ∧
      s.translator.contexts = pre ++ c :: post ∧ (List.map (fun x => x.num) s.translator.contexts).Nodup ∧
      c.state = .complete ∧ (∀ x ∈ pre ++ post, x.state ≠ .complete) ∧ (∀ x ∈ pre, x.initiator ≠ c.initiator) ∧
      s.uport.intake = [] ∧ s.translator.walking.isSome = true ∧ s.translator.walker ≠ some c.num ∧
      s.translator.paused = false) ∧
    (∃ (s : State) (pre : List Context) (post : List Context) (c : Context), s.resetting = none ∧
      s.translator.contexts = pre ++ c :: post ∧ (List.map (fun x => x.num) s.translator.contexts).Nodup ∧
      (c.state ≠ .complete ∨ ∃ x ∈ pre, x.initiator = c.initiator)) :=
  ⟨⟨withPieces (withContexts (with3 live) [ctx 0 .canvas .walking [], { ctx 1 .plain .complete [1, 2] with initiator := 4, partialFlag := true }, ctx 2 .plain .gathering []] (some 0)) 9,
    [ctx 0 .canvas .walking []], [ctx 2 .plain .gathering []],
    { ctx 1 .plain .complete [1, 2] with initiator := 4, partialFlag := true }, by decide⟩,
    ⟨withContexts (with3 live) [ctx 0 .canvas .walking [], ctx 1 .plain .complete [1, 2]] (some 0),
      [ctx 0 .canvas .walking []], [], ctx 1 .plain .complete [1, 2], by decide⟩⟩

theorem test_meets_ArbiterGrantsOneHead :
    (∃ (s : State) (p : PieceId) (rest : List PieceId) (u : PieceUse), s.resetting = none ∧ s.dport.readLane = p :: rest ∧
      s.translator.pieces[p].use = some u ∧ (∀ k, u.kind ≠ .colour k) ∧ (s.writeChoice = none ∨ s.dport.readRun < 8)) ∧
    (∃ (s : State) (l : Fin 17) (k : TrackerId) (i : SourceId) (w : SourceWrite) (rest : List SourceWrite),
      s.resetting = none ∧
      (s.dport.readLane = [] ∨ 8 ≤ s.dport.readRun) ∧ s.writeChoice = some l ∧ s.dport.trackers[k].use = none ∧
      (∀ m < k, s.dport.trackers[m].use ≠ none) ∧ i.val = l.val ∧ s.dport.writeLanes[i] = w :: rest) ∧
    (∃ (s : State) (l : Fin 17) (k : TrackerId) (w : PlainWrite) (rest : List PlainWrite), s.resetting = none ∧
      (s.dport.readLane = [] ∨ 8 ≤ s.dport.readRun) ∧ s.writeChoice = some l ∧ s.dport.trackers[k].use = none ∧
      (∀ m < k, s.dport.trackers[m].use ≠ none) ∧ l.val = 16 ∧ s.uport.plainWrites = w :: rest) ∧
    (∃ (s : State), s.resetting = none) ∧
    (∃ (s : State), s.resetting = none ∧ s.dport.readLane = [] ∧ s.writeChoice = none) :=
  ⟨⟨readLane live 7, 0, [1], ⟨0, 0, 8, .plain 0 1, .queued, none, none⟩, rfl, rfl, by decide +kernel, notColour rfl,
      by decide +kernel⟩,
    ⟨laned (withPieces (with3 live) 2) 8, 3, 5, 3, ⟨131072, 1, [], 3, .a⟩, [], by decide⟩,
    ⟨plainLaned (with3 live), 16, 63, ⟨9, 0, 1, []⟩, [], by decide⟩,
    ⟨with3 live, by decide⟩,
    ⟨with3 live, by decide⟩⟩

/-- Piece `p` of context `c` is ISSUED, and nothing on the read path is due. -/
abbrev issuedPiece (s : State) (p : PieceId) (g : Bool) (u : PieceUse) (timer : Deadline) (pre post : List Context)
    (c : Context) : Prop :=
  s.resetting = none ∧ s.settled ∧ s.translator.pieces[p] = ⟨g, some u⟩ ∧ u.state = .issued timer ∧
    s.translator.contexts = pre ++ c :: post ∧ (s.translator.contexts.map (·.num)).Nodup ∧ u.context = c.num

/-- The context is walked, or another of its pieces is not DONE. -/
abbrev othersPending (s : State) (p : PieceId) (c : Context) : Prop :=
  c.state ≠ .gathering ∨ ∃ q ∈ c.pieces, q ≠ p ∧ ∃ v, s.translator.pieces[q].use = some v ∧ v.state ≠ .done

/-- `p` is the last piece of a gathering context that is not DONE. -/
abbrev lastPiece (s : State) (p : PieceId) (c : Context) : Prop :=
  c.state = .gathering ∧ p ∈ c.pieces ∧
    ∀ q ∈ c.pieces, q ≠ p → ∃ v, s.translator.pieces[q].use = some v ∧ v.state = .done

/-- The context is answered when it is COMPLETE. -/
abbrev answeredNow (s : State) (pre post : List Context) (c : Context) : Prop :=
  c.cls ≠ .refused ∧ s.uport.intake = [] ∧ (s.translator.paused = false ∨ s.translator.walker = none) ∧
    s.translator.walker ≠ some c.num ∧ (∀ x ∈ pre, x.initiator ≠ c.initiator) ∧
    ∀ x ∈ post, x.initiator = c.initiator → x.state ≠ .complete

/-- An IMAGE piece whose source is not CLOSING and is `y` when the piece has released its read hold. -/
abbrev imageOf (s : State) (u : PieceUse) (n : Nat) (f : ImagePiece) (y : Source) : Prop :=
  u.kind = .image f ∧ n = f.beats ∧ 1 ≤ n ∧ n ≤ 16 ∧ s.sources[f.source].state ≠ .closing ∧
    s.sources[f.source].readHoldReleased f.buffer y

theorem test_meets_ReadDataCompletesPiece :
    (∃ (s : State) (p : PieceId) (g : Bool) (d : List Byte) (u : PieceUse) (timer : Deadline) (pre post : List Context)
        (c : Context) (a n : Nat),
      issuedPiece s p g u timer pre post c ∧ u.kind = .plain a n ∧ 1 ≤ n ∧ n ≤ 16 ∧ d.length = 32 * n ∧
      othersPending s p c) ∧
    (∃ (s : State) (p : PieceId) (g : Bool) (d : List Byte) (u : PieceUse) (timer : Deadline) (pre post : List Context)
        (c : Context) (n : Nat) (f : ImagePiece) (y : Source),
      issuedPiece s p g u timer pre post c ∧ imageOf s u n f y ∧ d.length = 32 * n ∧ othersPending s p c ∧
      s.sources[f.source].fillWait = true ∧ y.fillWait = false) ∧
    (∃ (s : State) (p : PieceId) (g : Bool) (d : List Byte) (u : PieceUse) (timer : Deadline) (pre post : List Context)
        (c : Context) (n : Nat) (f : ImagePiece) (y : Source),
      issuedPiece s p g u timer pre post c ∧ imageOf s u n f y ∧ d.length = 32 * n ∧ lastPiece s p c ∧
      ∃ x ∈ pre, x.initiator = c.initiator) ∧
    (∃ (s : State) (p : PieceId) (g : Bool) (d : List Byte) (u : PieceUse) (timer : Deadline) (pre post : List Context)
        (c : Context) (a n : Nat),
      issuedPiece s p g u timer pre post c ∧ u.kind = .plain a n ∧ 1 ≤ n ∧ n ≤ 16 ∧ d.length = 32 * n ∧
      lastPiece s p c ∧ answeredNow s pre post c) :=
  ⟨⟨reading (.plain 131072 1) .queued live [], 0, true, List.replicate 32 7, issuedUse (.plain 131072 1), .us16, [], [],
      gathered, 131072, 1, by decide, rfl, by decide, by decide, by decide, .inr ⟨1, by decide, by decide, _, rfl, by decide⟩⟩,
    ⟨reading (.image imagePiece) .queued waitsForFill [], 0, true, List.replicate 32 7, issuedUse (.image imagePiece), .us16,
      [], [], gathered, 1, imagePiece, filled, by decide,
      ⟨rfl, by decide, by decide, by decide, by decide, Source.fillWaitTested_iff.mpr (by decide)⟩, by decide,
      .inr ⟨1, by decide, by decide, _, rfl, by decide⟩, by decide, by decide⟩,
    ⟨reading (.image imagePiece) .done heldFront [ctx 9 .canvas .gathering []], 0, true, List.replicate 32 7,
      issuedUse (.image imagePiece), .us16, [ctx 9 .canvas .gathering []], [], gathered, 1, imagePiece, live, by decide,
      ⟨rfl, by decide, by decide, by decide, by decide, Source.fillWaitTested_iff.mpr (by decide)⟩, by decide,
      ⟨by decide, by decide, otherDone rfl⟩, by decide⟩,
    ⟨reading (.plain 131072 1) .done live [], 0, true, List.replicate 32 7, issuedUse (.plain 131072 1), .us16, [], [],
      gathered, 131072, 1, by decide, rfl, by decide, by decide, by decide, ⟨by decide, by decide, otherDone rfl⟩, by decide⟩⟩

/-- The deadline of piece `p` expires, or its response is ERROR or OK with other than `n` beats. -/
abbrev readFails (p : PieceId) (g : Bool) (n : Nat) (i : Instr) (cls : ErrClass) : Prop :=
  (i = .readTimeout p ∧ cls = .readTimeout) ∨ (i = .downstreamResponse (.readError p g) ∧ cls = .readError) ∨
    ∃ d : List Byte, i = .downstreamResponse (.readOk p g d) ∧ i.wellFormed = true ∧ d.length ≠ 32 * n ∧ cls = .readError

theorem test_meets_FailedReadErrorFillsPiece :
    (∃ (s : State) (p : PieceId) (g : Bool) (u : PieceUse) (timer : Deadline) (pre post : List Context) (c : Context)
        (a n : Nat) (i : Instr) (cls : ErrClass),
      issuedPiece s p g u timer pre post c ∧ u.kind = .plain a n ∧ readFails p g n i cls ∧ othersPending s p c) ∧
    (∃ (s : State) (p : PieceId) (g : Bool) (u : PieceUse) (timer : Deadline) (pre post : List Context) (c : Context)
        (n : Nat) (f : ImagePiece) (y : Source) (i : Instr) (cls : ErrClass),
      issuedPiece s p g u timer pre post c ∧ imageOf s u n f y ∧ readFails p g n i cls ∧ othersPending s p c ∧
      s.sources[f.source].fillWait = true ∧ y.fillWait = false) ∧
    (∃ (s : State) (p : PieceId) (g : Bool) (u : PieceUse) (timer : Deadline) (pre post : List Context) (c : Context)
        (a n : Nat) (i : Instr) (cls : ErrClass),
      issuedPiece s p g u timer pre post c ∧ u.kind = .plain a n ∧ readFails p g n i cls ∧ lastPiece s p c ∧
      ∃ x ∈ pre, x.initiator = c.initiator) ∧
    (∃ (s : State) (p : PieceId) (g : Bool) (u : PieceUse) (timer : Deadline) (pre post : List Context) (c : Context)
        (n : Nat) (f : ImagePiece) (y : Source) (i : Instr) (cls : ErrClass),
      issuedPiece s p g u timer pre post c ∧ imageOf s u n f y ∧ readFails p g n i cls ∧ lastPiece s p c ∧
      answeredNow s pre post c) ∧
    (∃ (s : State) (p : PieceId), s.resetting = none ∧ (s.translator.pieces[p].use = none ∨
      ∃ u, s.translator.pieces[p].use = some u ∧ (u.state = .queued ∨ u.state = .done))) :=
  ⟨⟨reading (.plain 131072 1) .queued live [], 0, true, issuedUse (.plain 131072 1), .us16, [], [], gathered, 131072, 1,
      .readTimeout 0, .readTimeout, by decide, rfl, .inl ⟨rfl, rfl⟩, .inr ⟨1, by decide, by decide, _, rfl, by decide⟩⟩,
    ⟨reading (.image imagePiece) .queued waitsForFill [], 0, true, issuedUse (.image imagePiece), .us16, [], [], gathered, 1,
      imagePiece, filled, .downstreamResponse (.readError 0 true), .readError, by decide,
      ⟨rfl, by decide, by decide, by decide, by decide, Source.fillWaitTested_iff.mpr (by decide)⟩, .inr (.inl ⟨rfl, rfl⟩),
      .inr ⟨1, by decide, by decide, _, rfl, by decide⟩, by decide, by decide⟩,
    ⟨reading (.plain 131072 1) .done live [ctx 9 .canvas .gathering []], 0, true, issuedUse (.plain 131072 1), .us16,
      [ctx 9 .canvas .gathering []], [], gathered, 131072, 1, .downstreamResponse (.readOk 0 true (List.replicate 64 7)),
      .readError, by decide, rfl, .inr (.inr ⟨_, rfl, by decide, by decide, rfl⟩), ⟨by decide, by decide, otherDone rfl⟩,
      by decide⟩,
    ⟨reading (.image imagePiece) .done heldFront [], 0, true, issuedUse (.image imagePiece), .us16, [], [], gathered, 1,
      imagePiece, live, .readTimeout 0, .readTimeout, by decide,
      ⟨rfl, by decide, by decide, by decide, by decide, Source.fillWaitTested_iff.mpr (by decide)⟩, .inl ⟨rfl, rfl⟩,
      ⟨by decide, by decide, otherDone rfl⟩, by decide⟩,
    ⟨reading (.plain 131072 1) .queued live [], 1, rfl, .inr ⟨_, rfl, .inl rfl⟩⟩⟩

/-- Tracker `k` is BUSY with an APERTURE write whose source is `x` at the release of its hold on buffer `l`, and `y` after it. -/
abbrev holdReleased (s : State) (k : TrackerId) (g : Bool) (u : TrackerUse) (i : SourceId) (l : Letter) (x y : Source)
    (es : List ErrEvent) : Prop :=
  s.resetting = none ∧ s.dport.trackers[k] = ⟨g, some u⟩ ∧ u.origin = .aperture i l ∧ x.state ≠ .closing ∧
    x.writeHoldReleased i l y es

/-- Tracker 5 of source 3, which is `x` before the command and `z` when its buffer B loses its hold. -/
theorem heldB (x : Source) {y w : Source} {es : List ErrEvent} (z : Source) (b : Buffer) (hw : w = z := by decide) (hb : b = z.bufs.get .b := by decide)
    (h : z.state ≠ .closing := by decide)
    (h1 : (b.role ≠ .sealing ∨ 2 ≤ b.writeHold) →
      y = Source.endFillWait { z with bufs := z.bufs.put .b { b with writeHold := b.writeHold - 1 } } ∧ es = [] := by decide)
    (h2 : b.role = .sealing → b.writeHold ≤ 1 → b.poison = false → z.state ≠ .contained →
      y = Source.endFillWait { z with bufs := z.bufs.put .b { b with writeHold := 0, role := .ready } } ∧ es = [] := by decide)
    (h3 : b.role = .sealing → b.writeHold ≤ 1 → b.poison = false → z.state = .contained →
      y = Source.endFillWait { z with bufs := z.bufs.put .b { b with writeHold := 0, role := .spent } } ∧ es = [] := by decide)
    (h4 : b.role = .sealing → b.writeHold ≤ 1 → b.poison = true →
      (z.cfg.containment ≠ 1 ∨ (z.state ≠ .await ∧ z.state ≠ .live)) →
        y = Source.endFillWait { z with bufs := z.bufs.put .b { b with writeHold := 0, role := .spent } } ∧
          es = [⟨.poisonDiscard, some 3, some (z.cfg.bufferBase .b), some 3, none⟩] := by decide)
    (h5 : b.role = .sealing → b.writeHold ≤ 1 → b.poison = true → z.cfg.containment = 1 →
      (z.state = .await ∨ z.state = .live) →
        y = Source.endFillWait { z with state := .contained, bufs := z.bufs.put .b { b with writeHold := 0, role := .spent } } ∧
          es = [⟨.poisonDiscard, some 3, some (z.cfg.bufferBase .b), some 3, none⟩,
            ⟨.contain, some 3, some (z.cfg.bufferBase .b), some 3, none⟩] := by decide) :
    holdReleased (writing (with3 x) (.aperture 3 .b)) 5 true ⟨.aperture 3 .b, 131072, 1, .us16⟩ 3 .b w y es := by
  subst hw hb
  refine ⟨rfl, putAt_same_fin _ _ _, rfl, h, ?_⟩
  rintro _ rfl
  simp only [Source.fillWaitTested_iff]
  exact ⟨h1, h2, h3, h4, h5⟩

theorem test_meets_WriteOkReleasesHold :
    (∃ (s : State) (k : TrackerId) (g : Bool) (u : TrackerUse) (n : Initiator), s.resetting = none ∧
      s.dport.trackers[k] = ⟨g, some u⟩ ∧ u.origin = .plain n) ∧
    (∃ (s : State) (k : TrackerId) (g : Bool) (u : TrackerUse) (i : SourceId) (l : Letter) (y : Source) (es : List ErrEvent),
      holdReleased s k g u i l s.sources[i] y es ∧
      (s.sources[i].bufs.get l).role = .sealing ∧ 2 ≤ (s.sources[i].bufs.get l).writeHold) ∧
    (∃ (s : State) (k : TrackerId) (g : Bool) (u : TrackerUse) (i : SourceId) (l : Letter) (y : Source) (es : List ErrEvent),
      holdReleased s k g u i l s.sources[i] y es ∧ s.sources[i].fillWait = true ∧ y.fillWait = false) ∧
    (∃ (s : State) (k : TrackerId) (g : Bool) (u : TrackerUse) (i : SourceId) (l : Letter) (y : Source) (es : List ErrEvent),
      holdReleased s k g u i l s.sources[i] y es ∧ (y.bufs.get l).role = .ready) ∧
    (∃ (s : State) (k : TrackerId) (g : Bool) (u : TrackerUse) (i : SourceId) (l : Letter) (y : Source) (es : List ErrEvent),
      holdReleased s k g u i l s.sources[i] y es ∧ s.sources[i].state = .contained ∧
      (s.sources[i].bufs.get l).role = .sealing ∧ (y.bufs.get l).role = .spent) ∧
    (∃ (s : State) (k : TrackerId) (g : Bool) (u : TrackerUse) (i : SourceId) (l : Letter) (y : Source) (e : ErrEvent),
      holdReleased s k g u i l s.sources[i] y [e] ∧ y.state = .live) ∧
    (∃ (s : State) (k : TrackerId) (g : Bool) (u : TrackerUse) (i : SourceId) (l : Letter) (y : Source) (e f : ErrEvent),
      holdReleased s k g u i l s.sources[i] y [e, f] ∧ y.state = .contained) :=
  ⟨⟨writing (with3 live) (.plain 9), 5, true, ⟨.plain 9, 131072, 1, .us16⟩, 9, by decide⟩,
    ⟨_, 5, true, _, 3, .b, facing .live (buf .sealing 0 1 true), [],
      heldB (facing .live (buf .sealing 0 2 true)) (facing .live (buf .sealing 0 2 true)) (buf .sealing 0 2 true),
      by decide, by decide⟩,
    ⟨_, 5, true, _, 3, .b, source .live (clean .front) (clean .fill) (buf .sealing 0 1 false), [],
      heldB (starved (buf .spent 0 1 true)) (starved (buf .spent 0 1 true)) (buf .spent 0 1 true), by decide, by decide⟩,
    ⟨_, 5, true, _, 3, .b, facing .live (buf .ready 1 0 false), [],
      heldB (facing .live (buf .sealing 1 1 false)) (facing .live (buf .sealing 1 1 false)) (buf .sealing 1 1 false),
      by decide⟩,
    ⟨_, 5, true, _, 3, .b, facing .contained (buf .spent 1 0 false), [],
      heldB (facing .contained (buf .sealing 1 1 false)) (facing .contained (buf .sealing 1 1 false))
        (buf .sealing 1 1 false), by decide, by decide, by decide⟩,
    ⟨_, 5, true, _, 3, .b, facing .live (buf .spent 1 0 true), ⟨.poisonDiscard, some 3, some 196608, some 3, none⟩,
      heldB (facing .live (buf .sealing 1 1 true)) (facing .live (buf .sealing 1 1 true)) (buf .sealing 1 1 true),
      by decide⟩,
    ⟨_, 5, true, _, 3, .b, contains (facing .contained (buf .spent 1 0 true)),
      ⟨.poisonDiscard, some 3, some 196608, some 3, none⟩, ⟨.contain, some 3, some 196608, some 3, none⟩,
      heldB (contains (facing .live (buf .sealing 1 1 true))) (contains (facing .live (buf .sealing 1 1 true)))
        (buf .sealing 1 1 true), by decide⟩⟩

/-- The deadline of tracker `k` expires, or its response is ERROR. -/
abbrev writeFails (k : TrackerId) (g : Bool) (i : Instr) (cls : ErrClass) : Prop :=
  (i = .writeTimeout k ∧ cls = .writeTimeout) ∨ (i = .downstreamResponse (.writeError k g) ∧ cls = .writeError)

/-- Source `i` with buffer `l` poisoned. -/
abbrev poisoned (s : State) (i : SourceId) (l : Letter) : Source :=
  { s.sources[i] with bufs := s.sources[i].bufs.put l { s.sources[i].bufs.get l with poison := true } }

theorem test_meets_FailedWritePoisonsBuffer :
    (∃ (s : State) (k : TrackerId) (g : Bool) (u : TrackerUse) (i : Instr) (cls : ErrClass) (n : Initiator),
      s.resetting = none ∧ s.dport.trackers[k] = ⟨g, some u⟩ ∧ writeFails k g i cls ∧ u.origin = .plain n) ∧
    (∃ (s : State) (k : TrackerId) (g : Bool) (u : TrackerUse) (i : Instr) (cls : ErrClass) (j : SourceId) (l : Letter)
        (y : Source) (es : List ErrEvent),
      writeFails k g i cls ∧ holdReleased s k g u j l (poisoned s j l) y es ∧ (s.sources[j].bufs.get l).role = .fill) ∧
    (∃ (s : State) (k : TrackerId) (g : Bool) (u : TrackerUse) (i : Instr) (cls : ErrClass) (j : SourceId) (l : Letter)
        (y : Source) (es : List ErrEvent),
      writeFails k g i cls ∧ holdReleased s k g u j l (poisoned s j l) y es ∧ s.sources[j].fillWait = true ∧
      y.fillWait = false) ∧
    (∃ (s : State) (k : TrackerId) (g : Bool) (u : TrackerUse) (i : Instr) (cls : ErrClass) (j : SourceId) (l : Letter)
        (y : Source) (e f : ErrEvent),
      writeFails k g i cls ∧ holdReleased s k g u j l (poisoned s j l) y [e, f] ∧ y.state = .contained) ∧
    (∃ (s : State) (k : TrackerId), s.resetting = none ∧ s.dport.trackers[k].use = none) :=
  ⟨⟨writing (with3 live) (.plain 9), 5, true, ⟨.plain 9, 131072, 1, .us16⟩, .writeTimeout 5, .writeTimeout, 9, by decide⟩,
    ⟨_, 5, true, _, .downstreamResponse (.writeError 5 true), .writeError, 3, .b, facing .live (buf .fill 0 0 true), [],
      .inr ⟨rfl, rfl⟩,
      heldB (facing .live (buf .fill 0 1 false)) (facing .live (buf .fill 0 1 true)) (buf .fill 0 1 true), by decide⟩,
    ⟨_, 5, true, _, .writeTimeout 5, .writeTimeout, 3, .b,
      source .live (clean .front) (clean .fill) (buf .sealing 0 1 false), [], .inl ⟨rfl, rfl⟩,
      heldB (starved (buf .spent 0 1 false)) (starved (buf .spent 0 1 true)) (buf .spent 0 1 true), by decide, by decide⟩,
    ⟨_, 5, true, _, .writeTimeout 5, .writeTimeout, 3, .b, contains (facing .contained (buf .spent 0 0 true)),
      ⟨.poisonDiscard, some 3, some 196608, some 3, none⟩, ⟨.contain, some 3, some 196608, some 3, none⟩, .inl ⟨rfl, rfl⟩,
      heldB (contains (facing .live (buf .sealing 0 1 false))) (contains (facing .live (buf .sealing 0 1 true)))
        (buf .sealing 0 1 true), by decide⟩,
    ⟨with3 live, 5, by decide⟩⟩

theorem test_meets_UnmatchedResponseIsLate :
    (∃ (s : State) (r : DResponse), s.resetting = none ∧ r.wellFormed = true ∧
      (match r with
        | .readOk p g _ =>
          s.translator.pieces[p].generation ≠ g ∨ ∀ u, s.translator.pieces[p].use = some u → ∀ k, u.state ≠ .issued k
        | .readError p g =>
          s.translator.pieces[p].generation ≠ g ∨ ∀ u, s.translator.pieces[p].use = some u → ∀ k, u.state ≠ .issued k
        | .writeOk k g => s.dport.trackers[k].generation ≠ g ∨ s.dport.trackers[k].use = none
        | .writeError k g => s.dport.trackers[k].generation ≠ g ∨ s.dport.trackers[k].use = none)) :=
  ⟨reading (.plain 131072 1) .queued live [], .readOk 0 false (List.replicate 32 0), by decide, by decide, .inl (by decide)⟩

theorem test_meets_AdmissionTranslatesHead :
    (∃ (s : State) (i : SourceId) (x : Source) (e : HoldEntry) (rest : List HoldEntry) (l : Letter), s.resetting = none ∧
      x = s.sources[i] ∧ x.holdQueue = e :: rest ∧ (x.bufs.get l).role = .fill ∧ x.oneOf .fill ∧ x.fillWait = false ∧
      s.dport.writeLanes[i].length < 4 ∧ (x.quotaInEffect = 0 ∨ e.beats ≤ x.credit) ∧
      (¬(e.offset ≤ (x.cfg.height - 1) * x.cfg.pitch + x.cfg.width * 4 - 32 ∧
        (x.cfg.height - 1) * x.cfg.pitch + x.cfg.width * 4 - 32 ≤ e.offset + (e.beats - 1) * 32))) ∧
    (∃ (s : State) (i : SourceId) (x : Source) (e : HoldEntry) (rest : List HoldEntry) (l : Letter), s.resetting = none ∧
      x = s.sources[i] ∧ x.holdQueue = e :: rest ∧ (x.bufs.get l).role = .fill ∧ x.oneOf .fill ∧
      (x.fillWait = true ∨ 4 ≤ s.dport.writeLanes[i].length ∨ 0 < x.quotaInEffect ∧ x.credit < e.beats)) :=
  ⟨⟨with3 { governed live with credit := 7, holdQueue := [queued 7, queued 2] }, 3,
    { governed live with credit := 7, holdQueue := [queued 7, queued 2] }, queued 7, [queued 2], .b, by decide,
    by decide, by decide, by decide, (Source.oneOf_iff _ _).mpr (by decide),
    by decide, by decide, by decide, by decide⟩,
    ⟨with3 { governed live with credit := 6, holdQueue := [queued 7] }, 3,
      { governed live with credit := 6, holdQueue := [queued 7] }, queued 7, [], .b, by decide, by decide,
      by decide, by decide, (Source.oneOf_iff _ _).mpr (by decide), by decide⟩⟩

theorem test_meets_CompletionSealsFrame :
    (∃ (s : State) (i : SourceId) (x : Source) (e : HoldEntry) (rest : List HoldEntry) (l : Letter), s.resetting = none ∧
      x = s.sources[i] ∧ x.holdQueue = e :: rest ∧ (x.bufs.get l).role = .fill ∧ x.oneOf .fill ∧ x.fillWait = false ∧
      s.dport.writeLanes[i].length < 4 ∧ (x.quotaInEffect = 0 ∨ e.beats ≤ x.credit) ∧
      e.offset ≤ (x.cfg.height - 1) * x.cfg.pitch + x.cfg.width * 4 - 32 ∧
      (x.cfg.height - 1) * x.cfg.pitch + x.cfg.width * 4 - 32 ≤ e.offset + (e.beats - 1) * 32) :=
  ⟨with3 { source .live (buf .sealing 0 1 true) (clean .fill) (clean .front) with holdQueue := [⟨224, 1, [beat true]⟩] }, 3,
    { source .live (buf .sealing 0 1 true) (clean .fill) (clean .front) with holdQueue := [⟨224, 1, [beat true]⟩] },
    ⟨224, 1, [beat true]⟩, [], .b, by decide, by decide, by decide, by decide,
    (Source.oneOf_iff _ _).mpr (by decide), by decide, by decide, by decide,
    by decide, by decide⟩

/-- A CLOSING source, whose tracker 5 is the origin of a write into buffer B, before that hold is released. -/
abbrev closingWrite (s : State) (k : TrackerId) (g : Bool) (u : TrackerUse) (i : SourceId) (l : Letter) (c : Instr) : Prop :=
  s.resetting = none ∧ s.dport.trackers[k] = ⟨g, some u⟩ ∧ u.origin = .aperture i l ∧ s.sources[i].state = .closing ∧
    s.sources[i].allSpent ∧ s.sources[i].fillWait = false ∧
    (∀ h : GroupId, s.override.groups[h].raw = s.rawCondition h) ∧
    (c = .writeTimeout k ∨ c = .downstreamResponse (.writeError k g) ∨ c = .downstreamResponse (.writeOk k g))

/-- A CLOSING source with an ISSUED IMAGE piece that is not the last of its context. -/
abbrev closingRead (s : State) (p : PieceId) (g : Bool) (d : List Byte) (u : PieceUse) (f : ImagePiece) (timer : Deadline)
    (c : Context) : Prop :=
  s.resetting = none ∧ s.settled ∧ s.translator.pieces[p] = ⟨g, some u⟩ ∧ u.state = .issued timer ∧ u.kind = .image f ∧
    d.length = 32 * f.beats ∧ 1 ≤ f.beats ∧ f.beats ≤ 16 ∧ c ∈ s.translator.contexts ∧
    (s.translator.contexts.map (·.num)).Nodup ∧ u.context = c.num ∧ othersPending s p c ∧
    s.sources[f.source].state = .closing ∧ s.sources[f.source].allSpent ∧ s.sources[f.source].fillWait = false

/-- The holds left are stated of the source before the release. -/
theorem test_meets_LastHoldEndsDrain :
    (∃ (s : State) (k : TrackerId) (g : Bool) (u : TrackerUse) (i : SourceId) (l : Letter) (c : Instr) (r : URequest),
      closingWrite s k g u i l c ∧ (∀ m, (s.sources[i].bufs.get m).readHold = 0) ∧ (s.sources[i].bufs.get l).writeHold ≤ 1 ∧
      (∀ m, m ≠ l → (s.sources[i].bufs.get m).writeHold = 0) ∧ r ∈ s.uport.side 3 .write ∧ s.classify r = .aperture i) ∧
    (∃ (s : State) (k : TrackerId) (g : Bool) (u : TrackerUse) (i : SourceId) (l : Letter) (c : Instr),
      closingWrite s k g u i l c ∧ (s.sources[i].bufs.get .a).readHold ≠ 0) ∧
    (∃ (s : State) (p : PieceId) (g : Bool) (d : List Byte) (u : PieceUse) (f : ImagePiece) (timer : Deadline) (c : Context),
      closingRead s p g d u f timer c ∧ (∀ m, (s.sources[f.source].bufs.get m).writeHold = 0) ∧
      (s.sources[f.source].bufs.get f.buffer).readHold ≤ 1 ∧
      ∀ m, m ≠ f.buffer → (s.sources[f.source].bufs.get m).readHold = 0) ∧
    (∃ (s : State) (p : PieceId) (g : Bool) (d : List Byte) (u : PieceUse) (f : ImagePiece) (timer : Deadline) (c : Context),
      closingRead s p g d u f timer c ∧ (s.sources[f.source].bufs.get .b).writeHold ≠ 0) :=
  ⟨⟨offer (writing (with3 (source .closing (clean .spent) (buf .spent 0 1 true) (clean .spent))) (.aperture 3 .b)) (wr 3 65536 1),
      5, true, ⟨.aperture 3 .b, 131072, 1, .us16⟩, 3, .b, .writeTimeout 5, wr 3 65536 1,
      ⟨by decide, by decide, by decide, by decide, (Source.allSpent_iff _).mpr (by decide), by decide, by decide, .inl rfl⟩,
      Letter.forall_iff.mpr (by decide), by decide, Letter.forall_iff.mpr (by decide), by decide, by decide⟩,
    ⟨writing (with3 (source .closing (buf .spent 1 0 false) (buf .spent 0 1 true) (clean .spent))) (.aperture 3 .b), 5, true,
      ⟨.aperture 3 .b, 131072, 1, .us16⟩, 3, .b, .downstreamResponse (.writeOk 5 true),
      ⟨by decide, by decide, by decide, by decide, (Source.allSpent_iff _).mpr (by decide), by decide, by decide,
        .inr (.inr rfl)⟩, by decide⟩,
    ⟨reading (.image imagePiece) .queued (source .closing (buf .spent 1 0 false) (clean .spent) (clean .spent)) [], 0, true,
      List.replicate 32 7, issuedUse (.image imagePiece), imagePiece, .us16, gathered,
      ⟨by decide, by decide, by decide, rfl, rfl, by decide, by decide, by decide, by decide, by decide, rfl,
        .inr ⟨1, by decide, by decide, _, rfl, by decide⟩, by decide, (Source.allSpent_iff _).mpr (by decide), by decide⟩,
      Letter.forall_iff.mpr (by decide), by decide, Letter.forall_iff.mpr (by decide)⟩,
    ⟨reading (.image imagePiece) .queued (source .closing (buf .spent 1 0 false) (buf .spent 0 1 true) (clean .spent)) [], 0, true,
      List.replicate 32 7, issuedUse (.image imagePiece), imagePiece, .us16, gathered,
      ⟨by decide, by decide, by decide, rfl, rfl, by decide, by decide, by decide, by decide, by decide, rfl,
        .inr ⟨1, by decide, by decide, _, rfl, by decide⟩, by decide, (Source.allSpent_iff _).mpr (by decide), by decide⟩,
      by decide⟩⟩

theorem test_meets_StrobeTimesAndActivates :
    (∃ (s : State), s.resetting = none ∧ s.layout.ctl ≠ .armed) ∧
    (∃ (s : State), s.resetting = none ∧ s.layout.ctl = .armed) :=
  ⟨⟨with3 live, by decide⟩, ⟨armed, by decide⟩⟩

theorem test_meets_StrobeFlipsOrAges :
    (∃ (s : State) (i : SourceId) (x : Source) (l : Letter), s.resetting = none ∧ x = s.sources[i] ∧
      (x.state = .await ∨ x.state = .live) ∧ x.oneOf .ready ∧ (x.bufs.get l).role = .ready) ∧
    (∃ (s : State) (i : SourceId) (x : Source) (l m : Letter) (y z : Source), s.resetting = none ∧ x = s.sources[i] ∧
      (x.state = .await ∨ x.state = .live) ∧ x.oneOf .ready ∧ (x.bufs.get l).role = .ready ∧
      y.fillWait = x.fillWait ∧ (∀ n, y.bufs.get n =
        if n = l then { x.bufs.get n with role := .front }
        else if (x.bufs.get n).role = .front then { x.bufs.get n with role := .spent } else x.bufs.get n) ∧
      y.fillWaitTested z ∧ x.fillWait = true ∧ (x.bufs.get m).role = .front ∧ (z.bufs.get m).role = .fill) ∧
    (∃ (s : State) (i : SourceId) (x : Source) (l m : Letter), s.resetting = none ∧ x = s.sources[i] ∧
      (x.state = .await ∨ x.state = .live) ∧ x.oneOf .ready ∧ (x.bufs.get l).role = .ready ∧
      (x.bufs.get m).role = .front ∧ x.fillWait = false) ∧
    (∃ (s : State) (i : SourceId) (x : Source), s.resetting = none ∧ x = s.sources[i] ∧
      (x.state = .contained ∨ (x.state = .await ∨ x.state = .live) ∧ ¬x.hasRole .ready) ∧
      x.framesSinceFlip < 255 ∧ x.cfg.staleDeadline ≠ 0 ∧ x.framesSinceFlip + 1 = x.cfg.staleDeadline ∧
      s.capture.detect.getLsbD 8 = true) ∧
    (∃ (s : State) (i : SourceId) (x : Source), s.resetting = none ∧ x = s.sources[i] ∧
      (x.state = .contained ∨ (x.state = .await ∨ x.state = .live) ∧ ¬x.hasRole .ready) ∧
      ¬(x.framesSinceFlip < 255 ∧ x.cfg.staleDeadline ≠ 0 ∧ x.framesSinceFlip + 1 = x.cfg.staleDeadline)) ∧
    (∃ (s : State) (i : SourceId) (x : Source), s.resetting = none ∧ x = s.sources[i] ∧
      (x.state = .off ∨ x.state = .closing)) :=
  ⟨⟨with3 (source .await (clean .spent) (clean .fill) (clean .ready)), 3,
    source .await (clean .spent) (clean .fill) (clean .ready), .c, by decide, by decide, by decide,
    (Source.oneOf_iff _ _).mpr (by decide), by decide⟩,
    ⟨with3 (resting .front .ready), 3, resting .front .ready, .b, .a, resting .spent .front,
      source .live (clean .fill) (clean .front) (buf .spent 0 1 false), by decide, by decide, by decide,
      (Source.oneOf_iff _ _).mpr (by decide), by decide, by decide, Letter.forall_iff.mpr (by decide),
      Source.fillWaitTested_iff.mpr (by decide), by decide⟩,
    ⟨with3 (facing .live (buf .ready 1 0 false)), 3, facing .live (buf .ready 1 0 false), .b, .a, by decide, by decide,
      by decide, (Source.oneOf_iff _ _).mpr (by decide), by decide⟩,
    ⟨with3 { live with framesSinceFlip := 2 }, 3, { live with framesSinceFlip := 2 }, by decide, by decide,
      .inr ⟨by decide, mt (Source.hasRole_iff _ _).mp (by decide)⟩, by decide⟩,
    ⟨with3 { live with state := .contained, framesSinceFlip := 255 }, 3,
      { live with state := .contained, framesSinceFlip := 255 }, by decide, by decide, .inl (by decide), by decide⟩,
    ⟨with3 (source .closing (clean .spent) (buf .spent 0 1 false) (clean .spent)), 3,
      source .closing (clean .spent) (buf .spent 0 1 false) (clean .spent), by decide⟩⟩

theorem test_meets_StrobeRenewsQuota :
    (∃ (s : State) (i : SourceId) (x : Source) (a : Nat), s.resetting = none ∧ x = s.sources[i] ∧
      (x.state = .await ∨ x.state = .live ∨ x.state = .contained) ∧ a = x.cfg.quota / 1024 ∧ x.cfg.quota = 0) ∧
    (∃ (s : State) (i : SourceId) (x : Source) (a : Nat), s.resetting = none ∧ x = s.sources[i] ∧
      (x.state = .await ∨ x.state = .live ∨ x.state = .contained) ∧ a = x.cfg.quota / 1024 ∧ 0 < x.cfg.quota ∧
      x.credit ≤ x.cfg.creditCap) :=
  ⟨⟨with3 { live with credit := 20, quotaInEffect := 1025 }, 3, { live with credit := 20, quotaInEffect := 1025 }, 0,
    by decide⟩,
    ⟨with3 { governed live with credit := 20, frameTotal := 1000 }, 3,
      { governed live with credit := 20, frameTotal := 1000 }, 1, by decide⟩⟩

/-- WFS leaves `t`, and group `g` is `x` before it, with its raw condition evaluated. -/
abbrev groupStrobed (s : State) (o : StrobeOrder) (g : GroupId) (x : Group) (t : State) : Prop :=
  s.resetting = none ∧ x = s.override.groups[g] ∧ x.raw = s.rawCondition g ∧ exec (.wfs o) s = .next t

theorem test_meets_StrobeCountsHoldOff :
    (∃ (s : State) (o : StrobeOrder) (g : GroupId) (x : Group) (t : State), groupStrobed s o g x t ∧
      t.rawCondition g = x.raw ∧ x.state ≠ .holding) ∧
    (∃ (s : State) (o : StrobeOrder) (g : GroupId) (x : Group) (t : State), groupStrobed s o g x t ∧
      t.rawCondition g = x.raw ∧ x.state = .holding ∧ x.holdCount + 1 < x.cfg.holdOff) ∧
    (∃ (s : State) (o : StrobeOrder) (g : GroupId) (x : Group) (t : State), groupStrobed s o g x t ∧
      t.rawCondition g = x.raw ∧ x.state = .holding ∧ x.cfg.holdOff ≤ x.holdCount + 1 ∧ x.cfg.staleSel = 0) ∧
    (∃ (s : State) (o : StrobeOrder) (g : GroupId) (x : Group) (t : State), groupStrobed s o g x t ∧ x.raw = true) ∧
    (∃ (s : State) (o : StrobeOrder) (g : GroupId) (x : Group) (t : State), groupStrobed s o g x t ∧ x.raw = false ∧
      t.rawCondition g = true ∧ x.state = .idle ∧ x.cfg.enabled = false) ∧
    (∃ (s : State) (o : StrobeOrder) (g : GroupId) (x : Group) (t : State), groupStrobed s o g x t ∧ x.raw = false ∧
      t.rawCondition g = true ∧ x.state = .idle ∧ x.cfg.enabled = true) ∧
    (∃ (s : State) (o : StrobeOrder) (g : GroupId) (x : Group) (t : State), groupStrobed s o g x t ∧ x.raw = false ∧
      t.rawCondition g = true ∧ x.state = .holding ∧
      (o.groupsFirst.getLsbD g.val = false ∨ x.holdCount + 1 < x.cfg.holdOff)) ∧
    (∃ (s : State) (o : StrobeOrder) (g : GroupId) (x : Group) (t : State), groupStrobed s o g x t ∧ x.raw = false ∧
      t.rawCondition g = true ∧ x.state = .holding ∧ x.cfg.enabled = true ∧ o.groupsFirst.getLsbD g.val = true ∧
      x.cfg.holdOff ≤ x.holdCount + 1) :=
  ⟨⟨watching 1 groupOn, order, 1, groupOn, _, ⟨by decide, by decide, by decide, ran rfl⟩, by decide +kernel⟩,
    ⟨watching 1 { groupOn with state := .holding }, order, 1, { groupOn with state := .holding }, _,
      ⟨by decide, by decide, by decide, ran rfl⟩, by decide +kernel⟩,
    ⟨watching 1 { groupOn with state := .holding, holdCount := 1 }, order, 1,
      { groupOn with state := .holding, holdCount := 1 }, _, ⟨by decide, by decide, by decide, ran rfl⟩, by decide +kernel⟩,
    ⟨watching 1 asserted, order, 1, asserted, _, ⟨by decide, by decide, by decide, ran rfl⟩, by decide⟩,
    ⟨watching 1 (watcher .idle 0 false), order, 1, watcher .idle 0 false, _, ⟨by decide, by decide, by decide, ran rfl⟩,
      by decide +kernel⟩,
    ⟨watching 1 (watcher .idle 0 true), order, 1, watcher .idle 0 true, _, ⟨by decide, by decide, by decide, ran rfl⟩,
      by decide +kernel⟩,
    ⟨watching 1 (watcher .holding 1 true), order, 1, watcher .holding 1 true, _, ⟨by decide, by decide, by decide, ran rfl⟩,
      by decide +kernel⟩,
    ⟨watching 2 (watcher .holding 1 true), order, 2, watcher .holding 1 true, _, ⟨by decide, by decide, by decide, ran rfl⟩,
      by decide +kernel⟩⟩

theorem test_meets_SlotExpiryGivesAllotments :
    (∃ (s : State) (n : Nat), s.resetting = none ∧ s.governor.slotTimer = some n ∧ s.governor.slotIndex < 1023) ∧
    (∃ (s : State) (n : Nat), s.resetting = none ∧ s.governor.slotTimer = some n ∧ 1023 ≤ s.governor.slotIndex) ∧
    (∃ (s : State), s.resetting = none ∧ s.governor.slotTimer = none) :=
  ⟨⟨withSlot (with3 (governed live)) 1022, 16, by decide⟩,
    ⟨withSlot (with3 (governed live)) 1023, 16, by decide⟩,
    ⟨with3 live, by decide⟩⟩

theorem test_meets_AllotmentsAddUpToQuota :
    (∃ (k : Nat), k < 1024) :=
  ⟨1023, by decide⟩

/-- Source `i`, the operand of the command, is OFF with valid fields. -/
abbrev opening (s : State) (o : Byte) (i : SourceId) (x : Source) : Prop :=
  s.listening ∧ o.toNat = i.val ∧ x = s.sources[i] ∧ x.state = .off ∧ ∀ f, x.cfg.validAtOpen f

/-- The region shares no byte with another of the source's nor with one of the decoder's. -/
abbrev clear (s : State) (i : SourceId) (x : Source) (g : Region) : Prop :=
  (∀ h ∈ x.cfg.regions i, h.id ≠ g.id → g.apart h) ∧ ∀ h ∈ s.regions, g.apart h

/-- The region `g` is the first of the source's that meets another, and OPEN names it with field `f`. -/
abbrev firstOverlap (s : State) (i : SourceId) (x : Source) (pre post : List Region) (g : Region) (f : Nat) : Prop :=
  x.cfg.regions i = pre ++ g :: post ∧ (∀ k ∈ pre, clear s i x k) ∧
    ((∃ h ∈ x.cfg.regions i, h.id ≠ g.id ∧ ¬g.apart h) ∨ ∃ h ∈ s.regions, ¬g.apart h) ∧
    ((g.id = .aperture i ∧ f = 0) ∨ (g.id = .buffer i .a ∧ f = 4) ∨ (g.id = .buffer i .b ∧ f = 5) ∨
      (g.id = .buffer i .c ∧ f = 6))

theorem test_meets_OpenTakesValidSource :
    (∃ (s : State) (o : Byte), s.listening ∧ 15 < o.toNat) ∧
    (∃ (s : State) (o : Byte) (i : SourceId) (x : Source), opening s o i x ∧ (∀ g ∈ x.cfg.regions i, clear s i x g) ∧
      ∀ a, s.plainWriteTo a → ∀ g ∈ x.cfg.regions i, g.id ≠ .aperture i → g.has a = false) ∧
    (∃ (s : State) (o : Byte) (i : SourceId) (x : Source), opening s o i x ∧ (∀ g ∈ x.cfg.regions i, clear s i x g) ∧
      ∃ a, s.plainWriteTo a ∧ ∃ g ∈ x.cfg.regions i, g.id ≠ .aperture i ∧ g.has a = true) ∧
    (∃ (s : State) (o : Byte) (i : SourceId) (x : Source) (pre post : List Region) (g : Region), opening s o i x ∧
      firstOverlap s i x pre post g 0) ∧
    (∃ (s : State) (o : Byte) (i : SourceId) (x : Source) (pre post : List Region) (g : Region), opening s o i x ∧
      firstOverlap s i x pre post g 5) ∧
    (∃ (s : State) (o : Byte) (i : SourceId) (x : Source) (pre post : List Region) (g : Region), opening s o i x ∧
      firstOverlap s i x pre post g 6) ∧
    (∃ (s : State) (o : Byte) (i : SourceId) (x : Source) (f : Nat), s.listening ∧ o.toNat = i.val ∧ x = s.sources[i] ∧
      x.state = .off ∧ ¬x.cfg.validAtOpen f ∧ ∀ k, k < f → x.cfg.validAtOpen k) ∧
    (∃ (s : State) (o : Byte) (i : SourceId) (x : Source), s.listening ∧ o.toNat = i.val ∧ x = s.sources[i] ∧
      (x.state = .await ∨ x.state = .live ∨ x.state = .contained)) ∧
    (∃ (s : State) (o : Byte) (i : SourceId) (x : Source), s.listening ∧ o.toNat = i.val ∧ x = s.sources[i] ∧
      x.state = .closing) :=
  ⟨⟨with3 live, 16, by decide⟩,
    ⟨withPlain (with3 (shut cfg)) 3, 3, 3, shut cfg,
      ⟨by decide, by decide, by decide, by decide, by intro f; unfold SourceConfig.validAtOpen; split <;> decide⟩,
      by simp only [clear, Region.apart_iff]; decide, misses (by decide)⟩,
    ⟨writing (with3 (shut cfg)) (.plain 9), 3, 3, shut cfg,
      ⟨by decide, by decide, by decide, by decide, by intro f; unfold SourceConfig.validAtOpen; split <;> decide⟩,
      by simp only [clear, Region.apart_iff]; decide,
      131103, .inr ⟨5, ⟨.plain 9, 131072, 1, .us16⟩, 9, by decide, by decide, by decide⟩, ⟨.buffer 3 .a, 131072, 256⟩,
      by decide, by decide, by decide⟩,
    ⟨(with3 live).putSource 4 (shut cfg), 4, 4, shut cfg, [], _, _,
      ⟨by decide, by decide, by decide, by decide, by intro f; unfold SourceConfig.validAtOpen; split <;> decide⟩,
      rfl, by simp, .inr ⟨⟨.aperture 3, 65536, 256⟩, by decide, mt Region.apart_iff.mp (by decide)⟩, by decide⟩,
    ⟨with3 (shut { cfg with baseC := 48 }), 3, 3, shut { cfg with baseC := 48 },
      [⟨.aperture 3, 65536, 256⟩, ⟨.buffer 3 .a, 131072, 256⟩], [⟨.buffer 3 .c, 196608, 256⟩],
      ⟨.buffer 3 .b, 196608, 256⟩,
      ⟨by decide, by decide, by decide, by decide, by intro f; unfold SourceConfig.validAtOpen; split <;> decide⟩,
      by decide,
      by simp only [clear, Region.apart_iff]; decide,
      .inl ⟨⟨.buffer 3 .c, 196608, 256⟩, by decide, by decide, mt Region.apart_iff.mp (by decide)⟩, by decide⟩,
    ⟨(with3 live).putSource 4 (shut { cfg with apertureBase := 256, baseA := 272, baseB := 288 }), 4, 4,
      shut { cfg with apertureBase := 256, baseA := 272, baseB := 288 },
      [⟨.aperture 4, 1048576, 256⟩, ⟨.buffer 4 .a, 1114112, 256⟩, ⟨.buffer 4 .b, 1179648, 256⟩], [], ⟨.buffer 4 .c, 262144, 256⟩,
      ⟨by decide, by decide, by decide, by decide, by intro f; unfold SourceConfig.validAtOpen; split <;> decide⟩,
      by decide,
      by simp only [clear, Region.apart_iff]; decide,
      .inr ⟨⟨.buffer 3 .c, 262144, 256⟩, by decide, mt Region.apart_iff.mp (by decide)⟩, by decide⟩,
    ⟨with3 { Source.reset with cfg := { cfg with containment := 2 } }, 3, 3,
      { Source.reset with cfg := { cfg with containment := 2 } }, 10, by decide, by decide, by decide,
      by decide, by simp only [SourceConfig.validAtOpen]; decide,
      by intro k hk; interval_cases k <;> simp only [SourceConfig.validAtOpen] <;> decide⟩,
    ⟨with3 live, 3, 3, live, by decide⟩,
    ⟨with3 (source .closing (clean .spent) (buf .spent 0 1 true) (clean .spent)), 3, 3,
      source .closing (clean .spent) (buf .spent 0 1 true) (clean .spent), by decide⟩⟩

/-- Source `i` is the operand of the command. -/
abbrev named (s : State) (o : Byte) (i : SourceId) (x : Source) : Prop := s.listening ∧ o.toNat = i.val ∧ x = s.sources[i]

theorem test_meets_CloseAndReleaseLeaveStates :
    (∃ (s : State) (o : Byte) (i : SourceId) (x : Source), named s o i x ∧
      (x.state = .await ∨ x.state = .live ∨ x.state = .contained) ∧
      ∀ l, (x.bufs.get l).readHold = 0 ∧ (x.bufs.get l).writeHold = 0) ∧
    (∃ (s : State) (o : Byte) (i : SourceId) (x : Source) (r : URequest), named s o i x ∧
      (x.state = .await ∨ x.state = .live ∨ x.state = .contained) ∧
      (∃ l, (x.bufs.get l).readHold ≠ 0 ∨ (x.bufs.get l).writeHold ≠ 0) ∧ r ∈ s.uport.side 3 .write ∧
      s.classify r = .aperture i) ∧
    (∃ (s : State) (o : Byte) (i : SourceId) (x : Source), named s o i x ∧ x.state = .off) ∧
    (∃ (s : State) (o : Byte) (i : SourceId) (x : Source), named s o i x ∧ x.state = .closing) ∧
    (∃ (s : State) (o : Byte) (i : SourceId) (x : Source), named s o i x ∧ x.state = .contained ∧ x.hasRole .front) ∧
    (∃ (s : State) (o : Byte) (i : SourceId) (x : Source), named s o i x ∧ x.state = .contained ∧ ¬x.hasRole .front) ∧
    (∃ (s : State) (o : Byte) (i : SourceId) (x : Source), named s o i x ∧ x.state ≠ .contained) :=
  ⟨⟨with3 live, 3, 3, live, by decide, by decide, Letter.forall_iff.mpr (by decide)⟩,
    ⟨offer (with3 (facing .contained (buf .sealing 0 1 true))) (wr 3 65536 8), 3, 3, facing .contained (buf .sealing 0 1 true),
      wr 3 65536 8, by decide, by decide, ⟨.b, by decide⟩, by decide, by decide⟩,
    ⟨with3 live, 4, 4, Source.reset, by decide⟩,
    ⟨with3 (source .closing (clean .spent) (buf .spent 0 1 true) (clean .spent)), 3, 3,
      source .closing (clean .spent) (buf .spent 0 1 true) (clean .spent), by decide⟩,
    ⟨with3 { live with state := .contained }, 3, 3, { live with state := .contained }, by decide, by decide,
      (Source.hasRole_iff _ _).mpr (by decide)⟩,
    ⟨with3 (source .contained (clean .spent) (buf .fill 0 2 true) (clean .spent)), 3, 3,
      source .contained (clean .spent) (buf .fill 0 2 true) (clean .spent), by decide, by decide,
      mt (Source.hasRole_iff _ _).mp (by decide)⟩,
    ⟨with3 live, 3, 3, live, by decide⟩⟩

theorem test_meets_SourceConfigIsChecked :
    (∃ (s : State) (i : SourceId) (f : Fin 11) (v : Word) (x : Source), s.listening ∧ x = s.sources[i] ∧ x.state = .off ∧
      (f = 0 ∨ f = 4 ∨ f = 5 ∨ f = 6 → v.toNat ≤ 268435455)) ∧
    (∃ (s : State) (i : SourceId) (f : Fin 11) (v : Word) (x : Source), s.listening ∧ x = s.sources[i] ∧ x.state = .off ∧
      (f = 0 ∨ f = 4 ∨ f = 5 ∨ f = 6) ∧ 268435455 < v.toNat) ∧
    (∃ (s : State) (i : SourceId) (f : Fin 11) (x : Source), s.listening ∧ x = s.sources[i] ∧ x.state ≠ .off ∧ f.val ≤ 6) ∧
    (∃ (s : State) (i : SourceId) (f : Fin 11) (v : Word) (x : Source), s.listening ∧ x = s.sources[i] ∧ x.state ≠ .off ∧
      (f = 7 ∧ v.toNat ≤ 255 ∨ f = 8 ∧ v.toNat ≤ 262143 ∧ (v.toNat = 0 ∨ 16 ≤ x.cfg.creditCap) ∨ f = 9 ∧ v.toNat ≤ 65535 ∧
        (16 ≤ v.toNat ∨ x.cfg.quota = 0 ∧ x.quotaInEffect = 0) ∨ f = 10 ∧ v.toNat ≤ 1)) ∧
    (∃ (s : State) (i : SourceId) (f : Fin 11) (v : Word) (x : Source), s.listening ∧ x = s.sources[i] ∧ x.state ≠ .off ∧
      (f = 7 ∧ 255 < v.toNat ∨ f = 8 ∧ (262143 < v.toNat ∨ 0 < v.toNat ∧ x.cfg.creditCap < 16) ∨ f = 9 ∧
        (65535 < v.toNat ∨ v.toNat < 16 ∧ (0 < x.cfg.quota ∨ 0 < x.quotaInEffect)) ∨ f = 10 ∧ 1 < v.toNat)) ∧
    (∃ (s : State) (i : SourceId) (v : Word) (x : Source), s.listening ∧ x = s.sources[i] ∧ x.state ≠ .off ∧ v.toNat ≤ 65535 ∧
      16 ≤ v.toNat) :=
  ⟨⟨with3 live, 4, 0, 268435455, Source.reset, by decide⟩,
    ⟨with3 live, 4, 6, 268435456, Source.reset, by decide⟩,
    ⟨with3 live, 3, 6, live, by decide⟩,
    ⟨with3 (governed live), 3, 9, 16, governed live, by decide⟩,
    ⟨with3 (governed live), 3, 9, 15, governed live, by decide⟩,
    ⟨with3 (governed live), 3, 16, governed live, by decide⟩⟩

theorem test_meets_StagedWritesWhileIdle :
    (∃ (s : State) (f : Fin 15) (v : Word), s.listening ∧ s.layout.ctl = .idle ∧ windowStores f.val (v.toNat)) ∧
    (∃ (s : State) (f : Fin 15) (v : Word), s.listening ∧ s.layout.ctl = .idle ∧ ¬windowStores f.val (v.toNat)) ∧
    (∃ (s : State), s.listening ∧ s.layout.ctl ≠ .idle) ∧
    (∃ (s : State) (f : Fin 34) (v : Word), s.listening ∧ s.layout.ctl = .idle ∧ stackStores f.val (v.toNat)) ∧
    (∃ (s : State) (f : Fin 34) (v : Word), s.listening ∧ s.layout.ctl = .idle ∧ ¬stackStores f.val (v.toNat)) :=
  ⟨⟨ctl .idle layout, 11, 8, by decide, by decide, by simp [windowStores]⟩,
    ⟨ctl .idle layout, 14, 4, by decide, by decide, by simp [windowStores]⟩,
    ⟨ctl .armed layout, by decide⟩,
    ⟨ctl .idle layout, 0, 32, by decide, by decide, by simp [stackStores]⟩,
    ⟨ctl .idle layout, 33, 2, by decide, by decide, by simp [stackStores]⟩⟩

theorem test_meets_CommitChecksInOrder :
    (∃ (l : LayoutCtl), l.canvas.enabled = false) ∧
    (∃ (l : LayoutCtl) (w : WindowId), l.canvas.enabled = true ∧ l.staged.windows[w].enabled = true ∧
      l.staged.windows[w].failsAt l.canvas ∧
      (∀ v < w, l.staged.windows[v].enabled = true → ¬l.staged.windows[v].failsAt l.canvas)) ∧
    (∃ (l : LayoutCtl), l.canvas.enabled = true ∧
      (∀ (w : WindowId), l.staged.windows[w].enabled = true → ¬l.staged.windows[w].failsAt l.canvas) ∧
      (¬l.staged.stacked.Nodup ∨ ∃ w ∈ l.staged.stacked, l.staged.windows[w].enabled = false ∨
        l.staged.windows[w].group ≠ none)) ∧
    (∃ (l : LayoutCtl), l.canvas.enabled = true ∧
      (∀ (w : WindowId), l.staged.windows[w].enabled = true → ¬l.staged.windows[w].failsAt l.canvas) ∧
      (l.staged.stacked.Nodup ∧ ∀ w ∈ l.staged.stacked, l.staged.windows[w].enabled = true ∧
        l.staged.windows[w].group = none)) :=
  ⟨⟨(with3 live).layout, by decide⟩,
    ⟨(ctl .idle tooWide).layout, 1, by decide, by decide, by unfold Window.failsAt; decide,
      by unfold Window.failsAt; decide⟩,
    ⟨(ctl .idle badStack).layout, by decide, by unfold Window.failsAt; decide, by decide⟩,
    ⟨(ctl .idle crowded).layout, by decide, by unfold Window.failsAt; decide, by decide⟩⟩

theorem test_meets_CommitRunsThroughItsStates :
    (∃ (s : State), s.listening ∧ s.layout.ctl ≠ .idle) ∧
    (∃ (s : State), s.listening ∧ s.layout.ctl = .idle ∧ s.layout.hold = some s.layout.inactive) ∧
    (∃ (s : State), s.listening ∧ s.layout.ctl = .idle ∧ s.layout.hold ≠ some s.layout.inactive ∧
      s.layout.checkFailure = none) ∧
    (∃ (s : State) (code : FailCode) (w : Option WindowId), s.listening ∧ s.layout.ctl = .idle ∧
      s.layout.hold ≠ some s.layout.inactive ∧ s.layout.checkFailure = some (code, w)) ∧
    (∃ (s : State), s.listening ∧ s.layout.ctl = .idle) ∧
    (∃ (s : State) (b : Bank), s.resetting = none ∧ b = s.layout.staged.compile s.layout.canvas ∧ s.layout.ctl = .compile ∧
      b.segments.length ≤ 1024) ∧
    (∃ (s : State) (b : Bank), s.resetting = none ∧ b = s.layout.staged.compile s.layout.canvas) ∧
    (∃ (s : State) (b : Bank), s.resetting = none ∧ b = s.layout.staged.compile s.layout.canvas ∧ s.layout.ctl = .compile ∧
      1024 < b.segments.length) :=
  ⟨⟨ctl .compile layout, by decide⟩,
    ⟨let s := ctl .idle layout; s.withLayout { s.layout with hold := some .b }, by decide⟩,
    ⟨let s := ctl .idle layout; s.withLayout { s.layout with hold := some .a }, by decide⟩,
    ⟨ctl .idle tooWide, .badWindow, some 1, by decide⟩,
    ⟨ctl .idle layout, by decide⟩,
    ⟨ctl .compile layout, layout.compile canvas, by decide⟩,
    ⟨ctl .idle layout, layout.compile canvas, by decide⟩,
    ⟨overflowing, striped.compile ⟨1024, 1024, 64, 4096, true⟩, rfl, rfl, rfl, by decide +kernel⟩⟩

theorem test_meets_CanvasRegistersTakeRequests :
    (∃ (s : State), s.listening ∧ s.layout.canvas.enabled = true) ∧
    (∃ (s : State) (f : CanvasField) (v : Word), s.listening ∧ s.layout.canvas.enabled = false ∧
      (f = .base → v.toNat ≤ 268435455)) ∧
    (∃ (s : State) (f : CanvasField) (v : Word), s.listening ∧ s.layout.canvas.enabled = false ∧ f = .base ∧
      268435455 < v.toNat) ∧
    (∃ (s : State), s.listening ∧ s.layout.canvas.enabled = false ∧
      (s.layout.ctl = .drain ∨ (∃ e ∈ s.uport.intake, e.cls = .canvas) ∨ ∃ c ∈ s.translator.contexts, c.cls = .canvas ∧
        (c.state = .waiting ∨ c.state = .walking))) ∧
    (∃ (s : State) (f : CanvasField), s.listening ∧ s.layout.canvas.enabled = false ∧ s.layout.ctl ≠ .drain ∧
      (∀ e ∈ s.uport.intake, e.cls ≠ .canvas) ∧
      (∀ c ∈ s.translator.contexts, c.cls = .canvas → c.state ≠ .waiting ∧ c.state ≠ .walking) ∧
      ¬s.layout.canvas.validAtEnable f ∧
      (∀ (k : CanvasField), canvasIndex k < canvasIndex f → s.layout.canvas.validAtEnable k)) ∧
    (∃ (s : State), s.listening ∧ s.layout.canvas.enabled = false ∧ s.layout.ctl ≠ .drain ∧
      (∀ e ∈ s.uport.intake, e.cls ≠ .canvas) ∧
      (∀ c ∈ s.translator.contexts, c.cls = .canvas → c.state ≠ .waiting ∧ c.state ≠ .walking) ∧
      (∀ (f : CanvasField), s.layout.canvas.validAtEnable f) ∧ (∃ g ∈ s.regions, ¬g.apart s.layout.canvas.region)) ∧
    (∃ (s : State), s.listening ∧ s.layout.canvas.enabled = false ∧ s.layout.ctl ≠ .drain ∧
      (∀ e ∈ s.uport.intake, e.cls ≠ .canvas) ∧
      (∀ c ∈ s.translator.contexts, c.cls = .canvas → c.state ≠ .waiting ∧ c.state ≠ .walking) ∧
      (∀ (f : CanvasField), s.layout.canvas.validAtEnable f) ∧ (∀ g ∈ s.regions, g.apart s.layout.canvas.region)) ∧
    (∃ (s : State), s.listening ∧ s.layout.canvas.enabled = false) ∧
    (∃ (s : State), s.listening ∧ s.layout.canvas.enabled = true ∧
      s.layout.ctl = .idle) ∧
    (∃ (s : State), s.listening ∧ s.layout.canvas.enabled = true ∧
      s.layout.ctl ≠ .idle) :=
  ⟨⟨withCanvas (with3 live), by decide⟩,
    ⟨with3 live, .base, 268435455, by decide⟩,
    ⟨with3 live, .base, 268435456, by decide⟩,
    ⟨withIntake (with3 live) [entry .canvas], by decide⟩,
    ⟨dark { canvas with width := 63, pitch := 0 }, .width, by decide, by decide, by decide,
      by decide, by decide, by unfold Canvas.validAtEnable; decide,
      by intro k; cases k <;> unfold Canvas.validAtEnable canvasIndex <;> decide⟩,
    ⟨dark { canvas with base := 16 }, by decide, by decide, by decide, by decide,
      by decide, by intro f; cases f <;> unfold Canvas.validAtEnable <;> decide,
      ⟨⟨.aperture 3, 65536, 256⟩, by decide, mt Region.apart_iff.mp (by decide)⟩⟩,
    ⟨dark canvas, by decide, by decide, by decide, by decide, by decide,
      by intro f; cases f <;> unfold Canvas.validAtEnable <;> decide, by simp only [Region.apart_iff]; decide⟩,
    ⟨dark canvas, by decide⟩,
    ⟨withCanvas (with3 live), by decide⟩,
    ⟨ctl .compile layout, by decide⟩⟩

theorem test_meets_GroupsFollowTheirInputs :
    (∃ (s : State) (i : Instr), s.resetting = none ∧
      ((∃ n h, i = .alarmLevelChange n h) ∨ s.loader.state = .idle ∧ ∃ v, i = .softBits v ∨ i = .tripClear v)) :=
  ⟨State.reset.putGroup 1 { groupOn with state := .idle }, .alarmLevelChange 2 true, by decide⟩

theorem test_meets_GroupConfigTakesEffect :
    (∃ (s : State) (f : Fin 7) (v : Word), s.listening ∧ ¬groupStores f.val (v.toNat)) ∧
    (∃ (s : State) (f : Fin 7) (v : Word), s.listening ∧ f = 0 ∧ v.toNat = 1) ∧
    (∃ (s : State) (f : Fin 7) (v : Word), s.listening ∧ f = 0 ∧ v.toNat = 0) ∧
    (∃ (s : State) (g : GroupId) (x : Machine.Group), s.listening ∧ x = s.override.groups[g] ∧ x.cfg.enabled = false ∧
      s.rawCondition g = true) ∧
    (∃ (s : State) (g : GroupId) (x : Machine.Group), s.listening ∧ x = s.override.groups[g] ∧ x.cfg.enabled = false ∧
      s.rawCondition g = false) ∧
    (∃ (s : State) (g : GroupId) (x : Machine.Group), s.listening ∧ x = s.override.groups[g] ∧ x.cfg.enabled = true) ∧
    (∃ (s : State) (g : GroupId) (x : Machine.Group), s.listening ∧ x = s.override.groups[g] ∧ x.cfg.enabled = false) :=
  ⟨⟨State.reset.putGroup 1 { groupOn with state := .idle }, 5, 4, by decide, by simp [groupStores]⟩,
    ⟨State.reset.putGroup 1 { groupOn with state := .idle }, 0, 1, by decide⟩,
    ⟨State.reset.putGroup 1 { groupOn with state := .idle }, 0, 0, by decide⟩,
    ⟨let s := State.reset.putGroup 1 { groupOn with cfg := { groupOn.cfg with enabled := false, polarity := 4 } }; s, 1,
      { groupOn with cfg := { groupOn.cfg with enabled := false, polarity := 4 } }, by decide⟩,
    ⟨State.reset.putGroup 1 { groupOn with cfg := { groupOn.cfg with enabled := false } }, 1,
      { groupOn with cfg := { groupOn.cfg with enabled := false } }, by decide⟩,
    ⟨State.reset.putGroup 1 { groupOn with state := .holding, holdCount := 1 }, 1,
      { groupOn with state := .holding, holdCount := 1 }, by decide⟩,
    ⟨State.reset, 1, Group.reset, by decide⟩⟩

theorem test_meets_RecordingSetsStatus :
    (∃ (c : Capture) (e : ErrEvent), c.detect.getLsbD e.cls.num = false) ∧
    (∃ (c : Capture) (e : ErrEvent), c.detect.getLsbD e.cls.num = true) :=
  ⟨⟨{ State.reset.capture with detect := 0x7FF }, ⟨.lateResponse, none, none, none, none⟩, by decide⟩,
    ⟨State.reset.capture, ⟨.lateResponse, none, none, none, none⟩, by decide⟩⟩

theorem test_meets_SeverityDecidesLevel :
    (∃ (s : State), s.listening) :=
  ⟨with3 live, by decide⟩

theorem test_meets_IrqFollowsEnabledCauses :
    (∃ (s : State) (k : ResetKind) (pins : ResetPins) (t : State),
      exec (.resetEnd pins) (s.beginReset k) = Host.Outcome.next t) ∧
    (∃ (s : State), s.listening) :=
  ⟨⟨with3 live, .soft, ⟨0, false, 0⟩, after1 ((with3 live).beginReset .soft) (.resetEnd ⟨0, false, 0⟩),
    ran (by decide)⟩,
    ⟨State.reset.record ⟨.decode, none, none, none, none⟩, by decide⟩⟩

theorem test_meets_RegistersStoreTheirFields :
    (∃ (s : State) (v : Word), s.listening ∧ 1 ≤ v.toNat ∧ v.toNat ≤ 65535) ∧
    (∃ (s : State) (v : Word), s.listening ∧ (v.toNat = 0 ∨ 65535 < v.toNat)) ∧
    (∃ (s : State) (v : Word) (d : Deadline), s.listening ∧
      (v.toNat =   match d with   | .us1 => 1   | .us4 => 4   | .us16 => 16   | .us64 => 64)) ∧
    (∃ (s : State) (v : Word), s.listening ∧ v.toNat ≠ 1 ∧ v.toNat ≠ 4 ∧ v.toNat ≠ 16 ∧ v.toNat ≠ 64) ∧
    (∃ (s : State) (v : Word), s.listening ∧ v.toNat ≤ 16777215) ∧
    (∃ (s : State) (v : Word), s.listening ∧ 16777215 < v.toNat) :=
  ⟨⟨with3 live, 65535, by decide⟩,
    ⟨with3 live, 65536, by decide⟩,
    ⟨with3 live, 64, .us64, by decide⟩,
    ⟨with3 live, 0, by decide⟩,
    ⟨with3 live, 0xFFFFFF, by decide⟩,
    ⟨with3 live, 0x1000000, by decide⟩⟩

/-- The first pass is over, `le` reads numbers, and `n` is the record count of the image. -/
abbrev firstPassOver (s : State) (image : List Byte) (le : List Byte → Nat) (n : Nat) : Prop :=
  s.resetting = none ∧ s.loader.state = .verify ∧ (le [] = 0 ∧ ∀ b bs, le (b :: bs) = b.toNat + 256 * le bs) ∧
    n = le ((image.drop 2).take 2)

/-- The image fails a check, and no earlier one. -/
abbrev failsCheck (image : List Byte) (le : List Byte → Nat) (n : Nat) (r : BadReason) : Prop :=
  (le (image.take 2) ≠ 0x4647 ∧ r = .signature) ∨ (le (image.take 2) = 0x4647 ∧ 1023 < n ∧ r = .count) ∨
    (le (image.take 2) = 0x4647 ∧ n ≤ 1023 ∧ image.length < 6 + 8 * n ∧ r = .read) ∨
    (le (image.take 2) = 0x4647 ∧ n ≤ 1023 ∧ 6 + 8 * n ≤ image.length ∧
      ((image.take 4 ++ (image.drop 6).take (8 * n)).map (·.toNat)).sum % 65536 ≠ le ((image.drop 4).take 2) ∧ r = .checksum)

/-- The record names no register, no table field and no command that the loader may write or run. -/
abbrev recordRefused (b : Vector Byte 8) : Prop :=
  b[0].toNat < 1 ∨ 3 < b[0].toNat ∨ (b[0] = 1 ∧ b[1].toNat < 4) ∨
    (b[0] = 2 ∧ ¬∃ e f, tableShape b[1].toNat = some (e, f) ∧ b[2].toNat < e ∧ b[3].toNat < f) ∨
    (b[0] = 2 ∧ b[1].toNat ∈ [2, 5, 6, 7, 8, 10, 12, 13, 14]) ∨
    (b[0] = 3 ∧ (b[4] = 0 ∨ b[4] = 7 ∨ b[4] = 8 ∨ 8 < b[4].toNat))

/-- The port with the loader's record taken as a word of a transaction. -/
abbrev recordWord (s : State) (b : Vector Byte 8) (w : Port) : Prop :=
  (b[0] = 1 ∧ 4 ≤ b[1].toNat ∧ w = { s.port with transaction := .write, held := [], workingIndex := b[1] }) ∨
    (b[0] = 2 ∧
      w =
        { s.port with
          transaction := .write, held := [], workingIndex := 3, pointer := ⟨b[1].toNat, b[2].toNat, b[3].toNat⟩ }) ∨
    (b[0] = 3 ∧ b[4] ≠ 7 ∧ b[4] ≠ 8 ∧ w = { s.port with transaction := .write, held := [], workingIndex := 0 })

/-- The word that the record stands for, taken by the loader's owner. -/
abbrev recordTaken (s : State) (b : Vector Byte 8) (w : Port) (u : State) : Prop :=
  exec (.registerWrite b[4] [b[5], b[6], b[7]]) { s with loader := { s.loader with state := .idle }, port := w } = .next u

theorem test_meets_LoaderChecksThenApplies :
    (∃ s : State, s.listening) ∧
    (∃ (s : State) (n k : Nat), s.loader.state = .apply n k) ∧
    (∃ (s : State) (image : List Byte) (le : List Byte → Nat) (n : Nat), firstPassOver s image le n ∧ image.length < 6) ∧
    (∀ r : BadReason, ∃ (s : State) (image : List Byte) (le : List Byte → Nat) (n : Nat), firstPassOver s image le n ∧
      6 ≤ image.length ∧ failsCheck image le n r) ∧
    (∃ (s : State) (image : List Byte) (le : List Byte → Nat) (n : Nat), firstPassOver s image le n ∧
      le (image.take 2) = 0x4647 ∧ 1 ≤ n ∧ n ≤ 1023 ∧ 6 + 8 * n ≤ image.length ∧
      ((image.take 4 ++ (image.drop 6).take (8 * n)).map (·.toNat)).sum % 65536 = le ((image.drop 4).take 2)) ∧
    (∀ b : Vector Byte 8, b ∈ [#v[0, 9, 0, 0, 1, 0, 0, 0], #v[4, 9, 0, 0, 1, 0, 0, 0], #v[1, 3, 0, 0, 5, 0, 0, 0],
        #v[2, 1, 16, 0, 0, 0, 0, 0], #v[2, 5, 31, 14, 0, 0, 0, 0], #v[3, 0, 0, 0, 7, 0, 0, 0], #v[3, 0, 0, 0, 9, 0, 0, 0]] →
      ∃ (s : State) (n k : Nat), s.resetting = none ∧ s.loader.state = .apply n k ∧ recordRefused b) ∧
    (∀ b : Vector Byte 8, b ∈ [#v[1, 23, 0, 0, 3, 0, 0, 0], #v[2, 11, 8, 0, 1, 2, 3, 0], #v[3, 0, 0, 0, 1, 16, 0, 0]] →
      ∃ (s : State) (n k : Nat) (w : Port) (u : State), s.resetting = none ∧ s.loader.state = .apply n k ∧
        recordWord s b w ∧ recordTaken s b w u) ∧
    (∃ (s : State) (n k : Nat) (b : Vector Byte 8) (v : Nat), s.resetting = none ∧ s.loader.state = .apply n k ∧ b[0] = 1 ∧
      b[1] = 9 ∧ v = b[4].toNat + 256 * b[5].toNat + 65536 * b[6].toNat + 16777216 * b[7].toNat ∧ 1 ≤ v ∧ v ≤ 65535 ∧
      ¬k + 1 < n) ∧
    (∃ (s : State) (b : Vector Byte 8) (t : State), s.resetting = none ∧ exec (.applyRecord b) s = .next t) :=
  ⟨⟨with3 live, by decide⟩,
    ⟨loaded, 3, 1, by decide⟩,
    ⟨(with3 live).startLoad, image.take 5, leNat, 1, ⟨by decide, by decide, ⟨rfl, fun _ _ => rfl⟩, by decide⟩, by decide⟩,
    by
      intro r
      cases r
      · exact ⟨(with3 live).startLoad, image.set 0 0, leNat, 1, ⟨by decide, by decide, ⟨rfl, fun _ _ => rfl⟩, by decide⟩,
          by decide, by decide⟩
      · exact ⟨(with3 live).startLoad, image.set 3 4, leNat, 1025, ⟨by decide, by decide, ⟨rfl, fun _ _ => rfl⟩, by decide⟩,
          by decide, by decide⟩
      · exact ⟨(with3 live).startLoad, image.set 4 0, leNat, 1, ⟨by decide, by decide, ⟨rfl, fun _ _ => rfl⟩, by decide⟩,
          by decide, by decide⟩
      · exact ⟨(with3 live).startLoad, image.take 13, leNat, 1, ⟨by decide, by decide, ⟨rfl, fun _ _ => rfl⟩, by decide⟩,
          by decide, by decide⟩,
    ⟨(with3 live).startLoad, image, leNat, 1, ⟨by decide, by decide, ⟨rfl, fun _ _ => rfl⟩, by decide⟩, by decide, by decide,
      by decide, by decide, by decide⟩,
    by
      intro b hb
      refine ⟨loaded, 3, 1, rfl, rfl, ?_⟩
      simp only [List.mem_cons, List.not_mem_nil, or_false] at hb
      rcases hb with rfl | rfl | rfl | rfl | rfl | rfl | rfl
      · exact .inl (by decide)
      · exact .inr (.inl (by decide))
      · exact .inr (.inr (.inl (by decide)))
      · exact .inr (.inr (.inr (.inl ⟨by decide, by
          rintro ⟨e, f, h, he, _⟩
          obtain ⟨rfl, rfl⟩ := Prod.mk.inj (Option.some.inj h)
          exact absurd he (by decide)⟩)))
      · exact .inr (.inr (.inr (.inr (.inl (by decide)))))
      · exact .inr (.inr (.inr (.inr (.inr (by decide)))))
      · exact .inr (.inr (.inr (.inr (.inr (by decide))))),
    by
      intro b hb
      simp only [List.mem_cons, List.not_mem_nil, or_false] at hb
      rcases hb with rfl | rfl | rfl
      · exact ⟨loaded, 3, 1, _, _, rfl, rfl, .inl ⟨rfl, by decide, rfl⟩, ran rfl⟩
      · exact ⟨loaded, 3, 1, _, _, rfl, rfl, .inr (.inl ⟨rfl, rfl⟩), ran rfl⟩
      · exact ⟨loaded, 3, 1, _, _, rfl, rfl, .inr (.inr ⟨rfl, by decide, by decide, rfl⟩), ran rfl⟩,
    ⟨{ loaded with loader := ⟨.apply 2 1, loaded.loader.result⟩ }, 2, 1, #v[1, 9, 0, 0, 255, 255, 0, 0], 65535, by decide⟩,
    ⟨loaded, #v[1, 23, 0, 0, 3, 0, 0, 0], _, rfl, ran rfl⟩⟩

/-- In a write transaction a word that holds no byte yet arrives as four bytes. -/
abbrev wordArrives (s : State) (b0 b1 b2 b3 : Byte) (v : Word) : Prop :=
  s.listening ∧ s.port.transaction = .write ∧ s.port.held = [] ∧
    v.toNat = b0.toNat + 256 * b1.toNat + 65536 * b2.toNat + 16777216 * b3.toNat

/-- A word of a read transaction is due at the port `z`, in one of the four ways that the statement tells apart. -/
abbrev readDue (s : State) (q : Port) (r : PortRead) (z : Port) : Prop :=
  (r = .next ∧ s.port.transaction = .read ∧ z = s.port) ∨
    (r = .first s.port.targetAddress ∧ z = { q with transaction := .read, workingIndex := s.port.startIndex }) ∨
    (r = .tableData ∧ s.port.transaction = .read ∧ s.port.workingIndex = 3 ∧ z = s.port) ∨
    (r = .tableData ∧ (s.port.transaction ≠ .read ∨ s.port.workingIndex ≠ 3) ∧
      z = { q with transaction := .read, startIndex := 3, workingIndex := 3 })

/-- Every register and every word has its state, so that each clause on a word taken is met, at each index and at each pointer. -/
theorem test_meets_PortTakesWords :
    (∃ (s : State) (a : BitVec 7), s.listening ∧ s.port.held ≠ [] ∧ a ≠ s.port.targetAddress) ∧
    (∀ r : PortRead, (r = .next ∨ r = .first 0x52 ∨ r = .tableData) → ∃ (s : State) (q z : Port), s.listening ∧
      readDue s q r z) ∧
    (∃ (s : State) (q z : Port), s.listening ∧ readDue s q .tableData z ∧ s.port.transaction = .read ∧ z = s.port) ∧
    (∃ s : State, s.listening ∧ s.port.transaction ≠ .read) ∧
    (∃ (s : State) (more : List Byte), s.listening ∧ more.length ≤ 3 ∧ s.port.transaction ≠ .write) ∧
    (∃ (s : State) (more : List Byte), s.listening ∧ more.length ≤ 3 ∧ s.port.transaction = .write ∧
      s.port.held.length + more.length ≤ 2) ∧
    (∃ (s : State) (more hs : List Byte) (h : Byte), s.listening ∧ more.length ≤ 3 ∧ s.port.transaction = .write ∧
      s.port.held = h :: hs ∧ hs.length + more.length = 2) ∧
    (∃ (s : State) (more pre post : List Byte), s.listening ∧ more.length ≤ 3 ∧ more = pre ++ post ∧
      s.port.transaction = .write ∧ s.port.held.length + pre.length = 3) ∧
    (∀ i b0 b1 b2 b3 : Byte, ∃ (s : State) (v : Word), wordArrives s b0 b1 b2 b3 v ∧ s.port.workingIndex = i) ∧
    (∀ (b0 b1 b2 b3 : Byte) (q : TablePointer), ∃ (s : State) (v : Word), wordArrives s b0 b1 b2 b3 v ∧
      s.port.workingIndex = 3 ∧ s.port.pointer = q) ∧
    (∃ (s : State) (v : Word) (q : TablePointer), s.listening ∧
      q = ⟨v.toNat % 256, v.toNat / 256 % 4096, v.toNat / 1048576 % 256⟩ ∧
      ∃ n m, tableShape q.table = some (n, m) ∧ q.entry < n ∧ q.field < m) ∧
    (∃ (s : State) (v : Word) (q : TablePointer), s.listening ∧
      q = ⟨v.toNat % 256, v.toNat / 256 % 4096, v.toNat / 1048576 % 256⟩ ∧
      ¬∃ n m, tableShape q.table = some (n, m) ∧ q.entry < n ∧ q.field < m) ∧
    (∃ p : TablePointer, tableShape p.table = none) ∧
    (∃ (p : TablePointer) (n m : Nat), tableShape p.table = some (n, m) ∧ p.entry < n ∧ p.field < m) ∧
    (∃ (s : State) (b : Bank) (number : Bool → Nat) (y : Strip) (g : Segment), number false = 0 ∧ number true = 1 ∧
      b = (match s.layout.active with | .a => s.layout.bankA | .b => s.layout.bankB) ∧ b.strips[1]? = some y ∧
      b.segments[3]? = some g) :=
  ⟨⟨inTransaction .write 4 ⟨0, 0, 0⟩ [1], 0x53, by decide⟩,
    by
      rintro r (rfl | rfl | rfl)
      · exact ⟨inTransaction .read 7 ⟨0, 0, 0⟩ [], (inTransaction .read 7 ⟨0, 0, 0⟩ []).port, _, by decide, .inl ⟨rfl, rfl, rfl⟩⟩
      · exact ⟨inTransaction .read 7 ⟨0, 0, 0⟩ [], (inTransaction .read 7 ⟨0, 0, 0⟩ []).port, _, by decide,
          .inr (.inl ⟨rfl, rfl⟩)⟩
      · exact ⟨with3 live, (with3 live).port, _, by decide, .inr (.inr (.inr ⟨rfl, .inl (by decide), rfl⟩))⟩,
    ⟨inTransaction .read 3 ⟨1, 15, 10⟩ [], (inTransaction .read 3 ⟨1, 15, 10⟩ []).port, _, by decide,
      .inr (.inr (.inl ⟨rfl, rfl, rfl, rfl⟩)), rfl, rfl⟩,
    ⟨inTransaction .write 3 ⟨0, 0, 0⟩ [], by decide⟩,
    ⟨inTransaction .read 3 ⟨0, 0, 0⟩ [], [7], by decide⟩,
    ⟨inTransaction .write 3 ⟨0, 0, 0⟩ [1, 2], [], by decide⟩,
    ⟨inTransaction .write 3 ⟨0, 0, 0⟩ [1, 2], [4], [2], 1, by decide⟩,
    ⟨inTransaction .write 3 ⟨0, 0, 0⟩ [1, 2, 3], [5, 6, 7], [], [5, 6, 7], by decide⟩,
    fun i b0 b1 b2 b3 => ⟨inTransaction .write i ⟨0, 0, 0⟩ [], wordOf b0 b1 b2 b3, ⟨⟨rfl, rfl⟩, rfl, rfl,
      wordOf_toNat b0 b1 b2 b3⟩, rfl⟩,
    fun b0 b1 b2 b3 q => ⟨inTransaction .write 3 q [], wordOf b0 b1 b2 b3, ⟨⟨rfl, rfl⟩, rfl, rfl,
      wordOf_toNat b0 b1 b2 b3⟩, rfl, rfl⟩,
    ⟨with3 live, 0x00A00F01, ⟨1, 15, 10⟩, by decide, by decide, ⟨16, 11, by decide, by decide, by decide⟩⟩,
    ⟨with3 live, 0x00B00F01, ⟨1, 15, 11⟩, by decide, by decide,
      by rintro ⟨n, m, h, _, hm⟩; simp [tableShape] at h hm; omega⟩,
    ⟨⟨0, 0, 0⟩, by decide⟩,
    ⟨⟨1, 15, 10⟩, 16, 11, by decide⟩,
    ⟨shown, layout.compile canvas, fun b => if b then 1 else 0, ⟨2, 4, 3, 1⟩, ⟨0, none⟩, by decide, by decide, by decide,
      by decide, by decide⟩⟩

theorem test_meets_ErrorStatusClearsNamedClasses :
    (∃ (s : State) (v : Word) (e : ErrEvent), s.listening ∧ BitVec.getLsbD v e.cls.num = true ∧
      s.capture.detect.getLsbD e.cls.num = true) :=
  ⟨State.reset.record ⟨.contain, none, none, none, none⟩, 0x80, ⟨.contain, none, none, none, none⟩, by decide⟩

theorem test_meets_RawConditionIsAnyInput :
    ∃ (s : State) (g : GroupId) (c : GroupConfig) (line : Fin 8 → Prop) (trip contain : SourceId → Prop) (soft : Fin 2 → Prop),
      c = s.override.groups[g].cfg ∧
        (∀ n, line n ↔ c.alarmSel.getLsbD n.val = true ∧
          (s.override.sensed.getLsbD n.val = true ↔ c.polarity.getLsbD n.val = false)) ∧
        (∀ i, trip i ↔ c.staleSel.getLsbD i.val = true ∧ s.sources[i].trip = true) ∧
        (∀ i, contain i ↔ c.containSel.getLsbD i.val = true ∧ s.sources[i].state = .contained) ∧
        ∀ b, soft b ↔ c.softEnable.getLsbD b.val = true ∧ s.override.softBits.getLsbD (2 * g.val + b.val) = true :=
  ⟨State.reset.putGroup 1 groupOn, 1, _, _, _, _, _, rfl, fun _ => .rfl, fun _ => .rfl, fun _ => .rfl, fun _ => .rfl⟩

/-! A state with a command waiting that meets each law, other than the machine after reset. -/

/-- The state with WFS waiting. -/
def strobed (s : State) : State := { s with pending := [.wfs order] }

theorem strobed_step {s : State} (h : s.resetting = none) : ∃ t, step (strobed s) = .next t := by
  simp only [step, strobed, exec, execWfs]
  exact ⟨_, outsideReset_of_none (s := { s with pending := [] }) h _⟩

theorem with3_all {Q : Source → Prop} {x : Source} (h0 : Q Source.reset) (hx : Q x) (i : SourceId) :
    Q (strobed (with3 x)).sources[i] := by
  have h : (strobed (with3 x)).sources[i] = if i = 3 then x else State.reset.sources[i] := putAt_get _ _ _ _
  rw [h]
  split
  · exact hx
  · simpa [State.reset] using h0

theorem test_meets_FirstErrorLawIsKept : ∃ s t : State, s.capture.pointerLaw ∧ step s = .next t :=
  have h := strobed_step (s := State.reset.record ⟨.guard, none, none, none, none⟩) (by decide)
  ⟨_, _, fun _ => by decide, h.choose_spec⟩

theorem test_meets_RoleLawsAreKept : ∃ s t : State, s.roleLaws ∧ step s = .next t :=
  have h := strobed_step (s := with3 live) (by decide)
  ⟨_, _, with3_all (Q := fun x => x.roleLaws ∧ x.roleSupport)
    ⟨by simp only [Source.roleLaws, Source.oneOf_iff, Source.hasRole_iff, Source.allSpent_iff]; simp [Source.reset],
      by simp only [Source.roleSupport, Source.hasRole_iff, Source.allSpent_iff]; simp [Source.reset]⟩
    ⟨by simp only [Source.roleLaws, Source.oneOf_iff, Source.hasRole_iff, Source.allSpent_iff]; simp [Source.reset, live, source, clean, buf],
      by simp only [Source.roleSupport, Source.hasRole_iff, Source.allSpent_iff]; simp [Source.reset, live, source, clean, buf]⟩,
    h.choose_spec⟩

theorem test_meets_CreditLawIsKept : ∃ s t : State, s.creditLaws ∧ step s = .next t :=
  have h := strobed_step (s := with3 (governed live)) (by decide)
  ⟨_, _, with3_all (Q := Source.creditLaw) (by unfold Source.creditLaw; decide) (by unfold Source.creditLaw; decide), h.choose_spec⟩

theorem test_meets_RegionsStayDisjoint : ∃ s t : State, s.regionsApart ∧ step s = .next t :=
  have h := strobed_step (s := withCanvas (with3 live)) (by decide)
  ⟨_, _, State.regionsApart_iff.mpr (by decide), h.choose_spec⟩

theorem test_meets_CapacitiesAreKept : ∃ s t : State, s.capacityLaws ∧ step s = .next t :=
  have h := strobed_step (s := withPlain (with3 { live with holdQueue := List.replicate 4 (queued 1) }) 16) (by decide)
  ⟨_, _, by unfold State.capacityLaws; decide, h.choose_spec⟩

theorem test_meets_GroupLawsAreKept : ∃ s t : State, s.groupLaws ∧ step s = .next t :=
  have h := strobed_step (s := State.reset.putGroup 1 { groupOn with state := .holding }) (by decide)
  ⟨_, _, by unfold State.groupLaws; decide, h.choose_spec⟩

theorem test_meets_ReadPathStaysSettled : ∃ s t : State, s.readPathLaw ∧ step s = .next t :=
  have h := strobed_step (s := withContexts (with3 live) [ctx 0 .plain .gathering [], walk 3 0] (some 1)) (by decide)
  ⟨_, _, ⟨by decide, fun _ => rfl, fun pre post c e hc => by
      have hm : ∀ x ∈ [ctx 0 .plain .gathering [], walk 3 0], x.state ≠ .complete := by decide
      exact absurd hc (hm c (by
        have : c ∈ pre ++ c :: post := by simp
        rw [← e] at this
        exact this)), fun _ _ _ hp => absurd hp (by decide), fun hw => absurd hw (by decide)⟩, h.choose_spec⟩

end Sys2Proof.Tests
end

section
/-! PROOFS. The role laws of R31 through every step (O54). The actions of the part change source records in the ways `SourceKeeps`
speaks of, or reset them all; so a law of one source record is proved of every step by two facts, and the role laws are such a law. -/

namespace Sys2Proof.Machine

open Sys2Proof

/-! ### Laws of one source record -/

/-- `Q` holds of every source. -/
def State.everySource (Q : Source → Prop) (s : State) : Prop := ∀ i : SourceId, Q s.sources[i]

theorem State.everySource_of_sources {Q : Source → Prop} {s t : State} (h : t.sources = s.sources)
    (hs : s.everySource Q) : t.everySource Q := by
  intro i
  rw [h]
  exact hs i

theorem State.everySource_putSource {Q : Source → Prop} {s : State} {i : SourceId} {x : Source} (hs : s.everySource Q)
    (hx : Q x) : (s.putSource i x).everySource Q := by
  intro j
  rw [State.putSource_sources, putAt_get]
  split
  · exact hx
  · exact hs j

theorem State.everySource_beginReset {Q : Source → Prop} (h : Q Source.reset) (s : State) (k : ResetKind) :
    (s.beginReset k).everySource Q := by
  intro i
  have hi : (s.beginReset k).sources[i] = Source.reset := by simp [State.beginReset]
  rw [hi]
  exact h

/-- A law of one source record that the reset record obeys, and that every change of a record which `SourceKeeps` speaks of keeps, is
kept by every change of one block. -/
theorem State.everySource_closed {Q : Source → Prop} (hreset : Q Source.reset)
    (hkeeps : ∀ {x y : Source}, SourceKeeps x y → Q x → Q y) : Closed (State.everySource Q) where
  links _ _ := State.everySource_of_sources rfl
  pending _ _ := State.everySource_of_sources rfl
  port _ _ := State.everySource_of_sources rfl
  loader _ _ := State.everySource_of_sources rfl
  uport _ _ hs _ _ := State.everySource_of_sources rfl hs
  dport _ _ hs _ := State.everySource_of_sources rfl hs
  governor _ _ hs _ := State.everySource_of_sources rfl hs
  capture _ _ hs _ := State.everySource_of_sources rfl hs
  layout _ _ hs _ := State.everySource_of_sources rfl hs
  source _ i _ hs hx _ _ := State.everySource_putSource hs (hkeeps hx (hs i))
  resetting _ _ := State.everySource_of_sources rfl
  override _ _ := State.everySource_of_sources rfl
  anySource _ i _ hs hx _ := State.everySource_putSource hs (hkeeps hx (hs i))
  translator _ _ := State.everySource_of_sources rfl
  intake _ _ hs _ := State.everySource_of_sources rfl hs
  reset s k _ := State.everySource_beginReset hreset s k

/-! ### The role laws -/

theorem State.roleLaws_iff (s : State) : s.roleLaws ↔ s.everySource Source.ok := Iff.rfl

/-- After a reset a source is OFF with three SPENT buffers and out of fill wait (R22). -/
theorem Source.reset_ok : Source.reset.ok := by
  rw [Source.ok_iff Source.reset .spent .spent .spent rfl rfl rfl]
  simp [Source.reset]

/-- Settles O54: the role laws and their support are a law of one source record, which the reset record obeys and which every change
that an action makes to a record keeps (`SourceKeeps.roles`). -/
theorem roleLawsAreKept : Obligations.RoleLawsAreKept := by
  unfold Obligations.RoleLawsAreKept
  intro s t hs hstep
  have hkept : Kept (State.everySource Source.ok) :=
    (State.everySource_closed Source.reset_ok SourceKeeps.roles).kept
  rw [State.roleLaws_iff] at hs ⊢
  exact hkept.step hs hstep

end Sys2Proof.Machine
end

section
/-! PROOFS. The allotments of R140 (O35). The extra beats due by a slot grow by at most one from slot to slot, so the allotments are a
telescoping sum. -/

namespace Sys2Proof.Machine

open Sys2Proof

/-! ### Extra beats and allotments -/

/-- The extra beats of a quota in effect `q` that are due in its first `n` slots (R140). -/
def extraDue (q n : Nat) : Nat := n * (q % 1024) / 1024

theorem allotment_eq (q k : Nat) : allotment q k = q / 1024 + (extraDue q (k + 1) - extraDue q k) := rfl

@[simp] theorem extraDue_zero (q : Nat) : extraDue q 0 = 0 := by simp [extraDue]

@[simp] theorem extraDue_allSlots (q : Nat) : extraDue q 1024 = q % 1024 := by simp [extraDue]

/-- From one slot to the next the extra beats due stay or grow by one, because the rest `q % 1024` is below 1024. -/
theorem extraDue_succ (q k : Nat) : extraDue q (k + 1) = extraDue q k ∨ extraDue q (k + 1) = extraDue q k + 1 := by
  have hrest : q % 1024 < 1024 := Nat.mod_lt q (by decide)
  simp only [extraDue, Nat.succ_mul]
  omega

theorem extraDue_step_le_one (q k : Nat) : extraDue q (k + 1) - extraDue q k ≤ 1 := by
  have hstep := extraDue_succ q k
  omega

theorem allotment_eq_main_or_one_more (q k : Nat) :
    allotment q k = q / 1024 + (if extraDue q (k + 1) - extraDue q k = 1 then 1 else 0) := by
  have hstep := extraDue_step_le_one q k
  rw [allotment_eq]
  split <;> omega

/-- Slot 0 has no extra beat: the rest of the quota alone makes up no whole beat. -/
theorem allotment_slotZero (q : Nat) : allotment q 0 = q / 1024 := by
  have hone : extraDue q 1 = 0 := by simp [extraDue]
  simp [allotment_eq, hone]

/-! ### Sums over slots -/

/-- The allotments of the first `n` slots: the main parts, and the extra beats due by then. -/
theorem sum_allotment (q n : Nat) :
    ((List.range n).map (allotment q)).sum = n * (q / 1024) + extraDue q n := by
  induction n with
  | zero => simp
  | succ n ih =>
    have hstep := extraDue_succ q n
    rw [List.range_succ, List.map_append, List.sum_append, ih, Nat.succ_mul, List.map_singleton, List.sum_singleton,
      allotment_eq]
    omega

theorem sum_allotment_allSlots (q : Nat) : ((List.range 1024).map (allotment q)).sum = q := by
  rw [sum_allotment, extraDue_allSlots]
  exact Nat.div_add_mod q 1024

/-! ### Quotas below 1024 -/

/-- A sum of zeros and ones counts the ones. -/
theorem length_filter_eq_sum {α : Type} {f : α → Nat} (hf : ∀ a, f a ≤ 1) (l : List α) :
    (l.filter fun a => f a == 1).length = (l.map f).sum := by
  induction l with
  | nil => rfl
  | cons a l ih =>
    rcases Nat.le_one_iff_eq_zero_or_eq_one.mp (hf a) with h | h
    · simp [h, ih]
    · simp [h, ih, Nat.add_comm]

/-- Such a quota has no main part, so a slot has at most its extra beat. -/
theorem allotment_le_one {q : Nat} (hq : q < 1024) (k : Nat) : allotment q k ≤ 1 := by
  rw [allotment_eq, Nat.div_eq_of_lt hq, Nat.zero_add]
  exact extraDue_step_le_one q k

/-- Settles O35: the sums telescope (`sum_allotment`), and below 1024 the slots that have a beat are as many as the sum says. -/
theorem allotmentsAddUpToQuota : Obligations.AllotmentsAddUpToQuota := by
  unfold Obligations.AllotmentsAddUpToQuota
  intro q k _
  refine ⟨extraDue_step_le_one q k, allotment_eq_main_or_one_more q k, sum_allotment q (k + 1), sum_allotment_allSlots q,
    allotment_slotZero q, fun hq => ⟨allotment_le_one hq k, ?_⟩⟩
  rw [length_filter_eq_sum (allotment_le_one hq)]
  exact sum_allotment_allSlots q

end Sys2Proof.Machine
end

section
/-! PROOFS. Error capture and the interrupt line (O47, O48, O49). A word of ERROR_STATUS, SEVERITY or INT_ENABLE changes error capture
alone, so what it leaves is said once for all three; the rest is what a set of classes, a set of causes and a recorded event do bit by
bit. -/

namespace Sys2Proof.Machine

open Sys2Proof

/-! ### Words of registers that error capture owns -/

/-- The port after an accepted word of a register other than COMMAND and TABLE_DATA, in the statements' words (R171, R173). -/
theorem Port.report_accepted_standAt (p : Port) (index : Byte) :
    { (p.standAt index).report index .accepted with workingIndex := index + 1 } = p.wordTaken index .accepted 255 := rfl

/-- A word whose owner is error capture, and which it takes by `f`, changes nothing else but the port and the links (R171, R173). -/
theorem heard_takeWordAt_of_capture {s : State} {index : Byte} {v : Word} (hs : s.listening) (f : Capture → Capture)
    (hindex : index ≠ 0 ∧ index ≠ 3)
    (hwrite : ∀ t : State, t.writeRegister index.toNat v = (t.withCapture (f t.capture), .accepted)) :
    heard (fun t => t.takeWordAt index v) s =
      .next
        { s with
          capture := f s.capture
          port := s.port.wordTaken index .accepted 255
          links := Links.none } := by
  obtain ⟨hcommand, htable⟩ := hindex
  have htaken (t : State) :
      t.takeWordAt index v =
        (t.withCapture (f t.capture)).withPort (t.port.wordTaken index .accepted 255) := by
    rw [State.takeWordAt, State.takeWordOf, if_neg hcommand, if_neg htable, State.takeRegisterWord, hwrite,
      ← Port.report_accepted_standAt]
    rfl
  rw [heard_of_listening hs, htaken]
  rfl

/-- ERROR_STATUS (R163). -/
theorem exec_errorStatus_of_listening {s : State} (hs : s.listening) (v : Word) :
    exec (.errorStatus v) s =
      .next
        { s with
          capture := s.capture.clearStatus (v.extractLsb' 0 12)
          port := s.port.wordTaken 0x10 .accepted 255
          links := Links.none } :=
  heard_takeWordAt_of_capture hs (Capture.clearStatus · (v.extractLsb' 0 12)) (by decide) fun _ => rfl

/-- SEVERITY (R164). -/
theorem exec_severity_of_listening {s : State} (hs : s.listening) (v : Word) :
    exec (.severity v) s =
      .next
        { s with
          capture := { s.capture with severity := v.extractLsb' 0 12 }
          port := s.port.wordTaken 0x12 .accepted 255
          links := Links.none } :=
  heard_takeWordAt_of_capture hs (fun c => { c with severity := v.extractLsb' 0 12 }) (by decide) fun _ => rfl

/-- INT_ENABLE (R168). -/
theorem exec_intEnable_of_listening {s : State} (hs : s.listening) (v : Word) :
    exec (.intEnable v) s =
      .next
        { s with
          capture := { s.capture with intEnable := v.extractLsb' 0 5 }
          port := s.port.wordTaken 0x15 .accepted 255
          links := Links.none } :=
  heard_takeWordAt_of_capture hs (fun c => { c with intEnable := v.extractLsb' 0 5 }) (by decide) fun _ => rfl

/-! ### Sets of classes -/

theorem ErrClass.num_lt (c : ErrClass) : c.num < 12 := by cases c <;> decide

/-- Table 10-1 gives every bit of a set of classes a class. -/
theorem ErrClass.exists_num {n : Nat} (h : n < 12) : ∃ c : ErrClass, c.num = n :=
  match n, h with
  | 0, _ => ⟨.decode, rfl⟩
  | 1, _ => ⟨.guard, rfl⟩
  | 2, _ => ⟨.readTimeout, rfl⟩
  | 3, _ => ⟨.readError, rfl⟩
  | 4, _ => ⟨.writeTimeout, rfl⟩
  | 5, _ => ⟨.writeError, rfl⟩
  | 6, _ => ⟨.poisonDiscard, rfl⟩
  | 7, _ => ⟨.contain, rfl⟩
  | 8, _ => ⟨.staleTrip, rfl⟩
  | 9, _ => ⟨.commitFail, rfl⟩
  | 10, _ => ⟨.bootImage, rfl⟩
  | 11, _ => ⟨.lateResponse, rfl⟩

/-- The set of classes that a word names has the word's bits. -/
theorem ErrClass.getLsbD_named (c : ErrClass) (v : Word) :
    (v.extractLsb' 0 12).getLsbD c.num = v.getLsbD c.num := by
  simp [c.num_lt]

@[simp] theorem ErrClass.getLsbD_mask_self (c : ErrClass) : c.mask.getLsbD c.num = true := by
  simp [ErrClass.mask, c.num_lt]

/-- Two sets of bits meet where both have a bit. -/
theorem bits_meet_iff {w : Nat} (x y : BitVec w) :
    (x &&& y != 0) = true ↔ ∃ n, n < w ∧ x.getLsbD n = true ∧ y.getLsbD n = true := by
  have hapart : x &&& y = 0 ↔ ∀ n < w, ¬(x.getLsbD n = true ∧ y.getLsbD n = true) := by
    rw [BitVec.eq_of_getLsbD_eq_iff]
    simp
  rw [bne_iff_ne, ne_eq, hapart]
  simp only [not_forall, not_not, exists_prop]

/-- Two sets of classes meet where both have a class. -/
theorem classes_meet_iff (x y : BitVec 12) :
    (x &&& y != 0) = true ↔ ∃ c : ErrClass, x.getLsbD c.num = true ∧ y.getLsbD c.num = true := by
  rw [bits_meet_iff]
  constructor
  · rintro ⟨n, hn, hboth⟩
    obtain ⟨c, rfl⟩ := ErrClass.exists_num hn
    exact ⟨c, hboth⟩
  · rintro ⟨c, hboth⟩
    exact ⟨c.num, c.num_lt, hboth⟩

/-! ### Statuses -/

/-- A set that is cleared clears the statuses of its classes and no other (R163). -/
theorem Capture.clearStatus_status_getLsbD (c : Capture) (m : BitVec 12) (k : ErrClass) :
    (c.clearStatus m).status.getLsbD k.num = (c.status.getLsbD k.num && !m.getLsbD k.num) := by
  simp [Capture.clearStatus, k.num_lt]

/-- An event of a detected class leaves its status set (R161). -/
theorem Capture.record_sets_own_status {c : Capture} {e : ErrEvent} (hdetect : c.detect.getLsbD e.cls.num = true)
    (frame : BitVec 16) : (c.record frame e).status.getLsbD e.cls.num = true := by
  rw [Capture.record, if_pos hdetect]
  split <;> simp

/-- Settles O47: the write takes `Capture.clearStatus` of the set it names, which is said bit by bit; an event before the write leaves
the part listening, so the same holds after it. -/
theorem errorStatusClearsNamedClasses : Obligations.ErrorStatusClearsNamedClasses := by
  unfold Obligations.ErrorStatusClearsNamedClasses
  refine ⟨fun s v hs => ⟨_, exec_errorStatus_of_listening hs v, ?pointer, fun _ => rfl, fun c => ?statuses,
    fun e u hnamed hdetect => ⟨?eventAfter, ?eventBefore⟩⟩, fun s => rfl⟩
  case pointer => simp only [Capture.clearStatus, ErrClass.getLsbD_named]
  case statuses => rw [Capture.clearStatus_status_getLsbD, ErrClass.getLsbD_named]
  case eventAfter => exact Capture.record_sets_own_status (c := s.capture.clearStatus _) hdetect _
  case eventBefore =>
    intro hu
    have hrecorded : (s.record e).listening := hs
    rw [exec_errorStatus_of_listening hrecorded v] at hu
    rw [← Host.Outcome.next.inj hu, Capture.clearStatus_status_getLsbD, ErrClass.getLsbD_named, hnamed, Bool.not_true,
      Bool.and_false]

/-! ### Levels -/

/-- The fault level is driven by a set status whose class is a fault (R168). -/
theorem Capture.faultLevel_iff (c : Capture) :
    c.faultLevel = true ↔ ∃ k : ErrClass, c.status.getLsbD k.num = true ∧ c.severity.getLsbD k.num = true :=
  classes_meet_iff c.status c.severity

/-- The notice level is driven by a set status whose class is a notice (R168). -/
theorem Capture.noticeLevel_iff (c : Capture) :
    c.noticeLevel = true ↔ ∃ k : ErrClass, c.status.getLsbD k.num = true ∧ c.severity.getLsbD k.num = false := by
  have hnotice (k : ErrClass) : (~~~c.severity).getLsbD k.num = true ↔ c.severity.getLsbD k.num = false := by
    simp [k.num_lt]
  rw [Capture.noticeLevel, classes_meet_iff]
  simp only [hnotice]

/-- Recording does not look at the severities (R164). -/
theorem Capture.record_severity (c : Capture) (v : BitVec 12) (frame : BitVec 16) (e : ErrEvent) :
    Capture.record { c with severity := v } frame e = { c.record frame e with severity := v } := by
  unfold Capture.record
  by_cases hdetect : c.detect.getLsbD e.cls.num = true
  · by_cases hvalid : c.pointerValid = true <;> simp [hdetect, hvalid]
  · simp [hdetect]

/-- Settles O48: the severities are the one field of error capture that the word stores, and each level is where the statuses meet the
set of its classes (`classes_meet_iff`). -/
theorem severityDecidesLevel : Obligations.SeverityDecidesLevel := by
  unfold Obligations.SeverityDecidesLevel
  exact ⟨fun _ v hs => exec_severity_of_listening hs v, fun c => ⟨c.faultLevel_iff, c.noticeLevel_iff⟩, Capture.record_severity⟩

/-! ### The interrupt line -/

/-- The five causes by their bits in INT_CAUSE (R168, Table 11-1). -/
def Capture.cause (c : Capture) : Fin 5 → Bool
  | 0 => c.faultLevel
  | 1 => c.noticeLevel
  | 2 => c.commitEnd
  | 3 => c.overrideChange
  | 4 => c.loaderEnd

/-- Five flags summed with their weights are a word that has the flags as its bits. -/
theorem getLsbD_ofNat_flags : ∀ (f : Fin 5 → Bool) (n : Fin 5),
    (BitVec.ofNat 5 (bit (f 0) + 2 * bit (f 1) + 4 * bit (f 2) + 8 * bit (f 3) + 16 * bit (f 4))).getLsbD n.val = f n := by
  decide

theorem Capture.causes_getLsbD (c : Capture) (n : Fin 5) : c.causes.getLsbD n.val = c.cause n :=
  getLsbD_ofNat_flags c.cause n

/-- IRQn is low where the causes meet the enables outside a reset (R169). -/
theorem State.irqLow_iff (s : State) :
    s.irqLow = true ↔
      s.resetting = none ∧ ∃ n : Fin 5, s.capture.cause n = true ∧ s.capture.intEnable.getLsbD n.val = true := by
  rw [State.irqLow, Bool.and_eq_true, Option.isNone_iff_eq_none, bits_meet_iff]
  simp only [← Capture.causes_getLsbD, Fin.exists_iff, exists_prop]

/-- With every enable off IRQn is released (R169). -/
theorem State.irqLow_of_disabled {s : State} (h : s.capture.intEnable = 0) : s.irqLow = false := by
  simp [State.irqLow, h]

/-! ### Enables through a reset -/

/-- Every reset turns the interrupt enables off (R167). -/
theorem Capture.atReset_intEnable (c : Capture) (k : ResetKind) : (c.atReset k).intEnable = 0 := by
  cases k <;> rfl

/-- The groups' evaluation can set OVERRIDE_CHANGE and leaves the enables (R152). -/
@[simp] theorem State.evaluateGroups_intEnable (s : State) :
    s.evaluateGroups.capture.intEnable = s.capture.intEnable := by
  rw [s.evaluateGroups_spec.rest]

/-- The end of a reset leaves the enables as its beginning set them (R167, R177). -/
theorem State.endReset_intEnable (s : State) (pins : ResetPins) :
    (s.endReset pins).capture.intEnable = s.capture.intEnable := by
  unfold State.endReset
  split <;> simp [State.startLoad]

theorem exec_resetEnd_of_isSome {s : State} (h : s.resetting.isSome = true) (pins : ResetPins) :
    exec (.resetEnd pins) s = .next (s.quiet.endReset pins) := congrArg Host.Outcome.next (if_pos h)

theorem intEnable_after_reset {s t : State} {k : ResetKind} {pins : ResetPins}
    (h : exec (.resetEnd pins) (s.beginReset k) = .next t) : t.capture.intEnable = 0 := by
  rw [exec_resetEnd_of_isSome rfl] at h
  rw [← Host.Outcome.next.inj h, State.endReset_intEnable]
  exact s.capture.atReset_intEnable k

/-- Settles O49: the causes meet the enables bit by bit (`State.irqLow_iff`); a reset turns every enable off; and an enable turned on
meets its cause in the same event, since the word changes no other field of error capture. -/
theorem irqFollowsEnabledCauses : Obligations.IrqFollowsEnabledCauses := by
  unfold Obligations.IrqFollowsEnabledCauses
  refine ⟨fun s => ?_, fun s k pins t h => ?_, fun s v hs => ⟨_, exec_intEnable_of_listening hs v, rfl, ?_⟩⟩
  · rw [State.irqLow_iff]
    simp only [Fin.exists_fin_succ, IsEmpty.exists_iff, or_false]
    rfl
  · have hdisabled := intEnable_after_reset h
    exact ⟨hdisabled, State.irqLow_of_disabled hdisabled⟩
  · intro hon hfault
    refine (State.irqLow_iff _).mpr ⟨hs.1, 0, hfault, ?_⟩
    simpa using hon

end Sys2Proof.Machine
end

section
/-! PROOFS. The laws that every step keeps (O53, O55 to O59), and the machine right after reset (O60). Four of the laws speak of one
block each, so the changes of single blocks keep them (`Closed`). The group laws hold again once the groups have been evaluated, and the
law of the read path once its consequences have been taken: for them the actions beyond `Base` are looked at one by one. -/

namespace Sys2Proof.Machine

open Sys2Proof

/-! ### The first-error pointer -/

/-- A reset clears the pointer with its status, or keeps both (R167). -/
theorem Capture.atReset_pointerLaw {c : Capture} (k : ResetKind) (h : c.pointerLaw) : (c.atReset k).pointerLaw := by
  cases k with
  | powerOn => intro hvalid; cases hvalid
  | pin => exact h
  | soft => exact h

theorem State.pointerLaw_closed : Closed fun s => s.capture.pointerLaw where
  links _ _ h := h
  pending _ _ h := h
  resetting _ _ h := h
  port _ _ h := h
  loader _ _ h := h
  uport _ _ h _ _ := h
  dport _ _ h _ := h
  governor _ _ h _ := h
  capture _ _ h hc := hc h
  layout _ _ h _ := h
  source _ _ _ h _ _ _ := h
  override _ _ h := h
  anySource _ _ _ h _ _ := h
  translator _ _ h := h
  intake _ _ h _ := h
  reset _ k h := Capture.atReset_pointerLaw k h

/-- Settles O53: error capture records and clears with the law kept (`Capture.record_pointerLaw`, `Capture.clearStatus_pointerLaw`), and
no other action touches it. -/
theorem firstErrorLawIsKept : Obligations.FirstErrorLawIsKept := by
  unfold Obligations.FirstErrorLawIsKept
  intro s t hs hstep
  exact State.pointerLaw_closed.kept.step hs hstep

/-! ### Credit -/

theorem Source.reset_creditLaw : Source.reset.creditLaw := by
  simp [Source.creditLaw, Source.reset]

/-- Settles O55: the credit law is a law of one source record (`SourceKeeps.credit`). -/
theorem creditLawIsKept : Obligations.CreditLawIsKept := by
  unfold Obligations.CreditLawIsKept
  intro s t hs hstep
  have hkept : Kept (State.everySource Source.creditLaw) :=
    (State.everySource_closed Source.reset_creditLaw SourceKeeps.credit).kept
  exact hkept.step hs hstep

/-! ### Regions -/

/-- With every source OFF and the canvas disabled the decoder has no region. -/
theorem State.regions_eq_nil {s : State} (hsources : ∀ i : SourceId, s.sources[i].state = .off)
    (hcanvas : s.layout.canvas.enabled = false) : s.regions = [] := by
  refine List.eq_nil_iff_forall_not_mem.mpr fun g hg => ?_
  rcases State.mem_regions.mp hg with ⟨henabled, -⟩ | ⟨i, hopen, -⟩
  · exact Bool.noConfusion (hcanvas.symm.trans henabled)
  · exact hopen (hsources i)

theorem State.regionsApart_of_sameRegions {s t : State} (hsources : t.sources = s.sources)
    (hcanvas : t.layout.canvas = s.layout.canvas) (h : s.regionsApart) : t.regionsApart := by
  refine State.regionsApart_of_fewer (fun i => .inr ?_) (.inr ?_) h
  · simp only [State.sourceRegions, hsources]
  · simp only [State.canvasRegions, hcanvas]

theorem State.regionsApart_beginReset (s : State) (k : ResetKind) : (s.beginReset k).regionsApart := by
  have hnone : (s.beginReset k).regions = [] :=
    State.regions_eq_nil (fun i => by simp [State.beginReset, Source.reset]) rfl
  rw [State.regionsApart, hnone]
  exact List.Pairwise.nil

theorem State.regionsApart_closed : Closed State.regionsApart where
  links _ _ := State.regionsApart_of_sameRegions rfl rfl
  pending _ _ := State.regionsApart_of_sameRegions rfl rfl
  resetting _ _ := State.regionsApart_of_sameRegions rfl rfl
  port _ _ := State.regionsApart_of_sameRegions rfl rfl
  loader _ _ := State.regionsApart_of_sameRegions rfl rfl
  uport _ _ h _ _ := State.regionsApart_of_sameRegions rfl rfl h
  dport _ _ h _ := State.regionsApart_of_sameRegions rfl rfl h
  governor _ _ h _ := State.regionsApart_of_sameRegions rfl rfl h
  capture _ _ h _ := State.regionsApart_of_sameRegions rfl rfl h
  layout _ _ h hl := hl h
  source _ _ _ h _ hx _ := hx h
  override _ _ := State.regionsApart_of_sameRegions rfl rfl
  anySource _ _ _ h _ hx := hx h
  translator _ _ := State.regionsApart_of_sameRegions rfl rfl
  intake _ _ h _ := State.regionsApart_of_sameRegions rfl rfl h
  reset s k _ := s.regionsApart_beginReset k

/-- Settles O56: regions come only by OPEN and canvas enable, which test them first (`State.regionsApart_opened`,
`State.regionsApart_canvasOn`). -/
theorem regionsStayDisjoint : Obligations.RegionsStayDisjoint := by
  unfold Obligations.RegionsStayDisjoint
  intro s t hs hstep
  exact State.regionsApart_closed.kept.step hs hstep

/-! ### Capacities -/

/-- The capacity laws, block by block. -/
theorem State.capacityLaws_iff (s : State) :
    s.capacityLaws ↔
      (s.uport.intake.length ≤ 16 ∧ s.uport.plainWrites.length ≤ 16) ∧
        (s.dport.readRun ≤ 8 ∧ ∀ i : SourceId, s.dport.writeLanes[i].length ≤ 4) ∧
        (s.governor.slotIndex ≤ 1023 ∧ 1 ≤ s.governor.slotLength ∧ s.governor.slotLength ≤ 65535) ∧
        s.everySource fun x => x.holdQueue.length ≤ 4 ∧ x.framesSinceFlip ≤ 255 := by
  unfold State.capacityLaws State.everySource
  constructor
  · rintro ⟨hintake, hplain, hrun, hindex, hmin, hmax, hsources⟩
    exact ⟨⟨hintake, hplain⟩, ⟨hrun, fun i => (hsources i).2.1⟩, ⟨hindex, hmin, hmax⟩,
      fun i => ⟨(hsources i).1, (hsources i).2.2⟩⟩
  · rintro ⟨⟨hintake, hplain⟩, ⟨hrun, hlanes⟩, ⟨hindex, hmin, hmax⟩, hsources⟩
    exact ⟨hintake, hplain, hrun, hindex, hmin, hmax, fun i => ⟨(hsources i).1, hlanes i, (hsources i).2⟩⟩

/-- A change that leaves the U-port, the D-port, the governor and the sources leaves the capacities. -/
theorem State.capacityLaws_of_same {s t : State} (hu : t.uport = s.uport) (hd : t.dport = s.dport)
    (hg : t.governor = s.governor) (hx : t.sources = s.sources) (h : s.capacityLaws) : t.capacityLaws := by
  rw [State.capacityLaws] at h ⊢
  rw [hu, hd, hg, hx]
  exact h

theorem State.capacityLaws_withUport {s : State} {u : UPort} (hu : UPortKeeps s.uport u) (h : s.capacityLaws) :
    (s.withUport u).capacityLaws := by
  rw [State.capacityLaws_iff] at h ⊢
  obtain ⟨⟨hintake, hplain⟩, hrest⟩ := h
  exact ⟨⟨hu.intake hintake, hu.plain hplain⟩, hrest⟩

theorem State.capacityLaws_putSource {s : State} {i : SourceId} {x : Source} (hx : SourceKeeps s.sources[i] x)
    (h : s.capacityLaws) : (s.putSource i x).capacityLaws := by
  rw [State.capacityLaws_iff] at h ⊢
  obtain ⟨hu, hd, hg, hsources⟩ := h
  exact ⟨hu, hd, hg, State.everySource_putSource hsources ⟨hx.queue (hsources i).1, hx.frames (hsources i).2⟩⟩

theorem State.capacityLaws_beginReset (s : State) (k : ResetKind) : (s.beginReset k).capacityLaws := by
  rw [State.capacityLaws_iff]
  refine ⟨?_, ?_, ?_, State.everySource_beginReset (by simp [Source.reset]) s k⟩
  · simp [State.beginReset, UPort.reset]
  · simp [State.beginReset, DPort.reset]
  · simp [State.beginReset, Governor.reset]

theorem State.capacityLaws_closed : Closed State.capacityLaws where
  links _ _ := State.capacityLaws_of_same rfl rfl rfl rfl
  pending _ _ := State.capacityLaws_of_same rfl rfl rfl rfl
  resetting _ _ := State.capacityLaws_of_same rfl rfl rfl rfl
  port _ _ := State.capacityLaws_of_same rfl rfl rfl rfl
  loader _ _ := State.capacityLaws_of_same rfl rfl rfl rfl
  uport _ _ h hu _ := State.capacityLaws_withUport hu h
  dport s d h hd := by
    rw [State.capacityLaws_iff] at h ⊢
    obtain ⟨hu, ⟨hrun, hlanes⟩, hrest⟩ := h
    exact ⟨hu, ⟨hd.run hrun, hd.lanes hlanes⟩, hrest⟩
  governor s g h hg := by
    rw [State.capacityLaws_iff] at h ⊢
    obtain ⟨hu, hd, ⟨hindex, hlength⟩, hsources⟩ := h
    exact ⟨hu, hd, ⟨hg.index hindex, hg.length hlength⟩, hsources⟩
  capture _ _ h _ := State.capacityLaws_of_same rfl rfl rfl rfl h
  layout _ _ h _ := State.capacityLaws_of_same rfl rfl rfl rfl h
  source _ _ _ h hx _ _ := State.capacityLaws_putSource hx h
  override _ _ := State.capacityLaws_of_same rfl rfl rfl rfl
  anySource _ _ _ h hx _ := State.capacityLaws_putSource hx h
  translator _ _ := State.capacityLaws_of_same rfl rfl rfl rfl
  intake _ _ h hu := State.capacityLaws_withUport hu h
  reset s k _ := s.capacityLaws_beginReset k

/-- Settles O57: each list and counter stays within its capacity through every change of its block. -/
theorem capacitiesAreKept : Obligations.CapacitiesAreKept := by
  unfold Obligations.CapacitiesAreKept
  intro s t hs hstep
  exact State.capacityLaws_closed.kept.step hs hstep

/-! ### Actions beyond the changes of single blocks -/

/-- The actions that change the translator, the intake list or the inputs of the override unit keep `P`. -/
structure BeyondBase (P : State → Prop) : Prop where
  beginReset : ∀ s k, P s → P (s.beginReset k)
  endReset : ∀ s pins, P s → P (s.endReset pins)
  acceptHead : ∀ s i k, P s → P (s.acceptHead i k)
  placeOldest : ∀ s, P s → P s.placeOldest
  startEarliest : ∀ s, P s → P s.startEarliest
  generateNext : ∀ s, P s → P s.generateNext
  answerNumber : ∀ s n, P s → P (s.answerNumber n)
  arbitrate : ∀ s, P s → P s.arbitrate
  pieceData : ∀ s p u d, P s → P (s.pieceData p u d)
  pieceFails : ∀ s c p u, P s → P (s.pieceFails c p u)
  releaseWriteHold : ∀ s i l, P s → P (s.releaseWriteHold i l)
  strobe : ∀ s o, P s → P (s.strobe o)
  alarmChange : ∀ s l h, P s → P (s.alarmChange l h)
  closeSource : ∀ s i, P s → P (s.closeSource i).1
  releaseSource : ∀ s i, P s → P (s.releaseSource i).1
  writeSoftBits : ∀ s v, P s → P (s.writeSoftBits v)
  clearTrips : ∀ s v, P s → P (s.clearTrips v)
  writeGroup : ∀ s g f v, P s → P (s.writeGroup g f v).1
  writePalette : ∀ s e v, P s → P (s.writePalette e v).1

namespace BeyondBase

variable {P : State → Prop}

theorem releaseOrigin (k : BeyondBase P) {s : State} (o : Origin) (hs : P s) : P (s.releaseOrigin o) := by
  cases o with
  | aperture i l => exact k.releaseWriteHold s i l hs
  | plain n => exact hs

theorem writeFails (k : BeyondBase P) (h : Base P) {s : State} (c : ErrClass) (t : TrackerId) (u : TrackerUse) (hs : P s) :
    P (s.writeFails c t u) :=
  k.releaseOrigin _ (h.putTracker _ _ (h.poisonOrigin _ (h.record _ hs)))

theorem takeResponse (k : BeyondBase P) (h : Base P) {s : State} (r : DResponse) (hs : P s) : P (s.takeResponse r) := by
  unfold State.takeResponse
  split
  · split
    · exact h.record _ hs
    · split
      · exact k.pieceData _ _ _ _ hs
      · exact k.pieceFails _ _ _ _ hs
  · split
    · exact h.record _ hs
    · exact k.pieceFails _ _ _ _ hs
  · split
    · exact h.record _ hs
    · exact k.releaseOrigin _ (h.putTracker _ _ hs)
  · split
    · exact h.record _ hs
    · exact k.writeFails h _ _ _ hs

/-- What the changes of single blocks and the actions beyond them keep, every action keeps. -/
theorem kept (k : BeyondBase P) (h : Base P) : Kept P where
  links := h.links
  pending := h.pending
  port := h.port
  loader := h.loader
  beginReset := k.beginReset
  endReset := k.endReset
  arrive _ _ hs := h.putSide _ _ _ hs
  acceptHead := k.acceptHead
  placeOldest := k.placeOldest
  startEarliest := k.startEarliest
  generateNext := k.generateNext
  answerNumber := k.answerNumber
  arbitrate := k.arbitrate
  takeResponse _ r hs := k.takeResponse h r hs
  readExpires s p hs := by
    unfold State.readExpires
    split
    · exact k.pieceFails _ _ _ _ hs
    · exact hs
  writeExpires s t hs := by
    unfold State.writeExpires
    split
    · exact k.writeFails h _ _ _ hs
    · exact hs
  admission _ i hs := h.admission i hs
  strobe := k.strobe
  slotExpires _ hs := h.slotExpires hs
  compileCompletes _ hs := h.compileCompletes hs
  alarmChange := k.alarmChange
  openSource _ i hs := h.openSource i hs
  closeSource := k.closeSource
  releaseSource := k.releaseSource
  commitCommand _ hs := h.commitCommand hs
  abortCommand _ hs := h.abortCommand hs
  restageCommand _ hs := h.restageCommand hs
  writeGeometry _ f v hs := h.writeGeometry f v hs
  writeEnable _ v hs := h.writeEnable v hs
  writeSlotLength s v hs := by
    unfold State.writeSlotLength
    split
    · next hv => exact h.governor _ _ hs ⟨id, fun _ => hv⟩
    · exact hs
  writeDeadline s v hs := by
    unfold State.writeDeadline
    split
    · exact h.dport _ _ hs ⟨id, id⟩
    · exact hs
  writeSoftBits := k.writeSoftBits
  clearTrips := k.clearTrips
  clearCapFlags _ v hs := h.clearCapFlags v hs
  clearStatuses _ _ hs := h.capture _ _ hs (Capture.clearStatus_pointerLaw _)
  writeDetect _ _ hs := h.capture _ _ hs id
  writeSeverity _ _ hs := h.capture _ _ hs id
  clearCauses _ _ hs := h.capture _ _ hs id
  writeIntEnable _ _ hs := h.capture _ _ hs id
  writeSourceConfig _ _ f v hs := h.sourceKept hs (Source.writeConfig_keeps _ f v) (Source.writeConfig_inputs _ f v)
  writeWindow s w f v hs := by
    unfold State.writeWindow
    repeat' split
    all_goals first
      | exact hs
      | exact h.layoutKept hs rfl
  writeStack s f v hs := by
    unfold State.writeStack
    repeat' split
    all_goals first
      | exact hs
      | exact h.layoutKept hs rfl
  writeGroup := k.writeGroup
  writePalette := k.writePalette
  endLoad _ o r hs := h.endLoad o r hs

end BeyondBase

/-! ### Groups -/

/-- What the same groups with the same inputs keep, the changes of blocks that they do not look at keep. -/
theorem State.groupLaws_onReads : OnReads State.groupLaws where
  links s l h := ((SameGroups.onReads s).links s l (.refl s)).groupLaws h
  pending s q h := ((SameGroups.onReads s).pending s q (.refl s)).groupLaws h
  port s p h := ((SameGroups.onReads s).port s p (.refl s)).groupLaws h
  loader s l h := ((SameGroups.onReads s).loader s l (.refl s)).groupLaws h
  uport s u h hu hi := ((SameGroups.onReads s).uport s u (.refl s) hu hi).groupLaws h
  dport s d h hd := ((SameGroups.onReads s).dport s d (.refl s) hd).groupLaws h
  governor s g h hg := ((SameGroups.onReads s).governor s g (.refl s) hg).groupLaws h
  capture s c h hc := ((SameGroups.onReads s).capture s c (.refl s) hc).groupLaws h
  layout s l h hl := ((SameGroups.onReads s).layout s l (.refl s) hl).groupLaws h
  source s i x h hx hr hi := ((SameGroups.onReads s).source s i x (.refl s) hx hr hi).groupLaws h
  translator s t h := ((SameGroups.onReads s).translator s t (.refl s)).groupLaws h
  intake s u h hu := ((SameGroups.onReads s).intake s u (.refl s) hu).groupLaws h

/-- Soundness looks at the groups alone. -/
theorem State.groupsSound_base : Base State.groupsSound where
  links _ _ h := h
  pending _ _ h := h
  port _ _ h := h
  loader _ _ h := h
  uport _ _ h _ _ := h
  dport _ _ h _ := h
  governor _ _ h _ := h
  capture _ _ h _ := h
  layout _ _ h _ := h
  source _ _ _ h _ _ _ := h

theorem State.resolveIfSealed_override (s : State) (i : SourceId) (l : Letter) :
    (s.resolveIfSealed i l).override = s.override := by
  unfold State.resolveIfSealed State.resolveSealing State.containTest
  repeat' split
  all_goals rfl

theorem State.mapNamed_override (s : State) (v : Word) (f : Source → Source) : (s.mapNamed v f).override = s.override := by
  unfold State.mapNamed
  refine List.foldlRecOn (motive := fun t : State => t.override = s.override) allSources _ rfl fun t ht i _ => ?_
  split
  · exact ht
  · exact ht

theorem State.strobeSource_override (s : State) (i : SourceId) : (s.strobeSource i).override = s.override := by
  unfold State.strobeSource
  simp only
  repeat' split
  all_goals rfl

theorem State.strobeSources_override (s : State) (first : SourceId) : (s.strobeSources first).override = s.override :=
  List.foldlRecOn (motive := fun t : State => t.override = s.override) _ _ rfl fun t ht i _ =>
    (t.strobeSource_override i).trans ht

theorem State.groupsSound_of_groups {s t : State} (h : t.override.groups = s.override.groups) (hs : s.groupsSound) :
    t.groupsSound := by
  rw [State.groupsSound, h]
  exact hs

/-- Groups that were at their raw conditions and sound are at their new ones after an evaluation. -/
theorem State.groupLaws_evaluated {s t : State} (h : t.override.groups = s.override.groups) (hs : s.groupLaws) :
    t.evaluateGroups.groupLaws :=
  State.groupLaws_evaluateGroups (State.groupsSound_of_groups h (State.groupsSound_of_laws hs))

theorem GroupsEvaluated.sound {gs : List GroupId} {s t : State} (h : GroupsEvaluated gs s t) (hs : s.groupsSound) :
    t.groupsSound := by
  intro g
  by_cases hg : g ∈ gs
  · rw [h.evaluated g hg]
    exact Group.evaluated_sound _ _ (hs g)
  · rw [h.kept g hg]
    exact hs g

/-- Every group belongs to a set or to its complement, so after an evaluation of both, with a change between them that the groups do
not see, every group stands at its raw condition. -/
theorem State.groupLaws_evaluateHalves {s t : State} (m : BitVec 4) (hs : s.groupsSound)
    (h : SameGroups (s.evaluateThose (groupsIn (~~~m))) t) : (t.evaluateThose (groupsIn m)).groupLaws := by
  have hfirst := s.evaluateIn_spec (~~~m)
  have hsound : t.groupsSound := by
    rw [State.groupsSound, h.groups]
    exact hfirst.sound hs
  refine (t.evaluateIn_spec m).laws hsound fun g hg => ?_
  have hg' : g ∈ groupsIn (~~~m) := by
    rw [mem_groupsIn] at hg ⊢
    simpa using hg
  rw [h.groups, State.rawCondition_congr (h.inputs g), State.rawCondition_congr (hfirst.sameInputs g),
    hfirst.evaluated g hg', Group.evaluated_raw]

/-- The strobe at every block (R136, R152 to R156). -/
theorem State.groupLaws_strobe {s : State} (o : StrobeOrder) (hs : s.groupLaws) : (s.strobe o).groupLaws := by
  have hcounted : ((if o.countFirst then s.strobeGovernor else s).strobeThose (groupsIn o.groupsFirst)).groupLaws := by
    refine State.groupLaws_strobeThose _ ?_
    split
    · exact State.groupLaws_onReads.strobeGovernor hs
    · exact hs
  unfold State.strobe
  simp only
  generalize ((if o.countFirst then s.strobeGovernor else s).strobeThose (groupsIn o.groupsFirst)) = counted at hcounted ⊢
  have hsound : (counted.strobeSources o.firstSource).groupsSound :=
    State.groupsSound_of_groups (congrArg Override.groups (counted.strobeSources_override _))
      (State.groupsSound_of_laws hcounted)
  refine State.groupLaws_onReads.strobeLayout
    (State.groupLaws_strobeThose _ (State.groupLaws_evaluateHalves o.groupsLate hsound ?_))
  split
  · exact .refl _
  · exact (SameGroups.onReads _).strobeGovernor (.refl _)

/-- What of its configuration a group's raw condition looks at (R151). -/
def GroupConfig.selections (c : GroupConfig) : BitVec 8 × BitVec 8 × BitVec 16 × BitVec 16 × BitVec 2 :=
  (c.alarmSel, c.polarity, c.staleSel, c.containSel, c.softEnable)

/-- Whether an input is active does not depend on the enabled field of a group, its hold-off or its state. -/
theorem State.inputActive_putGroup {s : State} {g : GroupId} {x : Group}
    (h : x.cfg.selections = s.override.groups[g].cfg.selections) (k : GroupId) :
    (s.putGroup g x).inputActive k = s.inputActive k := by
  simp only [GroupConfig.selections, Prod.mk.injEq] at h
  obtain ⟨halarm, hpolarity, hstale, hcontain, hsoft⟩ := h
  funext n
  by_cases hk : k = g
  · subst hk
    cases n <;>
      simp only [State.inputActive, State.putGroup_override, State.putGroup_sources, putAt_same_fin, halarm, hpolarity,
        hstale, hcontain, hsoft]
  · cases n <;>
      simp only [State.inputActive, State.putGroup_override, State.putGroup_sources, putAt_other _ _ _ _ hk]

theorem State.rawCondition_putGroup {s : State} {g : GroupId} {x : Group}
    (h : x.cfg.selections = s.override.groups[g].cfg.selections) (k : GroupId) :
    (s.putGroup g x).rawCondition k = s.rawCondition k := by
  simp only [State.rawCondition, State.inputActive_putGroup h]

/-- The raw condition of a group does not look at the other groups. -/
theorem State.rawCondition_putGroup_other (s : State) {g k : GroupId} (x : Group) (hk : k ≠ g) :
    (s.putGroup g x).rawCondition k = s.rawCondition k :=
  State.rawCondition_congr ⟨rfl, rfl, by rw [State.putGroup_override, putAt_other _ _ _ _ hk], fun _ => rfl, fun _ => Iff.rfl⟩

/-- One group replaced by one that is at its raw condition and sound, and the others as they were. -/
theorem State.groupLaws_putGroup {s : State} {g : GroupId} {x : Group} (hs : s.groupLaws)
    (hraw : x.raw = (s.putGroup g x).rawCondition g) (hx : x.sound) : (s.putGroup g x).groupLaws := by
  intro k
  by_cases hk : k = g
  · subst hk
    rw [State.putGroup_override, putAt_same_fin]
    exact ⟨hraw, hx⟩
  · rw [State.rawCondition_putGroup_other s x hk, State.putGroup_override, putAt_other _ _ _ _ hk]
    exact hs k

/-- One group replaced by a sound one with the same selections and the raw condition of the inputs. -/
theorem State.groupLaws_putSelected {s : State} {g : GroupId} {x : Group} (hs : s.groupLaws)
    (hselections : x.cfg.selections = s.override.groups[g].cfg.selections) (hraw : x.raw = s.rawCondition g) (hx : x.sound) :
    (s.putGroup g x).groupLaws :=
  State.groupLaws_putGroup hs (hraw.trans (State.rawCondition_putGroup hselections g).symm) hx

theorem State.groupLaws_disableGroup {s : State} (g : GroupId) (hs : s.groupLaws) : (s.disableGroup g).groupLaws := by
  have hput : (s.putGroup g
      { s.override.groups[g] with
        cfg := { s.override.groups[g].cfg with enabled := false }, state := .idle, holdCount := 0 }).groupLaws := by
    refine State.groupLaws_putSelected hs ?_ (hs g).1 ?_
    · rfl
    · simp [Group.sound]
  unfold State.disableGroup
  simp only
  split
  · split
    · exact hput
    · exact State.groupLaws_onReads.setOverrideChange hput
  · exact hs

theorem State.groupLaws_enableGroup {s : State} (g : GroupId) (hs : s.groupLaws) : (s.enableGroup g).groupLaws := by
  obtain ⟨hraw, -, -, hidle⟩ := hs g
  unfold State.enableGroup
  simp only
  split
  · exact hs
  · next hoff =>
    have hput : (s.putGroup g
        { s.override.groups[g] with cfg := { s.override.groups[g].cfg with enabled := true } }).groupLaws := by
      refine State.groupLaws_putSelected hs ?_ hraw ?_
      · rfl
      · have hstate := hidle (Bool.eq_false_iff.mpr hoff)
        simp only [Group.sound, hstate]
        simp
    split
    · next hcond =>
      refine State.groupLaws_onReads.setOverrideChange (State.groupLaws_putSelected hput ?_ hcond.symm ?_)
      · rfl
      · simp [Group.sound]
    · exact hput

/-- A stored configuration field other than the enabled field leaves the group enabled or not. -/
theorem GroupConfig.put_enabled {c d : GroupConfig} {f v : Nat} (h : c.put f v = some d) : d.enabled = c.enabled := by
  unfold GroupConfig.put at h
  split at h
  all_goals first
    | cases h
    | (split at h <;> cases h; rfl)

theorem GroupConfig.put_holdOff {c d : GroupConfig} {v : Nat} (h : c.put 6 v = some d) : d = { c with holdOff := v } := by
  simp only [GroupConfig.put] at h
  split at h <;> cases h
  rfl

theorem State.groupLaws_writeGroup {s : State} (g : GroupId) (f v : Nat) (hs : s.groupLaws) : (s.writeGroup g f v).1.groupLaws := by
  unfold State.writeGroup
  simp only
  split
  · split
    · exact State.groupLaws_disableGroup g hs
    · split
      · exact State.groupLaws_enableGroup g hs
      · exact hs
  · split
    · exact hs
    · next c hc =>
      obtain ⟨hraw, hsound⟩ := hs g
      have hx : ({ s.override.groups[g] with cfg := c } : Group).sound :=
        ⟨hsound.1, hsound.2.1, fun hoff => hsound.2.2 ((GroupConfig.put_enabled hc).symm.trans hoff)⟩
      dsimp only
      split
      · next hf =>
        subst hf
        obtain rfl := GroupConfig.put_holdOff hc
        refine State.groupLaws_putSelected hs ?_ hraw hx
        rfl
      · refine (State.foldl_evaluateGroup [g] (List.nodup_singleton g) _).laws (fun k => ?_) (fun k hk => ?_)
        · rw [State.putGroup_override, putAt_get]
          split
          · exact hx
          · exact (hs k).2
        · have hne : k ≠ g := fun e => hk (List.mem_singleton.mpr e)
          rw [State.rawCondition_putGroup_other s _ hne, State.putGroup_override, putAt_other _ _ _ _ hne]
          exact (hs k).1

theorem State.groupLaws_beginReset (s : State) (k : ResetKind) : (s.beginReset k).groupLaws := by
  intro g
  have hg : (s.beginReset k).override.groups[g] = Group.reset := by simp [State.beginReset, Override.reset]
  rw [State.rawCondition_of_unselected (by rw [hg]; rfl) (by rw [hg]; rfl) (by rw [hg]; rfl) (by rw [hg]; rfl), hg]
  simp [Group.reset]

theorem State.groupLaws_beyondBase : BeyondBase State.groupLaws where
  beginReset s k _ := s.groupLaws_beginReset k
  endReset s pins hs := by
    have hended : ((((s.withResetting none).withPort
        { s.port with targetAddress := strapAddress pins.mad, booten := pins.booten }).withOverride
        { s.override with sensed := pins.alm }).evaluateGroups).groupLaws :=
      State.groupLaws_evaluated (s := s) rfl hs
    unfold State.endReset
    simp only
    split
    · exact State.groupLaws_onReads.loader _ _ hended
    · exact hended
  acceptHead _ i k hs := State.groupLaws_onReads.acceptHead i k hs
  placeOldest _ hs := State.groupLaws_onReads.placeOldest hs
  startEarliest _ hs := State.groupLaws_onReads.startEarliest hs
  generateNext _ hs := State.groupLaws_onReads.generateNext hs
  answerNumber _ n hs := State.groupLaws_onReads.answerNumber n hs
  arbitrate _ hs := State.groupLaws_onReads.arbitrate hs
  pieceData _ p u d hs := State.groupLaws_onReads.pieceData p u d hs
  pieceFails _ c p u hs := State.groupLaws_onReads.pieceFails c p u hs
  releaseWriteHold s i l hs := by
    unfold State.releaseWriteHold
    exact State.groupLaws_evaluateGroups (State.groupsSound_base.afterRelease i
      (State.groupsSound_of_groups (s := s) (congrArg Override.groups ((s.dropWriteHold i l).resolveIfSealed_override i l))
        (State.groupsSound_of_laws hs)))
  strobe _ o hs := State.groupLaws_strobe o hs
  alarmChange s l h hs := by
    unfold State.alarmChange
    exact State.groupLaws_evaluated (s := s) rfl hs
  closeSource s i hs := by
    have htaken : (s.closeTaken i).groupLaws := by
      unfold State.closeTaken
      exact State.groupLaws_evaluateGroups (State.groupsSound_base.endDrain i
        (State.groupsSound_base.reofferHeads (State.groupsSound_of_groups (s := s) rfl (State.groupsSound_of_laws hs))))
    unfold State.closeSource
    split
    · exact hs
    · exact hs
    · exact htaken
    · exact htaken
    · exact htaken
  releaseSource s i hs := by
    unfold State.releaseSource
    split
    · exact State.groupLaws_evaluated (s := s) rfl hs
    · exact hs
  writeSoftBits s v hs := by
    unfold State.writeSoftBits
    exact State.groupLaws_evaluated (s := s) rfl hs
  clearTrips s v hs := by
    unfold State.clearTrips
    exact State.groupLaws_evaluated (congrArg Override.groups (s.mapNamed_override v _)) hs
  writeGroup _ g f v hs := State.groupLaws_writeGroup g f v hs
  writePalette s e v hs := by
    unfold State.writePalette
    split
    · exact State.groupLaws_onReads.translator _ _ hs
    · exact hs

/-- Settles O58: an action that changes the inputs of a group evaluates the groups in the same event, which brings them to their raw
conditions (`GroupsEvaluated.laws`); the others leave groups and inputs as they are (`SameGroups`). -/
theorem groupLawsAreKept : Obligations.GroupLawsAreKept := by
  unfold Obligations.GroupLawsAreKept
  intro s t hs hstep
  exact (State.groupLaws_beyondBase.kept State.groupLaws_onReads.toBase).step hs hstep

/-! ### The read path -/

/-- The law of the read path looks at what `SameReads` keeps. -/
theorem State.readPathLaw_offReads : OffReads State.readPathLaw where
  links s l h := ((SameReads.offReads s).links s l (.refl s)).readPathLaw h
  pending s q h := ((SameReads.offReads s).pending s q (.refl s)).readPathLaw h
  resetting s r h := ((SameReads.offReads s).resetting s r (.refl s)).readPathLaw h
  port s p h := ((SameReads.offReads s).port s p (.refl s)).readPathLaw h
  loader s l h := ((SameReads.offReads s).loader s l (.refl s)).readPathLaw h
  override s o h := ((SameReads.offReads s).override s o (.refl s)).readPathLaw h
  uport s u h hu hi := ((SameReads.offReads s).uport s u (.refl s) hu hi).readPathLaw h
  dport s d h hd := ((SameReads.offReads s).dport s d (.refl s) hd).readPathLaw h
  governor s g h hg := ((SameReads.offReads s).governor s g (.refl s) hg).readPathLaw h
  capture s c h hc := ((SameReads.offReads s).capture s c (.refl s) hc).readPathLaw h
  layout s l h hl := ((SameReads.offReads s).layout s l (.refl s) hl).readPathLaw h
  source s i x h hx hr hi := ((SameReads.offReads s).source s i x (.refl s) hx hr hi).readPathLaw h
  anySource s i x h hx hr := ((SameReads.offReads s).anySource s i x (.refl s) hx hr).readPathLaw h

theorem State.numsDistinct_of_law {s : State} (h : s.readPathLaw) : s.numsDistinct := h.1

/-- With no read anywhere nothing is due. -/
theorem State.readPathLaw_of_noReads {s : State} (hcontexts : s.translator.contexts = []) (hintake : s.uport.intake = []) :
    s.readPathLaw := by
  simp [State.readPathLaw, hcontexts, hintake]

/-- The offer of a head leaves the contexts as they are. -/
theorem State.offerHead_translator (s : State) (i : Initiator) (k : Kind) :
    (s.offerHead i k).translator = s.translator := by
  have hdeposit (t : State) (r : URequest) (c : ReqClass) (d : Destination) :
      (t.deposit i r c d).translator = t.translator := by
    cases d <;> rfl
  have hrefusal (t : State) (r : URequest) (c : ReqClass) : (t.recordRefusal r c).translator = t.translator := by
    cases c <;> rfl
  unfold State.offerHead
  split
  · rfl
  · split
    · unfold State.takeHead
      cases k <;> simp only [State.respond_translator, hrefusal, hdeposit, State.withUport_translator]
    · rfl

theorem State.numsDistinct_offerHead {s : State} (i : Initiator) (k : Kind) (hs : s.numsDistinct) :
    (s.offerHead i k).numsDistinct := by
  rw [State.numsDistinct, State.offerHead_translator]
  exact hs

theorem State.readPathLaw_beyondBase : BeyondBase State.readPathLaw where
  beginReset _ _ _ := State.readPathLaw_of_noReads rfl rfl
  endReset _ pins hs := State.readPathLaw_offReads.endReset pins hs
  acceptHead s i k hs := by
    cases k with
    | read => exact State.readPathLaw_settleReads (State.numsDistinct_offerHead i .read (State.numsDistinct_of_law hs))
    | write => exact State.readPathLaw_offReads.offerWrite i hs
  placeOldest s hs := by
    unfold State.placeOldest
    split
    · next hn => exact State.readPathLaw_settleReads (State.numsDistinct_placeInto _ _ hn (State.numsDistinct_of_law hs))
    · exact hs
  startEarliest s hs := by
    unfold State.startEarliest
    split
    · exact State.readPathLaw_settleReads (State.numsDistinct_startWalk _ (State.numsDistinct_of_law hs))
    · exact hs
  generateNext s hs := by
    unfold State.generateNext
    split
    · exact State.readPathLaw_settleReads (State.numsDistinct_generate _ (State.numsDistinct_of_law hs))
    · exact hs
  answerNumber s n hs := by
    unfold State.answerNumber
    split
    · exact State.readPathLaw_settleReads (State.numsDistinct_answerContext _ (State.numsDistinct_of_law hs))
    · exact hs
  arbitrate s hs := (SameReads.arbitrate s).readPathLaw hs
  pieceData _ p u d hs := State.readPathLaw_pieceData p u d (State.numsDistinct_of_law hs)
  pieceFails _ c p u hs := State.readPathLaw_pieceFails c p u (State.numsDistinct_of_law hs)
  releaseWriteHold _ i l hs := State.readPathLaw_offReads.releaseWriteHold i l hs
  strobe _ o hs := State.readPathLaw_offReads.strobe o hs
  alarmChange _ _ _ hs := State.readPathLaw_offReads.evaluateGroups (State.readPathLaw_offReads.override _ _ hs)
  closeSource _ i hs := State.readPathLaw_offReads.closeSource i hs
  releaseSource _ i hs := State.readPathLaw_offReads.releaseSource i hs
  writeSoftBits _ _ hs := State.readPathLaw_offReads.evaluateGroups (State.readPathLaw_offReads.override _ _ hs)
  clearTrips _ v hs := State.readPathLaw_offReads.evaluateGroups (State.readPathLaw_offReads.mapNamed v _ Base.trips hs)
  writeGroup _ g f v hs := State.readPathLaw_offReads.writeGroup g f v hs
  writePalette s e v hs := by
    unfold State.writePalette
    split
    · exact SameReads.readPathLaw ⟨rfl, rfl, rfl, fun _ => rfl, rfl⟩ hs
    · exact hs

/-- Settles O59: an event that touches the read path ends with its consequences, after which nothing is due
(`State.readPathLaw_settleReads`); every other event leaves the read path as it is (`SameReads`). -/
theorem readPathStaysSettled : Obligations.ReadPathStaysSettled := by
  unfold Obligations.ReadPathStaysSettled
  intro s t hs hstep
  exact (State.readPathLaw_beyondBase.kept State.readPathLaw_offReads.toBase).step hs hstep

/-! ### The machine right after reset -/

/-- A law of one source record that the reset record obeys holds of every source after reset. -/
theorem State.reset_everySource {Q : Source → Prop} (h : Q Source.reset) : State.reset.everySource Q := by
  intro i
  have hi : State.reset.sources[i] = Source.reset := by simp [State.reset]
  rw [hi]
  exact h

theorem State.reset_regionsApart : State.reset.regionsApart := by
  have hnone : State.reset.regions = [] :=
    State.regions_eq_nil (State.reset_everySource (Q := fun x => x.state = .off) rfl) rfl
  rw [State.regionsApart, hnone]
  exact List.Pairwise.nil

theorem State.reset_capacityLaws : State.reset.capacityLaws := by
  rw [State.capacityLaws_iff]
  refine ⟨?_, ?_, ?_, State.reset_everySource (by simp [Source.reset])⟩
  · simp [State.reset, UPort.reset]
  · simp [State.reset, DPort.reset]
  · simp [State.reset, Governor.reset]

theorem State.reset_groupLaws : State.reset.groupLaws := by
  intro g
  have hg : State.reset.override.groups[g] = Group.reset := by simp [State.reset, Override.reset]
  rw [State.rawCondition_of_unselected (by rw [hg]; rfl) (by rw [hg]; rfl) (by rw [hg]; rfl) (by rw [hg]; rfl), hg]
  simp [Group.reset]

/-- Settles O60, law by law. -/
theorem resetObeysTheLaws : Obligations.ResetObeysTheLaws := by
  unfold Obligations.ResetObeysTheLaws
  have hpointer : State.reset.capture.pointerLaw := fun hvalid => by cases hvalid
  exact ⟨hpointer, State.reset_everySource Source.reset_ok, State.reset_everySource Source.reset_creditLaw,
    State.reset_regionsApart, State.reset_capacityLaws, State.reset_groupLaws, State.readPathLaw_of_noReads rfl rfl⟩

end Sys2Proof.Machine
end

section
/-! PROOFS. The machine and its resets (O1 to O5), requests and ill-formed records (O6, O7), unmatched responses (O26) and the recording
of an event (O46). -/

namespace Sys2Proof.Machine

open Sys2Proof

/-! ### Steps -/

/-- Settles O1. -/
theorem stepRunsFrontCommand : Obligations.StepRunsFrontCommand := by
  unfold Obligations.StepRunsFrontCommand
  refine ⟨fun c q s h => ?_, fun s h => ?_⟩
  · rw [step, h]
    rfl
  · rw [step, h]

/-! ### Resets -/

theorem State.reset_source (i : SourceId) : State.reset.sources[i] = Source.reset := by simp [State.reset]

/-- Settles O2: each block of `State.reset` is a literal, and every entry of a table is the same one. -/
theorem resetLeavesStatedValues : Obligations.ResetLeavesStatedValues := by
  unfold Obligations.ResetLeavesStatedValues
  refine ⟨by decide, fun i => ?sources, ⟨rfl, rfl, rfl, rfl, rfl⟩, fun p => ?pieces, fun k => ?trackers, rfl,
    ⟨rfl, rfl, rfl, rfl, rfl⟩, ⟨rfl, rfl, rfl, rfl⟩, fun l hl => ?layouts, fun b hb => ?banks, ⟨rfl, rfl, rfl, rfl⟩,
    fun g => ?groups, rfl⟩
  case sources =>
    have hlane : State.reset.dport.writeLanes[i] = [] := by simp [State.reset, DPort.reset]
    rw [State.reset_source]
    refine ⟨rfl, fun l => ?_, fun l => ?_, fun f => ?_, rfl, rfl, rfl, rfl, rfl, rfl, rfl, rfl, rfl, rfl, hlane⟩
    · cases l <;> rfl
    · cases l <;> exact ⟨rfl, rfl, rfl⟩
    · unfold SourceConfig.get
      split <;> rfl
  case pieces => simp [State.reset, Translator.reset]
  case trackers => simp [State.reset, DPort.reset]
  case layouts =>
    have hreset : l = Layout.reset := by
      rcases hl with rfl | rfl | rfl <;> rfl
    subst hreset
    refine ⟨fun w => ?_, rfl, fun k => ?_, rfl⟩
    · simp [Layout.reset, Window.reset]
    · simp [Layout.reset]
  case banks =>
    have hempty : b = Bank.empty := by
      rcases hb with rfl | rfl <;> rfl
    subst hempty
    exact ⟨rfl, rfl, rfl, rfl, rfl, rfl, rfl, rfl⟩
  case groups => simp [State.reset, Override.reset, Group.reset]

/-- A reset that begins, block by block (R177). -/
theorem State.beginReset_eq (s : State) (k : ResetKind) :
    s.beginReset k =
      { State.reset with
        resetting := some k
        uport := { State.reset.uport with lanes := s.uport.lanes }
        override := { State.reset.override with sensed := s.override.sensed }
        capture :=
          if k = .powerOn then State.reset.capture
          else
            { State.reset.capture with
              status := s.capture.status, pointerValid := s.capture.pointerValid
              pointerClass := s.capture.pointerClass, fault := s.capture.fault }
        port := { State.reset.port with targetAddress := s.port.targetAddress, booten := s.port.booten }
        pending := s.pending } := by
  cases k <;> rfl

/-- The COMMAND word finds the port as `standAt` leaves it, which keeps what only the end of a reset samples. -/
theorem State.beginReset_standAt (s : State) (i : Byte) (k : ResetKind) :
    (s.quiet.withPort (s.quiet.port.standAt i)).beginReset k = s.beginReset k := by
  obtain ⟨start, partialWord, hport⟩ := s.quiet.port.standAt_rest i
  rw [hport]
  rfl

theorem exec_softReset_of_listening {s : State} (hs : s.listening) (o : Byte) :
    exec (.softReset o) s = .next (s.beginReset .soft) := by
  have htaken : exec (.softReset o) s = .next (s.quiet.takeCommandAt 7 o) :=
    heard_of_listening hs (fun t => t.takeCommandAt 7 o)
  rw [htaken, State.takeCommandAt, State.takeCommand, if_pos rfl, State.beginReset_standAt]

/-- Settles O3: the three commands begin a reset, and a reset that begins is `State.beginReset_eq`. -/
theorem resetsTakeResetValues : Obligations.ResetsTakeResetValues := by
  unfold Obligations.ResetsTakeResetValues
  rintro s i k (⟨rfl, rfl⟩ | ⟨rfl, rfl⟩ | ⟨o, rfl, rfl, hs⟩)
  · rw [← State.beginReset_eq]
    rfl
  · rw [← State.beginReset_eq]
    rfl
  · rw [← State.beginReset_eq]
    exact exec_softReset_of_listening hs o

/-- Groups as a reset leaves them stand at their raw conditions, whatever the lines are. -/
theorem State.evaluateGroups_of_reset {s : State}
    (h : ∀ g : GroupId, s.override.groups[g] = ⟨⟨false, 0, 0, 0, 0, 0, 0⟩, .idle, 0, false, none⟩) : s.evaluateGroups = s := by
  refine State.evaluateGroups_of_evaluated fun g => ?_
  rw [State.rawCondition_of_unselected (by rw [h]) (by rw [h]) (by rw [h]) (by rw [h]), h]

/-- Settles O4: the groups do nothing at the end of a reset (`State.evaluateGroups_of_reset`). -/
theorem resetEndSamplesPins : Obligations.ResetEndSamplesPins := by
  unfold Obligations.ResetEndSamplesPins
  refine ⟨fun s pins hs hgroups => ?_, fun s pins hs => ?_⟩
  · rw [exec_resetEnd_of_isSome hs, State.endReset]
    simp only
    rw [State.evaluateGroups_of_reset (by simpa using hgroups)]
    cases pins.booten <;> rfl
  · have hnone : ¬s.resetting.isSome = true := by simp [hs]
    exact congrArg Host.Outcome.next (if_neg hnone)

/-- While a reset is in progress a command that its link can carry, other than a reset, its end and an arriving request, leaves the state
as it is (R7, R136, R148, R170, R177). -/
theorem exec_of_resetting {c : Instr} {s : State} (hs : s.resetting.isSome = true) (hc : c.wellFormed = true)
    (hpower : c ≠ .powerOnReset) (hpin : c ≠ .pinReset) (hend : ∀ pins, c ≠ .resetEnd pins) (hrequest : ∀ r, c ≠ .uRequest r) :
    exec c s = .next s.quiet := by
  have hquiet (f : State → State) : outsideReset f s = .next s.quiet := outsideReset_of_isSome hs f
  have hsilent (f : State → State) : heard f s = .next s.quiet := heard_of_silent (State.silent_of_resetting hs) f
  cases c with
  | powerOnReset => exact absurd rfl hpower
  | pinReset => exact absurd rfl hpin
  | resetEnd pins => exact absurd rfl (hend pins)
  | uRequest r => exact absurd rfl (hrequest r)
  | downstreamResponse r => exact (if_pos hc).trans (hquiet _)
  | registerWrite b more => exact (if_pos hc).trans (hsilent _)
  | laneHeadAccept | contextPlacement | walkStart | pieceGeneration | readAnswer | arbiterGrant | readTimeout | writeTimeout
  | admission | wfs | slotTimerExpiry | compileCompletion | alarmLevelChange | verify | applyRecord
  | applyReadNotAcknowledged =>
    simp only [exec, execLaneHeadAccept, execContextPlacement, execWalkStart, execPieceGeneration, execReadAnswer, execArbiterGrant,
      execReadTimeout, execWriteTimeout, execAdmission, execWfs, execSlotTimerExpiry, execCompileCompletion,
      execAlarmLevelChange, execVerify, execApplyRecord, execApplyReadNotAcknowledged, hquiet]
  | _ =>
    simp only [exec, execIndexByte, execPartialWord, execTableDataRead, execTablePointer, execOpenSource, execCloseSource,
      execReleaseSource, execCommit, execAbort, execRestage, execSoftReset, execReloadBoot, execCanvasEnable, execCanvasDisable,
      execCanvasGeometryWrite, execSlotLength, execResponseDeadline, execSoftBits, execTripClear, execCapFlagClear,
      execErrorStatus, execDetectEnable, execSeverity, execIntCause, execIntEnable, execPortStatus, execSourceConfig,
      execCreditCap, execWindowStaged, execStackStaged, execGroupConfig, execGroupEnable, execGroupDisable, execPalette, hsilent]

/-- Settles O5: the data path acts outside a reset (`outsideReset_of_isSome`), and the port is silent during a reset and while the loader
is at work (`heard_of_silent`). -/
theorem nothingActsDuringReset : Obligations.NothingActsDuringReset := by
  unfold Obligations.NothingActsDuringReset
  refine ⟨fun c s hs hc hpower hpin hend hrequest => exec_of_resetting hs hc hpower hpin hend hrequest, fun s hs => ⟨?_, hs⟩,
    fun s hs => ?_⟩
  · rw [State.irqLow, Option.isNone_eq_false_iff.mpr hs, Bool.false_and]
  · have hsilent (f : State → State) : heard f s = .next { s with links := Links.none } :=
      heard_of_silent (State.silent_of_loading hs) f
    refine ⟨fun b => ?_, ?_, fun read sent => ?_, fun b more hm => ?_, fun v => ?_, fun v => ?_, fun v => ?_, fun i f v => ?_⟩
    case refine_4 => exact (if_pos (decide_eq_true hm)).trans (hsilent _)
    all_goals
      simp only [exec, execIndexByte, execPartialWord, execTableDataRead, execTablePointer, execOpenSource, execSoftReset,
        execSourceConfig, hsilent]

/-! ### Requests and records -/

@[simp] theorem UPort.side_putSide (u : UPort) (i : Initiator) (k : Kind) (rs : List URequest) :
    (u.putSide i k rs).side i k = rs := by
  cases k <;> simp [UPort.side, UPort.putSide]

theorem UPort.side_putSide_other (u : UPort) {i j : Initiator} {k m : Kind} (rs : List URequest) (h : j ≠ i ∨ m ≠ k) :
    (u.putSide i k rs).side j m = u.side j m := by
  by_cases hj : j = i
  · subst hj
    have hm : m ≠ k := h.resolve_left (fun hne => hne rfl)
    cases k <;> cases m <;> simp_all [UPort.side, UPort.putSide]
  · cases m <;> simp only [UPort.side, UPort.putSide, putAt_other _ _ _ _ hj]

/-- Settles O6: an arrival replaces one side of one lane. -/
theorem requestJoinsItsLane : Obligations.RequestJoinsItsLane := by
  unfold Obligations.RequestJoinsItsLane
  intro s r hr
  refine ⟨s.quiet.arrive r, if_pos hr, rfl, ?_, fun i k h => ?_⟩
  · exact UPort.side_putSide s.uport r.initiator r.kind _
  · exact UPort.side_putSide_other s.uport _ h

theorem URequest.wellFormed_iff (r : URequest) : r.wellFormed = true ↔
    1 ≤ r.beats ∧ r.beats ≤ 16 ∧ (r.kind = .read → r.data = []) ∧
      (r.kind = .write → r.data.length = r.beats ∧ ∀ b ∈ r.data, b.bytes.length = 32) := by
  unfold URequest.wellFormed
  cases hk : r.kind <;> simp [WriteBeat.wellFormed, and_assoc]

/-- The data of a READ response with status OK are 1 to 16 whole beats (Table 7-1). -/
theorem DResponse.readOk_wellFormed_iff (p : PieceId) (g : Bool) (d : List Byte) :
    (DResponse.readOk p g d).wellFormed = true ↔ ∃ n, 1 ≤ n ∧ n ≤ 16 ∧ d.length = 32 * n := by
  simp only [DResponse.wellFormed, Bool.and_eq_true, decide_eq_true_eq]
  constructor
  · intro h
    exact ⟨d.length / 32, by omega, by omega, by omega⟩
  · rintro ⟨n, hmin, hmax, hlength⟩
    omega

/-- Settles O7. -/
theorem illFormedRecordsAreRefused : Obligations.IllFormedRecordsAreRefused := by
  unfold Obligations.IllFormedRecordsAreRefused
  refine ⟨URequest.wellFormed_iff, DResponse.readOk_wellFormed_iff, fun _ _ _ => ⟨rfl, rfl, rfl⟩, fun r s h => ?_,
    fun r s h => ?_, fun b more s h => ?_⟩
  · exact if_neg (Bool.eq_false_iff.mp h)
  · exact if_neg (Bool.eq_false_iff.mp h)
  · refine if_neg ?_
    simpa [dataBytesFit] using h

/-! ### Unmatched responses -/

/-- A READ response matches no piece unless the piece is ISSUED with its generation (R128). -/
theorem Translator.matchedPiece_eq_none {t : Translator} {p : PieceId} {g : Bool}
    (h : t.pieces[p].generation ≠ g ∨ ∀ u, t.pieces[p].use = some u → ∀ k, u.state ≠ .issued k) :
    t.matchedPiece p g = none := by
  unfold Translator.matchedPiece
  split
  · next hg =>
    have hunissued := h.resolve_left (fun hne => hne hg)
    unfold Translator.issuedUse
    split
    · rfl
    · next u hu =>
      split
      · next k hk => exact absurd hk (hunissued u hu k)
      · rfl
      · rfl
  · rfl

/-- A WRITE response matches no tracker unless the tracker is BUSY with its generation (R128). -/
theorem DPort.matchedTracker_eq_none {d : DPort} {k : TrackerId} {g : Bool}
    (h : d.trackers[k].generation ≠ g ∨ d.trackers[k].use = none) : d.matchedTracker k g = none := by
  unfold DPort.matchedTracker
  split
  · next hg => exact h.resolve_left (fun hne => hne hg)
  · rfl

theorem exec_downstreamResponse_of_none {s : State} {r : DResponse} (hs : s.resetting = none) (hr : r.wellFormed = true) :
    exec (.downstreamResponse r) s = .next (s.quiet.takeResponse r) :=
  (if_pos hr).trans (outsideReset_of_none hs _)

/-- Settles O26: a response that matches nothing is discarded with the event of R133, `lateEvent`. -/
theorem unmatchedResponseIsLate : Obligations.UnmatchedResponseIsLate := by
  unfold Obligations.UnmatchedResponseIsLate
  intro s r hs hr hunmatched
  have hlate : s.quiet.takeResponse r = s.quiet.lateResponse := by
    cases r with
    | readOk p g d =>
      have hnone : s.quiet.translator.matchedPiece p g = none := Translator.matchedPiece_eq_none hunmatched
      simp only [State.takeResponse, hnone]
    | readError p g =>
      have hnone : s.quiet.translator.matchedPiece p g = none := Translator.matchedPiece_eq_none hunmatched
      simp only [State.takeResponse, hnone]
    | writeOk k g =>
      have hnone : s.quiet.dport.matchedTracker k g = none := DPort.matchedTracker_eq_none hunmatched
      simp only [State.takeResponse, hnone]
    | writeError k g =>
      have hnone : s.quiet.dport.matchedTracker k g = none := DPort.matchedTracker_eq_none hunmatched
      simp only [State.takeResponse, hnone]
  rw [exec_downstreamResponse_of_none hs hr, hlate]
  rfl

/-! ### Recording -/

/-- Settles O46. -/
theorem recordingSetsStatus : Obligations.RecordingSetsStatus := by
  unfold Obligations.RecordingSetsStatus
  intro c frame e
  refine ⟨fun hoff => ?_, fun hon => ?_⟩
  · rw [Capture.record, if_neg (Bool.eq_false_iff.mp hoff)]
  · rw [Capture.record, if_pos hon]
    cases hvalid : c.pointerValid <;> simp [ErrClass.mask]

end Sys2Proof.Machine
end

section
/-! PROOFS. The words of registers and tables that store a field (O50, O38, O39). A word is taken by its owner at the port as it stands,
and what it leaves in the port is said once for registers, tables and commands. -/

namespace Sys2Proof.Machine

open Sys2Proof

/-! ### What a word leaves, in the statements' words -/

theorem Port.report_eq (p : Port) (index : Byte) (r : Report) : p.report index r = p.reported index r.code r.field := by
  obtain ⟨code, named⟩ := r
  cases code <;> rfl

@[simp] theorem Port.pointAt_pointer (p : Port) (q : TablePointer) : (p.pointAt q).pointer = q := by
  unfold Port.pointAt
  split
  · next h =>
    obtain ⟨start, partialWord, hstand⟩ := p.standAt_rest 3
    rw [hstand]
    exact h
  · rfl

/-- A word of a register other than COMMAND and TABLE_DATA, which its owner answers by `r` and leaves the state `t`: reported, and the
working index one further (R171, R173). -/
theorem heard_takeWordAt_reported {s t : State} {r : Report} (hs : s.listening) (index : Byte) (v : Word)
    (hindex : index ≠ 0 ∧ index ≠ 3)
    (hwrite : (s.quiet.withPort (s.port.standAt index)).writeRegister index.toNat v = (t, r)) :
    heard (fun x => x.takeWordAt index v) s =
      .next (t.withPort { t.port.reported index r.code r.field with workingIndex := index + 1 }) := by
  obtain ⟨hcommand, htable⟩ := hindex
  rw [heard_of_listening hs, State.takeWordAt, State.takeWordOf, if_neg hcommand, if_neg htable, State.takeRegisterWord]
  simp only [State.quiet_port, hwrite, Port.report_eq]

/-- Where the owner leaves the port as it stands, the port is the one `Port.wordTaken` says. -/
theorem heard_takeWordAt {s t : State} {r : Report} (hs : s.listening) (index : Byte) (v : Word) (hindex : index ≠ 0 ∧ index ≠ 3)
    (hwrite : (s.quiet.withPort (s.port.standAt index)).writeRegister index.toNat v = (t, r))
    (hport : t.port = s.port.standAt index) :
    heard (fun x => x.takeWordAt index v) s = .next (t.withPort (s.port.wordTaken index r.code r.field)) := by
  rw [heard_takeWordAt_reported hs index v hindex hwrite, hport]
  rfl

/-- A word of TABLE_DATA for a field that a table has, which the table's owner answers by `r` and leaves the state `t` (R173, R174). -/
theorem heard_takeWordIn {s t : State} {k e f : Nat} {v : Word} {r : Report} (hs : s.listening)
    (hvalid : (TablePointer.mk k e f).valid = true)
    (hwrite : (s.quiet.withPort (s.port.pointAt ⟨k, e, f⟩)).tableWrite ⟨k, e, f⟩ v.toNat = (t, r))
    (hport : t.port = s.port.pointAt ⟨k, e, f⟩) :
    heard (fun x => x.takeWordIn k e f v) s = .next (t.withPort (s.port.fieldTaken ⟨k, e, f⟩ r.code r.field)) := by
  rw [heard_of_listening hs, State.takeWordIn, State.takeTableWord, State.tableWriteChecked]
  simp only [State.quiet_port, State.withPort_port, Port.pointAt_pointer, hvalid, if_true, hwrite, hport, Port.report_eq]
  rfl

/-- A word of COMMAND other than SOFT_RESET, which its block answers by `r` and leaves the state `t` (R175). -/
theorem heard_takeCommandAt {s t : State} {code operand : Byte} {r : Report} (hs : s.listening) (hcode : code ≠ 7)
    (hrun : (s.quiet.withPort (s.port.standAt 0)).superCommand code.toNat operand.toNat = (t, r))
    (hport : t.port = s.port.standAt 0) :
    heard (fun x => x.takeCommandAt code operand) s = .next (t.withPort (s.port.commandTaken code operand r.code r.field)) := by
  rw [heard_of_listening hs, State.takeCommandAt, State.takeCommand, if_neg hcode]
  simp only [State.quiet_port, hrun, State.reportCommand, State.withPort_port, hport]
  rfl

/-! ### Tables changed source by source -/

/-- Sources changed one after another by a function of their own record change each by itself. -/
theorem State.foldl_putSource (l : List SourceId) (hl : l.Nodup) (f : SourceId → Source → Source) (s : State) :
    l.foldl (fun t i => t.putSource i (f i t.sources[i])) s =
      s.withSources (Vector.ofFn fun j => if j ∈ l then f j s.sources[j] else s.sources[j]) := by
  induction l generalizing s with
  | nil => simp [State.withSources]
  | cons i is ih =>
    obtain ⟨hi, his⟩ := List.nodup_cons.mp hl
    rw [List.foldl_cons, ih his]
    refine congrArg s.withSources (Vector.ext fun n hn => ?_)
    have hput := putAt_get s.sources i ⟨n, hn⟩ (f i s.sources[i])
    simp only [Fin.getElem_fin] at hput
    by_cases hj : (⟨n, hn⟩ : SourceId) = i
    · subst hj
      simpa [hi] using hput
    · simp [hj, hput]

theorem State.mapSources_eq (s : State) (f : Source → Source) :
    s.mapSources f = s.withSources (Vector.ofFn fun i => f s.sources[i]) := by
  rw [State.mapSources, State.foldl_putSource allSources (List.nodup_finRange 16) fun _ => f]
  simp [allSources]

theorem State.mapNamed_eq (s : State) (named : Word) (f : Source → Source) :
    s.mapNamed named f =
      s.withSources (Vector.ofFn fun i => if named.getLsbD i.val then f s.sources[i] else s.sources[i]) := by
  have hput (t : State) (i : SourceId) :
      (if named.getLsbD i.val then t.putSource i (f t.sources[i]) else t) =
        t.putSource i (if named.getLsbD i.val then f t.sources[i] else t.sources[i]) := by
    split
    · rfl
    · exact congrArg t.withSources (putAt_self t.sources i).symm
  simp only [State.mapNamed, hput]
  rw [State.foldl_putSource allSources (List.nodup_finRange 16) fun i x => if named.getLsbD i.val then f x else x]
  simp [allSources]

/-! ### Registers of single values -/

theorem State.writeSlotLength_stored (s : State) {v : Word} (h : 1 ≤ v.toNat ∧ v.toNat ≤ 65535) :
    s.writeSlotLength v = (s.withGovernor { s.governor with slotLength := v.toNat }, .accepted) := if_pos h

theorem State.writeSlotLength_refused (s : State) {v : Word} (h : v.toNat = 0 ∨ 65535 < v.toNat) :
    s.writeSlotLength v = (s, .invalid 255) := if_neg (by omega)

theorem deadlineOf_micros (d : Deadline) : deadlineOf d.micros = some d := by cases d <;> rfl

theorem deadlineOf_eq_none {n : Nat} (h1 : n ≠ 1) (h4 : n ≠ 4) (h16 : n ≠ 16) (h64 : n ≠ 64) : deadlineOf n = none := by
  unfold deadlineOf
  split <;> simp_all

theorem State.writeDeadline_stored (s : State) {v : Word} {d : Deadline} (h : v.toNat = d.micros) :
    s.writeDeadline v = (s.withDport { s.dport with deadline := d }, .accepted) := by
  simp only [State.writeDeadline, h, deadlineOf_micros]

theorem State.writeDeadline_refused (s : State) {v : Word} (h : deadlineOf v.toNat = none) :
    s.writeDeadline v = (s, .invalid 255) := by
  simp only [State.writeDeadline, h]

theorem State.writePalette_stored (s : State) (e : Fin 9) {v : Nat} (h : v ≤ 0xFFFFFF) :
    s.writePalette e v =
      (s.withTranslator { s.translator with palette := putAt s.translator.palette e (BitVec.ofNat 24 v) }, .accepted) :=
  if_pos h

theorem State.writePalette_refused (s : State) (e : Fin 9) {v : Nat} (h : 0xFFFFFF < v) :
    s.writePalette e v = (s, .invalid 0) := if_neg (by omega)

theorem State.tableWrite_palette (s : State) (e : Fin 9) (v : Nat) : s.tableWrite ⟨11, e.val, 0⟩ v = s.writePalette e v :=
  dif_pos e.isLt

theorem TablePointer.palette_valid (e : Fin 9) : (TablePointer.mk 11 e.val 0).valid = true := by
  simp [TablePointer.valid, tableShape, e.isLt]

/-- The sources that a word of CAP_FLAG_CLEAR names lose their flag (R144). -/
theorem State.clearCapFlags_eq (s : State) (v : Word) :
    s.clearCapFlags v =
      s.withSources
        (Vector.ofFn fun i => { s.sources[i] with capSaturated := s.sources[i].capSaturated && !v.getLsbD i.val }) := by
  rw [State.clearCapFlags, State.mapNamed_eq]
  refine congrArg (fun f => s.withSources (Vector.ofFn f)) (funext fun i => ?_)
  cases hbit : v.getLsbD i.val <;> simp

/-- Settles O50: each register's owner stores the field or refuses the word, and the port takes the word as `heard_takeWordAt` and
`heard_takeWordIn` say. -/
theorem registersStoreTheirFields : Obligations.RegistersStoreTheirFields := by
  unfold Obligations.RegistersStoreTheirFields
  intro s v hs
  refine ⟨?detect, ?causes, fun q hq => ?portFlags, ?capFlags, fun hmin hmax => ?slotLength, fun hout => ?slotLengthRefused,
    fun d hd => ?deadline, fun h1 h4 h16 h64 => ?deadlineRefused, fun e he => ?palette, fun e he => ?paletteRefused⟩
  case detect => exact heard_takeWordAt hs 0x11 v (by decide) rfl rfl
  case causes => exact heard_takeWordAt hs 0x14 v (by decide) rfl rfl
  case portFlags =>
    subst hq
    refine (heard_takeWordAt_reported hs 0x17 v (by decide) rfl).trans ?_
    simp only [Port.wordTaken, Port.reported, Report.accepted, ne_eq, not_true_eq_false, decide_false,
      Bool.or_false]
    rfl
  case capFlags =>
    refine ⟨_, heard_takeWordAt hs 0x0F v (by decide) (Prod.ext (State.clearCapFlags_eq _ v) rfl) rfl, rfl, fun i => ?_⟩
    simp
  case slotLength => exact heard_takeWordAt hs 0x09 v (by decide) (State.writeSlotLength_stored _ ⟨hmin, hmax⟩) rfl
  case slotLengthRefused => exact heard_takeWordAt hs 0x09 v (by decide) (State.writeSlotLength_refused _ hout) rfl
  case deadline =>
    have hmicros : v.toNat = d.micros := hd.trans (by cases d <;> rfl)
    exact heard_takeWordAt hs 0x0A v (by decide) (State.writeDeadline_stored _ hmicros) rfl
  case deadlineRefused =>
    exact heard_takeWordAt hs 0x0A v (by decide) (State.writeDeadline_refused _ (deadlineOf_eq_none h1 h4 h16 h64)) rfl
  case palette =>
    have hcolour : BitVec.ofNat 24 v.toNat = v.extractLsb' 0 24 := by
      apply BitVec.eq_of_toNat_eq
      simp
    rw [← hcolour]
    exact heard_takeWordIn hs (TablePointer.palette_valid e)
      ((State.tableWrite_palette _ e _).trans (State.writePalette_stored _ e he)) rfl
  case paletteRefused =>
    exact heard_takeWordIn hs (TablePointer.palette_valid e)
      ((State.tableWrite_palette _ e _).trans (State.writePalette_refused _ e he)) rfl

/-! ### Source configuration -/

theorem SourceConfig.get_put (c : SourceConfig) (f : Fin 11) (v : Nat) : (c.put f.val v).get f.val = v := by
  fin_cases f <;> rfl

/-- A field is a projection of its own: writing one leaves the others. -/
theorem SourceConfig.get_put_other (c : SourceConfig) (f : Fin 11) {k : Nat} (v : Nat) (h : k ≠ f.val) :
    (c.put f.val v).get k = c.get k := by
  fin_cases f
  all_goals
    unfold SourceConfig.get
    split
  all_goals first | rfl | exact absurd rfl h

theorem isPageField_iff (f : Fin 11) : isPageField f.val = true ↔ f = 0 ∨ f = 4 ∨ f = 5 ∨ f = 6 := by
  revert f
  decide

/-- While OFF a field takes a value that is no page number out of range (R19). -/
theorem Source.writeConfig_of_off {x : Source} (f : Fin 11) {v : Nat} (hoff : x.state = .off)
    (hpage : isPageField f.val = true → v ≤ 268435455) :
    x.writeConfig f.val v = ({ x with cfg := x.cfg.put f.val v }, .accepted) := by
  have hrange : ¬(isPageField f.val && decide (Config.maxPage < v)) = true := by
    simpa [Config.maxPage] using hpage
  rw [Source.writeConfig, if_pos hoff, if_neg hrange]

theorem Source.writeConfig_page_refused {x : Source} {f : Fin 11} {v : Nat} (hoff : x.state = .off)
    (hpage : isPageField f.val = true) (hv : 268435455 < v) : x.writeConfig f.val v = (x, .invalid f.val) := by
  have hrange : (isPageField f.val && decide (Config.maxPage < v)) = true := by
    simp [hpage, Config.maxPage, hv]
  rw [Source.writeConfig, if_pos hoff, if_pos hrange]

/-- While the source is open the fields 0 to 6 are locked (R20). -/
theorem Source.writeConfig_locked {x : Source} {f : Fin 11} (v : Nat) (hopen : x.state ≠ .off) (hf : f.val ≤ 6) :
    x.writeConfig f.val v = (x, .wrongState) := by
  rw [Source.writeConfig, if_neg hopen]
  unfold Source.writeOpen
  split
  all_goals first | omega | rfl

/-- The credit after a word of configuration while the source is open: a new cap cuts it (R143). -/
def Source.cutCredit (x : Source) (f : Fin 11) (v : Nat) : Nat := if f = 9 then min x.credit v else x.credit

/-- While the source is open the fields 7 to 10 take a value in range (R20). -/
theorem Source.writeConfig_open {x : Source} {f : Fin 11} {v : Nat} (hopen : x.state ≠ .off)
    (hv : (f = 7 ∧ v ≤ 255) ∨ (f = 8 ∧ v ≤ 262143 ∧ (v = 0 ∨ 16 ≤ x.cfg.creditCap)) ∨
      (f = 9 ∧ v ≤ 65535 ∧ (16 ≤ v ∨ (x.cfg.quota = 0 ∧ x.quotaInEffect = 0))) ∨ (f = 10 ∧ v ≤ 1)) :
    x.writeConfig f.val v = ({ x with cfg := x.cfg.put f.val v, credit := x.cutCredit f v }, .accepted) := by
  rw [Source.writeConfig, if_neg hopen]
  rcases hv with ⟨rfl, hv⟩ | ⟨rfl, hv, hcap⟩ | ⟨rfl, hv, hquota⟩ | ⟨rfl, hv⟩
  · exact if_pos hv
  · exact if_pos (by omega)
  · exact if_pos (by omega)
  · exact if_pos hv

theorem Source.writeConfig_open_refused {x : Source} {f : Fin 11} {v : Nat} (hopen : x.state ≠ .off)
    (hv : (f = 7 ∧ 255 < v) ∨ (f = 8 ∧ (262143 < v ∨ (0 < v ∧ x.cfg.creditCap < 16))) ∨
      (f = 9 ∧ (65535 < v ∨ (v < 16 ∧ (0 < x.cfg.quota ∨ 0 < x.quotaInEffect)))) ∨ (f = 10 ∧ 1 < v)) :
    x.writeConfig f.val v = (x, .invalid f.val) := by
  rw [Source.writeConfig, if_neg hopen]
  rcases hv with ⟨rfl, hv⟩ | ⟨rfl, hv⟩ | ⟨rfl, hv⟩ | ⟨rfl, hv⟩
  · exact if_neg (by omega)
  · exact if_neg (by omega)
  · exact if_neg (by omega)
  · exact if_neg (by omega)

theorem TablePointer.sourceConfig_valid (i : SourceId) (f : Fin 11) : (TablePointer.mk 1 i.val f.val).valid = true := by
  simp [TablePointer.valid, tableShape, i.isLt, f.isLt]

theorem State.tableWrite_sourceConfig (s : State) (i : SourceId) (f v : Nat) :
    s.tableWrite ⟨1, i.val, f⟩ v = s.writeSourceConfig i f v := dif_pos i.isLt

theorem State.writeSourceConfig_eq {s : State} {i : SourceId} {f v : Nat} {y : Source} {r : Report}
    (h : s.sources[i].writeConfig f v = (y, r)) : s.writeSourceConfig i f v = (s.putSource i y, r) := by
  rw [State.writeSourceConfig, h]

/-- A word of SOURCE_CONFIG puts the source record that its check gives (R19, R20). -/
theorem exec_sourceConfig {s : State} (hs : s.listening) (i : SourceId) (f : Fin 11) (v : Word) {y : Source} {r : Report}
    (hwrite : s.sources[i].writeConfig f.val v.toNat = (y, r)) :
    exec (.sourceConfig i f v) s =
      .next
        { s with
          sources := putAt s.sources i y
          port := s.port.fieldTaken ⟨1, i.val, f.val⟩ r.code r.field
          links := Links.none } := by
  exact heard_takeWordIn hs (TablePointer.sourceConfig_valid i f)
    ((State.tableWrite_sourceConfig _ i _ _).trans (State.writeSourceConfig_eq hwrite)) rfl

theorem exec_sourceConfig_refused {s : State} (hs : s.listening) (i : SourceId) (f : Fin 11) (v : Word) {r : Report}
    (hwrite : s.sources[i].writeConfig f.val v.toNat = (s.sources[i], r)) :
    exec (.sourceConfig i f v) s =
      .next { s with port := s.port.fieldTaken ⟨1, i.val, f.val⟩ r.code r.field, links := Links.none } := by
  rw [exec_sourceConfig hs i f v hwrite, putAt_self]

/-- Settles O38: the check of a word is `Source.writeConfig`, said case by case above. -/
theorem sourceConfigIsChecked : Obligations.SourceConfigIsChecked := by
  unfold Obligations.SourceConfigIsChecked
  constructor
  · rintro s i f v x hs rfl
    refine ⟨fun hoff hpage => ⟨_, exec_sourceConfig hs i f v (Source.writeConfig_of_off f hoff ?_), ?_, ?_, ?_⟩,
      fun hoff hpage hv => ?_, fun hopen hf => ?_, fun hopen hv => ⟨_, exec_sourceConfig hs i f v (Source.writeConfig_open hopen hv),
        ?_, ?_, ?_⟩, fun hopen hv => ?_⟩
    · rwa [isPageField_iff]
    · simp only [putAt_same_fin]
      rfl
    · simp only [putAt_same_fin]
      exact SourceConfig.get_put _ f _
    · intro k _ hk
      simp only [putAt_same_fin]
      exact SourceConfig.get_put_other _ f _ hk
    · exact exec_sourceConfig_refused hs i f v (Source.writeConfig_page_refused hoff ((isPageField_iff f).mpr hpage) hv)
    · exact exec_sourceConfig_refused hs i f v (Source.writeConfig_locked _ hopen hf)
    · simp only [putAt_same_fin]
      rfl
    · simp only [putAt_same_fin]
      exact SourceConfig.get_put _ f _
    · intro k _ hk
      simp only [putAt_same_fin]
      exact SourceConfig.get_put_other _ f _ hk
    · exact exec_sourceConfig_refused hs i f v (Source.writeConfig_open_refused hopen hv)
  · rintro s i v x hs rfl hopen hmax hmin
    exact exec_sourceConfig hs i 9 v (Source.writeConfig_open hopen (.inr (.inr (.inl ⟨rfl, hmax, .inl hmin⟩))))

/-! ### The staged layout -/

theorem toNat_ofNat24 {v : Nat} (h : v ≤ 0xFFFFFF) : (BitVec.ofNat 24 v).toNat = v := by
  simp only [BitVec.toNat_ofNat]
  omega

/-- A window field takes the values of the column "Stored" of Table 4-2 and no other (R64). -/
theorem Window.put_eq_none_iff (w : Window) (f : Fin 15) (v : Nat) : w.put f.val v = none ↔ ¬windowStores f.val v := by
  fin_cases f
  all_goals
    simp only [windowStores]
    unfold Window.put
    simp only
    split_ifs
  all_goals
    simp only [true_iff, false_iff, not_not]
    omega

/-- A window field reads back as it was written (R64). -/
theorem Window.get_of_put {w x : Window} {f : Fin 15} {v : Nat} (h : w.put f.val v = some x) : x.get f.val = v := by
  revert h
  fin_cases f
  all_goals
    unfold Window.put
    simp only
    split_ifs
  all_goals
    simp only [Option.some.injEq, false_implies]
  all_goals
    rintro rfl
    simp_all [Window.get, bit, Content.num, groupCode]
  all_goals omega

/-- A window field is a projection of its own: writing one leaves the others. -/
theorem Window.get_other_of_put {w x : Window} {f : Fin 15} {v k : Nat} (h : w.put f.val v = some x) (hk : k ≠ f.val) :
    x.get k = w.get k := by
  revert h
  fin_cases f
  all_goals
    unfold Window.put
    simp only
    split_ifs
  all_goals
    simp only [Option.some.injEq, false_implies]
  all_goals
    rintro rfl
    unfold Window.get
    split
  all_goals first | rfl | exact absurd rfl hk

/-- The stack length takes 0 to 32, a position a window number, and the background mode 0 or 1 (R67, R69). -/
theorem Layout.putStackField_eq_none_iff (l : Layout) (f : Fin 34) (v : Nat) :
    l.putStackField f.val v = none ↔ ¬stackStores f.val v := by
  unfold Layout.putStackField stackStores
  split_ifs
  all_goals
    simp only [true_iff, false_iff, not_not]
    omega

/-- A stack field reads back as it was written, and leaves the windows and every other stack field (R67, R69). -/
theorem Layout.stackField_of_put {l m : Layout} {f : Fin 34} {v : Nat} (h : l.putStackField f.val v = some m) :
    m.stackField f.val = v ∧ m.windows = l.windows ∧ ∀ k, k ≠ f.val → m.stackField k = l.stackField k := by
  revert h
  unfold Layout.putStackField
  split_ifs with hlength hmax hposition hwindow hmode hpass hfill
  all_goals
    simp only [Option.some.injEq, false_implies]
  · rintro rfl
    refine ⟨if_pos hlength, rfl, fun k hk => ?_⟩
    have hk0 : k ≠ 0 := by omega
    simp only [Layout.stackField, if_neg hk0]
  · rintro rfl
    refine ⟨?_, rfl, fun k hk => ?_⟩
    · rw [Layout.stackField, if_neg hlength, dif_pos hposition]
      exact congrArg Fin.val (putAt_same_fin l.stack ⟨f.val - 1, hposition⟩ ⟨v, hwindow⟩)
    · unfold Layout.stackField
      split_ifs with hk0 hk32
      · rfl
      · have hne : (⟨k - 1, hk32⟩ : Fin 32) ≠ ⟨f.val - 1, hposition⟩ := by
          rw [ne_eq, Fin.mk.injEq]
          omega
        exact congrArg Fin.val (putAt_other l.stack _ _ _ hne)
      · rfl
      · rfl
  · rintro rfl
    refine ⟨?_, rfl, fun k hk => ?_⟩
    · simp [Layout.stackField, hmode, hpass, Background.num]
    · unfold Layout.stackField
      split_ifs <;> first | rfl | omega
  · rintro rfl
    refine ⟨?_, rfl, fun k hk => ?_⟩
    · simp [Layout.stackField, hmode, hfill, Background.num]
    · unfold Layout.stackField
      split_ifs <;> first | rfl | omega

theorem TablePointer.windowStaged_valid (w : WindowId) (f : Fin 15) : (TablePointer.mk 3 w.val f.val).valid = true := by
  simp [TablePointer.valid, tableShape, w.isLt, f.isLt]

theorem TablePointer.stackStaged_valid (f : Fin 34) : (TablePointer.mk 4 0 f.val).valid = true := by
  simp [TablePointer.valid, tableShape, f.isLt]

/-- A word of WINDOW_STAGED is reported as the layout controller answers it (R70). -/
theorem exec_windowStaged {s t : State} {r : Report} (hs : s.listening) (w : WindowId) (f : Fin 15) (v : Word)
    (hwrite : (s.quiet.withPort (s.port.pointAt ⟨3, w.val, f.val⟩)).writeWindow w f.val v.toNat = (t, r))
    (hport : t.port = s.port.pointAt ⟨3, w.val, f.val⟩) :
    exec (.windowStaged w f v) s = .next (t.withPort (s.port.fieldTaken ⟨3, w.val, f.val⟩ r.code r.field)) :=
  heard_takeWordIn hs (TablePointer.windowStaged_valid w f) ((dif_pos w.isLt).trans hwrite) hport

/-- A word of STACK_STAGED is reported as the layout controller answers it (R70). -/
theorem exec_stackStaged {s t : State} {r : Report} (hs : s.listening) (f : Fin 34) (v : Word)
    (hwrite : (s.quiet.withPort (s.port.pointAt ⟨4, 0, f.val⟩)).writeStack f.val v.toNat = (t, r))
    (hport : t.port = s.port.pointAt ⟨4, 0, f.val⟩) :
    exec (.stackStaged f v) s = .next (t.withPort (s.port.fieldTaken ⟨4, 0, f.val⟩ r.code r.field)) :=
  heard_takeWordIn hs (TablePointer.stackStaged_valid f) hwrite hport

theorem State.writeWindow_of_some {s : State} {w : WindowId} {f v : Nat} {x : Window} (hidle : s.layout.ctl = .idle)
    (hput : s.layout.staged.windows[w].put f v = some x) :
    s.writeWindow w f v =
      (s.withLayout { s.layout with staged := { s.layout.staged with windows := putAt s.layout.staged.windows w x } },
        .accepted) := by
  rw [State.writeWindow, if_pos hidle, hput]

theorem State.writeWindow_of_none {s : State} {w : WindowId} {f v : Nat} (hidle : s.layout.ctl = .idle)
    (hput : s.layout.staged.windows[w].put f v = none) : s.writeWindow w f v = (s, .invalid f) := by
  rw [State.writeWindow, if_pos hidle, hput]

theorem State.writeWindow_busy {s : State} (w : WindowId) (f v : Nat) (hbusy : s.layout.ctl ≠ .idle) :
    s.writeWindow w f v = (s, .busy) := if_neg hbusy

theorem State.writeStack_of_some {s : State} {f v : Nat} {l : Layout} (hidle : s.layout.ctl = .idle)
    (hput : s.layout.staged.putStackField f v = some l) :
    s.writeStack f v = (s.withLayout { s.layout with staged := l }, .accepted) := by
  rw [State.writeStack, if_pos hidle, hput]

theorem State.writeStack_of_none {s : State} {f v : Nat} (hidle : s.layout.ctl = .idle)
    (hput : s.layout.staged.putStackField f v = none) : s.writeStack f v = (s, .invalid f) := by
  rw [State.writeStack, if_pos hidle, hput]

theorem State.writeStack_busy {s : State} (f v : Nat) (hbusy : s.layout.ctl ≠ .idle) : s.writeStack f v = (s, .busy) :=
  if_neg hbusy

/-- Settles O39: a staged field is written by `Window.put` and `Layout.putStackField`, whose ranges are the stated ones. -/
theorem stagedWritesWhileIdle : Obligations.StagedWritesWhileIdle := by
  unfold Obligations.StagedWritesWhileIdle
  refine ⟨fun s w f v hs => ⟨fun hidle hv => ?_, fun hidle hv => ?_, fun hbusy => ?_⟩,
    fun s f v hs => ⟨fun hidle hv => ?_, fun hidle hv => ?_, fun hbusy => ?_⟩⟩
  · obtain ⟨x, hput⟩ := Option.ne_none_iff_exists'.mp
      (fun hnone => (Window.put_eq_none_iff s.layout.staged.windows[w] f v.toNat).mp hnone hv)
    refine ⟨_, exec_windowStaged hs w f v (State.writeWindow_of_some hidle hput) rfl, ?_, ?_, fun k _ hk => ?_⟩
    · simp only [State.withPort_layout, State.withLayout_layout, putAt_same_fin]
      rfl
    · simp only [State.withPort_layout, State.withLayout_layout, putAt_same_fin]
      exact Window.get_of_put hput
    · simp only [State.withPort_layout, State.withLayout_layout, putAt_same_fin]
      exact Window.get_other_of_put hput hk
  · have hput := (Window.put_eq_none_iff s.layout.staged.windows[w] f v.toNat).mpr hv
    exact exec_windowStaged hs w f v (State.writeWindow_of_none hidle hput) rfl
  · exact exec_windowStaged hs w f v (State.writeWindow_busy w _ _ hbusy) rfl
  · obtain ⟨l, hput⟩ := Option.ne_none_iff_exists'.mp
      (fun hnone => (Layout.putStackField_eq_none_iff s.layout.staged f v.toNat).mp hnone hv)
    obtain ⟨hfield, hwindows, hrest⟩ := Layout.stackField_of_put hput
    refine ⟨_, exec_stackStaged hs f v (State.writeStack_of_some hidle hput) rfl, ?_, hfield, fun k _ hk => hrest k hk⟩
    simp only [State.withPort_layout, State.withLayout_layout, ← hwindows]
    rfl
  · have hput := (Layout.putStackField_eq_none_iff s.layout.staged f v.toNat).mpr hv
    exact exec_stackStaged hs f v (State.writeStack_of_none hidle hput) rfl
  · exact exec_stackStaged hs f v (State.writeStack_busy _ _ hbusy) rfl

end Sys2Proof.Machine
end

section
/-! PROOFS. The layout controller (O40, O41) and the canvas registers (O42). -/

namespace Sys2Proof.Machine

open Sys2Proof

/-! ### The checks of a commit -/

theorem Window.bad_iff (w : Window) (c : Canvas) : w.bad c = true ↔ w.failsAt c := by
  simp only [Window.bad, Window.failsAt, Bool.or_eq_true, Bool.and_eq_true, decide_eq_true_eq, beq_iff_eq, or_assoc]

theorem Layout.firstBad_eq_some {l : Layout} {c : Canvas} {w : WindowId} :
    l.firstBad c = some w ↔
      (l.windows[w].enabled = true ∧ l.windows[w].failsAt c) ∧
        ∀ v, v < w → l.windows[v].enabled = true → ¬l.windows[v].failsAt c := by
  rw [Layout.firstBad, allWindows, finRange_find]
  simp only [Bool.and_eq_true, Window.bad_iff, ← Bool.not_eq_true, not_and]

theorem Layout.firstBad_eq_none {l : Layout} {c : Canvas} :
    l.firstBad c = none ↔ ∀ w : WindowId, l.windows[w].enabled = true → ¬l.windows[w].failsAt c := by
  rw [Layout.firstBad, allWindows, finRange_find_none]
  simp only [← Bool.not_eq_true, Bool.and_eq_true, Window.bad_iff, not_and]

theorem Layout.stackBad_iff (l : Layout) :
    l.stackBad = true ↔
      ¬l.stacked.Nodup ∨ ∃ w ∈ l.stacked, l.windows[w].enabled = false ∨ l.windows[w].group ≠ none := by
  simp [Layout.stackBad, Option.isSome_iff_ne_none]

/-- Counted group by group, the members of a list that carry a group are those that carry one. -/
theorem sum_length_filter_group {α : Type} (p : α → Bool) (group : α → Option GroupId) (l : List α) :
    (allGroups.map fun g => (l.filter fun a => p a && group a == some g).length).sum =
      (l.filter fun a => p a && (group a).isSome).length := by
  induction l with
  | nil => rfl
  | cons a l ih =>
    rw [← List.countP_eq_length_filter, List.countP_cons, List.countP_eq_length_filter, ← ih]
    simp only [← List.countP_eq_length_filter, List.countP_cons]
    rw [List.sum_map_add]
    congr 1
    cases hp : p a
    · simp
    · cases hg : group a with
      | none => simp
      | some g =>
        fin_cases g <;> rfl

theorem Layout.overrideWindows_length (l : Layout) :
    l.overrideWindows.length = (allWindows.filter fun w => l.windows[w].enabled && l.windows[w].group.isSome).length := by
  rw [Layout.overrideWindows, List.length_flatMap]
  exact sum_length_filter_group (fun w => l.windows[w].enabled) (fun w => l.windows[w].group) allWindows

/-- Settles O40. -/
theorem commitChecksInOrder : Obligations.CommitChecksInOrder := by
  unfold Obligations.CommitChecksInOrder
  refine fun l => ⟨fun hoff => ?canvasOff, fun hon => ⟨fun w henabled hfails hfirst => ?badWindow,
    fun hgood => ⟨fun hstack => ?badStack, fun hstack => ?overrideLimit⟩⟩⟩
  case canvasOff => simp [LayoutCtl.checkFailure, hoff]
  case badWindow =>
    have hbad := Layout.firstBad_eq_some.mpr ⟨⟨henabled, hfails⟩, hfirst⟩
    simp [LayoutCtl.checkFailure, hon, hbad]
  case badStack =>
    have hnone := Layout.firstBad_eq_none.mpr hgood
    have hbad := (Layout.stackBad_iff _).mpr hstack
    simp [LayoutCtl.checkFailure, hon, hnone, hbad]
  case overrideLimit =>
    have hnone := Layout.firstBad_eq_none.mpr hgood
    have hsound : l.staged.stackBad = false := by
      rw [← Bool.not_eq_true, Layout.stackBad_iff]
      rintro (hnodup | ⟨w, hw, hoff | hgroup⟩)
      · exact hnodup hstack.1
      · exact absurd (hstack.2 w hw).1 (Bool.eq_false_iff.mp hoff)
      · exact hgroup (hstack.2 w hw).2
    simp [LayoutCtl.checkFailure, hon, hnone, hsound, Layout.overrideWindows_length, Config.overrideLimit]

/-! ### The override list -/

/-- The override list holds what it should, in its order (R78). -/
theorem Layout.overrideWindows_isOverrideList (l : Layout) : l.isOverrideList l.overrideWindows := by
  constructor
  · intro w
    simp only [Layout.overrideWindows, List.mem_flatMap, List.mem_filter, allGroups, allWindows, List.mem_finRange, true_and,
      Bool.and_eq_true, beq_iff_eq]
    constructor
    · rintro ⟨g, henabled, hgroup⟩
      exact ⟨henabled, ne_of_eq_of_ne hgroup (Option.some_ne_none g)⟩
    · rintro ⟨henabled, hgroup⟩
      obtain ⟨g, hg⟩ := Option.ne_none_iff_exists'.mp hgroup
      exact ⟨g, henabled, hg⟩
  · rw [Layout.overrideWindows, List.pairwise_flatMap]
    constructor
    · intro g _
      refine ((List.pairwise_lt_finRange 32).filter _).imp_of_mem fun {v w} hv hw hlt => ?_
      simp only [List.mem_filter, Bool.and_eq_true, beq_iff_eq] at hv hw
      intro a b ha hb
      rw [hv.2.2, Option.some.injEq] at ha
      rw [hw.2.2, Option.some.injEq] at hb
      exact .inr ⟨ha ▸ hb, hlt⟩
    · refine (List.pairwise_lt_finRange 4).imp fun {g h} hlt v hv w hw a b ha hb => ?_
      simp only [List.mem_filter, Bool.and_eq_true, beq_iff_eq] at hv hw
      rw [hv.2.2, Option.some.injEq] at ha
      rw [hw.2.2, Option.some.injEq] at hb
      exact .inl (ha ▸ hb ▸ hlt)

/-! ### The controller -/

/-- What a commit's end or the entry of COMPILE writes beside a bank hides what stood there before. -/
theorem LayoutCtl.putBank_finished (l : LayoutCtl) (x : BankLetter) (b : Bank) (ctl ctl' : CtlState) (result result' : CommitResult) :
    { (LayoutCtl.putBank { l with ctl := ctl, result := result } x b) with ctl := ctl', result := result' } =
      { l.putBank x b with ctl := ctl', result := result' } := by
  cases x <;> rfl

/-- The state after a commit has ended with outcome FAILED outside DRAIN (R86). -/
def State.commitFailed (s : State) (code : FailCode) (w : Option WindowId) : State :=
  { s with
    layout :=
      { s.layout.putBank s.layout.inactive Bank.empty with ctl := .idle, result := ⟨.failed, some code, w, none⟩ }
    capture := { s.capture.record s.governor.frameCount ⟨.commitFail, none, none, none, w⟩ with commitEnd := true } }

theorem State.failCommit_eq (s : State) (code : FailCode) (w : Option WindowId) :
    s.failCommit code w false = s.commitFailed code w := rfl

/-- A commit has begun: the controller is in DRAIN, and the commit result record is empty (R83). -/
def State.draining (s : State) : State :=
  s.withLayout { s.layout with ctl := .drain, result := ⟨.none, none, none, none⟩ }

/-- The controller out of IDLE refuses COMMIT (R83). -/
theorem State.commitCommand_busy {s : State} (h : s.layout.ctl ≠ .idle) : s.commitCommand = (s, .busy) := if_neg h

/-- A commit waits in DRAIN while the walker's hold names the inactive bank (R83, R84). -/
theorem State.commitCommand_waits {s : State} (hidle : s.layout.ctl = .idle) (hhold : s.layout.hold = some s.layout.inactive) :
    s.commitCommand = (s.draining, .accepted) := by
  rw [State.commitCommand, if_pos hidle, State.endDrainWait, if_neg]
  · rfl
  · exact fun h => h.2 hhold

/-- Otherwise it makes its checks in the same event (R84 to R86). -/
theorem State.commitCommand_enters {s : State} (hidle : s.layout.ctl = .idle) (hhold : s.layout.hold ≠ some s.layout.inactive) :
    s.commitCommand = (s.draining.enterCompile, .accepted) := by
  rw [State.commitCommand, if_pos hidle, State.endDrainWait, if_pos]
  · rfl
  · exact ⟨rfl, hhold⟩

theorem State.enterCompile_of_none {s : State} (h : s.layout.checkFailure = none) :
    s.enterCompile = s.withLayout { s.layout with ctl := .compile } := by
  rw [State.enterCompile, h]

theorem State.enterCompile_of_some {s : State} {code : FailCode} {w : Option WindowId}
    (h : s.layout.checkFailure = some (code, w)) : s.enterCompile = s.commitFailed code w := by
  rw [State.enterCompile, h]
  rfl

theorem State.commitCommand_compiles {s : State} (hidle : s.layout.ctl = .idle) (hhold : s.layout.hold ≠ some s.layout.inactive)
    (hchecks : s.layout.checkFailure = none) :
    s.commitCommand =
      (s.withLayout { s.layout with ctl := .compile, result := ⟨.none, none, none, none⟩ }, .accepted) := by
  rw [State.commitCommand_enters hidle hhold, State.enterCompile_of_none (s := s.draining) hchecks]
  rfl

theorem State.commitCommand_fails {s : State} {code : FailCode} {w : Option WindowId} (hidle : s.layout.ctl = .idle)
    (hhold : s.layout.hold ≠ some s.layout.inactive) (hchecks : s.layout.checkFailure = some (code, w)) :
    s.commitCommand = (s.commitFailed code w, .accepted) := by
  have hlayout :=
    LayoutCtl.putBank_finished s.layout s.layout.inactive Bank.empty .drain .idle ⟨.none, none, none, none⟩
      ⟨.failed, some code, w, none⟩
  rw [State.commitCommand_enters hidle hhold, State.enterCompile_of_some (s := s.draining) hchecks, State.commitFailed,
    State.commitFailed, ← hlayout]
  rfl

theorem State.abortCommand_idle {s : State} (hidle : s.layout.ctl = .idle) : s.abortCommand = (s, .accepted) := if_pos hidle

/-- ABORT of a commit empties the inactive bank unless it is in DRAIN (R76, R88). -/
theorem State.abortCommand_ends {s : State} (hbusy : s.layout.ctl ≠ .idle) :
    s.abortCommand =
      ((s.withLayout
        { (if s.layout.ctl = .drain then s.layout else s.layout.putBank s.layout.inactive Bank.empty) with
          ctl := .idle, result := ⟨.aborted, none, none, none⟩ }).setCommitEnd, .accepted) := if_neg hbusy

theorem State.restageCommand_idle {s : State} (hidle : s.layout.ctl = .idle) :
    s.restageCommand = (s.withLayout { s.layout with staged := s.layout.activeBank.layout }, .accepted) := if_pos hidle

theorem State.restageCommand_busy {s : State} (hbusy : s.layout.ctl ≠ .idle) : s.restageCommand = (s, .busy) := if_neg hbusy

/-- A completion in COMPILE stores the bank if its segments fit the pool (R85). -/
theorem State.compileCompletes_stored {s : State} (h : s.layout.ctl = .compile)
    (hfits : (s.layout.staged.compile s.layout.canvas).segments.length ≤ 1024) :
    s.compileCompletes =
      s.withLayout
        { s.layout.putBank s.layout.inactive (s.layout.staged.compile s.layout.canvas) with ctl := .armed } := by
  rw [State.compileCompletes, if_pos h, if_neg (Nat.not_lt.mpr hfits)]

theorem State.compileCompletes_overflow {s : State} (h : s.layout.ctl = .compile)
    (hover : 1024 < (s.layout.staged.compile s.layout.canvas).segments.length) :
    s.compileCompletes = s.commitFailed .segmentOverflow none := by
  rw [State.compileCompletes, if_pos h, if_pos hover]
  rfl

theorem State.compileCompletes_other {s : State} (h : s.layout.ctl ≠ .compile) : s.compileCompletes = s := if_neg h

theorem exec_compileCompletion_of_none {s : State} (hs : s.resetting = none) :
    exec .compileCompletion s = .next s.quiet.compileCompletes := outsideReset_of_none hs _

section
variable {s t : State} {r : Report} (hs : s.listening) (hport : t.port = s.port.standAt 0)
include hs hport

theorem exec_commit (o : Byte) (hrun : (s.quiet.withPort (s.port.standAt 0)).commitCommand = (t, r)) :
    exec (.commit o) s = .next (t.withPort (s.port.commandTaken 4 o r.code r.field)) :=
  heard_takeCommandAt (code := 4) hs (by decide) hrun hport

theorem exec_abort (o : Byte) (hrun : (s.quiet.withPort (s.port.standAt 0)).abortCommand = (t, r)) :
    exec (.abort o) s = .next (t.withPort (s.port.commandTaken 5 o r.code r.field)) :=
  heard_takeCommandAt (code := 5) hs (by decide) hrun hport

theorem exec_restage (o : Byte) (hrun : (s.quiet.withPort (s.port.standAt 0)).restageCommand = (t, r)) :
    exec (.restage o) s = .next (t.withPort (s.port.commandTaken 6 o r.code r.field)) :=
  heard_takeCommandAt (code := 6) hs (by decide) hrun hport

end

/-- Settles O41: the transitions of the controller, each an equation above. -/
theorem commitRunsThroughItsStates : Obligations.CommitRunsThroughItsStates := by
  unfold Obligations.CommitRunsThroughItsStates
  constructor
  · intro s o hs
    refine ⟨fun hbusy => ⟨?_, ?_⟩, fun hidle hhold => ?_, fun hidle hhold hchecks => ?_,
      fun code w hidle hhold hchecks => ?_, fun hidle => ⟨?_, ?_⟩, fun hbusy => ?_⟩
    · exact exec_commit hs rfl o (State.commitCommand_busy hbusy)
    · exact exec_restage hs rfl o (State.restageCommand_busy hbusy)
    · exact exec_commit hs rfl o (State.commitCommand_waits hidle hhold)
    · exact exec_commit hs rfl o (State.commitCommand_compiles hidle hhold hchecks)
    · exact exec_commit hs rfl o (State.commitCommand_fails hidle hhold hchecks)
    · exact exec_abort hs rfl o (State.abortCommand_idle hidle)
    · exact exec_restage hs rfl o (State.restageCommand_idle hidle)
    · exact exec_abort hs rfl o (State.abortCommand_ends hbusy)
  · rintro s b hs rfl
    refine ⟨fun hcompile hfits => ?_, fun hcompile hover => ?_, fun hother => ?_, rfl, rfl, rfl, rfl, rfl, rfl, ?_⟩
    · rw [exec_compileCompletion_of_none hs, State.compileCompletes_stored (s := s.quiet) hcompile hfits]
      rfl
    · rw [exec_compileCompletion_of_none hs, State.compileCompletes_overflow (s := s.quiet) hcompile hover]
      rfl
    · rw [exec_compileCompletion_of_none hs, State.compileCompletes_other (s := s.quiet) hother]
      rfl
    · exact s.layout.staged.overrideWindows_isOverrideList

/-! ### The canvas registers -/

theorem Config.pastEnd_iff (page length : Nat) : pastEnd page length = true ↔ 1099511627776 < page * 4096 + length := by
  simp [pastEnd, Config.addressSpace, Config.pageBytes]

theorem Canvas.fieldValid_iff (c : Canvas) (f : CanvasField) : c.fieldValid f = true ↔ c.validAtEnable f := by
  cases f
  case base =>
    simp only [Canvas.fieldValid, Canvas.validAtEnable, Bool.and_eq_true, decide_eq_true_eq, Bool.not_eq_true', ← Bool.not_eq_true,
      Config.pastEnd_iff, Config.maxPage, Nat.not_lt]
  all_goals simp [Canvas.fieldValid, Canvas.validAtEnable, and_assoc]

/-- The fields are tried in the order of their indices (R60). -/
theorem Canvas.firstInvalid_eq_some {c : Canvas} {f : CanvasField} (hf : ¬c.validAtEnable f)
    (hfirst : ∀ k, canvasIndex k < canvasIndex f → c.validAtEnable k) : c.firstInvalid = some f := by
  rw [← Canvas.fieldValid_iff, Bool.not_eq_true] at hf
  simp only [← Canvas.fieldValid_iff] at hfirst
  have hbase := hfirst .base
  have hwidth := hfirst .width
  have hheight := hfirst .height
  unfold Canvas.firstInvalid
  cases f <;> simp_all [canvasIndex]

theorem Canvas.firstInvalid_eq_none {c : Canvas} (h : ∀ f, c.validAtEnable f) : c.firstInvalid = none := by
  simp only [← Canvas.fieldValid_iff] at h
  simp [Canvas.firstInvalid, h]

/-- A read of class CANVAS that has not ended its walk is in the intake list, or WAITING or WALKING (R60). -/
theorem State.canvasWalkDue_iff (s : State) :
    s.canvasWalkDue = true ↔
      (∃ e ∈ s.uport.intake, e.cls = .canvas) ∨
        ∃ c ∈ s.translator.contexts, c.cls = .canvas ∧ (c.state = .waiting ∨ c.state = .walking) := by
  simp [State.canvasWalkDue]

/-- While the canvas is disabled the regions of the decoder are those of the sources. -/
theorem State.canvasOverlaps_iff {s : State} (hoff : s.layout.canvas.enabled = false) :
    s.canvasOverlaps = true ↔ ∃ g ∈ s.regions, ¬g.apart s.layout.canvas.region := by
  have hregions : s.regions = allSources.flatMap s.sourceRegions := by
    simp [State.regions, State.canvasRegions, hoff]
  simp only [State.canvasOverlaps, List.any_eq_true, hregions, Region.apart_iff, Bool.not_eq_false]

theorem State.writeGeometry_enabled {s : State} (f : CanvasField) (v : Nat) (hon : s.layout.canvas.enabled = true) :
    s.writeGeometry f v = (s, .wrongState) := if_pos hon

theorem State.writeGeometry_stored {s : State} {f : CanvasField} {v : Nat} (hoff : s.layout.canvas.enabled = false)
    (hv : f = .base → v ≤ 268435455) :
    s.writeGeometry f v = (s.withLayout { s.layout with canvas := s.layout.canvas.put f v }, .accepted) := by
  have hpage : ¬(f = .base ∧ Config.maxPage < v) := fun h => Nat.not_lt.mpr (hv h.1) h.2
  rw [State.writeGeometry, if_neg (Bool.eq_false_iff.mp hoff), if_neg hpage]

theorem State.writeGeometry_page {s : State} {v : Nat} (hoff : s.layout.canvas.enabled = false) (hv : 268435455 < v) :
    s.writeGeometry .base v = (s, .invalid 4) := by
  rw [State.writeGeometry, if_neg (Bool.eq_false_iff.mp hoff), if_pos ⟨rfl, hv⟩]
  rfl

/-- A geometry word is reported as the layout controller answers it (R58, R59). -/
theorem exec_canvasGeometryWrite {s t : State} {r : Report} (hs : s.listening) (f : CanvasField) (v : Word)
    (hwrite : (s.quiet.withPort (s.port.standAt (BitVec.ofNat 8 (canvasIndex f)))).writeGeometry f v.toNat = (t, r))
    (hport : t.port = s.port.standAt (BitVec.ofNat 8 (canvasIndex f))) :
    exec (.canvasGeometryWrite f v) s =
      .next (t.withPort (s.port.wordTaken (BitVec.ofNat 8 (canvasIndex f)) r.code r.field)) := by
  refine heard_takeWordAt hs _ v ?_ ?_ hport
  · cases f <;> decide
  · cases f <;> exact hwrite

theorem State.writeEnable_again {s : State} (hon : s.layout.canvas.enabled = true) : s.writeEnable 1 = (s, .accepted) := by
  simp [State.writeEnable, hon]

section
variable {s : State} (hoff : s.layout.canvas.enabled = false)
include hoff

theorem State.writeEnable_on : s.writeEnable 1 = s.enableRequest := by
  simp [State.writeEnable, hoff]

theorem State.writeEnable_busy (h : s.layout.ctl = .drain ∨ s.canvasWalkDue = true) : s.writeEnable 1 = (s, .busy) := by
  rw [State.writeEnable_on hoff, State.enableRequest, if_pos h]

variable (hready : ¬(s.layout.ctl = .drain ∨ s.canvasWalkDue = true))
include hready

theorem State.writeEnable_invalid {f : CanvasField} (h : s.layout.canvas.firstInvalid = some f) :
    s.writeEnable 1 = (s, .invalid (canvasIndex f)) := by
  rw [State.writeEnable_on hoff, State.enableRequest, if_neg hready, h]

theorem State.writeEnable_overlap (hvalid : s.layout.canvas.firstInvalid = none) (h : s.canvasOverlaps = true) :
    s.writeEnable 1 = (s, .overlap 4) := by
  rw [State.writeEnable_on hoff, State.enableRequest, if_neg hready, hvalid]
  exact if_pos h

theorem State.writeEnable_accepted (hvalid : s.layout.canvas.firstInvalid = none) (h : ¬s.canvasOverlaps = true) :
    s.writeEnable 1 =
      (State.headsOffered
        (s.withLayout
          { s.layout with
            canvas := { s.layout.canvas with enabled := true }
            bankA := s.layout.canvas.emptyLayout
            bankB := s.layout.canvas.emptyLayout }), .accepted) := by
  have haccepted : s.enableRequest = (s.canvasEnabled, .accepted) := by
    rw [State.enableRequest, if_neg hready, hvalid]
    exact if_neg h
  rw [State.writeEnable_on hoff, haccepted, State.canvasEnabled, State.reofferHeads_eq]

end

theorem State.writeEnable_off {s : State} (hon : s.layout.canvas.enabled = true) :
    s.writeEnable 0 = (s.disableRequest, .accepted) := by
  simp [State.writeEnable, hon]

theorem State.writeEnable_offAgain {s : State} (hoff : s.layout.canvas.enabled = false) : s.writeEnable 0 = (s, .accepted) := by
  simp [State.writeEnable, hoff]

section
variable {s t : State} {r : Report} (hs : s.listening) (hport : t.port = s.port.standAt 8)
include hs hport

theorem exec_canvasEnable (hwrite : (s.quiet.withPort (s.port.standAt 8)).writeEnable 1 = (t, r)) :
    exec .canvasEnable s = .next (t.withPort (s.port.wordTaken 8 r.code r.field)) :=
  heard_takeWordAt hs 8 1 (by decide) hwrite hport

theorem exec_canvasDisable (hwrite : (s.quiet.withPort (s.port.standAt 8)).writeEnable 0 = (t, r)) :
    exec .canvasDisable s = .next (t.withPort (s.port.wordTaken 8 r.code r.field)) :=
  heard_takeWordAt hs 8 0 (by decide) hwrite hport

end

/-- What becomes of the heads does not depend on the port, and the port does not on the heads. -/
theorem State.headsOffered_withPort (s : State) (p : Port) : s.headsOffered.withPort p = (s.withPort p).headsOffered := rfl

/-- A disable request while the controller is IDLE (R62). -/
theorem State.disableRequest_idle {s : State} (hidle : s.layout.ctl = .idle) :
    s.disableRequest =
      (s.withLayout { s.layout with canvas := { s.layout.canvas with enabled := false } }).headsOffered := by
  rw [State.disableRequest]
  simp only [hidle, if_true]
  exact State.reofferHeads_eq _

/-- The canvas is disabled and the commit in progress has ended with CANVAS_CHANGED (R62, R76, R86). -/
def State.canvasChanged (s : State) : State :=
  { s with
    layout :=
      { (if s.layout.ctl = .drain then s.layout else s.layout.putBank s.layout.inactive Bank.empty) with
        canvas := { s.layout.canvas with enabled := false }
        ctl := .idle
        result := ⟨.failed, some .canvasChanged, none, none⟩ }
    capture := { s.capture.record s.governor.frameCount ⟨.commitFail, none, none, none, none⟩ with commitEnd := true } }

/-- A disable request while a commit is in progress ends it with CANVAS_CHANGED (R62, R76). -/
theorem State.disableRequest_ends {s : State} (hbusy : s.layout.ctl ≠ .idle) :
    s.disableRequest = s.canvasChanged.headsOffered := by
  rw [State.disableRequest]
  simp only [if_neg hbusy]
  rw [State.reofferHeads_eq]
  refine congrArg State.headsOffered ?_
  by_cases hdrain : s.layout.ctl = .drain
  · simp only [State.canvasChanged, hdrain]
    rfl
  · have hleave : (s.layout.ctl == .drain) = false := beq_eq_false_iff_ne.mpr hdrain
    rw [hleave, State.canvasChanged, if_neg hdrain]
    cases hactive : s.layout.active <;>
      simp [State.failCommit, LayoutCtl.emptyInactive, LayoutCtl.inactive, LayoutCtl.putBank, BankLetter.other, hactive,
        State.withLayout, State.record, State.withCapture, State.setCommitEnd, commitFailEvent]

theorem State.writeEnable_disables_idle {s : State} (hon : s.layout.canvas.enabled = true) (hidle : s.layout.ctl = .idle) :
    s.writeEnable 0 =
      ((s.withLayout { s.layout with canvas := { s.layout.canvas with enabled := false } }).headsOffered, .accepted) := by
  rw [State.writeEnable_off hon, State.disableRequest_idle hidle]

theorem State.writeEnable_disables_ends {s : State} (hon : s.layout.canvas.enabled = true) (hbusy : s.layout.ctl ≠ .idle) :
    s.writeEnable 0 = (s.canvasChanged.headsOffered, .accepted) := by
  rw [State.writeEnable_off hon, State.disableRequest_ends hbusy]

/-- Settles O42. -/
theorem canvasRegistersTakeRequests : Obligations.CanvasRegistersTakeRequests := by
  unfold Obligations.CanvasRegistersTakeRequests
  refine ⟨fun s f v hs => ⟨fun hon => ?_, fun hoff hv => ?_, fun hoff hbase hv => ?_⟩,
    fun s hs => ⟨fun hon => ?_, fun hoff hdue => ?_, fun hoff hdrain hintake hcontexts => ?_⟩,
    fun s hs => ⟨fun hoff => ?_, fun hon hidle => ?_, fun hon hbusy => ?_⟩⟩
  · exact exec_canvasGeometryWrite hs f v (State.writeGeometry_enabled f _ hon) rfl
  · rw [exec_canvasGeometryWrite hs f v (State.writeGeometry_stored hoff hv) rfl]
    cases f <;> rfl
  · subst hbase
    exact exec_canvasGeometryWrite hs .base v (State.writeGeometry_page hoff hv) rfl
  · exact exec_canvasEnable hs rfl (State.writeEnable_again hon)
  · have hbusy : s.layout.ctl = .drain ∨ s.canvasWalkDue = true := hdue.imp_right s.canvasWalkDue_iff.mpr
    exact exec_canvasEnable hs rfl (State.writeEnable_busy hoff hbusy)
  · have hready : ¬(s.layout.ctl = .drain ∨ s.canvasWalkDue = true) := by
      rw [s.canvasWalkDue_iff]
      rintro (h | ⟨e, he, hcls⟩ | ⟨c, hc, hcls, hstate⟩)
      · exact hdrain h
      · exact hintake e he hcls
      · obtain ⟨hwaiting, hwalking⟩ := hcontexts c hc hcls
        exact hstate.elim hwaiting hwalking
    refine ⟨fun f hf hfirst => ?_, fun hvalid hmeets => ?_, fun hvalid hapart => ⟨_, ?_, rfl⟩⟩
    · exact exec_canvasEnable hs rfl
        (State.writeEnable_invalid (s := s.quiet.withPort (s.port.standAt 8)) hoff hready (Canvas.firstInvalid_eq_some hf hfirst))
    · exact exec_canvasEnable hs rfl
        (State.writeEnable_overlap hoff hready (Canvas.firstInvalid_eq_none hvalid) ((State.canvasOverlaps_iff hoff).mpr hmeets))
    · have hnone : ¬s.canvasOverlaps = true := by
        rw [State.canvasOverlaps_iff hoff]
        rintro ⟨g, hg, hmeets⟩
        exact hmeets (hapart g hg)
      rw [exec_canvasEnable hs rfl (State.writeEnable_accepted hoff hready (Canvas.firstInvalid_eq_none hvalid) hnone),
        State.headsOffered_withPort]
      rfl
  · exact exec_canvasDisable hs rfl (State.writeEnable_offAgain hoff)
  · rw [exec_canvasDisable hs rfl (State.writeEnable_disables_idle hon hidle), State.headsOffered_withPort]
    rfl
  · rw [exec_canvasDisable hs rfl (State.writeEnable_disables_ends hon hbusy), State.headsOffered_withPort]
    rfl

end Sys2Proof.Machine
end

section
/-! PROOFS. The commands of sources (O36, O37). -/

namespace Sys2Proof.Machine

open Sys2Proof

/-! ### Commands that name a source -/

theorem State.onSource_of_eq (s : State) {n : Nat} {i : SourceId} (f : State → SourceId → State × Report) (h : n = i.val) :
    s.onSource n f = f s i := by
  subst h
  exact dif_pos i.isLt

section
variable {s t : State} {r : Report} {o : Byte} {i : SourceId} (hs : s.listening) (hport : t.port = s.port.standAt 0)
  (ho : o.toNat = i.val)
include hs hport ho

theorem exec_openSource (hrun : (s.quiet.withPort (s.port.standAt 0)).openSource i = (t, r)) :
    exec (.openSource o) s = .next (t.withPort (s.port.commandTaken 1 o r.code r.field)) :=
  heard_takeCommandAt (code := 1) hs (by decide) ((State.onSource_of_eq _ State.openSource ho).trans hrun) hport

theorem exec_closeSource (hrun : (s.quiet.withPort (s.port.standAt 0)).closeSource i = (t, r)) :
    exec (.closeSource o) s = .next (t.withPort (s.port.commandTaken 2 o r.code r.field)) :=
  heard_takeCommandAt (code := 2) hs (by decide) ((State.onSource_of_eq _ State.closeSource ho).trans hrun) hport

theorem exec_releaseSource (hrun : (s.quiet.withPort (s.port.standAt 0)).releaseSource i = (t, r)) :
    exec (.releaseSource o) s = .next (t.withPort (s.port.commandTaken 3 o r.code r.field)) :=
  heard_takeCommandAt (code := 3) hs (by decide) ((State.onSource_of_eq _ State.releaseSource ho).trans hrun) hport

end

/-- An operand above 15 names no source (R175). -/
theorem exec_openSource_unnamed {s : State} (hs : s.listening) {o : Byte} (ho : 15 < o.toNat) :
    exec (.openSource o) s = .next { s with port := s.port.commandTaken 1 o .refusedInvalid 254, links := Links.none } :=
  heard_takeCommandAt (code := 1) (r := .invalid 254) hs (by decide) (dif_neg (by omega)) rfl

/-! ### OPEN -/

theorem SourceConfig.baseValid_iff (c : SourceConfig) (page : Nat) :
    c.baseValid page = true ↔ page ≤ 268435455 ∧ page * 4096 + c.pitch * c.height ≤ 1099511627776 := by
  simp only [SourceConfig.baseValid, Bool.and_eq_true, decide_eq_true_eq, Bool.not_eq_true', ← Bool.not_eq_true,
    Config.pastEnd_iff, Config.maxPage, Nat.not_lt, SourceConfig.regionLength]

theorem SourceConfig.fieldValid_iff (c : SourceConfig) (f : Nat) : c.fieldValid f = true ↔ c.validAtOpen f := by
  unfold SourceConfig.fieldValid SourceConfig.validAtOpen
  split
  all_goals simp [SourceConfig.baseValid_iff, and_assoc]
  omega

theorem SourceConfig.firstInvalid_eq_none {c : SourceConfig} (h : ∀ f, c.validAtOpen f) : c.firstInvalid = none := by
  simp [SourceConfig.firstInvalid, SourceConfig.fieldValid_iff, h]

theorem SourceConfig.firstInvalid_eq_some {c : SourceConfig} {f : Nat} (hf : ¬c.validAtOpen f)
    (hfirst : ∀ k, k < f → c.validAtOpen k) : c.firstInvalid = some f := by
  have hrange : f < 11 := by
    by_contra hlarge
    refine hf ?_
    unfold SourceConfig.validAtOpen
    split
    all_goals first | omega | trivial
  rw [SourceConfig.firstInvalid, List.find?_range_eq_some]
  refine ⟨?_, List.mem_range.mpr hrange, fun k hk => ?_⟩
  · rw [← SourceConfig.fieldValid_iff] at hf
    simpa using hf
  · simpa [SourceConfig.fieldValid_iff] using hfirst k hk

/-- A region of source `i` shares a byte with another of its own or with a region of the decoder (R25). -/
theorem State.meetsAnother_iff (s : State) (i : SourceId) (g : Region) :
    s.meetsAnother i g = true ↔
      (∃ h ∈ s.sources[i].cfg.regions i, h.id ≠ g.id ∧ ¬g.apart h) ∨ ∃ h ∈ s.regions, ¬g.apart h := by
  simp only [State.meetsAnother, Bool.or_eq_true, List.any_eq_true, Bool.and_eq_true, bne_iff_ne, ne_eq, Region.apart_iff,
    Bool.not_eq_false]

/-- The region shares no byte with another. -/
theorem State.not_meetsAnother {s : State} {i : SourceId} {g : Region}
    (h : (∀ h ∈ s.sources[i].cfg.regions i, h.id ≠ g.id → g.apart h) ∧ ∀ h ∈ s.regions, g.apart h) :
    s.meetsAnother i g = false := by
  obtain ⟨hown, hothers⟩ := h
  rw [← Bool.not_eq_true, State.meetsAnother_iff]
  rintro (⟨h, hmem, hid, hmeets⟩ | ⟨h, hmem, hmeets⟩)
  · exact hmeets (hown h hmem hid)
  · exact hmeets (hothers h hmem)

theorem State.firstOverlap_eq_none {s : State} {i : SourceId}
    (h : ∀ g ∈ s.sources[i].cfg.regions i,
      (∀ h ∈ s.sources[i].cfg.regions i, h.id ≠ g.id → g.apart h) ∧ ∀ h ∈ s.regions, g.apart h) :
    s.firstOverlap i = none := by
  rw [State.firstOverlap, List.find?_eq_none]
  intro g hg
  simp [State.not_meetsAnother (h g hg)]

theorem State.firstOverlap_eq_some {s : State} {i : SourceId} {pre post : List Region} {g : Region}
    (hregions : s.sources[i].cfg.regions i = pre ++ g :: post)
    (hpre : ∀ k ∈ pre, (∀ h ∈ s.sources[i].cfg.regions i, h.id ≠ k.id → k.apart h) ∧ ∀ h ∈ s.regions, k.apart h)
    (hmeets : (∃ h ∈ s.sources[i].cfg.regions i, h.id ≠ g.id ∧ ¬g.apart h) ∨ ∃ h ∈ s.regions, ¬g.apart h) :
    s.firstOverlap i = some g := by
  rw [State.firstOverlap, List.find?_eq_some_iff_append]
  refine ⟨(s.meetsAnother_iff i g).mpr hmeets, pre, post, hregions, fun k hk => ?_⟩
  simp [State.not_meetsAnother (hpre k hk)]

section
variable {s : State} {i : SourceId} (hoff : s.sources[i].state = .off)
include hoff

theorem State.openSource_invalid {f : Nat} (h : s.sources[i].cfg.firstInvalid = some f) : s.openSource i = (s, .invalid f) := by
  simp only [State.openSource, hoff, State.openChecked, h]

variable (hvalid : s.sources[i].cfg.firstInvalid = none)
include hvalid

theorem State.openSource_overlap {g : Region} (h : s.firstOverlap i = some g) : s.openSource i = (s, .overlap g.id.fieldNum) := by
  simp only [State.openSource, hoff, State.openChecked, hvalid, h]

variable (hclear : s.firstOverlap i = none)
include hclear

theorem State.openSource_pending (h : s.writePendingIn i = true) : s.openSource i = (s, .busy) := by
  simp only [State.openSource, hoff, State.openChecked, hvalid, hclear, h, if_true]

theorem State.openSource_opens (h : ¬s.writePendingIn i = true) :
    s.openSource i = ((s.putSource i s.sources[i].opened).headsOffered, .accepted) := by
  simp only [State.openSource, hoff, State.openChecked, hvalid, hclear, if_neg h, State.reofferHeads_eq]

end

theorem State.openSource_running {s : State} {i : SourceId}
    (h : s.sources[i].state = .await ∨ s.sources[i].state = .live ∨ s.sources[i].state = .contained) :
    s.openSource i = (s, .wrongState) := by
  rcases h with h | h | h <;> simp only [State.openSource, h]

theorem State.openSource_closing {s : State} {i : SourceId} (h : s.sources[i].state = .closing) : s.openSource i = (s, .busy) := by
  simp only [State.openSource, h]

/-- Settles O36: the checks of OPEN in their order, and the source record that it leaves. -/
theorem openTakesValidSource : Obligations.OpenTakesValidSource := by
  unfold Obligations.OpenTakesValidSource
  refine fun s o hs => ⟨fun ho => exec_openSource_unnamed hs ho, ?_⟩
  rintro i x ho rfl
  refine ⟨fun hoff hvalid hapart => ⟨fun hfree => ?opens, fun hpending => ?pending⟩,
    fun hoff hvalid pre post g f hregions hpre hmeets hf => ?overlap, fun hoff f hf hfirst => ?invalid,
    fun hrunning => ?running, fun hclosing => ?closing⟩
  case opens =>
    have hnone : ¬s.writePendingIn i = true := by
      rw [State.writePendingIn_iff]
      rintro ⟨a, ha, g, hg, hid, hhas⟩
      exact Bool.false_ne_true ((hfree a ha g hg hid).symm.trans hhas)
    rw [exec_openSource hs rfl ho
        (State.openSource_opens hoff (SourceConfig.firstInvalid_eq_none hvalid) (State.firstOverlap_eq_none hapart) hnone),
      State.headsOffered_withPort]
    rfl
  case pending =>
    exact exec_openSource hs rfl ho
      (State.openSource_pending hoff (SourceConfig.firstInvalid_eq_none hvalid) (State.firstOverlap_eq_none hapart)
        ((State.writePendingIn_iff _ i).mpr hpending))
  case overlap =>
    have hnum : f = g.id.fieldNum := by
      rcases hf with ⟨hid, rfl⟩ | ⟨hid, rfl⟩ | ⟨hid, rfl⟩ | ⟨hid, rfl⟩ <;> rw [hid] <;> rfl
    subst hnum
    exact exec_openSource hs rfl ho
      (State.openSource_overlap (s := s.quiet.withPort (s.port.standAt 0)) hoff (SourceConfig.firstInvalid_eq_none hvalid)
        (State.firstOverlap_eq_some hregions hpre hmeets))
  case invalid =>
    exact exec_openSource hs rfl ho
      (State.openSource_invalid (s := s.quiet.withPort (s.port.standAt 0)) hoff (SourceConfig.firstInvalid_eq_some hf hfirst))
  case running => exact exec_openSource hs rfl ho (State.openSource_running hrunning)
  case closing => exact exec_openSource hs rfl ho (State.openSource_closing hclosing)

/-! ### Groups that act after a change -/

/-- What the groups have done depends on the state before only by its groups and its flag. -/
theorem State.groupsActed_of_same {s u t : State} (hgroups : u.override.groups = s.override.groups)
    (hflag : u.capture.overrideChange = s.capture.overrideChange) (h : u.groupsActed t) : s.groupsActed t := by
  unfold State.groupsActed at h ⊢
  rwa [← hgroups, ← hflag]

theorem State.groupsActed_withPort {s t : State} (h : s.groupsActed t) (p : Port) : s.groupsActed (t.withPort p) := h

theorem Capture.record_overrideChange (c : Capture) (frame : BitVec 16) (e : ErrEvent) :
    (c.record frame e).overrideChange = c.overrideChange := by
  unfold Capture.record
  repeat' split
  all_goals rfl

@[simp] theorem State.headsOffered_overrideChange (s : State) :
    s.headsOffered.capture.overrideChange = s.capture.overrideChange := by
  unfold State.headsOffered
  refine List.foldlRecOn (motive := fun c : Capture => c.overrideChange = s.capture.overrideChange) _ _ rfl fun c hc e _ => ?_
  rw [Capture.record_overrideChange, hc]

@[simp] theorem State.headsOffered_sources (s : State) : s.headsOffered.sources = s.sources := by
  rw [State.headsOffered]

/-! ### CLOSE and RELEASE -/

theorem Buffers.noHolds_iff (b : Buffers) :
    b.noHolds = true ↔ ∀ l, (b.get l).readHold = 0 ∧ (b.get l).writeHold = 0 := by
  rw [Letter.forall_iff]
  simp [Buffers.noHolds, Buffer.free, Buffers.get, and_assoc]

theorem Source.closed_noHolds_iff (x : Source) :
    x.closed.bufs.noHolds = true ↔ ∀ l, (x.bufs.get l).readHold = 0 ∧ (x.bufs.get l).writeHold = 0 := by
  rw [Buffers.noHolds_iff, Letter.forall_iff, Letter.forall_iff]
  rfl

/-- The state after CLOSE before the groups act: with no hold left the drain ends in the same event (R28, R30). -/
def State.closeDrained (s : State) (i : SourceId) : State := (s.putSource i s.sources[i].closed).headsOffered.endDrain i

theorem State.closeSource_running {s : State} {i : SourceId}
    (h : s.sources[i].state = .await ∨ s.sources[i].state = .live ∨ s.sources[i].state = .contained) :
    s.closeSource i = ((s.closeDrained i).evaluateGroups, .accepted) := by
  rcases h with h | h | h <;> simp only [State.closeSource, h, State.closeTaken, State.closeDrained, State.reofferHeads_eq]

theorem State.closeDrained_held {s : State} {i : SourceId}
    (h : ∃ l, (s.sources[i].bufs.get l).readHold ≠ 0 ∨ (s.sources[i].bufs.get l).writeHold ≠ 0) :
    s.closeDrained i = (s.putSource i s.sources[i].closed).headsOffered := by
  have hheld : ¬s.sources[i].closed.bufs.noHolds = true := by
    rw [Source.closed_noHolds_iff]
    obtain ⟨l, hl⟩ := h
    intro hall
    exact hl.elim (fun hread => hread (hall l).1) fun hwrite => hwrite (hall l).2
  rw [State.closeDrained, State.endDrain, State.headsOffered_sources, State.putSource_get]
  exact if_neg fun hdrain => hheld hdrain.2

theorem State.closeDrained_free {s : State} {i : SourceId}
    (h : ∀ l, (s.sources[i].bufs.get l).readHold = 0 ∧ (s.sources[i].bufs.get l).writeHold = 0) :
    s.closeDrained i =
      State.headsOffered
        { (s.putSource i s.sources[i].closed).headsOffered with
          sources := putAt s.sources i { s.sources[i].closed with state := .off } } := by
  have hsources (x : Source) :
      (s.putSource i s.sources[i].closed).headsOffered.putSource i x =
        { (s.putSource i s.sources[i].closed).headsOffered with sources := putAt s.sources i x } := by
    rw [State.putSource, State.withSources, State.headsOffered_sources, State.putSource_sources, putAt_putAt]
  rw [State.closeDrained, State.endDrain, State.headsOffered_sources, State.putSource_get, State.reofferHeads_eq, hsources]
  exact if_pos ⟨rfl, (Source.closed_noHolds_iff _).mpr h⟩

@[simp] theorem State.headsOffered_override (s : State) : s.headsOffered.override = s.override := by
  rw [State.headsOffered]

@[simp] theorem State.headsOffered_port (s : State) : s.headsOffered.port = s.port := by
  rw [State.headsOffered]

theorem Source.hasRole_iff_withRole (x : Source) (r : Role) : x.hasRole r ↔ (x.bufs.withRole r).isSome = true := by
  constructor
  · rintro ⟨l, hl⟩
    by_contra hnone
    exact Buffers.withRole_none (Option.not_isSome_iff_eq_none.mp hnone) l hl
  · intro h
    obtain ⟨l, hl⟩ := Option.isSome_iff_exists.mp h
    exact ⟨l, Buffers.withRole_some hl⟩

theorem State.releaseSource_contained {s : State} {i : SourceId} (h : s.sources[i].state = .contained) :
    s.releaseSource i = ((s.putSource i s.sources[i].released).evaluateGroups, .accepted) := if_pos h

theorem State.releaseSource_other {s : State} {i : SourceId} (h : s.sources[i].state ≠ .contained) :
    s.releaseSource i = (s, .accepted) := if_neg h

theorem State.closeSource_off {s : State} {i : SourceId} (h : s.sources[i].state = .off) : s.closeSource i = (s, .wrongState) := by
  simp only [State.closeSource, h]

theorem State.closeSource_closing {s : State} {i : SourceId} (h : s.sources[i].state = .closing) :
    s.closeSource i = (s, .busy) := by
  simp only [State.closeSource, h]

/-- An evaluation of the groups changes the groups and OVERRIDE_CHANGE alone (R152). -/
theorem State.evaluateGroups_rest (s : State) :
    s.evaluateGroups =
      { s with
        override := { s.override with groups := s.evaluateGroups.override.groups }
        capture := { s.capture with overrideChange := s.evaluateGroups.capture.overrideChange } } :=
  s.evaluateGroups_spec.rest

@[simp] theorem State.evaluateGroups_port (s : State) : s.evaluateGroups.port = s.port := by rw [s.evaluateGroups_rest]

@[simp] theorem State.evaluateGroups_sources (s : State) : s.evaluateGroups.sources = s.sources := by
  rw [s.evaluateGroups_rest]

/-- What a word leaves whose block leaves the state `u` and lets the groups act: `w`, which is `u` at the port after the word, with the
groups' doings (R152, R159). -/
theorem State.acted_withPort {s u w : State} {p : Port} (hgroups : u.override = s.override)
    (hflag : u.capture.overrideChange = s.capture.overrideChange) (hw : u.withPort p = w) :
    u.evaluateGroups.withPort p =
        { w with
          override := { s.override with groups := (u.evaluateGroups.withPort p).override.groups }
          capture := { w.capture with overrideChange := (u.evaluateGroups.withPort p).capture.overrideChange } } ∧
      s.groupsActed (u.evaluateGroups.withPort p) := by
  subst hw
  refine ⟨?_, State.groupsActed_withPort (State.groupsActed_of_same (congrArg _ hgroups) hflag u.evaluateGroups_acted) p⟩
  rw [← hgroups]
  exact congrArg (fun t : State => t.withPort p) u.evaluateGroups_rest

/-- RELEASE of a CONTAINED source (R54, R57). -/
theorem exec_releaseSource_contained {s : State} {o : Byte} {i : SourceId} (hs : s.listening) (ho : o.toNat = i.val)
    (h : s.sources[i].state = .contained) :
    ∃ t, exec (.releaseSource o) s = .next t ∧
      t =
        { s with
          sources := putAt s.sources i s.sources[i].released
          override := { s.override with groups := t.override.groups }
          capture := { s.capture with overrideChange := t.capture.overrideChange }
          port := s.port.commandTaken 3 o .accepted 255
          links := Links.none } ∧
      s.groupsActed t ∧ t.sources[i] = s.sources[i].released := by
  have hrun := State.releaseSource_contained (s := s.quiet.withPort (s.port.standAt 0)) h
  obtain ⟨hrest, hacted⟩ := State.acted_withPort (s := s) (p := s.port.commandTaken 3 o .accepted 255)
    (u := (s.quiet.withPort (s.port.standAt 0)).putSource i s.sources[i].released) rfl rfl rfl
  refine ⟨_, exec_releaseSource hs (by simp) ho hrun, hrest, hacted, ?_⟩
  rw [State.withPort_sources, State.evaluateGroups_sources, State.putSource_get]
  rfl

/-- Settles O37: the source record that each command leaves, the heads that are offered, and the groups that act. -/
theorem closeAndReleaseLeaveStates : Obligations.CloseAndReleaseLeaveStates := by
  unfold Obligations.CloseAndReleaseLeaveStates
  rintro s o i x hs ho rfl
  refine ⟨fun hrunning y v w hy hv hfree hheld => ?closes, fun hoff => ?closeOff, fun hclosing => ?closeClosing,
    fun hcontained => ?releases, fun hother => ?releaseOther⟩
  case closes =>
    have hrun := State.closeSource_running (s := s.quiet.withPort (s.port.standAt 0)) hrunning
    by_cases hall : ∀ l, (s.sources[i].bufs.get l).readHold = 0 ∧ (s.sources[i].bufs.get l).writeHold = 0
    · rw [State.closeDrained_free (s := s.quiet.withPort (s.port.standAt 0)) hall] at hrun
      refine ⟨_, exec_closeSource hs (by simp) ho hrun, State.acted_withPort (by simp) (by simp) ?_⟩
      rw [hfree hall, hv, hy, State.headsOffered_withPort]
      rfl
    · have hsome : ∃ l, (s.sources[i].bufs.get l).readHold ≠ 0 ∨ (s.sources[i].bufs.get l).writeHold ≠ 0 := by
        simpa only [not_forall, not_and_or] using hall
      rw [State.closeDrained_held (s := s.quiet.withPort (s.port.standAt 0)) hsome] at hrun
      refine ⟨_, exec_closeSource hs (by simp) ho hrun, State.acted_withPort (by simp) (by simp) ?_⟩
      rw [hheld hsome, hv, hy, State.headsOffered_withPort]
      rfl
  case closeOff => exact exec_closeSource hs rfl ho (State.closeSource_off hoff)
  case closeClosing => exact exec_closeSource hs rfl ho (State.closeSource_closing hclosing)
  case releases =>
    obtain ⟨t, hexec, hrest, hacted, hrecord⟩ := exec_releaseSource_contained hs ho hcontained
    have hstate : { s.sources[i] with state := t.sources[i].state } = s.sources[i].released := by
      rw [hrecord]
      rfl
    refine ⟨t, hexec, ?_, fun hfront => ?_, fun hfront => ?_, hacted⟩
    · rw [hstate]
      exact hrest
    · rw [hrecord]
      exact if_pos ((Source.hasRole_iff_withRole _ _).mp hfront)
    · rw [hrecord]
      exact if_neg fun h => hfront ((Source.hasRole_iff_withRole _ _).mpr h)
  case releaseOther => exact exec_releaseSource hs rfl ho (State.releaseSource_other hother)

end Sys2Proof.Machine
end

section
/-! PROOFS. Override groups: the raw condition and the first true input (O43), the changes of their inputs (O44), and their
configuration (O45). -/

namespace Sys2Proof.Machine

open Sys2Proof

/-! ### Inputs -/

/-- The inputs are searched kind by kind, in increasing number (R153). -/
theorem State.firstInput_eq (s : State) (g : GroupId) :
    s.firstInput g =
      (((List.finRange 8).find? fun n => s.inputActive g (.alarm n)).map TriggerInput.alarm).or
        ((((List.finRange 16).find? fun i => s.inputActive g (.staleTrip i)).map TriggerInput.staleTrip).or
          ((((List.finRange 16).find? fun i => s.inputActive g (.contain i)).map TriggerInput.contain).or
            (((List.finRange 2).find? fun b => s.inputActive g (.software b)).map TriggerInput.software))) := by
  simp only [State.firstInput, groupInputs, List.find?_append, List.find?_map, allSources, Option.or_assoc]
  rfl

theorem State.rawCondition_iff (s : State) (g : GroupId) :
    s.rawCondition g = true ↔
      (∃ n, s.inputActive g (.alarm n) = true) ∨ (∃ i, s.inputActive g (.staleTrip i) = true) ∨
        (∃ i, s.inputActive g (.contain i) = true) ∨ ∃ b, s.inputActive g (.software b) = true := by
  simp [State.rawCondition, groupInputs, allSources]

/-- There is a first true input when there is a true one. -/
theorem State.firstInput_eq_none_iff (s : State) (g : GroupId) : s.firstInput g = none ↔ s.rawCondition g = false := by
  simp [State.firstInput, State.rawCondition]

theorem State.lineActive_iff (s : State) (g : GroupId) (n : Fin 8) :
    s.inputActive g (.alarm n) = true ↔
      s.override.groups[g].cfg.alarmSel.getLsbD n.val = true ∧
        (s.override.sensed.getLsbD n.val = true ↔ s.override.groups[g].cfg.polarity.getLsbD n.val = false) := by
  simp only [State.inputActive, Bool.and_eq_true, bne_iff_ne]
  cases s.override.sensed.getLsbD n.val <;> cases s.override.groups[g].cfg.polarity.getLsbD n.val <;> simp

/-- Settles O43: the raw condition is any of the inputs of its four kinds, and the first input is found kind by kind
(`State.firstInput_eq`). -/
theorem rawConditionIsAnyInput : Obligations.RawConditionIsAnyInput := by
  unfold Obligations.RawConditionIsAnyInput
  rintro s g c line trip contain soft rfl hline htrip hcontain hsoft
  have hline (n : Fin 8) : s.inputActive g (.alarm n) = true ↔ line n := by
    rw [hline, State.lineActive_iff]
  have htrip (i : SourceId) : s.inputActive g (.staleTrip i) = true ↔ trip i := by
    rw [htrip, State.inputActive, Bool.and_eq_true]
  have hcontain (i : SourceId) : s.inputActive g (.contain i) = true ↔ contain i := by
    rw [hcontain, State.inputActive, Bool.and_eq_true, beq_iff_eq]
  have hsoft (b : Fin 2) : s.inputActive g (.software b) = true ↔ soft b := by
    rw [hsoft, State.inputActive, Bool.and_eq_true]
  have hfalse {α : Type} {f : α → Bool} {p : α → Prop} (h : ∀ a, f a = true ↔ p a) (a : α) : f a = false ↔ ¬p a := by
    rw [← h, Bool.not_eq_true]
  refine ⟨?_, s.firstInput_eq_none_iff g, fun n => ?_, fun i => ?_, fun i => ?_, fun b => ?_⟩
  · simp only [State.rawCondition_iff, hline, htrip, hcontain, hsoft]
  all_goals
    rw [State.firstInput_eq]
    simp only [Option.or_eq_some_iff, Option.map_eq_some_iff, Option.map_eq_none_iff, finRange_find,
      finRange_find_none, hline, htrip, hcontain, hsoft, hfalse hline, hfalse htrip, hfalse hcontain, hfalse hsoft, reduceCtorEq,
      and_false, exists_false, or_false, false_or, TriggerInput.alarm.injEq, TriggerInput.staleTrip.injEq,
      TriggerInput.contain.injEq, TriggerInput.software.injEq, exists_eq_right]
  all_goals tauto

/-! ### Changes of inputs -/

@[simp] theorem State.evaluateGroups_sensed (s : State) : s.evaluateGroups.override.sensed = s.override.sensed := by
  rw [s.evaluateGroups_rest]

@[simp] theorem State.evaluateGroups_softBits (s : State) : s.evaluateGroups.override.softBits = s.override.softBits := by
  rw [s.evaluateGroups_rest]

@[simp] theorem State.evaluateGroups_links (s : State) : s.evaluateGroups.links = s.links := by
  rw [s.evaluateGroups_rest]

/-- An event changes inputs of the groups alone, to `u`; then the groups act, and a word moves the port to `p` (R152, R159). -/
theorem exec_acted {s u : State} {i : Instr} {p : Port} (hexec : exec i s = .next (u.evaluateGroups.withPort p))
    (hrest : u = { s with sources := u.sources, override := u.override, port := u.port, links := Links.none })
    (hgroups : u.override.groups = s.override.groups) :
    ∃ t, exec i s = .next t ∧
      (t =
        { s with
          sources := t.sources
          override := { t.override with groups := t.override.groups }
          capture := { s.capture with overrideChange := t.capture.overrideChange }
          port := t.port
          links := Links.none } ∧ s.groupsActed t) ∧
        t.sources = u.sources ∧ t.port = p ∧ t.override.sensed = u.override.sensed ∧
          t.override.softBits = u.override.softBits := by
  have hcapture : u.capture = s.capture := by rw [hrest]
  refine ⟨_, hexec, ⟨?_, ?_⟩, u.evaluateGroups_sources, rfl, u.evaluateGroups_sensed, u.evaluateGroups_softBits⟩
  · have hacted := congrArg
      (fun t : State =>
        { t with
          override := { u.override with groups := u.evaluateGroups.override.groups }
          capture := { s.capture with overrideChange := u.evaluateGroups.capture.overrideChange }
          port := p }) hrest
    simp only [State.withPort_sources, State.withPort_override, State.evaluateGroups_sources, State.evaluateGroups_sensed,
      State.evaluateGroups_softBits]
    refine (congrArg (fun t : State => t.withPort p) u.evaluateGroups_rest).trans ?_
    rw [hcapture]
    exact hacted
  · exact State.groupsActed_withPort
      (State.groupsActed_of_same hgroups (congrArg Capture.overrideChange hcapture) u.evaluateGroups_acted) p

theorem setLevel_getLsbD (levels : BitVec 8) (n m : Fin 8) (high : Bool) :
    (setLevel levels n high).getLsbD m.val = if m = n then high else levels.getLsbD m.val := by
  by_cases h : m = n
  · subst h
    cases high <;> simp [setLevel, m.isLt]
  · have hval : m.val ≠ n.val := fun hval => h (Fin.ext hval)
    cases high <;> simp [setLevel, h, hval]

theorem exec_alarmLevelChange_of_none {s : State} (hs : s.resetting = none) (n : Fin 8) (high : Bool) :
    exec (.alarmLevelChange n high) s =
      .next
        ((s.quiet.withOverride { s.override with sensed := setLevel s.override.sensed n high }).evaluateGroups.withPort s.port) := by
  have hport (t : State) : t.evaluateGroups.withPort t.port = t.evaluateGroups := by
    rw [← t.evaluateGroups_port]
    rfl
  exact (outsideReset_of_none hs fun t => t.alarmChange n high).trans (congrArg Host.Outcome.next (hport _).symm)

theorem exec_softBits_of_listening {s : State} (hs : s.listening) (v : Word) :
    exec (.softBits v) s =
      .next
        (((s.quiet.withPort (s.port.standAt 0x0D)).withOverride
          { s.override with softBits := v.extractLsb' 0 8 }).evaluateGroups.withPort (s.port.wordTaken 0x0D .accepted 255)) :=
  heard_takeWordAt hs 0x0D v (by decide) rfl (State.evaluateGroups_port _)

theorem State.clearTrips_eq (s : State) (v : Word) :
    s.clearTrips v =
      (s.withSources
        (Vector.ofFn fun i => { s.sources[i] with trip := s.sources[i].trip && !v.getLsbD i.val })).evaluateGroups := by
  rw [State.clearTrips, State.mapNamed_eq]
  refine congrArg (fun f => (s.withSources (Vector.ofFn f)).evaluateGroups) (funext fun i => ?_)
  cases hbit : v.getLsbD i.val <;> simp

theorem exec_tripClear_of_listening {s : State} (hs : s.listening) (v : Word) :
    exec (.tripClear v) s =
      .next
        (((s.quiet.withPort (s.port.standAt 0x0E)).withSources
          (Vector.ofFn fun i => { s.sources[i] with trip := s.sources[i].trip && !v.getLsbD i.val })).evaluateGroups.withPort
            (s.port.wordTaken 0x0E .accepted 255)) :=
  heard_takeWordAt hs 0x0E v (by decide) (Prod.ext (State.clearTrips_eq _ v) rfl) (State.evaluateGroups_port _)

/-- Settles O44: each event changes inputs of the groups and lets the groups act (`exec_acted`). -/
theorem groupsFollowTheirInputs : Obligations.GroupsFollowTheirInputs := by
  unfold Obligations.GroupsFollowTheirInputs
  rintro s i hs (⟨n, high, rfl⟩ | ⟨hidle, v, rfl | rfl⟩)
  · obtain ⟨t, hexec, ⟨hrest, hgroups, hflag⟩, hsources, hport, hsensed, hsoft⟩ :=
      exec_acted (exec_alarmLevelChange_of_none hs n high) rfl rfl
    refine ⟨t, hexec, hrest, hgroups, hflag, ?_, ?_, ?_⟩
    · rintro _ _ ⟨⟩
      refine ⟨hsources, hport, hsoft, fun m => ?_⟩
      rw [hsensed]
      exact setLevel_getLsbD _ n m high
    · rintro v ⟨⟩
    · rintro v ⟨⟩
  · obtain ⟨t, hexec, ⟨hrest, hgroups, hflag⟩, hsources, hport, hsensed, hsoft⟩ :=
      exec_acted (exec_softBits_of_listening ⟨hs, hidle⟩ v) rfl rfl
    refine ⟨t, hexec, hrest, hgroups, hflag, ?_, ?_, ?_⟩
    · rintro _ _ ⟨⟩
    · rintro _ ⟨⟩
      exact ⟨hsources, hport, hsensed, hsoft⟩
    · rintro _ ⟨⟩
  · obtain ⟨t, hexec, ⟨hrest, hgroups, hflag⟩, hsources, hport, hsensed, hsoft⟩ :=
      exec_acted (exec_tripClear_of_listening ⟨hs, hidle⟩ v) rfl rfl
    refine ⟨t, hexec, hrest, hgroups, hflag, ?_, ?_, ?_⟩
    · rintro _ _ ⟨⟩
    · rintro _ ⟨⟩
    · rintro _ ⟨⟩
      refine ⟨hport, hsensed, hsoft, fun j => ?_⟩
      rw [hsources]
      simp

/-! ### Configuration of a group -/

theorem State.triggerNow_putGroup {s : State} {g : GroupId} {x : Group}
    (h : x.cfg.selections = s.override.groups[g].cfg.selections) (k : GroupId) :
    (s.putGroup g x).triggerNow k = s.triggerNow k := by
  simp only [State.triggerNow, State.firstInput, State.inputActive_putGroup h]
  rfl

/-- A configuration field other than the enabled field takes the values of Table 9-1 and no other (R149). -/
theorem GroupConfig.put_eq_none_iff (c : GroupConfig) {f : Fin 7} (hf : f ≠ 0) (v : Nat) :
    c.put f.val v = none ↔ ¬groupStores f.val v := by
  fin_cases f
  · exact absurd rfl hf
  all_goals
    simp [GroupConfig.put, groupStores]

/-- A configuration field reads back as it was written (R149). -/
theorem GroupConfig.get_of_put {c d : GroupConfig} {f : Fin 7} {v : Nat} (h : c.put f.val v = some d) : d.get f.val = v := by
  revert h
  fin_cases f
  all_goals
    simp only [GroupConfig.put, Option.ite_none_right_eq_some, Option.some.injEq, reduceCtorEq, false_implies, and_imp]
  all_goals
    rintro hv rfl
    simp only [GroupConfig.get, BitVec.toNat_ofNat]
  all_goals omega

/-- A configuration field is a projection of its own: writing one leaves the others. -/
theorem GroupConfig.get_other_of_put {c d : GroupConfig} {f : Fin 7} {v k : Nat} (h : c.put f.val v = some d) (hk : k ≠ f.val) :
    d.get k = c.get k := by
  revert h
  fin_cases f
  all_goals
    simp only [GroupConfig.put, Option.ite_none_right_eq_some, Option.some.injEq, reduceCtorEq, false_implies, and_imp]
  all_goals
    rintro hv rfl
    unfold GroupConfig.get
    split
  all_goals first | rfl | exact absurd rfl hk

theorem State.writeGroup_refused {s : State} (g : GroupId) {f : Fin 7} {v : Nat} (h : ¬groupStores f.val v) :
    s.writeGroup g f.val v = (s, .invalid f.val) := by
  by_cases hf : f = 0
  · subst hf
    have hv : 1 < v := Nat.lt_of_not_le h
    have hzero : (0 : Fin 7).val = 0 := rfl
    rw [State.writeGroup, if_pos hzero, if_neg (by omega), if_neg (by omega)]
    rfl
  · have hput := (GroupConfig.put_eq_none_iff s.override.groups[g].cfg hf v).mpr h
    have hval : f.val ≠ 0 := fun hval => hf (Fin.ext hval)
    rw [State.writeGroup, if_neg hval, hput]

theorem State.writeGroup_stored {s : State} {g : GroupId} {f : Fin 7} {v : Nat} {c : GroupConfig} (hf : f ≠ 0)
    (hput : s.override.groups[g].cfg.put f.val v = some c) :
    s.writeGroup g f.val v =
      (if f = 6 then s.putGroup g { s.override.groups[g] with cfg := c }
       else (s.putGroup g { s.override.groups[g] with cfg := c }).evaluateGroup g, .accepted) := by
  have hval : f.val ≠ 0 := fun hval => hf (Fin.ext hval)
  have hsix : f = 6 ↔ f.val = 6 := Fin.ext_iff
  rw [State.writeGroup, if_neg hval, hput]
  simp only [hsix]

/-- A group that is replaced and then evaluated (R152). -/
theorem State.evaluateGroup_putGroup (s : State) (g : GroupId) (x : Group) :
    (s.putGroup g x).evaluateGroup g =
      s.groupTo g (x.evaluated ((s.putGroup g x).rawCondition g) ((s.putGroup g x).triggerNow g))
        (x.evaluationChanges ((s.putGroup g x).rawCondition g)) := by
  have hget : (s.putGroup g x).override.groups[g] = x := by
    rw [State.putGroup_override, putAt_same_fin]
  rw [State.evaluateGroup_eq, hget]
  generalize x.evaluated _ _ = y
  generalize x.evaluationChanges _ = flag
  unfold State.groupTo
  apply State.extensional <;> simp

theorem TablePointer.groupConfig_valid (g : GroupId) (f : Fin 7) : (TablePointer.mk 9 g.val f.val).valid = true := by
  simp [TablePointer.valid, tableShape, g.isLt, f.isLt]

section
variable {s t : State} {r : Report} (hs : s.listening) (g : GroupId)
include hs

/-- A word of GROUP_CONFIG is reported as the group answers it (R149). -/
theorem exec_groupConfig (f : Fin 7) (v : Word) (hport : t.port = s.port.pointAt ⟨9, g.val, f.val⟩)
    (hwrite : (s.quiet.withPort (s.port.pointAt ⟨9, g.val, f.val⟩)).writeGroup g f.val v.toNat = (t, r)) :
    exec (.groupConfig g f v) s = .next (t.withPort (s.port.fieldTaken ⟨9, g.val, f.val⟩ r.code r.field)) :=
  heard_takeWordIn hs (TablePointer.groupConfig_valid g f) ((dif_pos g.isLt).trans hwrite) hport

theorem exec_groupEnable (hport : t.port = s.port.pointAt ⟨9, g.val, 0⟩)
    (henable : (s.quiet.withPort (s.port.pointAt ⟨9, g.val, 0⟩)).enableGroup g = t) :
    exec (.groupEnable g) s = .next (t.withPort (s.port.fieldTaken ⟨9, g.val, 0⟩ .accepted 255)) :=
  exec_groupConfig (r := .accepted) hs g 0 1 hport (congrArg (·, Report.accepted) henable)

theorem exec_groupDisable (hport : t.port = s.port.pointAt ⟨9, g.val, 0⟩)
    (hdisable : (s.quiet.withPort (s.port.pointAt ⟨9, g.val, 0⟩)).disableGroup g = t) :
    exec (.groupDisable g) s = .next (t.withPort (s.port.fieldTaken ⟨9, g.val, 0⟩ .accepted 255)) :=
  exec_groupConfig (r := .accepted) hs g 0 0 hport (congrArg (·, Report.accepted) hdisable)

end

section
variable {s : State} {g : GroupId}

theorem State.assertGroup_putGroup {x : Group} (h : x.cfg.selections = s.override.groups[g].cfg.selections) :
    (s.putGroup g x).assertGroup g =
      (s.putGroup g
        { x with state := .asserted, holdCount := 0, raw := true, trigger := s.triggerNow g }).setOverrideChange := by
  rw [State.assertGroup, State.triggerNow_putGroup h, State.putGroup_override, putAt_same_fin]
  refine congrArg State.setOverrideChange ?_
  generalize ({ x with state := .asserted, holdCount := 0, raw := true, trigger := s.triggerNow g } : Group) = y
  apply State.extensional <;> simp

theorem State.enableGroup_again (h : s.override.groups[g].cfg.enabled = true) : s.enableGroup g = s := if_pos h

theorem State.disableGroup_again (h : s.override.groups[g].cfg.enabled = false) : s.disableGroup g = s :=
  if_neg (Bool.eq_false_iff.mp h)

/-- Enabling a group whose raw condition is true asserts it (R157). -/
theorem State.enableGroup_asserts (hoff : s.override.groups[g].cfg.enabled = false) (hraw : s.rawCondition g = true) :
    s.enableGroup g =
      (s.putGroup g
        { s.override.groups[g] with
          cfg := { s.override.groups[g].cfg with enabled := true }, state := .asserted, holdCount := 0, raw := true
          trigger := s.triggerNow g }).setOverrideChange := by
  have hput := State.rawCondition_putGroup (s := s) (g := g)
    (x := { s.override.groups[g] with cfg := { s.override.groups[g].cfg with enabled := true } }) rfl g
  rw [State.enableGroup, if_neg (Bool.eq_false_iff.mp hoff)]
  exact (if_pos (hput.trans hraw)).trans (State.assertGroup_putGroup rfl)

theorem State.enableGroup_waits (hoff : s.override.groups[g].cfg.enabled = false) (hraw : s.rawCondition g = false) :
    s.enableGroup g =
      s.putGroup g { s.override.groups[g] with cfg := { s.override.groups[g].cfg with enabled := true } } := by
  have hput := State.rawCondition_putGroup (s := s) (g := g)
    (x := { s.override.groups[g] with cfg := { s.override.groups[g].cfg with enabled := true } }) rfl g
  rw [State.enableGroup, if_neg (Bool.eq_false_iff.mp hoff)]
  exact if_neg (Bool.eq_false_iff.mp (hput.trans hraw))

/-- Disabling a group returns it to IDLE (R157). -/
theorem State.disableGroup_idles (hon : s.override.groups[g].cfg.enabled = true) :
    s.disableGroup g =
      s.groupTo g
        { s.override.groups[g] with
          cfg := { s.override.groups[g].cfg with enabled := false }, state := .idle, holdCount := 0 }
        (decide (s.override.groups[g].state ≠ .idle)) := by
  rw [State.disableGroup, if_pos hon]
  simp only
  by_cases hidle : s.override.groups[g].state = .idle
  · rw [if_pos hidle]
    simp only [ne_eq, hidle, not_true_eq_false, decide_false, State.groupTo, Bool.or_false]
    rfl
  · rw [if_neg hidle]
    simp only [ne_eq, hidle, not_false_eq_true, decide_true, State.groupTo, Bool.or_true]
    rfl

end

/-- A stored field that is not the enabled field: the group acts on its raw condition as it then stands, but for the hold-off (R149,
R152). -/
theorem exec_groupConfig_stored {s : State} (hs : s.listening) (g : GroupId) {f : Fin 7} (v : Word) {c : GroupConfig} (hf : f ≠ 0)
    (hput : s.override.groups[g].cfg.put f.val v.toNat = some c) :
    ∃ t, exec (.groupConfig g f v) s = .next t ∧
      t =
        { s with
          override :=
            { s.override with
              groups :=
                putAt s.override.groups g
                  (if f = 6 then { s.override.groups[g] with cfg := c }
                   else
                    ({ s.override.groups[g] with cfg := c } : Group).evaluated (t.rawCondition g) (t.triggerNow g)) }
          capture :=
            { s.capture with
              overrideChange :=
                s.capture.overrideChange ||
                  (f != 6 && ({ s.override.groups[g] with cfg := c } : Group).evaluationChanges (t.rawCondition g)) }
          port := s.port.fieldTaken ⟨9, g.val, f.val⟩ .accepted 255
          links := Links.none } := by
  have hwrite := State.writeGroup_stored (s := s.quiet.withPort (s.port.pointAt ⟨9, g.val, f.val⟩)) hf hput
  by_cases hsix : f = 6
  · rw [if_pos hsix] at hwrite
    refine ⟨_, exec_groupConfig hs g f v rfl hwrite, ?_⟩
    subst hsix
    simp only [if_true, bne_self_eq_false, Bool.false_and, Bool.or_false]
    rfl
  · rw [if_neg hsix, State.evaluateGroup_putGroup] at hwrite
    obtain ⟨t, hexec, ht⟩ : ∃ t, exec (.groupConfig g f v) s = .next t ∧ t = _ :=
      ⟨_, exec_groupConfig hs g f v rfl hwrite, rfl⟩
    have hsame : SameInputs ((s.quiet.withPort (s.port.pointAt ⟨9, g.val, f.val⟩)).putGroup g
        { s.override.groups[g] with cfg := c }) t g := by
      subst ht
      refine ⟨rfl, rfl, ?_, fun _ => rfl, fun _ => Iff.rfl⟩
      rw [State.withPort_override, State.groupTo_groups, if_pos rfl, Group.evaluated_cfg, State.putGroup_override, putAt_same_fin]
    have hframe : t.governor.frameCount = s.governor.frameCount := by
      subst ht
      rfl
    have hchanges : (f != 6) = true := bne_iff_ne.mpr hsix
    refine ⟨t, hexec, ?_⟩
    rw [State.rawCondition_congr hsame, State.triggerNow_congr hsame hframe, if_neg hsix, hchanges, Bool.true_and, ht]
    rfl

/-- Settles O45. -/
theorem groupConfigTakesEffect : Obligations.GroupConfigTakesEffect := by
  unfold Obligations.GroupConfigTakesEffect
  refine ⟨fun s g f v hs => ⟨fun hv => ?refused, fun hf hv => ?stored, fun hf hv => ?enable, fun hf hv => ?disable⟩, ?writes⟩
  case refused => exact exec_groupConfig hs g f v rfl (State.writeGroup_refused g hv)
  case stored =>
    obtain ⟨c, hput⟩ := Option.ne_none_iff_exists'.mp
      (fun hnone => (GroupConfig.put_eq_none_iff s.override.groups[g].cfg hf v.toNat).mp hnone hv)
    obtain ⟨t, hexec, hrest⟩ := exec_groupConfig_stored hs g v hf hput
    exact ⟨t, c, hexec, hrest, GroupConfig.get_of_put hput, fun k _ hk => GroupConfig.get_other_of_put hput hk⟩
  case enable =>
    have hword : v = 1 := BitVec.eq_of_toNat_eq hv
    subst hf hword
    rfl
  case disable =>
    have hword : v = 0 := BitVec.eq_of_toNat_eq hv
    subst hf hword
    rfl
  case writes =>
    rintro s g x hs rfl
    refine ⟨fun hoff hraw => ?_, fun hoff hraw => ?_, fun hon => ?_, fun hon => ?_, fun hoff => ?_⟩
    · exact exec_groupEnable hs g rfl (State.enableGroup_asserts hoff hraw)
    · exact exec_groupEnable hs g rfl (State.enableGroup_waits hoff hraw)
    · exact exec_groupDisable hs g rfl (State.disableGroup_idles hon)
    · exact exec_groupEnable hs g rfl (State.enableGroup_again hon)
    · exact exec_groupDisable hs g rfl (State.disableGroup_again hoff)

end Sys2Proof.Machine
end

section
/-! PROOFS. The U-port: the decoder (O8), the arbiters (O9) and the acceptance of write heads (O10, O11). -/

namespace Sys2Proof.Machine

open Sys2Proof

/-! ### The decoder -/

theorem SourceConfig.mem_regions {c : SourceConfig} {i : SourceId} {g : Region} :
    g ∈ c.regions i ↔
      g = ⟨.aperture i, c.apertureBase * 4096, c.pitch * c.height⟩ ∨ g = ⟨.buffer i .a, c.baseA * 4096, c.pitch * c.height⟩ ∨
        g = ⟨.buffer i .b, c.baseB * 4096, c.pitch * c.height⟩ ∨ g = ⟨.buffer i .c, c.baseC * 4096, c.pitch * c.height⟩ := by
  simp [SourceConfig.regions, SourceConfig.bufferBase, SourceConfig.regionLength, Config.pageBytes]

/-- An unaligned request and one past the end of the address space are refused (R8). -/
theorem State.classify_misplaced (s : State) {r : URequest}
    (h : r.address.toNat % 32 ≠ 0 ∨ 1099511627776 < r.address.toNat + r.beats * 32) : s.classify r = .refused .decode none :=
  if_pos h

/-- Settles O8: a request that lies wholly in a region is classified by it (`State.classify_in`), any other goes by the regions it meets
(`State.classify_out`). -/
theorem classificationFollowsRegions : Obligations.ClassificationFollowsRegions := by
  unfold Obligations.ClassificationFollowsRegions
  constructor
  · intro s g
    simp only [State.mem_regions, SourceConfig.mem_regions]
    rfl
  · intro s r hbeats hapart
    refine ⟨s.classify_misplaced, fun halign hend => ⟨fun hclear => ?plain,
      fun g hg hholds => ?inside, fun hmeets hnone => ?across⟩⟩
    case plain =>
      have hout : ∀ g ∈ s.regions, ∃ a, r.address.toNat ≤ a ∧ a < r.address.toNat + r.beats * 32 ∧ g.has a = false :=
        fun g hg => ⟨r.address.toNat, le_rfl, by omega, hclear g hg _ le_rfl (by omega)⟩
      rw [State.classify_out hbeats halign hend hout, if_neg]
      simp only [List.any_eq_true, Region.meets_iff, not_exists, not_and]
      intro g hg a hmin hmax
      exact Bool.eq_false_iff.mp (hclear g hg a hmin hmax)
    case inside =>
      rw [State.classify_in hapart hbeats halign hend hg hholds]
      refine ⟨fun hid hkind => ?_, fun hid hkind => ?_, fun i hid hkind => ?_, fun i hid hkind => ?_, fun i l hid => ?_⟩
      all_goals rw [hid]
      · simp only [State.classifyIn, hkind]
      · simp only [State.classifyIn, hkind]
        rfl
      · simp only [State.classifyIn, hkind]
      · simp only [State.classifyIn, hkind]
      · rfl
    case across =>
      rw [State.classify_out hbeats halign hend hnone, if_pos]
      obtain ⟨g, hg, a, hmin, hmax, hhas⟩ := hmeets
      exact List.any_eq_true.mpr ⟨g, hg, Region.meets_iff.mpr ⟨a, hmin, hmax, hhas⟩⟩

/-! ### The arbiters -/

theorem State.destination_holdQueue {s : State} {i : SourceId} (h : s.sources[i].state ≠ .closing) :
    s.destination .write (.aperture i) = .holdQueue i := if_neg h

theorem State.destination_dropped {s : State} {i : SourceId} (h : s.sources[i].state = .closing) :
    s.destination .write (.aperture i) = .dropped := if_pos h

theorem State.waitsForPlainList_iff (s : State) (i : Initiator) :
    s.waitsForPlainList i = true ↔
      ∃ r rest, s.uport.side i .write = r :: rest ∧ (s.classify r = .plain ∨ s.classify r = .canvas) := by
  unfold State.waitsForPlainList UPort.side
  cases s.uport.lanes[i].writes with
  | nil => simp
  | cons r rest =>
    simp only [List.cons.injEq, beq_iff_eq]
    cases hclass : s.classify r with
    | aperture j =>
      by_cases hclosing : s.sources[j].state = .closing
      · simp [State.destination_dropped hclosing, hclass]
      · simp [State.destination_holdQueue hclosing, hclass]
    | canvas => simp [State.destination, hclass]
    | plain => simp [State.destination, hclass]
    | refused cls src => simp [State.destination, hclass]

theorem DPort.freeTracker_isSome_iff (d : DPort) : d.freeTracker.isSome = true ↔ ∃ k : TrackerId, d.trackers[k].use = none := by
  simp [DPort.freeTracker]

/-- The write lane to grant needs a FREE tracker (R122, R124). -/
theorem State.writeChoice_iff (s : State) (l : Fin 17) :
    s.writeChoice = some l ↔
      (∃ k : TrackerId, s.dport.trackers[k].use = none) ∧ (s.laneHead l).isSome = true ∧
        ∀ m : Fin 17, (s.laneHead m).isSome = true → distance s.dport.lastWriteLane l ≤ distance s.dport.lastWriteLane m := by
  rw [State.writeChoice, Option.ite_none_right_eq_some, DPort.freeTracker_isSome_iff, after_find]

/-- Settles O9: each arbiter's search is `after_find`. -/
theorem arbitersAreRoundRobin : Obligations.ArbitersAreRoundRobin := by
  unfold Obligations.ArbitersAreRoundRobin
  refine ⟨fun s i => ?_, fun s i => ?_, State.waitsForPlainList_iff, State.writeChoice_iff⟩
  · rw [State.intakeTurn, after_find]
    simp only [Bool.not_eq_true', List.isEmpty_eq_false_iff]
    rfl
  · exact after_find _ _ _

/-! ### Write heads -/

theorem exec_laneHeadAccept_write {s : State} (hs : s.resetting = none) (i : Initiator) :
    exec (.laneHeadAccept i .write) s = .next (s.quiet.offerHead i .write) :=
  outsideReset_of_none hs fun t => t.acceptHead i .write

section
variable {s : State} {i : Initiator} {k : Kind} {r : URequest} {rest : List URequest} {c : ReqClass} {d : Destination}
  (hlane : s.uport.side i k = r :: rest) (hclass : s.classify r = c) (hdestination : s.destination k c = d)
include hlane hclass hdestination

/-- The head of a lane side is taken when its destination has room (R4). -/
theorem State.offerHead_taken (hroom : s.hasRoom i d = true) : s.offerHead i k = s.takeHead i k r rest c d := by
  simp only [State.offerHead, hlane, hclass, hdestination, hroom, if_true]

/-- The head of a lane side waits while its destination has no room (R4). -/
theorem State.offerHead_waits (hroom : s.hasRoom i d = false) : s.offerHead i k = s := by
  simp only [State.offerHead, hlane, hclass, hdestination, hroom, Bool.false_eq_true, if_false]

end

/-- Settles O10: an APERTURE write goes to the hold queue of its source, or is dropped while the source is CLOSING. -/
theorem apertureWriteAccepted : Obligations.ApertureWriteAccepted := by
  unfold Obligations.ApertureWriteAccepted
  intro s r rest i hs hlane hclass
  refine ⟨fun hopen hroom => ⟨_, ?_, rfl⟩, fun hopen hfull => ?_, fun hclosing => ?_⟩
  · rw [exec_laneHeadAccept_write hs, State.offerHead_taken (s := s.quiet) hlane hclass (State.destination_holdQueue hopen)
      (decide_eq_true hroom)]
    rfl
  · rw [exec_laneHeadAccept_write hs, State.offerHead_waits (s := s.quiet) hlane hclass (State.destination_holdQueue hopen)
      (decide_eq_false (Nat.not_lt.mpr hfull))]
    rfl
  · rw [exec_laneHeadAccept_write hs, State.offerHead_taken (s := s.quiet) hlane hclass (State.destination_dropped hclosing) rfl]
    rfl

theorem State.destination_plainList {s : State} {c : ReqClass} (h : c = .plain ∨ c = .canvas) :
    s.destination .write c = .plainList := by
  rcases h with rfl | rfl <;> rfl

theorem State.hasRoom_plainList_iff (s : State) (i : Initiator) :
    s.hasRoom i .plainList = true ↔ s.uport.plainWrites.length < 16 ∧ s.plainTurn = some i := by
  simp [State.hasRoom, Config.plainListCapacity]

/-- Settles O11. -/
theorem otherWritesAccepted : Obligations.OtherWritesAccepted := by
  unfold Obligations.OtherWritesAccepted
  intro s r rest hs hlane
  refine ⟨fun hclass hroom hturn => ?_, fun hclass hnone => ?_, fun cls src hclass => ?_⟩
  · have hhas : s.quiet.hasRoom r.initiator .plainList = true := (State.hasRoom_plainList_iff _ _).mpr ⟨hroom, hturn⟩
    rcases hclass with hclass | hclass
    · rw [exec_laneHeadAccept_write hs, State.offerHead_taken (s := s.quiet) hlane hclass rfl hhas]
      rfl
    · rw [exec_laneHeadAccept_write hs, State.offerHead_taken (s := s.quiet) hlane hclass rfl hhas]
      rfl
  · have hlacks : s.quiet.hasRoom r.initiator .plainList = false := by
      rw [← Bool.not_eq_true, State.hasRoom_plainList_iff]
      rintro ⟨hroom, hturn⟩
      exact hnone.elim (fun hfull => absurd hroom (Nat.not_lt.mpr hfull)) fun hother => hother hturn
    rw [exec_laneHeadAccept_write hs, State.offerHead_waits (s := s.quiet) hlane rfl (State.destination_plainList hclass) hlacks]
    rfl
  · rw [exec_laneHeadAccept_write hs, State.offerHead_taken (s := s.quiet) hlane hclass rfl rfl]
    rfl

end Sys2Proof.Machine
end

section
/-! PROOFS. Admission (O27, O28) and slots (O34). -/

namespace Sys2Proof.Machine

open Sys2Proof

/-! ### Buffers, letter by letter -/

theorem Buffers.withRole_eq_some {x : Source} {r : Role} {l : Letter} (hl : (x.bufs.get l).role = r) (hone : x.oneOf r) :
    x.bufs.withRole r = some l := by
  obtain ⟨m, hm⟩ := Option.isSome_iff_exists.mp ((Source.hasRole_iff_withRole x r).mp ⟨l, hl⟩)
  rw [hm, hone m l (Buffers.withRole_some hm) hl]

@[simp] theorem Buffers.get_put_same (b : Buffers) (l : Letter) (x : Buffer) : (b.put l x).get l = x := by
  rw [Buffers.get_put, if_pos rfl]

theorem Buffers.get_put_other (b : Buffers) {l m : Letter} (x : Buffer) (h : m ≠ l) : (b.put l x).get m = b.get m := by
  rw [Buffers.get_put, if_neg h]

theorem Buffers.get_supersede (b : Buffers) (r : Role) (m : Letter) :
    (b.supersede r).get m = if (b.get m).role = r then { b.get m with role := .spent } else b.get m := by
  cases m <;> rfl

/-! ### Admission -/

theorem exec_admission_of_none {s : State} (hs : s.resetting = none) (i : SourceId) :
    exec (.admission i) s = .next (s.quiet.admission i) := outsideReset_of_none hs fun t => t.admission i

/-- R145. -/
theorem State.admissible_iff (s : State) (i : SourceId) (e : HoldEntry) :
    s.admissible i e = true ↔
      s.sources[i].fillWait = false ∧ s.dport.writeLanes[i].length < 4 ∧
        (s.sources[i].quotaInEffect = 0 ∨ e.beats ≤ s.sources[i].credit) := by
  simp [State.admissible, Config.writeLaneCapacity, and_assoc]

section
variable {s : State} {i : SourceId} {e : HoldEntry} {rest : List HoldEntry} {l : Letter}
  (hqueue : s.sources[i].holdQueue = e :: rest) (hfill : (s.sources[i].bufs.get l).role = .fill) (hone : s.sources[i].oneOf .fill)
include hqueue hfill hone

theorem State.admission_admits (h : s.admissible i e = true) :
    s.admission i =
      (s.putSource i (s.sources[i].takeWrite e rest l)).withDport
        { s.dport with
          writeLanes := putAt s.dport.writeLanes i (s.dport.writeLanes[i] ++ [s.sources[i].translate i e l]) } := by
  simp only [State.admission, hqueue, Buffers.withRole_eq_some hfill hone, h, if_true]

theorem State.admission_waits (h : s.admissible i e = false) : s.admission i = s := by
  simp only [State.admission, hqueue, Buffers.withRole_eq_some hfill hone, h, Bool.false_eq_true, if_false]

end

theorem SourceConfig.completes_iff (c : SourceConfig) (offset beats : Nat) :
    c.completes offset beats = true ↔
      offset ≤ (c.height - 1) * c.pitch + c.width * 4 - 32 ∧
        (c.height - 1) * c.pitch + c.width * 4 - 32 ≤ offset + (beats - 1) * 32 := by
  simp only [SourceConfig.completes, Bool.and_eq_true, decide_eq_true_eq]
  rfl

/-- Settles O27. -/
theorem admissionTranslatesHead : Obligations.AdmissionTranslatesHead := by
  unfold Obligations.AdmissionTranslatesHead
  rintro s i x e rest l hs rfl hqueue hfill hone
  refine ⟨fun hwait hlane hcredit hpartial => ?_, fun hnone => ?_⟩
  · have hadmissible := (s.quiet.admissible_iff i e).mpr ⟨hwait, hlane, hcredit⟩
    rw [← SourceConfig.completes_iff] at hpartial
    have htaken : s.sources[i].takeWrite e rest l = _ := if_neg hpartial
    rw [exec_admission_of_none hs, State.admission_admits (s := s.quiet) hqueue hfill hone hadmissible]
    simp only [State.quiet_sources, htaken]
    rfl
  · have hadmissible : s.quiet.admissible i e = false := by
      rw [← Bool.not_eq_true, State.admissible_iff]
      rintro ⟨hwait, hlane, hcredit⟩
      rcases hnone with h | h | ⟨hquota, hshort⟩
      · exact Bool.false_ne_true (hwait.symm.trans h)
      · exact absurd hlane (Nat.not_lt.mpr h)
      · exact hcredit.elim (Nat.pos_iff_ne_zero.mp hquota) (Nat.not_le.mpr hshort)
    rw [exec_admission_of_none hs, State.admission_waits (s := s.quiet) hqueue hfill hone hadmissible]
    rfl

/-! ### Frame completion -/

/-- The buffers of a source whose FILL buffer `l` is sealed, before the next FILL buffer is chosen (R36). -/
def Buffers.sealed (b : Buffers) (l : Letter) : Buffers := ((b.supersede .sealing).supersede .ready).setRole l .sealing

theorem Buffers.get_sealed_same (b : Buffers) (l : Letter) (h : (b.get l).role = .fill) :
    (b.sealed l).get l = { b.get l with role := .sealing } := by
  simp [Buffers.sealed, Buffers.setRole, Buffers.get_supersede, h]

/-- A FRONT buffer stays, any other becomes SPENT. -/
theorem Buffers.get_sealed_other (b : Buffers) {l m : Letter} (hm : m ≠ l) (hfill : (b.get m).role ≠ .fill) :
    (b.sealed l).get m = if (b.get m).role = .front then b.get m else { b.get m with role := .spent } := by
  rw [Buffers.sealed, Buffers.setRole, Buffers.get_put_other _ _ hm, Buffers.get_supersede, Buffers.get_supersede]
  generalize b.get m = x at hfill ⊢
  obtain ⟨role, poison, readHold, writeHold⟩ := x
  cases role <;> simp_all

/-- The source after the completion, before the next FILL buffer is chosen. -/
def Source.sealFrame (x : Source) (l : Letter) : Source := { x with bufs := x.bufs.sealed l }

theorem Source.completeFrame_eq (x : Source) (l : Letter) : x.completeFrame l = (x.sealFrame l).chooseFill := rfl

section
variable {x : Source} {l : Letter} (hfill : (x.bufs.get l).role = .fill) (hone : x.oneOf .fill)
include hfill hone

theorem Source.sealFrame_get_other {m : Letter} (hm : m ≠ l) :
    (x.sealFrame l).bufs.get m =
      if (x.bufs.get m).role = .front then x.bufs.get m else { x.bufs.get m with role := .spent } :=
  x.bufs.get_sealed_other hm fun h => hm (hone m l h hfill)

/-- The buffers among which the next FILL buffer is chosen (R36). -/
theorem Source.sealFrame_unheldSpent {m : Letter} :
    (x.sealFrame l).unheldSpent m ↔
      m ≠ l ∧ (x.bufs.get m).role ≠ .front ∧ (x.bufs.get m).readHold = 0 ∧ (x.bufs.get m).writeHold = 0 := by
  by_cases hm : m = l
  · subst hm
    simp [Source.unheldSpent, Source.sealFrame, Buffers.get_sealed_same _ _ hfill]
  · rw [Source.unheldSpent, Source.sealFrame_get_other hfill hone hm]
    by_cases hfront : (x.bufs.get m).role = .front
    · simp [hfront]
    · simp [hfront, hm]

end

/-- The choice of the next FILL buffer changes buffers and fill wait alone (R36). -/
theorem Source.chooseFill_rest (x : Source) :
    x.chooseFill = { x with bufs := x.chooseFill.bufs, fillWait := x.chooseFill.fillWait } := by
  unfold Source.chooseFill
  split <;> rfl

theorem Source.chooseFill_of_some {x : Source} {l : Letter} (h : x.bufs.freeSpent = some l) :
    x.chooseFill = { x with bufs := x.bufs.makeFill l } := by
  simp only [Source.chooseFill, h]

theorem Source.chooseFill_of_none {x : Source} (h : x.bufs.freeSpent = none) : x.chooseFill = { x with fillWait := true } := by
  simp only [Source.chooseFill, h]

/-- The chosen buffer becomes the clean FILL buffer (R36). -/
theorem Source.chooseFill_get_chosen {x : Source} {l : Letter} (h : x.bufs.freeSpent = some l) :
    x.chooseFill.bufs.get l = ⟨.fill, false, 0, 0⟩ := by
  rw [Source.chooseFill_of_some h, Buffers.makeFill_of_unheld ((x.freeSpent_iff l).mp h).1, Buffers.get_put_same]

/-- A buffer that is not chosen keeps its record. -/
theorem Source.chooseFill_get_other {x : Source} {m : Letter} (h : x.bufs.freeSpent ≠ some m) :
    x.chooseFill.bufs.get m = x.bufs.get m := by
  cases hfree : x.bufs.freeSpent with
  | none => rw [Source.chooseFill_of_none hfree]
  | some l =>
    have hm : m ≠ l := fun hm => h (hm ▸ hfree)
    rw [Source.chooseFill_of_some hfree, Buffers.makeFill, Buffers.get_put_other _ _ hm]

/-- The source record as an admission leaves it before a frame completion is looked for (R33, R146). -/
def Source.admitted (x : Source) (e : HoldEntry) (rest : List HoldEntry) (l : Letter) : Source :=
  { x with
    holdQueue := rest
    credit := if 0 < x.quotaInEffect then x.credit - e.beats else x.credit
    bufs := x.bufs.put l ((x.bufs.get l).takeWrite e) }

theorem Source.takeWrite_completes {x : Source} {e : HoldEntry} (rest : List HoldEntry) (l : Letter)
    (h : x.cfg.completes e.offset e.beats = true) :
    x.takeWrite e rest l = ((x.admitted e rest l).sealFrame l).chooseFill := if_pos h

/-- An admission into the one FILL buffer leaves the roles. -/
theorem Source.admitted_role (x : Source) (e : HoldEntry) (rest : List HoldEntry) (l m : Letter) :
    ((x.admitted e rest l).bufs.get m).role = (x.bufs.get m).role := by
  by_cases hm : m = l
  · subst hm
    rw [Source.admitted, Buffers.get_put_same]
    rfl
  · rw [Source.admitted, Buffers.get_put_other _ _ hm]

theorem Source.admitted_oneOf {x : Source} {r : Role} (h : x.oneOf r) (e : HoldEntry) (rest : List HoldEntry) (l : Letter) :
    (x.admitted e rest l).oneOf r := by
  intro m n hm hn
  rw [Source.admitted_role] at hm hn
  exact h m n hm hn

/-- Settles O28: the FILL buffer is sealed (`Source.sealFrame`), and the next one is chosen of those that `Source.sealFrame_unheldSpent`
names. -/
theorem completionSealsFrame : Obligations.CompletionSealsFrame := by
  unfold Obligations.CompletionSealsFrame
  rintro s i x e rest l hs rfl hqueue hfill hone hwait hlane hcredit hmin hmax
  have hadmissible := (s.quiet.admissible_iff i e).mpr ⟨hwait, hlane, hcredit⟩
  have hfilled : (((s.sources[i].admitted e rest l).bufs.get l).role) = .fill := (Source.admitted_role _ e rest l l).trans hfill
  have hsingle := Source.admitted_oneOf hone e rest l
  have hother {m : Letter} (hm : m ≠ l) : (s.sources[i].admitted e rest l).bufs.get m = s.sources[i].bufs.get m :=
    Buffers.get_put_other _ _ hm
  obtain ⟨z, hz⟩ : ∃ z, z = (s.sources[i].admitted e rest l).sealFrame l := ⟨_, rfl⟩
  have htaken : s.sources[i].takeWrite e rest l = z.chooseFill :=
    hz ▸ Source.takeWrite_completes rest l ((SourceConfig.completes_iff _ _ _).mpr ⟨hmin, hmax⟩)
  have hsealed : z.bufs.get l = { (s.sources[i].bufs.get l).takeWrite e with role := .sealing } := by
    rw [hz, Source.sealFrame, Buffers.get_sealed_same _ _ hfilled, Source.admitted, Buffers.get_put_same]
  have hrest {m : Letter} (hm : m ≠ l) : z.bufs.get m =
      if (s.sources[i].bufs.get m).role = .front then s.sources[i].bufs.get m
      else { s.sources[i].bufs.get m with role := .spent } := by
    rw [hz, Source.sealFrame_get_other hfilled hsingle hm, hother hm]
  have hunheld {m : Letter} : z.unheldSpent m ↔
      m ≠ l ∧ (s.sources[i].bufs.get m).role ≠ .front ∧ (s.sources[i].bufs.get m).readHold = 0 ∧
        (s.sources[i].bufs.get m).writeHold = 0 := by
    rw [hz, Source.sealFrame_unheldSpent hfilled hsingle]
    exact and_congr_right fun hm => by rw [hother hm]
  have hkept {m : Letter} (h : z.bufs.freeSpent ≠ some m) : z.chooseFill.bufs.get m = z.bufs.get m :=
    Source.chooseFill_get_other h
  have hnotChosen {m : Letter} (h : ¬z.unheldSpent m) : z.bufs.freeSpent ≠ some m := fun hsome => h ((z.freeSpent_iff m).mp hsome).1
  have hexec : exec (.admission i) s =
      .next
        { s with
          sources := putAt s.sources i z.chooseFill
          dport :=
            { s.dport with
              writeLanes := putAt s.dport.writeLanes i (s.dport.writeLanes[i] ++ [s.sources[i].translate i e l]) }
          links := Links.none } := by
    rw [exec_admission_of_none hs, State.admission_admits (s := s.quiet) hqueue hfill hone hadmissible, ← htaken]
    rfl
  refine ⟨_, hexec, ?record, ?sealing, fun m hm hfront => ?front, fun hheld => ?waits, fun m hm hback => ⟨?chosen, ?spent⟩⟩
  all_goals simp only [putAt_same_fin]
  case record =>
    have hrecord : z.chooseFill =
        { s.sources[i].admitted e rest l with bufs := z.chooseFill.bufs, fillWait := z.chooseFill.fillWait } := by
      subst hz
      exact Source.chooseFill_rest _
    conv_lhs => rw [hrecord]
    rfl
  case sealing =>
    rw [hkept (hnotChosen fun h => (hunheld.mp h).1 rfl), hsealed]
    rfl
  case front =>
    rw [hkept (hnotChosen fun h => (hunheld.mp h).2.1 hfront), hrest hm, if_pos hfront]
  case waits =>
    have hnone : z.bufs.freeSpent = none := z.freeSpent_none.mpr fun m hm => by
      obtain ⟨hne, hback, hread, hwrite⟩ := hunheld.mp hm
      exact (hheld m hne hback).elim (fun h => h hread) fun h => h hwrite
    rw [Source.chooseFill_of_none hnone]
  case chosen =>
    rintro ⟨hread, hwrite, hlowest⟩
    have hsome : z.bufs.freeSpent = some m := (z.freeSpent_iff m).mpr ⟨hunheld.mpr ⟨hm, hback, hread, hwrite⟩, fun n hn hfree => by
      obtain ⟨hne, hnback, hnread, hnwrite⟩ := hunheld.mp hfree
      exact absurd hn (Nat.not_lt.mpr (hlowest n hne hnback hnread hnwrite))⟩
    refine ⟨Source.chooseFill_get_chosen hsome, ?_⟩
    rw [Source.chooseFill_of_some hsome, hz]
    exact hwait
  case spent =>
    intro hpassed
    have hnot : z.bufs.freeSpent ≠ some m := by
      intro hsome
      obtain ⟨hfree, hlowest⟩ := (z.freeSpent_iff m).mp hsome
      obtain ⟨-, -, hread, hwrite⟩ := hunheld.mp hfree
      rcases hpassed with h | h | ⟨n, hne, hnback, hnread, hnwrite, hlower⟩
      · exact h hread
      · exact h hwrite
      · exact hlowest n hlower (hunheld.mpr ⟨hne, hnback, hnread, hnwrite⟩)
    rw [hkept hnot, hrest hm, if_neg hback]

/-! ### Slots -/

theorem Source.running_iff (x : Source) : x.running = true ↔ x.state = .await ∨ x.state = .live ∨ x.state = .contained := by
  simp [Source.running, or_assoc]

theorem Source.running_eq_false {x : Source} (h : x.state = .off ∨ x.state = .closing) : x.running = false := by
  rcases h with h | h <;> simp [Source.running, h]

theorem Source.cutAllotment_ungoverned {x : Source} (h : x.quotaInEffect = 0) (k : Nat) : x.cutAllotment k = 0 := by
  simp [Source.cutAllotment, h]

/-- A source that is not running or is due no beat receives none (R137, R138). -/
theorem Source.slot_idle {x : Source} {k : Nat} (h : x.running = false ∨ x.cutAllotment k = 0) : x.slot k = x := by
  unfold Source.slot Source.receive
  rcases h with h | h
  · simp [h]
  · simp [h]

/-- A running source receives its allotment, clipped at its cap (R141). -/
theorem Source.slot_receives {x : Source} {k : Nat} (hrunning : x.running = true) (hpos : 0 < x.cutAllotment k) :
    x.slot k =
      { x with
        frameTotal := x.frameTotal + x.cutAllotment k
        credit := min x.cfg.creditCap (x.credit + x.cutAllotment k)
        capSaturated := x.capSaturated || decide (x.cfg.creditCap < x.credit + x.cutAllotment k) } := by
  have hgoverned : 0 < x.quotaInEffect := by
    by_contra hzero
    rw [Source.cutAllotment_ungoverned (Nat.eq_zero_of_not_pos hzero)] at hpos
    exact absurd hpos (Nat.lt_irrefl 0)
  unfold Source.slot Source.receive
  rw [if_pos (by simp [hrunning, hgoverned]), if_neg (Nat.pos_iff_ne_zero.mp hpos)]

theorem exec_slotTimerExpiry_of_none {s : State} (hs : s.resetting = none) :
    exec .slotTimerExpiry s = .next s.quiet.slotExpires := outsideReset_of_none hs _

/-- Below the last slot the next one begins at every source (R138). -/
theorem State.slotExpires_next {s : State} {n : Nat} (htimer : s.governor.slotTimer = some n) (h : s.governor.slotIndex < 1023) :
    s.slotExpires =
      { s with
        sources := Vector.ofFn fun i => s.sources[i].slot (s.governor.slotIndex + 1)
        governor := { s.governor with slotIndex := s.governor.slotIndex + 1, slotTimer := some s.governor.slotLength } } := by
  have hmap := State.mapSources_eq s fun x => x.slot (s.governor.slotIndex + 1)
  simp only [State.slotExpires, htimer]
  rw [if_pos h, hmap]
  rfl

/-- At the last slot the timer stops (R138). -/
theorem State.slotExpires_last {s : State} {n : Nat} (htimer : s.governor.slotTimer = some n) (h : 1023 ≤ s.governor.slotIndex) :
    s.slotExpires = s.withGovernor { s.governor with slotTimer := none } := by
  simp only [State.slotExpires, htimer]
  exact if_neg (Nat.not_lt.mpr h)

theorem State.slotExpires_stopped {s : State} (htimer : s.governor.slotTimer = none) : s.slotExpires = s := by
  simp only [State.slotExpires, htimer]

/-- Settles O34. -/
theorem slotExpiryGivesAllotments : Obligations.SlotExpiryGivesAllotments := by
  unfold Obligations.SlotExpiryGivesAllotments
  refine fun s hs => ⟨fun n htimer hslot => ?_, fun n htimer hslot => ?_, fun htimer => ?_⟩
  · rw [exec_slotTimerExpiry_of_none hs, State.slotExpires_next (s := s.quiet) htimer hslot]
    refine ⟨_, rfl, rfl, ?_⟩
    rintro i x a rfl ha
    have hcut : s.sources[i].cutAllotment (s.governor.slotIndex + 1) = a := ha.symm
    have hget : (Vector.ofFn fun j : SourceId => s.sources[j].slot (s.governor.slotIndex + 1))[i] =
        s.sources[i].slot (s.governor.slotIndex + 1) := by simp
    simp only [State.quiet_sources, State.quiet_governor, hget]
    rw [← hcut]
    refine ⟨fun hrunning hpos => Source.slot_receives ((Source.running_iff _).mpr hrunning) hpos, fun hidle => ?_⟩
    refine Source.slot_idle ?_
    rcases hidle with h | h | h
    · exact .inl (Source.running_eq_false (.inl h))
    · exact .inl (Source.running_eq_false (.inr h))
    · exact .inr h
  · rw [exec_slotTimerExpiry_of_none hs, State.slotExpires_last (s := s.quiet) htimer hslot]
    rfl
  · rw [exec_slotTimerExpiry_of_none hs, State.slotExpires_stopped (s := s.quiet) htimer]
    rfl

end Sys2Proof.Machine
end

section
/-! PROOFS. The strobe (O30 to O33). Whatever order it is taken in, every source is struck and renewed once, and every group is struck and
evaluated once; no step of it looks at what a later one changes, but for the frame counter and the two places of a group. -/

namespace Sys2Proof.Machine

open Sys2Proof

/-! ### What the strobe does to a source -/

/-- A source as the strobe leaves it: flipped, aged, or as it was (R41, R43, R44). -/
def Source.struck (x : Source) : Source :=
  if x.running then
    match x.flips with
    | some l => x.flip l
    | none => x.age
  else x

/-- The strobe trips the source's stale deadline (R44). -/
def Source.tripsNow (x : Source) : Bool := x.running && x.flips.isNone && x.trips

theorem State.strobeSource_eq (s : State) (i : SourceId) :
    s.strobeSource i =
      if s.sources[i].tripsNow then (s.putSource i s.sources[i].struck).record (staleEvent i)
      else s.putSource i s.sources[i].struck := by
  have hself : s.putSource i s.sources[i] = s := congrArg s.withSources (putAt_self s.sources i)
  have hrunning (h : s.sources[i].running = true) :
      (match s.sources[i].flips with
        | some l => s.putSource i (s.sources[i].flip l)
        | none =>
          if s.sources[i].trips then (s.putSource i s.sources[i].age).record (staleEvent i)
          else s.putSource i s.sources[i].age) =
      if s.sources[i].tripsNow then (s.putSource i s.sources[i].struck).record (staleEvent i)
      else s.putSource i s.sources[i].struck := by
    rw [Source.tripsNow, Source.struck, if_pos h, h]
    cases s.sources[i].flips <;> simp
  have hidle (h : s.sources[i].running = false) :
      s =
      if s.sources[i].tripsNow then (s.putSource i s.sources[i].struck).record (staleEvent i)
      else s.putSource i s.sources[i].struck := by
    rw [Source.tripsNow, Source.struck, h]
    exact hself.symm
  unfold State.strobeSource
  cases hstate : s.sources[i].state with
  | off => exact hidle (Source.running_eq_false (.inl hstate))
  | closing => exact hidle (Source.running_eq_false (.inr hstate))
  | await => exact hrunning ((Source.running_iff _).mpr (.inl hstate))
  | live => exact hrunning ((Source.running_iff _).mpr (.inr (.inl hstate)))
  | contained => exact hrunning ((Source.running_iff _).mpr (.inr (.inr hstate)))

/-! ### Error capture through the strobe -/

/-- Error capture `d` is `c` after events have been recorded and flags set: nothing is cleared. -/
structure Capture.Grows (c d : Capture) : Prop where
  detect : d.detect = c.detect
  status : ∀ n, c.status.getLsbD n = true → d.status.getLsbD n = true
  overrideChange : c.overrideChange = true → d.overrideChange = true

theorem Capture.Grows.refl (c : Capture) : c.Grows c := ⟨rfl, fun _ h => h, fun h => h⟩

theorem Capture.Grows.trans {c d e : Capture} (hcd : c.Grows d) (hde : d.Grows e) : c.Grows e :=
  ⟨hde.detect.trans hcd.detect, fun n h => hde.status n (hcd.status n h), fun h => hde.overrideChange (hcd.overrideChange h)⟩

theorem Capture.grows_record (c : Capture) (frame : BitVec 16) (e : ErrEvent) : c.Grows (c.record frame e) := by
  refine ⟨?_, fun n h => ?_, fun h => (c.record_overrideChange frame e).trans h⟩
  all_goals
    unfold Capture.record
    repeat' split
  all_goals first | rfl | simp_all

/-! ### The strobe at the sources -/

theorem State.strobeSource_spec (s : State) (i : SourceId) :
    ∃ c, s.strobeSource i = { s with sources := putAt s.sources i s.sources[i].struck, capture := c } ∧ s.capture.Grows c ∧
      (s.sources[i].tripsNow = true → s.capture.detect.getLsbD 8 = true → c.status.getLsbD 8 = true) := by
  rw [State.strobeSource_eq]
  cases htrip : s.sources[i].tripsNow with
  | false => exact ⟨s.capture, rfl, .refl _, fun h => absurd h Bool.false_ne_true⟩
  | true =>
    exact ⟨_, rfl, s.capture.grows_record _ _, fun _ hdetect => Capture.record_sets_own_status (e := staleEvent i) hdetect _⟩

/-- Sources struck one after another: each by itself, and a trip of a detected class leaves its status set. -/
theorem State.foldl_strobeSource (l : List SourceId) (hl : l.Nodup) (s : State) :
    ∃ c, l.foldl State.strobeSource s =
        { s with
          sources := Vector.ofFn fun j => if j ∈ l then s.sources[j].struck else s.sources[j]
          capture := c } ∧
      s.capture.Grows c ∧
        ∀ i ∈ l, s.sources[i].tripsNow = true → s.capture.detect.getLsbD 8 = true → c.status.getLsbD 8 = true := by
  induction l generalizing s with
  | nil => exact ⟨s.capture, by simp, .refl _, by simp⟩
  | cons i is ih =>
    obtain ⟨hi, his⟩ := List.nodup_cons.mp hl
    obtain ⟨c₁, hstep, hgrows₁, htrip₁⟩ := s.strobeSource_spec i
    obtain ⟨c, hfold, hgrows, htrips⟩ := ih his (s.strobeSource i)
    have hput (j : SourceId) : (s.strobeSource i).sources[j] = if j = i then s.sources[i].struck else s.sources[j] := by
      rw [hstep]
      exact putAt_get s.sources i j _
    have hcapture : (s.strobeSource i).capture = c₁ := by rw [hstep]
    rw [hcapture] at hgrows htrips
    refine ⟨c, ?_, hgrows₁.trans hgrows, fun j hj htrip hdetect => ?_⟩
    · have hsources : (Vector.ofFn fun j => if j ∈ is then (s.strobeSource i).sources[j].struck else (s.strobeSource i).sources[j]) =
          Vector.ofFn fun j => if j ∈ i :: is then s.sources[j].struck else s.sources[j] := by
        refine congrArg Vector.ofFn (funext fun j => ?_)
        rw [hput]
        by_cases hj : j = i
        · subst hj
          simp only [if_neg hi, List.mem_cons_self, if_true]
        · simp only [hj, List.mem_cons, false_or, if_false]
      rw [List.foldl_cons, hfold, hsources, hstep]
    · rcases List.mem_cons.mp hj with rfl | hmem
      · exact hgrows.status 8 (htrip₁ htrip hdetect)
      · refine htrips j hmem ?_ (hgrows₁.detect ▸ hdetect)
        rwa [hput, if_neg fun h : j = i => hi (h ▸ hmem)]

/-- The strobe reaches every source once, whichever it begins with (log 6). -/
theorem strobeOrder_complete : ∀ first : SourceId,
    (first :: (after first).dropLast).Nodup ∧ ∀ i : SourceId, i ∈ first :: (after first).dropLast := by
  decide

theorem State.strobeSources_spec (s : State) (first : SourceId) :
    ∃ c, s.strobeSources first = { s with sources := Vector.ofFn fun j => s.sources[j].struck, capture := c } ∧
      s.capture.Grows c ∧
        ∀ i : SourceId, s.sources[i].tripsNow = true → s.capture.detect.getLsbD 8 = true → c.status.getLsbD 8 = true := by
  obtain ⟨hnodup, hmem⟩ := strobeOrder_complete first
  obtain ⟨c, hfold, hgrows, htrips⟩ := s.foldl_strobeSource _ hnodup
  simp only [hmem, if_true] at hfold
  exact ⟨c, hfold, hgrows, fun i => htrips i (hmem i)⟩

/-! ### The strobe at the groups -/

/-- The group's hold-off ends at this strobe (R156). -/
def Group.holdOffEnds (x : Group) : Bool := x.state == .holding && decide (x.cfg.holdOff ≤ x.holdCount + 1)

/-- A group as the strobe's hold-off count leaves it (R156). -/
def Group.struck (x : Group) : Group :=
  if x.state = .holding then
    if x.cfg.holdOff ≤ x.holdCount + 1 then { x with state := .idle, holdCount := 0 }
    else { x with holdCount := x.holdCount + 1 }
  else x

theorem Group.struck_of_not_holding {x : Group} (h : x.state ≠ .holding) : x.struck = x := if_neg h

theorem Group.struck_counts {x : Group} (hstate : x.state = .holding) (hcount : x.holdCount + 1 < x.cfg.holdOff) :
    x.struck = { x with holdCount := x.holdCount + 1 } := by
  rw [Group.struck, if_pos hstate, if_neg (Nat.not_le.mpr hcount)]

theorem Group.struck_ends {x : Group} (hstate : x.state = .holding) (hcount : x.cfg.holdOff ≤ x.holdCount + 1) :
    x.struck = { x with state := .idle, holdCount := 0 } := by
  rw [Group.struck, if_pos hstate, if_pos hcount]

theorem Group.holdOffEnds_iff (x : Group) : x.holdOffEnds = true ↔ x.state = .holding ∧ x.cfg.holdOff ≤ x.holdCount + 1 := by
  simp [Group.holdOffEnds]

@[simp] theorem Group.struck_cfg (x : Group) : x.struck.cfg = x.cfg := by
  unfold Group.struck
  repeat' split
  all_goals rfl

@[simp] theorem Group.struck_raw (x : Group) : x.struck.raw = x.raw := by
  unfold Group.struck
  repeat' split
  all_goals rfl

theorem State.strobeGroup_eq (s : State) (g : GroupId) :
    s.strobeGroup g = s.groupTo g s.override.groups[g].struck s.override.groups[g].holdOffEnds := by
  unfold State.strobeGroup
  by_cases hstate : s.override.groups[g].state = .holding
  · by_cases hcount : s.override.groups[g].cfg.holdOff ≤ s.override.groups[g].holdCount + 1
    · rw [if_pos hstate, if_pos hcount, Group.struck_ends hstate hcount, (Group.holdOffEnds_iff _).mpr ⟨hstate, hcount⟩]
      simp [State.groupTo, State.setOverrideChange]
    · have hkeep : s.override.groups[g].holdOffEnds = false := by
        rw [← Bool.not_eq_true, Group.holdOffEnds_iff]
        exact fun h => hcount h.2
      rw [if_pos hstate, if_neg hcount, Group.struck_counts hstate (Nat.not_le.mp hcount), hkeep]
      simp only [State.groupTo, Bool.or_false]
      rfl
  · have hkeep : s.override.groups[g].holdOffEnds = false := by
      rw [← Bool.not_eq_true, Group.holdOffEnds_iff]
      exact fun h => hstate h.1
    rw [if_neg hstate, Group.struck_of_not_holding hstate, hkeep, State.groupTo_self]

/-- Groups struck one after another: each by itself, OVERRIDE_CHANGE set if a hold-off ends. -/
theorem State.foldl_strobeGroup (l : List GroupId) (hl : l.Nodup) (s : State) (g : GroupId) :
    (l.foldl State.strobeGroup s).override.groups[g] =
        (if g ∈ l then s.override.groups[g].struck else s.override.groups[g]) ∧
      ((s.capture.overrideChange = true ∨ g ∈ l ∧ s.override.groups[g].holdOffEnds = true) →
        (l.foldl State.strobeGroup s).capture.overrideChange = true) := by
  induction l generalizing s with
  | nil => simp
  | cons h hs ih =>
    obtain ⟨hh, hhs⟩ := List.nodup_cons.mp hl
    obtain ⟨hgroup, hchange⟩ := ih hhs (s.strobeGroup h)
    have hput : (s.strobeGroup h).override.groups[g] = if g = h then s.override.groups[h].struck else s.override.groups[g] := by
      rw [State.strobeGroup_eq, State.groupTo_groups]
    have hflag : (s.strobeGroup h).capture.overrideChange = (s.capture.overrideChange || s.override.groups[h].holdOffEnds) := by
      rw [State.strobeGroup_eq]
      rfl
    rw [hput] at hgroup hchange
    rw [hflag, Bool.or_eq_true] at hchange
    rw [List.foldl_cons]
    by_cases hg : g = h
    · subst hg
      rw [if_neg hh, if_pos rfl] at hgroup
      exact ⟨by rw [hgroup, if_pos List.mem_cons_self], fun h => hchange (.inl (h.imp id And.right))⟩
    · rw [if_neg hg] at hgroup hchange
      simp only [List.mem_cons, hg, false_or]
      exact ⟨hgroup, fun h => hchange (h.imp .inl id)⟩

/-! ### The strobe at the governor -/

/-- The governor as the strobe leaves it (R137). -/
def Governor.struck (g : Governor) : Governor :=
  { g with frameCount := g.frameCount + 1, slotIndex := 0, slotTimer := some g.slotLength }

theorem State.strobeGovernor_eq (s : State) :
    s.strobeGovernor =
      { s with sources := Vector.ofFn fun i => s.sources[i].renew, governor := s.governor.struck } := by
  rw [State.strobeGovernor, State.mapSources_eq]
  rfl

/-! ### One part of the strobe after another -/

/-- From `s` to `t` a part of the strobe changes every source by `f` and the governor by `h`, and otherwise groups and error capture
alone, where it clears nothing. -/
structure StrobePart (f : Source → Source) (h : Governor → Governor) (s t : State) : Prop where
  rest : t =
    { s with
      sources := Vector.ofFn fun i => f s.sources[i]
      governor := h s.governor
      override := { s.override with groups := t.override.groups }
      capture := t.capture }
  cfg : ∀ g : GroupId, t.override.groups[g].cfg = s.override.groups[g].cfg
  grows : s.capture.Grows t.capture

namespace StrobePart

variable {f k : Source → Source} {h j : Governor → Governor} {s t u : State}

theorem source (p : StrobePart f h s t) (i : SourceId) : t.sources[i] = f s.sources[i] := by
  rw [p.rest]
  simp

theorem governor (p : StrobePart f h s t) : t.governor = h s.governor := by rw [p.rest]

theorem trans (p : StrobePart f h s t) (q : StrobePart k j t u) : StrobePart (k ∘ f) (j ∘ h) s u := by
  refine ⟨?_, fun g => (q.cfg g).trans (p.cfg g), p.grows.trans q.grows⟩
  have hsources : (Vector.ofFn fun i => k t.sources[i]) = Vector.ofFn fun i => (k ∘ f) s.sources[i] :=
    congrArg Vector.ofFn (funext fun i => congrArg k (p.source i))
  have hrest := q.rest
  rw [hsources, p.rest] at hrest
  exact hrest

end StrobePart

theorem ofFn_get (v : Vector Source 16) : (Vector.ofFn fun i => id v[i]) = v := by simp

/-- A part that changes groups and OVERRIDE_CHANGE alone leaves the sources. -/
theorem StrobePart.rest_of_groups {s t : State}
    (h : t =
      { s with
        override := { s.override with groups := t.override.groups }
        capture := { s.capture with overrideChange := t.capture.overrideChange } }) :
    t =
      { s with
        sources := Vector.ofFn fun i => id s.sources[i]
        governor := id s.governor
        override := { s.override with groups := t.override.groups }
        capture := t.capture } := by
  have hcapture : t.capture = { s.capture with overrideChange := t.capture.overrideChange } := congrArg State.capture h
  rw [ofFn_get, hcapture]
  exact h

theorem State.strobeThose_part (s : State) (m : BitVec 4) : StrobePart id id s (s.strobeThose (groupsIn m)) where
  rest := StrobePart.rest_of_groups (s.strobeThose_rest _)
  cfg g := by
    rw [State.strobeThose, (State.foldl_strobeGroup _ (groupsIn_nodup m) s g).1]
    split
    · exact Group.struck_cfg _
    · rfl
  grows := by
    rw [s.strobeThose_rest]
    exact ⟨rfl, fun _ h => h, fun h => ((State.foldl_strobeGroup _ (groupsIn_nodup m) s 0).2 (.inl h))⟩

theorem State.evaluateIn_part (s : State) (m : BitVec 4) : StrobePart id id s (s.evaluateThose (groupsIn m)) where
  rest := StrobePart.rest_of_groups (s.evaluateIn_spec m).rest
  cfg g := ((s.evaluateIn_spec m).sameInputs g).cfg
  grows := by
    refine ⟨?_, ?_, fun h => (s.evaluateIn_spec m).changed.mpr (.inl h)⟩
    · rw [(s.evaluateIn_spec m).rest]
    · rw [(s.evaluateIn_spec m).rest]
      exact fun _ h => h

theorem State.strobeGovernor_part (s : State) : StrobePart Source.renew Governor.struck s s.strobeGovernor := by
  rw [State.strobeGovernor_eq]
  exact ⟨rfl, fun _ => rfl, .refl _⟩

theorem State.strobeSources_part (s : State) (first : SourceId) : StrobePart Source.struck id s (s.strobeSources first) := by
  obtain ⟨c, hstep, hgrows, -⟩ := s.strobeSources_spec first
  rw [hstep]
  exact ⟨rfl, fun _ => rfl, hgrows⟩

/-- The governor's part of the strobe, where it is taken. -/
def State.governorIf (s : State) (b : Bool) : State := if b then s.strobeGovernor else s

/-- The source as the governor's part leaves it, where it is taken. -/
def Source.renewIf (b : Bool) (x : Source) : Source := if b then x.renew else x

/-- The governor as its part leaves it, where it is taken. -/
def Governor.struckIf (b : Bool) (g : Governor) : Governor := if b then g.struck else g

theorem State.governorIf_part (s : State) (b : Bool) : StrobePart (Source.renewIf b) (Governor.struckIf b) s (s.governorIf b) := by
  cases b with
  | true => exact s.strobeGovernor_part
  | false => exact ⟨StrobePart.rest_of_groups rfl, fun _ => rfl, .refl _⟩

/-- The strobe before it reaches the sources. -/
def State.strobeBegun (s : State) (o : StrobeOrder) : State := (s.governorIf o.countFirst).strobeThose (groupsIn o.groupsFirst)

/-- The strobe up to the sources, before any group acts on their trips. -/
def State.strobeHeard (s : State) (o : StrobeOrder) : State := (s.strobeBegun o).strobeSources o.firstSource

/-- The strobe after the governor and the groups that act on the trips early. -/
def State.strobeTimed (s : State) (o : StrobeOrder) : State :=
  ((s.strobeHeard o).evaluateThose (groupsIn (~~~o.groupsLate))).governorIf (!o.countFirst)

/-- The strobe but for the layout controller's part. -/
def State.strobeGroups (s : State) (o : StrobeOrder) : State :=
  ((s.strobeTimed o).evaluateThose (groupsIn o.groupsLate)).strobeThose (groupsIn (~~~o.groupsFirst))

theorem State.strobe_eq (s : State) (o : StrobeOrder) : s.strobe o = (s.strobeGroups o).strobeLayout := by
  unfold State.strobe State.strobeGroups State.strobeTimed State.strobeHeard State.strobeBegun State.governorIf
  cases o.countFirst <;> rfl

theorem State.strobeBegun_part (s : State) (o : StrobeOrder) :
    StrobePart (Source.renewIf o.countFirst) (Governor.struckIf o.countFirst) s (s.strobeBegun o) :=
  (s.governorIf_part _).trans (State.strobeThose_part _ _)

theorem State.strobeTimed_part (s : State) (o : StrobeOrder) :
    StrobePart (Source.renewIf !o.countFirst) (Governor.struckIf !o.countFirst) (s.strobeHeard o) (s.strobeTimed o) :=
  (State.evaluateIn_part _ _).trans (State.governorIf_part _ _)

/-- What follows the source table, from the groups that act late on. -/
theorem State.strobeEnd_part (s : State) (o : StrobeOrder) : StrobePart id id (s.strobeTimed o) (s.strobeGroups o) :=
  (State.evaluateIn_part _ _).trans (State.strobeThose_part _ _)

theorem State.strobeAfter_part (s : State) (o : StrobeOrder) :
    StrobePart (Source.renewIf !o.countFirst) (Governor.struckIf !o.countFirst) (s.strobeHeard o) (s.strobeGroups o) :=
  (s.strobeTimed_part o).trans (s.strobeEnd_part o)

/-- What the whole strobe makes of a source. -/
def Source.strobed (o : StrobeOrder) (x : Source) : Source := Source.renewIf (!o.countFirst) (x.renewIf o.countFirst).struck

theorem Governor.struck_once (b : Bool) : Governor.struckIf (!b) ∘ Governor.struckIf b = Governor.struck := by
  cases b <;> rfl

theorem State.strobeGroups_part (s : State) (o : StrobeOrder) : StrobePart (Source.strobed o) Governor.struck s (s.strobeGroups o) :=
  Governor.struck_once o.countFirst ▸
    ((s.strobeBegun_part o).trans (State.strobeSources_part _ _)).trans (s.strobeAfter_part o)

/-! ### The strobe at the layout controller -/

theorem State.strobeLayout_of_armed {s : State} (h : s.layout.ctl = .armed) :
    s.strobeLayout =
      { s with
        layout :=
          { s.layout with
            active := (match s.layout.active with | .a => .b | .b => .a)
            ctl := .idle
            result :=
              ⟨.done, none, none,
                some (match s.layout.active with | .a => s.layout.bankB | .b => s.layout.bankA).segments.length⟩ }
        capture := { s.capture with commitEnd := true } } := by
  rw [State.strobeLayout, if_pos h]
  cases hactive : s.layout.active <;> simp [LayoutCtl.inactive, LayoutCtl.bank, hactive, State.withLayout, State.setCommitEnd,
    State.withCapture, BankLetter.other]

theorem State.strobeLayout_of_not_armed {s : State} (h : s.layout.ctl ≠ .armed) : s.strobeLayout = s := if_neg h

/-- The layout controller's part leaves every block but layout and error capture, where it clears nothing. -/
theorem State.strobeLayout_rest (s : State) :
    s.strobeLayout = { s with layout := s.strobeLayout.layout, capture := s.strobeLayout.capture } := by
  unfold State.strobeLayout
  split <;> rfl

theorem State.strobeLayout_grows (s : State) : s.capture.Grows s.strobeLayout.capture := by
  unfold State.strobeLayout
  split
  · exact ⟨rfl, fun _ h => h, fun h => h⟩
  · exact .refl _

@[simp] theorem State.strobeLayout_sources (s : State) : s.strobeLayout.sources = s.sources := by rw [s.strobeLayout_rest]

@[simp] theorem State.strobeLayout_override (s : State) : s.strobeLayout.override = s.override := by rw [s.strobeLayout_rest]

theorem State.strobe_source (s : State) (o : StrobeOrder) (i : SourceId) : (s.strobe o).sources[i] = s.sources[i].strobed o := by
  rw [State.strobe_eq, State.strobeLayout_sources]
  exact (s.strobeGroups_part o).source i

theorem exec_wfs {s : State} (hs : s.resetting = none) (o : StrobeOrder) : exec (.wfs o) s = .next (s.quiet.strobe o) :=
  outsideReset_of_none hs fun t => t.strobe o

/-- Settles O30. -/
theorem strobeTimesAndActivates : Obligations.StrobeTimesAndActivates := by
  unfold Obligations.StrobeTimesAndActivates
  intro s o hs
  obtain ⟨b, hb⟩ : ∃ b, b = s.quiet.strobeGroups o := ⟨_, rfl⟩
  have hpart : StrobePart (Source.strobed o) Governor.struck s.quiet b := hb ▸ s.quiet.strobeGroups_part o
  have hlayout : b.layout = s.layout := by rw [hpart.rest]; rfl
  obtain ⟨t, ht⟩ : ∃ t, t = b.strobeLayout := ⟨_, rfl⟩
  refine ⟨t, by rw [exec_wfs hs, State.strobe_eq, ht, hb], ?_, fun hctl => ?_, fun hctl => ?_⟩
  · have hsources : t.sources = b.sources := ht ▸ b.strobeLayout_sources
    have hgroups : t.override.groups = b.override.groups := congrArg Override.groups (ht ▸ b.strobeLayout_override)
    have hrest : t = { b with layout := t.layout, capture := t.capture } := ht ▸ b.strobeLayout_rest
    rw [hpart.rest] at hrest
    rw [hsources, hgroups, (congrArg State.sources hpart.rest :)]
    exact hrest
  · rw [ht, State.strobeLayout_of_not_armed (hlayout ▸ hctl), hlayout]
  · rw [ht, State.strobeLayout_of_armed (hlayout ▸ hctl), hlayout]
    exact ⟨rfl, rfl⟩

end Sys2Proof.Machine
end

section
/-! PROOFS. What a source is after the strobe (O31, O32). Its two parts, `Source.struck` and `Source.renew`, change different fields
and commute, so the order of the operand does not matter. -/

namespace Sys2Proof.Machine

open Sys2Proof

/-! ### The governor's part -/

/-- The credit of a running source after the strobe (R137, R141). -/
def Source.renewedCredit (x : Source) : Nat :=
  if x.cfg.quota = 0 then 0
  else if x.cfg.quota / 1024 = 0 then x.credit
  else min x.cfg.creditCap (x.credit + x.cfg.quota / 1024)

/-- The cap saturation flag of a running source after the strobe (R141). -/
def Source.renewedSaturation (x : Source) : Bool :=
  x.capSaturated || (decide (0 < x.cfg.quota / 1024) && decide (x.cfg.creditCap < x.credit + x.cfg.quota / 1024))

theorem allotment_zero (q : Nat) : allotment q 0 = q / 1024 := by
  have h : q % 1024 / 1024 = 0 := Nat.div_eq_of_lt (Nat.mod_lt q (by decide))
  simp [allotment, Config.slots, h]

theorem Source.renewedCredit_ungoverned {x : Source} (h : x.cfg.quota = 0) : x.renewedCredit = 0 := if_pos h

theorem Source.renewedSaturation_ungoverned {x : Source} (h : x.cfg.quota = 0) : x.renewedSaturation = x.capSaturated := by
  simp [Source.renewedSaturation, h]

theorem Source.renewedCredit_governed {x : Source} (hquota : 0 < x.cfg.quota) (hcap : x.credit ≤ x.cfg.creditCap) :
    x.renewedCredit = min x.cfg.creditCap (x.credit + x.cfg.quota / 1024) := by
  rw [Source.renewedCredit, if_neg (Nat.ne_of_gt hquota)]
  split
  · next hzero => rw [hzero, Nat.add_zero, Nat.min_eq_right hcap]
  · rfl

theorem Source.renewedSaturation_governed {x : Source} (hcap : x.credit ≤ x.cfg.creditCap) :
    x.renewedSaturation = (x.capSaturated || decide (x.cfg.creditCap < x.credit + x.cfg.quota / 1024)) := by
  have hreceived : (0 < x.cfg.quota / 1024 ∧ x.cfg.creditCap < x.credit + x.cfg.quota / 1024) ↔
      x.cfg.creditCap < x.credit + x.cfg.quota / 1024 := by omega
  rw [Source.renewedSaturation, ← Bool.decide_and, decide_eq_decide.mpr hreceived]

theorem Source.renew_idle {x : Source} (h : x.running = false) : x.renew = { x with frameTotal := 0 } := by
  rw [Source.renew, h]
  rfl

theorem Source.renew_running {x : Source} (h : x.running = true) :
    x.renew =
      { x with
        frameTotal := x.cfg.quota / 1024
        quotaInEffect := x.cfg.quota
        credit := x.renewedCredit
        capSaturated := x.renewedSaturation } := by
  obtain ⟨y, hy⟩ : ∃ y : Source, y =
      { x with frameTotal := 0, quotaInEffect := x.cfg.quota, credit := if x.cfg.quota = 0 then 0 else x.credit } := ⟨_, rfl⟩
  have hrunning : y.running = true := hy ▸ h
  have hcut : y.cutAllotment 0 = x.cfg.quota / 1024 := by
    rw [Source.cutAllotment, hy, allotment_zero]
    exact Nat.min_eq_left (Nat.div_le_self _ _)
  have hslot : x.renew = y.slot 0 := by
    rw [Source.renew, if_pos h, hy]
  by_cases hzero : x.cfg.quota / 1024 = 0
  · rw [hslot, Source.slot_idle (.inr (hcut.trans hzero)), hy, Source.renewedSaturation, Source.renewedCredit, hzero]
    simp
  · have hquota : x.cfg.quota ≠ 0 := fun h0 => hzero (by rw [h0])
    rw [hslot, Source.slot_receives hrunning (hcut ▸ Nat.pos_of_ne_zero hzero), hcut, hy, Source.renewedSaturation,
      Source.renewedCredit]
    simp only [hquota, hzero, if_false, Nat.zero_add, Nat.pos_of_ne_zero hzero, decide_true, Bool.true_and]

/-- The governor's part changes the governor's fields of a source alone (R137). -/
theorem Source.renew_rest (x : Source) :
    x.renew =
      { x with
        quotaInEffect := x.renew.quotaInEffect
        credit := x.renew.credit
        frameTotal := x.renew.frameTotal
        capSaturated := x.renew.capSaturated } := by
  cases hrunning : x.running with
  | false => rw [Source.renew_idle hrunning]
  | true => rw [Source.renew_running hrunning]

/-! ### The source table's part -/

theorem Source.struck_of_flips {x : Source} {l : Letter} (hrunning : x.running = true) (h : x.flips = some l) :
    x.struck = x.flip l := by
  rw [Source.struck, if_pos hrunning, h]

theorem Source.struck_of_not_flips {x : Source} (hrunning : x.running = true) (h : x.flips = none) : x.struck = x.age := by
  rw [Source.struck, if_pos hrunning, h]

theorem Source.struck_of_idle {x : Source} (h : x.running = false) : x.struck = x := by
  rw [Source.struck, h]
  rfl

/-- The test of fill wait changes buffers and fill wait alone (R38). -/
theorem Source.endFillWait_rest (x : Source) :
    x.endFillWait = { x with bufs := x.endFillWait.bufs, fillWait := x.endFillWait.fillWait } := by
  unfold Source.endFillWait
  repeat' split
  all_goals rfl

/-- What the test of fill wait gives is decided by buffers and fill wait (R38). -/
theorem Source.endFillWait_congr {x y : Source} (hbufs : x.bufs = y.bufs) (hwait : x.fillWait = y.fillWait) :
    x.endFillWait.bufs = y.endFillWait.bufs ∧ x.endFillWait.fillWait = y.endFillWait.fillWait := by
  unfold Source.endFillWait
  rw [hbufs, hwait]
  repeat' split
  all_goals simp only [hbufs, hwait, and_self]

/-- A buffer that is not SPENT does not become FILL when fill wait ends (R38). -/
theorem Source.endFillWait_get {x : Source} {l : Letter} (h : (x.bufs.get l).role ≠ .spent) :
    x.endFillWait.bufs.get l = x.bufs.get l := by
  unfold Source.endFillWait
  split
  · cases hfree : x.bufs.freeSpent with
    | none => rfl
    | some m =>
      have hm : l ≠ m := fun hm => h (hm ▸ ((x.freeSpent_iff m).mp hfree).1.1)
      exact Buffers.get_put_other _ _ hm
  · rfl

theorem Source.endFillWait_of_not_waiting {x : Source} (h : x.fillWait = false) : x.endFillWait = x := by
  rw [Source.endFillWait, h]
  rfl

/-- The source table's part does not look at the governor's fields. -/
theorem Source.struck_governed (x : Source) (quota credit total : Nat) (saturated : Bool) :
    Source.struck { x with quotaInEffect := quota, credit := credit, frameTotal := total, capSaturated := saturated } =
      { x.struck with quotaInEffect := quota, credit := credit, frameTotal := total, capSaturated := saturated } := by
  obtain ⟨y, hy⟩ : ∃ y : Source, y =
      { x with quotaInEffect := quota, credit := credit, frameTotal := total, capSaturated := saturated } := ⟨_, rfl⟩
  have hrun : y.running = x.running := hy ▸ rfl
  have hflip : y.flips = x.flips := hy ▸ rfl
  rw [← hy]
  cases hrunning : x.running with
  | false => rw [Source.struck_of_idle hrunning, Source.struck_of_idle (hrun.trans hrunning), hy]
  | true =>
    cases hflips : x.flips with
    | none =>
      rw [Source.struck_of_not_flips hrunning hflips, Source.struck_of_not_flips (hrun.trans hrunning) (hflip.trans hflips), hy]
      rfl
    | some l =>
      rw [Source.struck_of_flips hrunning hflips, Source.struck_of_flips (hrun.trans hrunning) (hflip.trans hflips), hy]
      unfold Source.flip Source.endFillWait
      simp only
      repeat' split
      all_goals rfl

/-- The source table's part leaves the governor's fields, the configuration and the hold queue. -/
theorem Source.struck_rest (x : Source) :
    x.struck =
      { x with
        state := x.struck.state
        bufs := x.struck.bufs
        fillWait := x.struck.fillWait
        framesSinceFlip := x.struck.framesSinceFlip
        stale := x.struck.stale
        trip := x.struck.trip
        presented := x.struck.presented } := by
  unfold Source.struck
  split
  · split
    · unfold Source.flip
      rw [Source.endFillWait_rest]
    · rfl
  · rfl

theorem Source.struck_running (x : Source) : x.struck.running = x.running := by
  cases hrunning : x.running with
  | false => rw [Source.struck_of_idle hrunning, hrunning]
  | true =>
    cases hflips : x.flips with
    | none => rw [Source.struck_of_not_flips hrunning hflips]; exact hrunning
    | some l =>
      rw [Source.struck_of_flips hrunning hflips, Source.running_iff, Source.flip, Source.endFillWait_rest]
      exact .inr (.inl rfl)

/-! ### Both parts -/

/-- The order of governor and source table does not matter to a source. -/
theorem Source.strobed_eq (x : Source) (o : StrobeOrder) : x.strobed o = x.struck.renew := by
  have hcommute : x.renew.struck = x.struck.renew := by
    rw [Source.renew_rest x, Source.struck_governed]
    have hrun := x.struck_running
    cases hrunning : x.running with
    | false => rw [Source.renew_idle hrunning, Source.renew_idle (hrun.trans hrunning), Source.struck_of_idle hrunning]
    | true =>
      rw [Source.renew_running hrunning, Source.renew_running (hrun.trans hrunning), Source.struck_rest]
      rfl
  cases hfirst : o.countFirst with
  | true =>
    rw [Source.strobed, hfirst]
    exact hcommute
  | false =>
    rw [Source.strobed, hfirst]
    rfl

theorem State.strobe_get (s : State) (o : StrobeOrder) (i : SourceId) : (s.strobe o).sources[i] = s.sources[i].struck.renew :=
  (s.strobe_source o i).trans (Source.strobed_eq _ o)

/-- Settles O32. -/
theorem strobeRenewsQuota : Obligations.StrobeRenewsQuota := by
  unfold Obligations.StrobeRenewsQuota
  rintro s o i x a hs hx hstate rfl
  refine ⟨_, exec_wfs hs o, ?_⟩
  have hrunning : x.struck.running = true := by
    rw [Source.struck_running, Source.running_iff]
    exact hstate
  have hsource : (s.quiet.strobe o).sources[i] = x.struck.renew := hx ▸ s.quiet.strobe_get o i
  rw [hsource, Source.renew_running hrunning, Source.struck_rest]
  refine ⟨rfl, rfl, rfl, fun hquota => ⟨?_, ?_, ?_⟩, fun hquota hcap => ⟨?_, rfl, ?_⟩⟩
  · exact Source.renewedCredit_ungoverned hquota
  · exact (congrArg (· / 1024) hquota)
  · exact Source.renewedSaturation_ungoverned hquota
  · exact Source.renewedCredit_governed hquota hcap
  · exact Source.renewedSaturation_governed hcap

/-! ### Flips and ages -/

/-- A source as a flip leaves it before fill wait is tested (R41). -/
def Source.flipped (x : Source) (l : Letter) : Source :=
  { x with
    bufs := (x.bufs.supersede .front).setRole l .front
    framesSinceFlip := 0
    stale := false
    presented := x.presented + 1
    state := .live }

theorem Source.flip_eq (x : Source) (l : Letter) : x.flip l = (x.flipped l).endFillWait := rfl

theorem Source.flipped_get {x : Source} {l : Letter} (h : (x.bufs.get l).role = .ready) (m : Letter) :
    (x.flipped l).bufs.get m =
      if m = l then { x.bufs.get m with role := .front }
      else if (x.bufs.get m).role = .front then { x.bufs.get m with role := .spent } else x.bufs.get m := by
  rw [Source.flipped, Buffers.setRole, Buffers.get_put, Buffers.get_supersede, Buffers.get_supersede]
  split
  · next hm => simp [hm, h]
  · rfl

theorem Buffers.eq_of_get {a b : Buffers} (h : ∀ m, a.get m = b.get m) : a = b := by
  obtain ⟨a₁, a₂, a₃⟩ := a
  obtain ⟨b₁, b₂, b₃⟩ := b
  exact congrArg₂ (fun f z => f z) (congrArg₂ Buffers.mk (h .a) (h .b)) (h .c)

theorem Source.flips_of_ready {x : Source} {l : Letter} (hstate : x.state = .await ∨ x.state = .live) (hone : x.oneOf .ready)
    (h : (x.bufs.get l).role = .ready) : x.flips = some l := by
  unfold Source.flips
  rcases hstate with hstate | hstate
  all_goals
    rw [hstate]
    exact Buffers.withRole_eq_some h hone

theorem Source.flips_eq_none {x : Source}
    (h : x.state = .contained ∨ (x.state = .await ∨ x.state = .live) ∧ ¬x.hasRole .ready) : x.flips = none := by
  have hnone (hrole : ¬x.hasRole .ready) : x.bufs.withRole .ready = none := by
    rw [← Option.not_isSome_iff_eq_none, ← Source.hasRole_iff_withRole]
    exact hrole
  unfold Source.flips
  rcases h with hstate | ⟨hstate | hstate, hrole⟩
  · rw [hstate]
  · rw [hstate]
    exact hnone hrole
  · rw [hstate]
    exact hnone hrole

theorem Source.trips_iff (x : Source) :
    x.trips = true ↔ x.framesSinceFlip < 255 ∧ x.cfg.staleDeadline ≠ 0 ∧ x.framesSinceFlip + 1 = x.cfg.staleDeadline := by
  simp [Source.trips, and_assoc]

/-- A trip of a source leaves the status of its class set, if the class is detected (R44, R161). -/
theorem State.strobe_status (s : State) (o : StrobeOrder) (i : SourceId) (htrip : s.sources[i].tripsNow = true)
    (hdetect : s.capture.detect.getLsbD 8 = true) : (s.strobe o).capture.status.getLsbD 8 = true := by
  have hbegun := s.strobeBegun_part o
  obtain ⟨c, hheard, -, htrips⟩ := (s.strobeBegun o).strobeSources_spec o.firstSource
  have hstill : (s.strobeBegun o).sources[i].tripsNow = true := by
    rw [hbegun.source i]
    cases o.countFirst with
    | false => exact htrip
    | true =>
      show s.sources[i].renew.tripsNow = true
      rw [Source.renew_rest]
      exact htrip
  have hstatus : (s.strobeHeard o).capture.status.getLsbD 8 = true := by
    rw [State.strobeHeard, hheard]
    exact htrips i hstill (hbegun.grows.detect ▸ hdetect)
  rw [State.strobe_eq]
  exact (s.strobeGroups o).strobeLayout_grows.status 8 ((s.strobeAfter_part o).grows.status 8 hstatus)

/-- Settles O31. -/
theorem strobeFlipsOrAges : Obligations.StrobeFlipsOrAges := by
  unfold Obligations.StrobeFlipsOrAges
  intro s o i x hs hx
  refine ⟨_, exec_wfs hs o, ?_⟩
  have hsource : (s.quiet.strobe o).sources[i] = x.struck.renew := hx ▸ s.quiet.strobe_get o i
  rw [hsource]
  refine ⟨fun hstate hone l hready => ?flips, fun hstate => ?ages, fun hstate => ?idle⟩
  case flips =>
    have hrunning : x.running = true := (Source.running_iff x).mpr (hstate.imp id .inl)
    have hget := Source.flipped_get hready
    rw [Source.renew_rest, Source.struck_of_flips hrunning (Source.flips_of_ready hstate hone hready), Source.flip_eq,
      Source.endFillWait_rest]
    have hfront : ((x.flipped l).bufs.get l).role = .front := by rw [hget, if_pos rfl]
    refine ⟨rfl, ?_, fun y z hwait hbufs hz => ?_, fun m hm hwait => ?_, rfl, rfl, rfl, rfl⟩
    · show ((x.flipped l).endFillWait.bufs.get l).role = .front
      rw [Source.endFillWait_get fun h => absurd (hfront.symm.trans h) (by decide), hfront]
    · rw [Source.fillWaitTested_iff.mp hz]
      exact Source.endFillWait_congr (Buffers.eq_of_get fun m => (hget m).trans (hbufs m).symm) hwait.symm
    · show (x.flipped l).endFillWait.bufs.get m = _
      have hne : m ≠ l := fun h => absurd (hm.symm.trans (h ▸ hready)) (by decide)
      rw [Source.endFillWait_of_not_waiting (x := x.flipped l) hwait, hget, if_neg hne, if_pos hm]
  case ages =>
    have hrunning : x.running = true :=
      (Source.running_iff x).mpr (hstate.elim (fun h => .inr (.inr h)) fun h => h.1.imp id .inl)
    rw [Source.renew_rest, Source.struck_of_not_flips hrunning (Source.flips_eq_none hstate), ← Source.trips_iff]
    refine ⟨rfl, rfl, rfl, rfl, rfl, fun htrip => ⟨?_, ?_, fun hdetect => ?_⟩, fun htrip => ⟨?_, ?_⟩⟩
    · show (x.stale || x.trips) = true
      rw [htrip, Bool.or_true]
    · show (x.trip || x.trips) = true
      rw [htrip, Bool.or_true]
    · refine s.quiet.strobe_status o i ?_ hdetect
      have hnow : x.tripsNow = true := by rw [Source.tripsNow, hrunning, Source.flips_eq_none hstate, htrip]; rfl
      exact hx ▸ hnow
    · show (x.stale || x.trips) = x.stale
      rw [Bool.eq_false_iff.mpr htrip, Bool.or_false]
    · show (x.trip || x.trips) = x.trip
      rw [Bool.eq_false_iff.mpr htrip, Bool.or_false]
  case idle =>
    have hrunning := Source.running_eq_false hstate
    rw [Source.struck_of_idle hrunning, Source.renew_idle hrunning]

end Sys2Proof.Machine
end

section
/-! PROOFS. What a group is after the strobe (O33): struck and evaluated in the order that the operand gives for it. -/

namespace Sys2Proof.Machine

open Sys2Proof

/-! ### The parts at one group -/

/-- A group as the strobe leaves it, when it counts its hold-off before (`first`) or after it acts on its raw condition. -/
def Group.strobed (x : Group) (first raw : Bool) (t : Option Trigger) : Group :=
  if first then x.struck.evaluated raw t else (x.evaluated raw t).struck

/-- The strobe at the group sets OVERRIDE_CHANGE. -/
def Group.strobeChanges (x : Group) (first raw : Bool) (t : Option Trigger) : Bool :=
  if first then x.holdOffEnds || x.struck.evaluationChanges raw
  else x.evaluationChanges raw || (x.evaluated raw t).holdOffEnds

theorem Group.strobeChanges_first (x : Group) (raw : Bool) (t : Option Trigger) :
    x.strobeChanges true raw t = true ↔ x.holdOffEnds = true ∨ x.struck.evaluationChanges raw = true := by
  rw [Group.strobeChanges, if_pos rfl, Bool.or_eq_true]

theorem Group.strobeChanges_last (x : Group) (raw : Bool) (t : Option Trigger) :
    x.strobeChanges false raw t = true ↔ x.evaluationChanges raw = true ∨ (x.evaluated raw t).holdOffEnds = true := by
  rw [Group.strobeChanges, if_neg Bool.false_ne_true, Bool.or_eq_true]

/-- A group whose raw condition stays only counts its hold-off. -/
theorem Group.strobed_same (x : Group) (first : Bool) (t : Option Trigger) : x.strobed first x.raw t = x.struck := by
  cases first with
  | true => exact x.struck_raw ▸ x.struck.evaluated_same t
  | false => exact congrArg Group.struck (x.evaluated_same t)

theorem Group.strobeChanges_same (x : Group) (first : Bool) (t : Option Trigger) :
    x.strobeChanges first x.raw t = x.holdOffEnds := by
  cases first with
  | true =>
    have hquiet : x.struck.evaluationChanges x.raw = false := x.struck_raw ▸ x.struck.evaluationChanges_same
    rw [Group.strobeChanges, if_pos rfl, hquiet, Bool.or_false]
  | false => rw [Group.strobeChanges, if_neg Bool.false_ne_true, x.evaluationChanges_same, x.evaluated_same, Bool.false_or]

section
variable {x : Group} (hraw : x.raw = false)
include hraw

theorem Group.evaluated_idle_disabled (hstate : x.state = .idle) (h : x.cfg.enabled = false) (t : Option Trigger) :
    x.evaluated true t = { x with raw := true } := by
  simp [Group.evaluated, hraw, hstate, h]

theorem Group.evaluated_idle_enabled (hstate : x.state = .idle) (h : x.cfg.enabled = true) (t : Option Trigger) :
    x.evaluated true t = { x with state := .asserted, holdCount := 0, raw := true, trigger := t } := by
  simp [Group.evaluated, hraw, hstate, h]

theorem Group.evaluated_holding (hstate : x.state = .holding) (t : Option Trigger) :
    x.evaluated true t = { x with state := .asserted, holdCount := 0, raw := true } := by
  simp [Group.evaluated, hraw, hstate]

theorem Group.evaluationChanges_rise (hstate : x.state = .idle) (h : x.cfg.enabled = true) : x.evaluationChanges true = true := by
  simp [Group.evaluationChanges, hraw, hstate, h]

theorem Group.strobed_idle_disabled (hstate : x.state = .idle) (h : x.cfg.enabled = false) (first : Bool) (t : Option Trigger) :
    x.strobed first true t = { x with raw := true } := by
  have hidle : x.state ≠ .holding := fun h => absurd (hstate.symm.trans h) (by decide)
  rw [Group.strobed, Group.struck_of_not_holding hidle, Group.evaluated_idle_disabled hraw hstate h]
  split
  · rfl
  · exact Group.struck_of_not_holding hidle

theorem Group.strobed_idle_enabled (hstate : x.state = .idle) (h : x.cfg.enabled = true) (first : Bool) (t : Option Trigger) :
    x.strobed first true t = { x with state := .asserted, holdCount := 0, raw := true, trigger := t } ∧
      x.strobeChanges first true t = true := by
  have hidle : x.state ≠ .holding := fun h => absurd (hstate.symm.trans h) (by decide)
  rw [Group.strobed, Group.strobeChanges, Group.struck_of_not_holding hidle, Group.evaluated_idle_enabled hraw hstate h,
    Group.evaluationChanges_rise hraw hstate h]
  split
  · exact ⟨rfl, Bool.or_true _⟩
  · exact ⟨Group.struck_of_not_holding (fun h => nomatch h), Bool.true_or _⟩

theorem Group.strobed_holding_counts (hstate : x.state = .holding) {first : Bool}
    (h : first = false ∨ x.holdCount + 1 < x.cfg.holdOff) (t : Option Trigger) :
    x.strobed first true t = { x with state := .asserted, holdCount := 0, raw := true } := by
  cases first with
  | true =>
    have hcount := h.resolve_left (fun h => nomatch h)
    rw [Group.strobed, if_pos rfl, Group.struck_counts hstate hcount]
    exact Group.evaluated_holding (x := { x with holdCount := x.holdCount + 1 }) hraw hstate t
  | false =>
    rw [Group.strobed, if_neg Bool.false_ne_true, Group.evaluated_holding hraw hstate]
    exact Group.struck_of_not_holding fun h => nomatch h

theorem Group.strobed_holding_ends (hstate : x.state = .holding) (henabled : x.cfg.enabled = true)
    (h : x.cfg.holdOff ≤ x.holdCount + 1) (t : Option Trigger) :
    x.strobed true true t = { x with state := .asserted, holdCount := 0, raw := true, trigger := t } ∧
      x.strobeChanges true true t = true := by
  rw [Group.strobed, Group.strobeChanges, if_pos rfl, if_pos rfl, Group.struck_ends hstate h,
    (Group.holdOffEnds_iff x).mpr ⟨hstate, h⟩]
  exact ⟨Group.evaluated_idle_enabled (x := { x with state := .idle, holdCount := 0 }) hraw rfl henabled t, Bool.true_or _⟩

end

/-! ### The groups through the strobe -/

theorem StrobePart.sameInputs {f : Source → Source} {h : Governor → Governor} {s t : State} (p : StrobePart f h s t)
    (hf : ∀ x, InputsKept x (f x)) (g : GroupId) : SameInputs s t g where
  sensed := by rw [p.rest]
  softBits := by rw [p.rest]
  cfg := p.cfg g
  trip i := by rw [p.source i, (hf _).1]
  contained i := by rw [p.source i, (hf _).2]

theorem Source.renewIf_inputs (b : Bool) (x : Source) : InputsKept x (x.renewIf b) := by
  cases b with
  | true => exact x.renew_inputs
  | false => exact .of_same rfl rfl

@[simp] theorem State.governorIf_override (s : State) (b : Bool) : (s.governorIf b).override = s.override := by
  cases b with
  | true => exact (congrArg State.override s.strobeGovernor_eq :)
  | false => rfl

@[simp] theorem State.governorIf_capture (s : State) (b : Bool) : (s.governorIf b).capture = s.capture := by
  cases b with
  | true => exact (congrArg State.capture s.strobeGovernor_eq :)
  | false => rfl

theorem not_getLsbD (m : BitVec 4) (g : GroupId) : (~~~m).getLsbD g.val = !m.getLsbD g.val := by
  simp [g.isLt]

theorem State.strobeThose_get (s : State) (m : BitVec 4) (g : GroupId) :
    (s.strobeThose (groupsIn m)).override.groups[g] =
      if m.getLsbD g.val then s.override.groups[g].struck else s.override.groups[g] := by
  rw [State.strobeThose, (State.foldl_strobeGroup _ (groupsIn_nodup m) s g).1]
  simp only [mem_groupsIn]

theorem State.strobeThose_changes (s : State) {m : BitVec 4} {g : GroupId} (hg : m.getLsbD g.val = true)
    (h : s.override.groups[g].holdOffEnds = true) : (s.strobeThose (groupsIn m)).capture.overrideChange = true :=
  (State.foldl_strobeGroup _ (groupsIn_nodup m) s g).2 (.inr ⟨mem_groupsIn.mpr hg, h⟩)

theorem State.evaluateIn_get (s : State) (m : BitVec 4) (g : GroupId) :
    (s.evaluateThose (groupsIn m)).override.groups[g] =
      if m.getLsbD g.val then s.override.groups[g].evaluated (s.rawCondition g) (s.triggerNow g) else s.override.groups[g] := by
  split
  · next hg => exact (s.evaluateIn_spec m).evaluated g (mem_groupsIn.mpr hg)
  · next hg => exact (s.evaluateIn_spec m).kept g fun h => hg (mem_groupsIn.mp h)

theorem State.evaluateIn_changes (s : State) {m : BitVec 4} {g : GroupId} (hg : m.getLsbD g.val = true)
    (h : s.override.groups[g].evaluationChanges (s.rawCondition g) = true) :
    (s.evaluateThose (groupsIn m)).capture.overrideChange = true :=
  (s.evaluateIn_spec m).changed.mpr (.inr ⟨g, mem_groupsIn.mpr hg, h⟩)

/-- The group when the sources' trips are there: it has counted its hold-off if it does so first. -/
theorem State.strobeHeard_group (s : State) (o : StrobeOrder) (g : GroupId) :
    (s.strobeHeard o).override.groups[g] =
      if o.groupsFirst.getLsbD g.val then s.override.groups[g].struck else s.override.groups[g] := by
  obtain ⟨c, hheard, -, -⟩ := (s.strobeBegun o).strobeSources_spec o.firstSource
  rw [State.strobeHeard, hheard]
  show (s.strobeBegun o).override.groups[g] = _
  rw [State.strobeBegun, State.strobeThose_get, State.governorIf_override]

theorem State.strobeHeard_changes (s : State) {o : StrobeOrder} {g : GroupId} (hfirst : o.groupsFirst.getLsbD g.val = true)
    (hends : s.override.groups[g].holdOffEnds = true) : (s.strobeHeard o).capture.overrideChange = true := by
  have hbegun : (s.strobeBegun o).capture.overrideChange = true := by
    rw [State.strobeBegun]
    refine State.strobeThose_changes _ hfirst ?_
    rwa [State.governorIf_override]
  rw [State.strobeHeard]
  exact ((s.strobeBegun o).strobeSources_part o.firstSource).grows.overrideChange hbegun

/-- The trigger record that the strobe loads: the first input true when all is done, and the frame counter where the group acts. -/
def State.strobeTrigger (s : State) (o : StrobeOrder) (g : GroupId) : Option Trigger :=
  ((s.strobeGroups o).firstInput g).map fun n =>
    ⟨n, if o.countFirst || o.groupsLate.getLsbD g.val then s.governor.frameCount + 1 else s.governor.frameCount⟩

/-- Each group acts once, early or late, on the raw condition that it has when all is done. -/
theorem State.strobeActed_group (s : State) (o : StrobeOrder) (g : GroupId) :
    ((s.strobeTimed o).evaluateThose (groupsIn o.groupsLate)).override.groups[g] =
        (s.strobeHeard o).override.groups[g].evaluated ((s.strobeGroups o).rawCondition g) (s.strobeTrigger o g) ∧
      ((s.strobeHeard o).override.groups[g].evaluationChanges ((s.strobeGroups o).rawCondition g) = true →
        ((s.strobeTimed o).evaluateThose (groupsIn o.groupsLate)).capture.overrideChange = true) := by
  have hheard : SameInputs (s.strobeHeard o) (s.strobeGroups o) g :=
    (s.strobeAfter_part o).sameInputs (Source.renewIf_inputs _) g
  have htimed : SameInputs (s.strobeTimed o) (s.strobeGroups o) g :=
    (s.strobeEnd_part o).sameInputs (fun _ => .of_same rfl rfl) g
  have hframe : (s.strobeHeard o).governor = s.governor.struckIf o.countFirst :=
    ((s.strobeBegun_part o).trans (State.strobeSources_part _ _)).governor
  have hframeLate : (s.strobeTimed o).governor = s.governor.struck := by
    rw [(s.strobeTimed_part o).governor, hframe]
    exact congrFun (Governor.struck_once o.countFirst) s.governor
  have hgroup : (s.strobeTimed o).override.groups[g] =
      ((s.strobeHeard o).evaluateThose (groupsIn (~~~o.groupsLate))).override.groups[g] := by
    rw [State.strobeTimed, State.governorIf_override]
  rw [State.evaluateIn_get]
  cases hlate : o.groupsLate.getLsbD g.val with
  | true =>
    have hwait : (s.strobeTimed o).override.groups[g] = (s.strobeHeard o).override.groups[g] := by
      rw [hgroup, State.evaluateIn_get, not_getLsbD, hlate]
      rfl
    have htrigger : (s.strobeTimed o).triggerNow g = s.strobeTrigger o g := by
      rw [State.triggerNow, State.strobeTrigger, State.firstInput_congr htimed, hlate, Bool.or_true, hframeLate]
      rfl
    rw [if_pos rfl, State.rawCondition_congr htimed, ← hwait, htrigger]
    exact ⟨rfl, State.evaluateIn_changes _ hlate⟩
  | false =>
    have hearly : (~~~o.groupsLate).getLsbD g.val = true := by rw [not_getLsbD, hlate]; rfl
    have htrigger : (s.strobeHeard o).triggerNow g = s.strobeTrigger o g := by
      rw [State.triggerNow, State.strobeTrigger, State.firstInput_congr hheard, hlate, Bool.or_false, hframe]
      cases o.countFirst <;> rfl
    rw [if_neg Bool.false_ne_true, State.rawCondition_congr hheard, ← htrigger, hgroup, State.evaluateIn_get, if_pos hearly]
    refine ⟨rfl, fun h => (State.evaluateIn_part _ _).grows.overrideChange ?_⟩
    rw [State.strobeTimed, State.governorIf_capture]
    exact State.evaluateIn_changes _ hearly h

theorem State.strobeGroups_group (s : State) (o : StrobeOrder) (g : GroupId) :
    (s.strobeGroups o).override.groups[g] =
        s.override.groups[g].strobed (o.groupsFirst.getLsbD g.val) ((s.strobeGroups o).rawCondition g) (s.strobeTrigger o g) ∧
      (s.override.groups[g].strobeChanges (o.groupsFirst.getLsbD g.val) ((s.strobeGroups o).rawCondition g)
          (s.strobeTrigger o g) = true →
        (s.strobeGroups o).capture.overrideChange = true) := by
  obtain ⟨hacted, hchanges⟩ := s.strobeActed_group o g
  rw [s.strobeHeard_group o g] at hacted hchanges
  obtain ⟨w, hw⟩ : ∃ w, w = (s.strobeTimed o).evaluateThose (groupsIn o.groupsLate) := ⟨_, rfl⟩
  have hbefore (hfirst : o.groupsFirst.getLsbD g.val = true) (hends : s.override.groups[g].holdOffEnds = true) :
      w.capture.overrideChange = true :=
    hw ▸ (State.evaluateIn_part _ _).grows.overrideChange
      ((s.strobeTimed_part o).grows.overrideChange (s.strobeHeard_changes hfirst hends))
  have hlast : s.strobeGroups o = w.strobeThose (groupsIn (~~~o.groupsFirst)) := hw ▸ rfl
  have hkeeps := (w.strobeThose_part (~~~o.groupsFirst)).grows.overrideChange
  rw [← hw] at hacted hchanges
  generalize (s.strobeGroups o).rawCondition g = raw at hacted hchanges ⊢
  generalize s.strobeTrigger o g = trigger at hacted hchanges ⊢
  rw [hlast, State.strobeThose_get, not_getLsbD, hacted]
  cases hfirst : o.groupsFirst.getLsbD g.val with
  | true =>
    rw [hfirst, if_pos rfl] at hchanges
    refine ⟨rfl, fun h => hkeeps ?_⟩
    exact ((Group.strobeChanges_first _ _ _).mp h).elim (hbefore hfirst) hchanges
  | false =>
    rw [hfirst, if_neg Bool.false_ne_true] at hchanges hacted
    refine ⟨rfl, fun h => ?_⟩
    rcases (Group.strobeChanges_last _ _ _).mp h with hrises | hends
    · exact hkeeps (hchanges hrises)
    · exact State.strobeThose_changes _ (by rw [not_getLsbD, hfirst]; rfl) (hacted ▸ hends)

/-! ### The raw condition through the strobe -/

theorem Source.struck_contained (x : Source) : x.struck.state = .contained ↔ x.state = .contained := by
  cases hrunning : x.running with
  | false => rw [Source.struck_of_idle hrunning]
  | true =>
    cases hflips : x.flips with
    | none =>
      rw [Source.struck_of_not_flips hrunning hflips]
      exact Iff.rfl
    | some l =>
      have hstate := (Source.flips_some hflips).1
      rw [Source.struck_of_flips hrunning hflips, Source.flip_eq, Source.endFillWait_rest]
      show SourceState.live = .contained ↔ _
      refine ⟨fun h => absurd h (by decide), fun h => ?_⟩
      rcases hstate with h' | h'
      all_goals exact absurd (h.symm.trans h') (by decide)

theorem Source.struck_trip {x : Source} (h : x.trip = true) : x.struck.trip = true := by
  cases hrunning : x.running with
  | false => rw [Source.struck_of_idle hrunning, h]
  | true =>
    cases hflips : x.flips with
    | none =>
      rw [Source.struck_of_not_flips hrunning hflips, Source.age, h]
      rfl
    | some l =>
      rw [Source.struck_of_flips hrunning hflips, Source.flip_eq, Source.endFillWait_rest]
      exact h

/-- Only a stale trip can change what a group hears in the strobe, and it can only become true. -/
theorem State.strobeGroups_inputActive (s : State) (o : StrobeOrder) (g : GroupId) (n : TriggerInput) :
    (s.inputActive g n = true → (s.strobeGroups o).inputActive g n = true) ∧
      (s.override.groups[g].cfg.staleSel = 0 → (s.strobeGroups o).inputActive g n = s.inputActive g n) := by
  have hpart := s.strobeGroups_part o
  have hsensed : (s.strobeGroups o).override.sensed = s.override.sensed := by rw [hpart.rest]
  have hsoft : (s.strobeGroups o).override.softBits = s.override.softBits := by rw [hpart.rest]
  have hsource (i : SourceId) : (s.strobeGroups o).sources[i] = s.sources[i].struck.renew :=
    (hpart.source i).trans (Source.strobed_eq _ o)
  cases n with
  | alarm l => simp only [State.inputActive, hpart.cfg, hsensed, imp_self, implies_true, and_self]
  | software b => simp only [State.inputActive, hpart.cfg, hsoft, imp_self, implies_true, and_self]
  | contain i =>
    have hcontained : ((s.strobeGroups o).sources[i].state == .contained) = (s.sources[i].state == .contained) := by
      rw [Bool.eq_iff_iff, beq_iff_eq, beq_iff_eq, hsource, (Source.renew_inputs _).2, Source.struck_contained]
    simp only [State.inputActive, hpart.cfg, hcontained, imp_self, implies_true, and_self]
  | staleTrip i =>
    have htrip : (s.strobeGroups o).sources[i].trip = s.sources[i].struck.trip := by rw [hsource, (Source.renew_inputs _).1]
    simp only [State.inputActive, hpart.cfg, htrip]
    refine ⟨fun h => ?_, fun h => ?_⟩
    · obtain ⟨hsel, hset⟩ := (Bool.and_eq_true _ _).mp h
      exact (Bool.and_eq_true _ _).mpr ⟨hsel, Source.struck_trip hset⟩
    · rw [h]
      simp

/-- Settles O33. -/
theorem strobeCountsHoldOff : Obligations.StrobeCountsHoldOff := by
  unfold Obligations.StrobeCountsHoldOff
  intro s o g x hs hx hraw
  obtain ⟨b, hb⟩ : ∃ b, b = s.quiet.strobeGroups o := ⟨_, rfl⟩
  obtain ⟨t, ht⟩ : ∃ t, t = b.strobeLayout := ⟨_, rfl⟩
  refine ⟨t, by rw [exec_wfs hs, State.strobe_eq, ht, hb], ?_⟩
  have hinput (n : TriggerInput) : t.inputActive g n = b.inputActive g n := by
    cases n <;> simp only [State.inputActive, ht, State.strobeLayout_override, State.strobeLayout_sources]
  have hcondition : t.rawCondition g = b.rawCondition g := by simp only [State.rawCondition, funext hinput]
  have hfirst : t.firstInput g = b.firstInput g := by simp only [State.firstInput, funext hinput]
  obtain ⟨hgroup, hchange⟩ := s.quiet.strobeGroups_group o g
  obtain ⟨trig, htrig⟩ : ∃ trig, trig = s.quiet.strobeTrigger o g := ⟨_, rfl⟩
  have hactive := s.quiet.strobeGroups_inputActive o g
  simp only [State.quiet_override] at hgroup hchange hactive
  rw [← hb] at hactive
  rw [← hb, ← hx, ← htrig, ← hcondition] at hgroup hchange
  have hflag (h : x.strobeChanges (o.groupsFirst.getLsbD g.val) (t.rawCondition g) trig = true) : t.capture.overrideChange = true :=
    ht ▸ b.strobeLayout_grows.overrideChange (hchange h)
  have hfinal : t.override.groups[g] = x.strobed (o.groupsFirst.getLsbD g.val) (t.rawCondition g) trig := by
    rw [← hgroup, ht, State.strobeLayout_override]
  refine ⟨fun hsame => ?stays, fun hsel => ?unselected, fun htrue => ?holds, fun hfalse htrue trigger frame hframe htrigger => ?rises⟩
  case stays =>
    rw [hsame, Group.strobed_same] at hfinal
    rw [hsame, Group.strobeChanges_same, Group.holdOffEnds_iff] at hflag
    refine ⟨fun hstate => ?_, fun hstate hcount => ?_, fun hstate hcount => ⟨?_, hflag ⟨hstate, hcount⟩⟩⟩
    · rw [hfinal, Group.struck_of_not_holding hstate]
    · rw [hfinal, Group.struck_counts hstate hcount]
    · rw [hfinal, Group.struck_ends hstate hcount]
  case unselected =>
    have hkept (n : TriggerInput) := (hactive n).2 (hx ▸ hsel)
    rw [hcondition, hraw]
    simp only [State.rawCondition, funext hkept]
    rfl
  case holds =>
    obtain ⟨n, hn, hon⟩ := List.any_eq_true.mp (hraw.symm.trans htrue)
    rw [hcondition]
    exact List.any_eq_true.mpr ⟨n, hn, (hactive n).1 hon⟩
  case rises =>
    have htrigger : trig = trigger := by
      rw [htrig, htrigger, hframe, hfirst, hb]
      rfl
    rw [htrue, htrigger] at hfinal hflag
    refine ⟨fun hstate henabled => ?_, fun hstate henabled => ?_, fun hstate hcount => ?_, fun hstate henabled hnow hcount => ?_⟩
    · rw [hfinal, Group.strobed_idle_disabled hfalse hstate henabled]
    · obtain ⟨hstrobed, hchanges⟩ := Group.strobed_idle_enabled hfalse hstate henabled (o.groupsFirst.getLsbD g.val) trigger
      exact ⟨hfinal.trans hstrobed, hflag hchanges⟩
    · rw [hfinal, Group.strobed_holding_counts hfalse hstate hcount]
    · obtain ⟨hstrobed, hchanges⟩ := Group.strobed_holding_ends hfalse hstate henabled hcount trigger
      rw [hnow] at hfinal hflag
      exact ⟨hfinal.trans hstrobed, hflag hchanges⟩

end Sys2Proof.Machine
end

section
/-! PROOFS. Grants of the arbiter (O21) and the outcomes of a write (O24, O25). -/

namespace Sys2Proof.Machine

open Sys2Proof

/-! ### Grants -/

theorem exec_arbiterGrant {s : State} (hs : s.resetting = none) (ready : Bool) :
    exec (.arbiterGrant ready) s = .next (if ready then s.quiet.arbitrate else s.quiet) :=
  outsideReset_of_none hs fun t => if ready then t.arbitrate else t

/-- R126. -/
theorem DPort.freeTracker_eq_some {d : DPort} {k : TrackerId} (hfree : d.trackers[k].use = none)
    (hfirst : ∀ m : TrackerId, m < k → d.trackers[m].use ≠ none) : d.freeTracker = some k :=
  finRange_find.mpr ⟨by simp only [hfree, Option.isNone_none], fun m hm => by
    rw [Option.isNone_eq_false_iff, Option.isSome_iff_ne_none]
    exact hfirst m hm⟩

section
variable {s : State} {p : PieceId} {rest : List PieceId} (hlane : s.dport.readLane = p :: rest)
include hlane

/-- R123. -/
theorem State.arbitrate_read (h : s.writeChoice = none ∨ s.dport.readRun < 8) :
    s.arbitrate = s.grantRead p rest (if s.writeChoice = none then 0 else s.dport.readRun + 1) := by
  unfold State.arbitrate
  rw [hlane]
  cases hchoice : s.writeChoice with
  | none => rfl
  | some l =>
    have hrun : s.dport.readRun < Config.maxReadRun := h.resolve_left fun h => nomatch hchoice.symm.trans h
    simp only [if_pos hrun, reduceCtorEq, if_false]

end

theorem State.arbitrate_write {s : State} {l : Fin 17} (hchoice : s.writeChoice = some l)
    (h : s.dport.readLane = [] ∨ 8 ≤ s.dport.readRun) : s.arbitrate = s.grantChosen l := by
  unfold State.arbitrate
  rw [hchoice]
  cases hlane : s.dport.readLane with
  | nil => rfl
  | cons p rest =>
    have hrun : ¬s.dport.readRun < Config.maxReadRun :=
      Nat.not_lt.mpr (h.resolve_left fun h => nomatch hlane.symm.trans h)
    simp only [if_neg hrun]

theorem State.arbitrate_nothing {s : State} (hchoice : s.writeChoice = none) (hlane : s.dport.readLane = []) :
    s.arbitrate = s := by
  unfold State.arbitrate
  rw [hchoice, hlane]

theorem State.grantChosen_eq {s : State} {l : Fin 17} {w : LaneWrite} {k : TrackerId} (hhead : s.laneHead l = some w)
    (hfree : s.dport.freeTracker = some k) : s.grantChosen l = s.grantWrite l w k := by
  unfold State.grantChosen
  rw [hhead, hfree]

/-- The head of a source's write lane is that of the arbiter's lane of that number (R122). -/
theorem State.laneHead_source {s : State} {i : SourceId} {l : Fin 17} (hl : i.val = l.val) {w : SourceWrite} {rest : List SourceWrite}
    (hlane : s.dport.writeLanes[i] = w :: rest) :
    s.laneHead l = some { origin := .aperture w.source w.buffer, address := w.address, beats := w.beats, data := w.data } ∧
      s.dropLaneHead l = s.withDport { s.dport with writeLanes := putAt s.dport.writeLanes i rest } := by
  have hlt : l.val < 16 := hl ▸ i.isLt
  obtain rfl : (⟨l.val, hlt⟩ : SourceId) = i := Fin.ext hl.symm
  have hval : s.dport.writeLanes[l.val]'hlt = w :: rest := hlane
  rw [State.laneHead, State.dropLaneHead, dif_pos hlt, dif_pos hlt, hval]
  exact ⟨rfl, rfl⟩

/-- Lane 16 is the plain write list (R122). -/
theorem State.laneHead_plain {s : State} {l : Fin 17} (hl : l.val = 16) {w : PlainWrite} {rest : List PlainWrite}
    (hlist : s.uport.plainWrites = w :: rest) :
    s.laneHead l = some { origin := .plain w.initiator, address := w.address, beats := w.beats, data := w.data } ∧
      s.dropLaneHead l = s.withUport { s.uport with plainWrites := rest } := by
  have hlast : ¬l.val < 16 := by omega
  rw [State.laneHead, State.dropLaneHead, dif_neg hlast, dif_neg hlast, hlist]
  exact ⟨rfl, rfl⟩

/-- Settles O21. -/
theorem arbiterGrantsOneHead : Obligations.ArbiterGrantsOneHead := by
  unfold Obligations.ArbiterGrantsOneHead
  refine ⟨fun s p rest u hs hlane huse hkind hread => ?read, fun s l k hs hlane hchoice hfree hfirst => ?write,
    fun s hs => ⟨exec_arbiterGrant hs false, fun hlane hchoice => ?nothing⟩⟩
  case read =>
    rw [exec_arbiterGrant hs, if_pos rfl, State.arbitrate_read (s := s.quiet) hlane hread]
    unfold State.grantRead
    simp only [State.quiet_translator, huse]
    cases hu : u.kind with
    | image f => rfl
    | plain a n => rfl
    | colour k => exact absurd hu (hkind k)
  case write =>
    have htracker : s.dport.freeTracker = some k := DPort.freeTracker_eq_some hfree hfirst
    rw [exec_arbiterGrant hs, if_pos rfl, State.arbitrate_write (s := s.quiet) hchoice hlane]
    refine ⟨fun i w rest hi hhead => ?_, fun w rest hl hhead => ?_⟩
    · obtain ⟨hlaneHead, hdrop⟩ := State.laneHead_source (s := s.quiet) hi hhead
      rw [State.grantChosen_eq (s := s.quiet) hlaneHead htracker, State.grantWrite, hdrop]
      rfl
    · obtain ⟨hlaneHead, hdrop⟩ := State.laneHead_plain (s := s.quiet) hl hhead
      rw [State.grantChosen_eq (s := s.quiet) hlaneHead htracker, State.grantWrite, hdrop]
      rfl
  case nothing =>
    rw [exec_arbiterGrant hs, if_pos rfl, State.arbitrate_nothing (s := s.quiet) hchoice hlane]
    rfl

/-! ### Outcomes of a write -/

theorem State.foldl_record (es : List ErrEvent) (s : State) :
    es.foldl (fun t e => t.record e) s =
      s.withCapture (es.foldl (fun c e => c.record s.governor.frameCount e) s.capture) := by
  induction es generalizing s with
  | nil => rfl
  | cons e es ih =>
    rw [List.foldl_cons, ih]
    rfl

theorem Capture.foldl_record_overrideChange (es : List ErrEvent) (frame : BitVec 16) (c : Capture) :
    (es.foldl (fun c e => c.record frame e) c).overrideChange = c.overrideChange := by
  induction es generalizing c with
  | nil => rfl
  | cons e es ih => rw [List.foldl_cons, ih, Capture.record_overrideChange]

/-- The release of a write hold of a source that is not CLOSING, in the state `w` of an event whose groups have not acted yet. -/
theorem State.releaseWriteHold_acted {s w : State} {i : SourceId} {l : Letter} {y : Source} {es : List ErrEvent}
    (hoverride : w.override = s.override) (hflag : w.capture.overrideChange = s.capture.overrideChange)
    (hstate : w.sources[i].state ≠ .closing) (h : w.sources[i].writeHoldReleased i l y es) :
    w.releaseWriteHold i l =
        { w with
          sources := putAt w.sources i y
          override := { s.override with groups := (w.releaseWriteHold i l).override.groups }
          capture :=
            { es.foldl (fun c e => c.record w.governor.frameCount e) w.capture with
              overrideChange := (w.releaseWriteHold i l).capture.overrideChange } } ∧
      s.groupsActed (w.releaseWriteHold i l) := by
  obtain ⟨u, hu⟩ : ∃ u, u = (es.foldl (fun t e => t.record e) w).putSource i y := ⟨_, rfl⟩
  have hrelease : w.releaseWriteHold i l = u.evaluateGroups := hu ▸ State.releaseWriteHold_eq hstate h
  rw [State.foldl_record] at hu
  have hgroups : u.override = s.override := by rw [hu, ← hoverride]; rfl
  have hkept : u.capture.overrideChange = s.capture.overrideChange := by
    rw [hu, ← hflag]
    exact Capture.foldl_record_overrideChange es _ _
  rw [hrelease]
  refine ⟨?_, State.groupsActed_of_same (congrArg _ hgroups) hkept u.evaluateGroups_acted⟩
  refine u.evaluateGroups_rest.trans ?_
  rw [hgroups, hu]
  rfl

/-- R126. -/
theorem State.freeTracker_eq {s : State} {k : TrackerId} {g : Bool} {u : TrackerUse} (h : s.dport.trackers[k] = ⟨g, some u⟩) :
    s.freeTracker k = { s with dport := { s.dport with trackers := putAt s.dport.trackers k ⟨g, none⟩ } } := by
  rw [State.freeTracker, h]
  rfl

theorem DPort.matchedTracker_eq_some {d : DPort} {k : TrackerId} {g : Bool} {u : TrackerUse} (h : d.trackers[k] = ⟨g, some u⟩) :
    d.matchedTracker k g = some u := by
  simp only [DPort.matchedTracker, h, if_true]

theorem exec_writeOk {s : State} {k : TrackerId} {g : Bool} {u : TrackerUse} (hs : s.resetting = none)
    (h : s.dport.trackers[k] = ⟨g, some u⟩) :
    exec (.downstreamResponse (.writeOk k g)) s = .next ((s.quiet.freeTracker k).releaseOrigin u.origin) := by
  rw [exec_downstreamResponse_of_none hs rfl, State.takeResponse]
  simp only [State.quiet_dport, DPort.matchedTracker_eq_some h, State.writeDone]

/-- Settles O24. -/
theorem writeOkReleasesHold : Obligations.WriteOkReleasesHold := by
  unfold Obligations.WriteOkReleasesHold
  intro s k g u hs htracker
  refine ⟨fun n horigin => ?plain, fun i l y es horigin hstate hreleased => ?aperture⟩
  case plain =>
    rw [exec_writeOk hs htracker, horigin, State.releaseOrigin, State.freeTracker_eq (s := s.quiet) htracker]
    rfl
  case aperture =>
    obtain ⟨hrest, hacted⟩ := State.releaseWriteHold_acted (s := s) (w := s.quiet.freeTracker k) rfl rfl hstate hreleased
    refine ⟨_, by rw [exec_writeOk hs htracker, horigin]; rfl, hrest.trans ?_, hacted⟩
    rw [State.freeTracker_eq (s := s.quiet) htracker]
    rfl

/-- A write fails by an ERROR response or by its deadline, each with its class of event (R132, R134). -/
theorem exec_writeFails {s : State} {k : TrackerId} {g : Bool} {u : TrackerUse} {i : Instr} {cls : ErrClass} (hs : s.resetting = none)
    (h : s.dport.trackers[k] = ⟨g, some u⟩)
    (hi : i = .writeTimeout k ∧ cls = .writeTimeout ∨ i = .downstreamResponse (.writeError k g) ∧ cls = .writeError) :
    exec i s = .next (s.quiet.writeFails cls k u) := by
  rcases hi with ⟨rfl, rfl⟩ | ⟨rfl, rfl⟩
  · have huse : s.quiet.dport.trackers[k].use = some u := congrArg Tracker.use h
    refine (outsideReset_of_none hs fun t => t.writeExpires k).trans ?_
    rw [State.writeExpires, huse]
  · rw [exec_downstreamResponse_of_none hs rfl, State.takeResponse]
    simp only [State.quiet_dport, DPort.matchedTracker_eq_some h]

/-- Settles O25. -/
theorem failedWritePoisonsBuffer : Obligations.FailedWritePoisonsBuffer := by
  unfold Obligations.FailedWritePoisonsBuffer
  refine ⟨fun s k g u i cls hs htracker hi => ⟨fun n horigin => ?plain, fun j l x y es horigin hx hstate hreleased => ?aperture⟩,
    fun s k hs hfree => ?free⟩
  case plain =>
    rw [exec_writeFails hs htracker hi, State.writeFails, writeEvent, horigin]
    simp only [State.releaseOrigin, State.poisonOrigin]
    rw [State.freeTracker_eq (s := s.quiet.record _) htracker]
    rfl
  case aperture =>
    obtain ⟨w, hw⟩ : ∃ w, w = ((s.quiet.record (writeEvent cls u)).poisonBuffer j l).freeTracker k := ⟨_, rfl⟩
    have hexec : exec i s = .next (w.releaseWriteHold j l) := by
      rw [exec_writeFails hs htracker hi, State.writeFails, horigin, hw]
      rfl
    rw [State.freeTracker_eq (s := (s.quiet.record (writeEvent cls u)).poisonBuffer j l) htracker, State.poisonBuffer,
      State.record_sources, State.quiet_sources, ← hx] at hw
    have hsource : w.sources[j] = x := by rw [hw]; exact putAt_same_fin _ _ _
    have hflag : w.capture.overrideChange = s.capture.overrideChange := by
      rw [hw]
      exact Capture.record_overrideChange _ _ _
    obtain ⟨hrest, hacted⟩ := State.releaseWriteHold_acted (s := s) (w := w) (by rw [hw]; rfl) hflag (hsource ▸ hstate)
      (hsource.symm ▸ hreleased)
    have hsources : putAt w.sources j y = putAt s.sources j y := by
      rw [hw]
      exact putAt_putAt _ _ _ _
    have hcapture : w.capture = s.capture.record s.governor.frameCount
        ⟨cls, some (j.castLE (by decide)), some u.address, some j, none⟩ := by
      rw [hw, writeEvent, horigin]
      rfl
    refine ⟨_, hexec, hrest.trans ?_, hacted⟩
    rw [hsources, hcapture]
    generalize w.releaseWriteHold j l = t
    rw [hw]
    rfl
  case free =>
    refine (outsideReset_of_none hs fun t => t.writeExpires k).trans ?_
    rw [State.writeExpires, State.quiet_dport, hfree]
    rfl

end Sys2Proof.Machine
end

section
/-! PROOFS. The end of a CLOSING drain (O29). -/

namespace Sys2Proof.Machine

open Sys2Proof

/-! ### What the groups read -/

/-- A change of one source that leaves what a group may watch leaves the inputs of every group. -/
theorem SameInputs.of_source {s t : State} {i : SourceId} {y : Source} (hoverride : t.override = s.override)
    (hsources : t.sources = putAt s.sources i y) (h : InputsKept s.sources[i] y) (g : GroupId) : SameInputs s t g := by
  have hget (j : SourceId) : InputsKept s.sources[j] t.sources[j] := by
    rw [hsources, putAt_get]
    split
    · next hj => exact hj ▸ h
    · exact .of_same rfl rfl
  exact ⟨by rw [hoverride], by rw [hoverride], by rw [hoverride], fun j => (hget j).1, fun j => (hget j).2⟩

/-- Evaluated groups stay so when no input changes. -/
theorem State.evaluated_of_sameInputs {s t : State} (hoverride : t.override = s.override) (h : ∀ g, SameInputs s t g)
    (hraw : ∀ g : GroupId, s.override.groups[g].raw = s.rawCondition g) (g : GroupId) :
    t.override.groups[g].raw = t.rawCondition g := by
  rw [State.rawCondition_congr (h g), hoverride, hraw]

/-! ### The drain -/

/-- The source's drain has ended: it is OFF, and the write heads have been offered again (R4, R30). -/
def State.drained (s : State) (i : SourceId) : State :=
  State.headsOffered { s with sources := putAt s.sources i { s.sources[i] with state := .off } }

@[simp] theorem State.drained_override (s : State) (i : SourceId) : (s.drained i).override = s.override :=
  State.headsOffered_override _

@[simp] theorem State.drained_sources (s : State) (i : SourceId) :
    (s.drained i).sources = putAt s.sources i { s.sources[i] with state := .off } :=
  State.headsOffered_sources _

theorem State.drained_of_put {s e : State} {i : SourceId} {y : Source} (h : e.sources = putAt s.sources i y) :
    e.drained i = State.headsOffered { e with sources := putAt s.sources i { e.sources[i] with state := .off } } := by
  have hsources : putAt e.sources i { e.sources[i] with state := .off } = putAt s.sources i { e.sources[i] with state := .off } :=
    (congrArg (fun v => putAt v i { e.sources[i] with state := .off }) h).trans (putAt_putAt _ _ _ _)
  rw [State.drained, hsources]

theorem State.endDrain_free {s : State} {i : SourceId} (hclosing : s.sources[i].state = .closing)
    (h : ∀ m, (s.sources[i].bufs.get m).readHold = 0 ∧ (s.sources[i].bufs.get m).writeHold = 0) :
    s.endDrain i = s.drained i := by
  rw [State.endDrain, if_pos ⟨hclosing, (Buffers.noHolds_iff _).mpr h⟩, State.reofferHeads_eq]
  rfl

theorem State.endDrain_held {s : State} {i : SourceId}
    (h : ∃ m, (s.sources[i].bufs.get m).readHold ≠ 0 ∨ (s.sources[i].bufs.get m).writeHold ≠ 0) : s.endDrain i = s := by
  obtain ⟨m, hm⟩ := h
  refine if_neg fun hdrain => ?_
  have hfree := (Buffers.noHolds_iff _).mp hdrain.2 m
  exact hm.elim (fun hread => hread hfree.1) fun hwrite => hwrite hfree.2

/-- Outside fill wait a release only looks for the end of a drain. -/
theorem State.afterRelease_not_waiting {s : State} {i : SourceId} (h : s.sources[i].fillWait = false) :
    s.afterRelease i = s.endDrain i := by
  have hself : s.putSource i s.sources[i] = s := congrArg s.withSources (putAt_self s.sources i)
  rw [State.afterRelease, Source.endFillWait_of_not_waiting h, hself]

/-- The release of a write hold of a SPENT buffer of a CLOSING source, with every group evaluated (R30, R40). -/
theorem State.releaseWriteHold_closing {w : State} {i : SourceId} {l : Letter} (hclosing : w.sources[i].state = .closing)
    (hspent : (w.sources[i].bufs.get l).role = .spent) (hwait : w.sources[i].fillWait = false)
    (hraw : ∀ g : GroupId, w.override.groups[g].raw = w.rawCondition g) :
    w.releaseWriteHold i l = (w.dropWriteHold i l).endDrain i := by
  obtain ⟨e, he⟩ : ∃ e, e = w.dropWriteHold i l := ⟨_, rfl⟩
  have hsource : e.sources[i] =
      { w.sources[i] with
        bufs :=
          w.sources[i].bufs.put l
            { w.sources[i].bufs.get l with writeHold := (w.sources[i].bufs.get l).writeHold - 1 } } := by
    rw [he]
    exact State.putSource_get _ _ _
  have hrole : (e.sources[i].bufs.get l).role = .spent := by
    rw [hsource, Buffers.get_put_same]
    exact hspent
  have hresolve : e.resolveIfSealed i l = e := if_neg fun h => absurd (hrole.symm.trans h.1) (by decide)
  have hstay : e.sources[i].state = .closing := by rw [hsource]; exact hclosing
  have hdropped : ∀ g : GroupId, e.override.groups[g].raw = e.rawCondition g :=
    State.evaluated_of_sameInputs (by rw [he]; rfl)
      (SameInputs.of_source (y := e.sources[i]) (by rw [he]; rfl) (by rw [hsource, he]; rfl)
        (by rw [hsource]; exact .of_same rfl rfl)) hraw
  have hends : (e.endDrain i).evaluateGroups = e.endDrain i := by
    by_cases hholds : ∀ m, (e.sources[i].bufs.get m).readHold = 0 ∧ (e.sources[i].bufs.get m).writeHold = 0
    · rw [State.endDrain_free hstay hholds]
      exact State.evaluateGroups_of_evaluated (State.evaluated_of_sameInputs (e.drained_override i)
        (SameInputs.of_source (e.drained_override i) (e.drained_sources i) (Source.drained_inputs _ hstay)) hdropped)
    · have hheld : ∃ m, (e.sources[i].bufs.get m).readHold ≠ 0 ∨ (e.sources[i].bufs.get m).writeHold ≠ 0 := by
        obtain ⟨m, hm⟩ := not_forall.mp hholds
        exact ⟨m, not_and_or.mp hm⟩
      rw [State.endDrain_held hheld]
      exact State.evaluateGroups_of_evaluated hdropped
  rw [State.releaseWriteHold, ← he, hresolve, State.afterRelease_not_waiting (by rw [hsource]; exact hwait), hends]

/-- What a drained source leaves: it is OFF and its regions are gone (R30). -/
theorem State.drained_regions (s : State) (i : SourceId) {r : Region} (hr : r ∈ (s.drained i).regions) :
    r.id ≠ .aperture i ∧ ∀ m, r.id ≠ .buffer i m := by
  rw [State.mem_regions] at hr
  rcases hr with ⟨-, rfl⟩ | ⟨j, hstate, hmem⟩
  · exact ⟨RegionId.noConfusion, fun m => RegionId.noConfusion⟩
  · have hji : j ≠ i := by
      rintro rfl
      rw [State.drained_sources, putAt_same_fin] at hstate
      exact hstate rfl
    rcases SourceConfig.mem_regions.mp hmem with rfl | rfl | rfl | rfl
    · exact ⟨fun h => hji (RegionId.aperture.inj h), fun m => RegionId.noConfusion⟩
    all_goals exact ⟨RegionId.noConfusion, fun m h => hji (RegionId.buffer.inj h).1⟩

section
variable {s w e : State} {c : Instr} {i : SourceId} {l : Letter} {x : Source}

/-- The end of a write of a CLOSING source, in the state `w` before the release, which is `e` after the hold has gone (R30). -/
theorem exec_drains (hexec : exec c s = .next (w.releaseWriteHold i l)) (hoverride : w.override = s.override)
    (hinputs : ∀ g, SameInputs s w g) (hraw : ∀ g : GroupId, s.override.groups[g].raw = s.rawCondition g)
    (hclosing : w.sources[i].state = .closing) (hspent : w.sources[i].allSpent) (hwait : w.sources[i].fillWait = false)
    (he : e = w.dropWriteHold i l) (hsources : ∀ z, putAt w.sources i z = putAt s.sources i z) :
    ((∀ m, (e.sources[i].bufs.get m).readHold = 0 ∧ (e.sources[i].bufs.get m).writeHold = 0) →
      ∃ t, exec c s = .next t ∧
        t = State.headsOffered { e with sources := putAt s.sources i { e.sources[i] with state := .off } } ∧
        t.sources[i].state = .off ∧ t.sources[i].allSpent ∧
        ∀ r ∈ t.regions, r.id ≠ .aperture i ∧ ∀ m, r.id ≠ .buffer i m) ∧
      ((∃ m, (e.sources[i].bufs.get m).readHold ≠ 0 ∨ (e.sources[i].bufs.get m).writeHold ≠ 0) → exec c s = .next e) := by
  have hrelease : w.releaseWriteHold i l = e.endDrain i := he ▸
    State.releaseWriteHold_closing hclosing (hspent l) hwait (State.evaluated_of_sameInputs hoverride hinputs hraw)
  have hsource : e.sources[i] =
      { w.sources[i] with
        bufs :=
          w.sources[i].bufs.put l
            { w.sources[i].bufs.get l with writeHold := (w.sources[i].bufs.get l).writeHold - 1 } } := by
    rw [he]
    exact State.putSource_get _ _ _
  rw [hexec, hrelease]
  refine ⟨fun hfree => ⟨_, rfl, ?_⟩, fun hheld => by rw [State.endDrain_held hheld]⟩
  have hdrained : e.drained i = State.headsOffered { e with sources := putAt s.sources i { e.sources[i] with state := .off } } :=
    State.drained_of_put (by rw [he, ← hsources]; rfl)
  rw [State.endDrain_free (by rw [hsource]; exact hclosing) hfree]
  refine ⟨hdrained, ?_, ?_, fun r hr => e.drained_regions i hr⟩
  all_goals rw [State.drained_sources, putAt_same_fin]
  intro m
  show (e.sources[i].bufs.get m).role = .spent
  rw [hsource]
  exact (Buffers.put_role (by rfl) m).trans (hspent m)

end

theorem Buffers.put_put (b : Buffers) (l : Letter) (x y : Buffer) : (b.put l x).put l y = b.put l y := by
  cases l <;> rfl

/-- A failed write of a CLOSING source ends as one answered OK does, after its event and its poison (R132; log 19). -/
theorem exec_failed_drains {s e : State} {k : TrackerId} {g : Bool} {u : TrackerUse} {i : SourceId} {l : Letter} {c : Instr}
    {cls : ErrClass} (hs : s.resetting = none) (htracker : s.dport.trackers[k] = ⟨g, some u⟩) (horigin : u.origin = .aperture i l)
    (hclosing : s.sources[i].state = .closing) (hspent : s.sources[i].allSpent) (hwait : s.sources[i].fillWait = false)
    (hraw : ∀ g : GroupId, s.override.groups[g].raw = s.rawCondition g)
    (hc : c = .writeTimeout k ∧ cls = .writeTimeout ∨ c = .downstreamResponse (.writeError k g) ∧ cls = .writeError)
    (he : e =
      { s with
        dport := { s.dport with trackers := putAt s.dport.trackers k ⟨g, none⟩ }
        sources :=
          putAt s.sources i
            { s.sources[i] with
              bufs :=
                s.sources[i].bufs.put l
                  { s.sources[i].bufs.get l with writeHold := (s.sources[i].bufs.get l).writeHold - 1, poison := true } }
        capture :=
          s.capture.record s.governor.frameCount ⟨cls, some (i.castLE (by decide)), some u.address, some i, none⟩
        links := Links.none }) :
    ((∀ m, (e.sources[i].bufs.get m).readHold = 0 ∧ (e.sources[i].bufs.get m).writeHold = 0) →
      ∃ t, exec c s = .next t ∧
        t = State.headsOffered { e with sources := putAt s.sources i { e.sources[i] with state := .off } } ∧
        t.sources[i].state = .off ∧ t.sources[i].allSpent ∧
        ∀ r ∈ t.regions, r.id ≠ .aperture i ∧ ∀ m, r.id ≠ .buffer i m) ∧
      ((∃ m, (e.sources[i].bufs.get m).readHold ≠ 0 ∨ (e.sources[i].bufs.get m).writeHold ≠ 0) → exec c s = .next e) := by
  obtain ⟨w, hw⟩ : ∃ w, w = ((s.quiet.record (writeEvent cls u)).poisonBuffer i l).freeTracker k := ⟨_, rfl⟩
  have hexec : exec c s = .next (w.releaseWriteHold i l) := by
    rw [exec_writeFails hs htracker hc, State.writeFails, horigin, hw]
    rfl
  rw [State.freeTracker_eq (s := (s.quiet.record (writeEvent cls u)).poisonBuffer i l) htracker, writeEvent, horigin] at hw
  have hsource : w.sources[i] =
      { s.sources[i] with bufs := s.sources[i].bufs.put l { s.sources[i].bufs.get l with poison := true } } := by
    rw [hw]
    exact putAt_same_fin _ _ _
  have hsources : w.sources = putAt s.sources i w.sources[i] := by
    rw [hsource, hw]
    rfl
  have hputs (z : Source) : putAt w.sources i z = putAt s.sources i z := by rw [hsources, putAt_putAt]
  have hoverride : w.override = s.override := by rw [hw]; rfl
  refine exec_drains hexec hoverride (SameInputs.of_source hoverride hsources (by rw [hsource]; exact .of_same rfl rfl)) hraw
    (by rw [hsource]; exact hclosing) (fun m => ?_) (by rw [hsource]; exact hwait) ?_ hputs
  · rw [hsource]
    exact (Buffers.put_role (by rfl) m).trans (hspent m)
  · rw [State.dropWriteHold, State.putSource, hputs, hsource, Buffers.get_put_same, Buffers.put_put, he, hw]
    rfl

/-! ### The data of the last IMAGE piece -/

/-- The release of a read hold outside fill wait (R30, R39). -/
theorem State.releaseReadHold_closing {s : State} {i : SourceId} {l : Letter} (h : s.sources[i].fillWait = false) :
    s.releaseReadHold i l =
      State.endDrain
        { s with
          sources :=
            putAt s.sources i
              { s.sources[i] with
                bufs :=
                  s.sources[i].bufs.put l { s.sources[i].bufs.get l with readHold := (s.sources[i].bufs.get l).readHold - 1 } } }
        i := by
  rw [State.releaseReadHold, State.afterRelease_not_waiting (by rw [State.putSource_get]; exact h)]
  rfl

theorem Translator.matchedPiece_eq_some {t : Translator} {p : PieceId} {g : Bool} {u : PieceUse} {timer : Deadline}
    (h : t.pieces[p] = ⟨g, some u⟩) (hstate : u.state = .issued timer) : t.matchedPiece p g = some u := by
  simp only [Translator.matchedPiece, Translator.issuedUse, h, hstate, if_true]

/-- A READ response with the right length (R130). -/
theorem exec_readOk {s : State} {p : PieceId} {g : Bool} {u : PieceUse} {timer : Deadline} {d : List Byte} (hs : s.resetting = none)
    (hpiece : s.translator.pieces[p] = ⟨g, some u⟩) (hstate : u.state = .issued timer) (hlength : d.length = 32 * u.kind.subRead.2)
    (hmin : 1 ≤ u.kind.subRead.2) (hmax : u.kind.subRead.2 ≤ 16) :
    exec (.downstreamResponse (.readOk p g d)) s = .next (s.quiet.pieceData p u d) := by
  have hwell : DResponse.wellFormed (.readOk p g d) = true := by
    simp only [DResponse.wellFormed, Bool.and_eq_true, decide_eq_true_eq]
    omega
  rw [exec_downstreamResponse_of_none hs hwell, State.takeResponse]
  simp only [State.quiet_translator, Translator.matchedPiece_eq_some hpiece hstate, hlength, if_true]

/-- A context that is not GATHERING, or has a piece that is not DONE, stays as it is (R97). -/
theorem State.gatherContext_waits {s : State} {c : Context} (hmem : c ∈ s.translator.contexts)
    (hnums : (s.translator.contexts.map (·.num)).Nodup) (h : c.state ≠ .gathering ∨ s.translator.allDone c = false) :
    s.gatherContext c.num = s := by
  have hcontexts : (s.translator.contexts.map fun x =>
      if x.num = c.num then
        if x.state = .gathering ∧ s.translator.allDone x then { x with state := .complete } else x
      else x) = s.translator.contexts := by
    refine (List.map_congr_left fun x hx => ?_).trans (List.map_id _)
    by_cases hnum : x.num = c.num
    · obtain rfl := List.inj_on_of_nodup_map hnums hx hmem hnum
      rw [if_pos rfl, if_neg fun hdone => h.elim (fun hstate => hstate hdone.1) fun hnot => absurd hdone.2 (hnot ▸ Bool.false_ne_true)]
      rfl
    · exact if_neg hnum
  rw [State.gatherContext, State.mapContext, Translator.mapContext, hcontexts]
  rfl

theorem Translator.allDone_eq_false {t : Translator} {c : Context} {q : PieceId} {v : PieceUse} (hq : q ∈ c.pieces)
    (huse : t.pieces[q].use = some v) (hstate : v.state ≠ .done) : t.allDone c = false := by
  have hnot : t.pieceDone q = false := by
    simp only [Translator.pieceDone, huse]
    exact beq_false_of_ne hstate
  exact List.all_eq_false.mpr ⟨q, hq, by rw [hnot]; exact Bool.false_ne_true⟩

/-- What is not the translator leaves the translator. -/
theorem translatorKept (t : Translator) : OffReads fun s => s.translator = t where
  links _ _ h := h
  pending _ _ h := h
  resetting _ _ h := h
  port _ _ h := h
  loader _ _ h := h
  override _ _ h := h
  uport _ _ h _ _ := h
  dport _ _ h _ := h
  governor _ _ h _ := h
  capture _ _ h _ := h
  layout _ _ h _ := h
  source _ _ _ h _ _ _ := h
  anySource _ _ _ h _ _ := h

@[simp] theorem State.releasePiece_translator (s : State) (u : PieceUse) : (s.releasePiece u).translator = s.translator :=
  (translatorKept s.translator).releasePiece u rfl

theorem SameReads.of_quiet {s t : State} (h : SameReads s.quiet t) : SameReads s t :=
  ⟨h.contexts, h.walker, h.paused, h.free, h.intake⟩

/-- A piece record that stays in use is the same to the rest of the read path. -/
theorem SameReads.putUse {s : State} {p : PieceId} {u : PieceUse} (h : s.translator.pieces[p].use = some u) (v : PieceUse) :
    SameReads s (s.putUse p (some v)) := by
  refine ⟨rfl, rfl, rfl, fun q => ?_, rfl⟩
  show (putAt s.translator.pieces p _)[q].use.isNone = _
  rw [putAt_get]
  split
  · next hq => rw [hq, h]; rfl
  · rfl

/-- Where a context waits for more, the end of one of its pieces has no further consequence. -/
theorem State.gatherContext_settled {s z : State} {c : Context} (hsettled : s.settled) (hreads : SameReads s z)
    (hmem : c ∈ s.translator.contexts) (hnums : (s.translator.contexts.map (·.num)).Nodup)
    (h : c.state ≠ .gathering ∨ z.translator.allDone c = false) : (z.gatherContext c.num).settleReads = z := by
  rw [State.gatherContext_waits (hreads.contexts ▸ hmem) (hreads.contexts ▸ hnums) h]
  exact State.settleReads_of_settled (hreads.settled.mpr hsettled)

/-- Settles O29. -/
theorem lastHoldEndsDrain : Obligations.LastHoldEndsDrain := by
  unfold Obligations.LastHoldEndsDrain
  refine ⟨?writes, ?reads⟩
  case writes =>
    rintro s k g u i l x c hs htracker horigin rfl hclosing hspent hwait hraw hc e he
    rcases hc with rfl | rfl | rfl
    · simp only [reduceCtorEq, if_false, if_true] at he
      exact exec_failed_drains hs htracker horigin hclosing hspent hwait hraw (.inl ⟨rfl, rfl⟩) he
    · simp only [reduceCtorEq, Instr.downstreamResponse.injEq, if_false] at he
      exact exec_failed_drains hs htracker horigin hclosing hspent hwait hraw (.inr ⟨rfl, rfl⟩) he
    · simp only [if_true] at he
      have hfreed := State.freeTracker_eq (s := s.quiet) htracker
      refine exec_drains (w := s.quiet.freeTracker k) (by rw [exec_writeOk hs htracker, horigin]; rfl) rfl
        (fun _ => ⟨rfl, rfl, rfl, fun _ => rfl, fun _ => Iff.rfl⟩) hraw hclosing hspent hwait ?_ fun _ => rfl
      rw [he, hfreed]
      rfl
  case reads =>
    rintro s e p g d u f timer c x hs hsettled hpiece hstate hkind hlength hmin hmax hmem hnums hcontext hwaits rfl hclosing hspent
      hwait he
    have hbeats : u.kind.subRead.2 = f.beats := by rw [hkind]; rfl
    obtain ⟨v, hv⟩ : ∃ v : PieceUse, v = { u with state := .done, data := some d } := ⟨_, rfl⟩
    obtain ⟨w, hw⟩ : ∃ w, w = s.quiet.putUse p (some v) := ⟨_, rfl⟩
    have hput : SameReads s w := hw ▸ (SameReads.putUse (s := s.quiet) (congrArg Piece.use hpiece) v).of_quiet
    have hother {q : PieceId} (hq : q ≠ p) : w.translator.pieces[q] = s.translator.pieces[q] := by
      rw [hw]
      exact putAt_other _ _ _ _ hq
    have hsettles : ((w.releasePiece u).gatherContext c.num).settleReads = w.releasePiece u := by
      refine State.gatherContext_settled hsettled ((SameReads.offReads s).releasePiece u hput) hmem hnums (hwaits.imp id ?_)
      rintro ⟨q, hq, hne, x, huse, hdone⟩
      rw [State.releasePiece_translator]
      exact Translator.allDone_eq_false hq (by rw [hother hne, huse]) hdone
    have hdrain : w.releasePiece u = e.endDrain f.source := by
      rw [State.releasePiece, hkind]
      simp only
      rw [State.releaseReadHold_closing (by rw [hw]; exact hwait), he, hw, State.putUse, State.quiet_translator, hpiece, hv]
      rfl
    have hexec : exec (.downstreamResponse (.readOk p g d)) s = .next (e.endDrain f.source) := by
      rw [exec_readOk hs hpiece hstate (hbeats ▸ hlength) (hbeats ▸ hmin) (hbeats ▸ hmax), State.pieceData, ← hv, ← hw, hcontext,
        hsettles, hdrain]
    rw [hexec]
    refine ⟨fun hfree => ?_, fun hheld => by rw [State.endDrain_held hheld]⟩
    have hsource : e.sources[f.source].state = .closing := by
      rw [he]
      exact (congrArg Source.state (putAt_same_fin _ _ _)).trans hclosing
    rw [State.endDrain_free hsource hfree, State.drained_of_put (congrArg State.sources he)]

end Sys2Proof.Machine
end

section
/-! PROOFS. The read path, part by part: contexts by their places, what is due, and what an answer leaves. -/

namespace Sys2Proof.Machine

open Sys2Proof

/-! ### A context among the others -/

section
variable {t : Translator} {pre post : List Context} {c : Context}

theorem nums_differ (hnums : ((pre ++ c :: post).map (·.num)).Nodup) {x : Context} (hx : x ∈ pre ++ post) : x.num ≠ c.num := by
  rw [List.map_append, List.map_cons] at hnums
  have hmiddle := List.nodup_middle.mp hnums
  rw [← List.map_append] at hmiddle
  exact fun h => (List.nodup_cons.mp hmiddle).1 (h ▸ List.mem_map_of_mem hx)

theorem Translator.mapContext_split (h : t.contexts = pre ++ c :: post) (hothers : ∀ x ∈ pre ++ post, x.num ≠ c.num)
    (f : Context → Context) : t.mapContext c.num f = { t with contexts := pre ++ f c :: post } := by
  have hkept (l : List Context) (hl : ∀ x ∈ l, x ∈ pre ++ post) : l.map (fun x => if x.num = c.num then f x else x) = l :=
    (List.map_congr_left fun x hx => if_neg (hothers x (hl x hx))).trans (List.map_id l)
  rw [Translator.mapContext, h, List.map_append, List.map_cons, hkept pre fun x => List.mem_append_left _,
    hkept post fun x => List.mem_append_right _, if_pos rfl]

theorem contexts_filter (hothers : ∀ x ∈ pre ++ post, x.num ≠ c.num) :
    (pre ++ c :: post).filter (fun x => x.num != c.num) = pre ++ post := by
  have hkept (l : List Context) (hl : ∀ x ∈ l, x ∈ pre ++ post) : l.filter (fun x => x.num != c.num) = l :=
    List.filter_eq_self.mpr fun x hx => bne_iff_ne.mpr (hothers x (hl x hx))
  rw [List.filter_append, List.filter_cons_of_neg (by simp), hkept pre fun x => List.mem_append_left _,
    hkept post fun x => List.mem_append_right _]

end

/-! ### What an answer leaves -/

/-- The records that an answer frees keep their generation bits, the others stay (R99). -/
theorem State.foldl_freePieces (ps : List PieceId) (s : State) :
    ∃ v : Vector Piece 256, ps.foldl (fun x p => x.putUse p none) s = s.withTranslator { s.translator with pieces := v } ∧
      (∀ p ∈ ps, v[p] = ⟨s.translator.pieces[p].generation, none⟩) ∧
      ∀ p : PieceId, p ∉ ps → v[p] = s.translator.pieces[p] := by
  induction ps generalizing s with
  | nil => exact ⟨s.translator.pieces, rfl, by simp, fun _ _ => rfl⟩
  | cons q qs ih =>
    obtain ⟨v, hfold, hfreed, hkept⟩ := ih (s.putUse q none)
    have hget (p : PieceId) : (s.putUse q none).translator.pieces[p] =
        if p = q then ⟨s.translator.pieces[q].generation, none⟩ else s.translator.pieces[p] := putAt_get _ _ _ _
    refine ⟨v, hfold, fun p hp => ?_, fun p hp => ?_⟩
    · by_cases hmem : p ∈ qs
      · rw [hfreed p hmem, hget]
        split
        · next h => rw [h]
        · rfl
      · rw [hkept p hmem, hget, if_pos ((List.mem_cons.mp hp).resolve_right hmem),
          (List.mem_cons.mp hp).resolve_right hmem]
    · obtain ⟨hne, hmem⟩ := not_or.mp (List.mem_cons.not.mp hp)
      rw [hkept p hmem, hget, if_neg hne]

/-- An answer (R98, R99). -/
theorem State.answerContext_spec {s : State} {pre post : List Context} {c : Context} (h : s.translator.contexts = pre ++ c :: post)
    (hothers : ∀ x ∈ pre ++ post, x.num ≠ c.num) :
    s.answerContext c =
        { s with
          translator := { s.translator with contexts := pre ++ post, pieces := (s.answerContext c).translator.pieces }
          links := { s.links with responses := s.links.responses ++ [s.translator.answerOf c] } } ∧
      (∀ p ∈ c.pieces, (s.answerContext c).translator.pieces[p] = ⟨s.translator.pieces[p].generation, none⟩) ∧
      ∀ p : PieceId, p ∉ c.pieces → (s.answerContext c).translator.pieces[p] = s.translator.pieces[p] := by
  obtain ⟨v, hfold, hfreed, hkept⟩ := State.foldl_freePieces c.pieces (s.respond (s.translator.answerOf c))
  have hanswer : s.answerContext c =
      { s with
        translator := { s.translator with contexts := pre ++ post, pieces := v }
        links := { s.links with responses := s.links.responses ++ [s.translator.answerOf c] } } := by
    have hcontexts : s.translator.contexts.filter (fun x => x.num != c.num) = pre ++ post := by
      rw [h]
      exact contexts_filter hothers
    rw [State.answerContext, hfold]
    simp only [State.withTranslator_translator, State.respond_translator, hcontexts]
    rfl
  rw [hanswer]
  exact ⟨rfl, hfreed, hkept⟩

/-- The answer of a context without pieces changes no piece record. -/
theorem State.answerContext_without_pieces {s : State} {pre post : List Context} {c : Context}
    (h : s.translator.contexts = pre ++ c :: post) (hothers : ∀ x ∈ pre ++ post, x.num ≠ c.num) (hpieces : c.pieces = []) :
    s.answerContext c =
      { s with
        translator := { s.translator with contexts := pre ++ post }
        links := { s.links with responses := s.links.responses ++ [s.translator.answerOf c] } } := by
  rw [State.answerContext, hpieces, List.foldl_nil, State.respond_translator, h, contexts_filter hothers]
  rfl

/-! ### What is due -/

/-- Nothing on the read path is due: no answer (R98), placement (R96), resumption (R103) or walk start (R101). -/
structure State.NothingDue (s : State) : Prop where
  answer : answerable s.translator.contexts [] = []
  place : s.uport.intake = [] ∨ ∀ n : ContextId, ∃ c ∈ s.translator.contexts, c.num = n
  resume : s.translator.walking.isSome = true → s.translator.paused = false ∨ ∀ p : PieceId, s.translator.pieces[p].use ≠ none
  start : s.translator.walking = none → ∀ c ∈ s.translator.contexts, c.state = .waiting → c.cls = .refused

theorem Translator.nextAnswer_none_iff (t : Translator) : t.nextAnswer = none ↔ answerable t.contexts [] = [] :=
  List.head?_eq_none_iff

/-- A COMPLETE context may be answered when no earlier one of its initiator is left (R98). -/
theorem answerable_cons_eq_nil {c : Context} {cs : List Context} {seen : List Initiator} :
    answerable (c :: cs) seen = [] ↔ (c.state = .complete → c.initiator ∈ seen) ∧ answerable cs (c.initiator :: seen) = [] := by
  rw [answerable]
  split
  · next h => exact ⟨fun h' => (nomatch h'), fun h' => absurd (h'.1 h.1) h.2⟩
  · next h => exact ⟨fun h' => ⟨fun hstate => by_contra fun hseen => h ⟨hstate, hseen⟩, h'⟩, fun h' => h'.2⟩

theorem answerable_split {pre post : List Context} {c : Context} :
    answerable (pre ++ c :: post) [] = [] ↔
      answerable pre [] = [] ∧ (c.state = .complete → ∃ x ∈ pre, x.initiator = c.initiator) ∧
        answerable post (c.initiator :: (pre.map (·.initiator)).reverse) = [] := by
  rw [answerable_append, List.append_eq_nil_iff, answerable_cons_eq_nil]
  simp

/-- A context of the initiator `i` before the others only matters to COMPLETE ones of that initiator. -/
theorem answerable_unseen {cs : List Context} {i : Initiator} {seen : List Initiator} (h : answerable cs (i :: seen) = [])
    (hnone : ∀ x ∈ cs, x.initiator = i → x.state ≠ .complete) : answerable cs seen = [] := by
  refine List.eq_nil_iff_forall_not_mem.mpr fun c hc => ?_
  obtain ⟨pre, post, hsplit, hstate, hseen, hfirst⟩ := (mem_answerable cs seen c).mp hc
  have hother : c.initiator ≠ i := fun hi => hnone c (hsplit ▸ List.mem_append_right _ List.mem_cons_self) hi hstate
  have hmem : c ∈ answerable cs (i :: seen) :=
    (mem_answerable cs _ c).mpr ⟨pre, post, hsplit, hstate, fun hi => (List.mem_cons.mp hi).elim hother hseen, hfirst⟩
  rw [h] at hmem
  exact List.not_mem_nil hmem

/-- The context that is answered next: no earlier one may be, and it may. -/
theorem Translator.nextAnswer_split {t : Translator} {pre post : List Context} {c : Context} (h : t.contexts = pre ++ c :: post)
    (hpre : answerable pre [] = []) (hstate : c.state = .complete) (hfirst : ∀ x ∈ pre, x.initiator ≠ c.initiator) :
    t.nextAnswer = some c := by
  have hseen : c.initiator ∉ (pre.map (·.initiator)).reverse ++ [] := by simpa using hfirst
  rw [Translator.nextAnswer, h, answerable_append, hpre, List.nil_append, answerable, if_pos ⟨hstate, hseen⟩]
  rfl

theorem Translator.freePiece_none_iff (t : Translator) : t.freePiece = none ↔ ∀ p : PieceId, t.pieces[p].use ≠ none := by
  rw [Translator.freePiece, finRange_find_none]
  refine forall_congr' fun p => ?_
  rw [Option.isNone_eq_false_iff, Option.isSome_iff_ne_none]

theorem Translator.firstWaiting_none_iff (t : Translator) :
    t.firstWaiting = none ↔ ∀ c ∈ t.contexts, c.state = .waiting → c.cls = .refused := by
  rw [Translator.firstWaiting, List.find?_eq_none]
  simp

section
variable {s : State}

theorem State.readConsequence_answer {c : Context} (h : s.translator.nextAnswer = some c) :
    s.readConsequence = some (s.answerContext c) := by
  rw [State.readConsequence, h]

theorem State.readConsequence_place {e : IntakeEntry} {rest : List IntakeEntry} {n : ContextId}
    (hanswer : s.translator.nextAnswer = none) (hintake : s.uport.intake = e :: rest) (hfree : s.translator.freeContext = some n) :
    s.readConsequence = some (s.placeInto n e rest) := by
  rw [State.readConsequence, hanswer, hintake, hfree]

variable (hanswer : s.translator.nextAnswer = none) (hplace : s.uport.intake = [] ∨ s.translator.freeContext = none)
include hanswer hplace

/-- With no answer and no placement due, a walk in progress may resume (R103). -/
theorem State.readConsequence_walking {c : Context} (hwalking : s.translator.walking = some c) :
    s.readConsequence =
      if s.translator.paused then s.translator.freePiece.map (s.generateInto c) else none := by
  rw [State.readConsequence, hanswer, hwalking]
  rcases hplace with h | h
  · rw [h]
    cases s.translator.paused <;> cases s.translator.freePiece <;> rfl
  · rw [h]
    cases s.uport.intake <;> cases s.translator.paused <;> cases s.translator.freePiece <;> rfl

/-- With no answer and no placement due, an idle walker may start (R101). -/
theorem State.readConsequence_idle (hwalking : s.translator.walking = none) :
    s.readConsequence = s.translator.firstWaiting.map s.startWalk := by
  rw [State.readConsequence, hanswer, hwalking]
  rcases hplace with h | h
  · rw [h]
    cases s.translator.firstWaiting <;> rfl
  · rw [h]
    cases s.uport.intake <;> cases s.translator.firstWaiting <;> rfl

end

theorem State.settled_iff_nothingDue (s : State) : s.settled ↔ s.NothingDue := by
  rw [State.settled_iff]
  cases hanswer : s.translator.nextAnswer with
  | some c =>
    rw [State.readConsequence_answer hanswer]
    refine ⟨fun h => (nomatch h), fun h => ?_⟩
    exact nomatch hanswer.symm.trans (s.translator.nextAnswer_none_iff.mpr h.answer)
  | none =>
    have hnone := s.translator.nextAnswer_none_iff.mp hanswer
    by_cases hplace : s.uport.intake = [] ∨ s.translator.freeContext = none
    · have hwaits := hplace.imp id Translator.freeContext_none.mp
      cases hwalking : s.translator.walking with
      | some c =>
        rw [State.readConsequence_walking hanswer hplace hwalking, ite_eq_right_iff, Option.map_eq_none_iff,
          Translator.freePiece_none_iff]
        refine ⟨fun h => ⟨hnone, hwaits, fun _ => ?_, fun h => nomatch hwalking.symm.trans h⟩, fun h hpaused => ?_⟩
        · exact (Bool.eq_false_or_eq_true s.translator.paused).symm.imp id h
        · exact (h.resume (by rw [hwalking]; rfl)).resolve_left (fun hoff => Bool.false_ne_true (hoff.symm.trans hpaused))
      | none =>
        rw [State.readConsequence_idle hanswer hplace hwalking, Option.map_eq_none_iff, Translator.firstWaiting_none_iff]
        exact ⟨fun h => ⟨hnone, hwaits, fun hsome => (nomatch hwalking ▸ hsome), fun _ => h⟩, fun h => h.start hwalking⟩
    · obtain ⟨hintake, hfree⟩ := not_or.mp hplace
      obtain ⟨e, rest, hentry⟩ := List.exists_cons_of_ne_nil hintake
      obtain ⟨n, hn⟩ := Option.ne_none_iff_exists'.mp hfree
      rw [State.readConsequence_place hanswer hentry hn]
      refine ⟨fun h => (nomatch h), fun h => ?_⟩
      exact absurd (h.place.imp id Translator.freeContext_none.mpr) hplace

/-! ### The walker's context among the others -/

/-- A context that is not walked may change or leave without the walk. -/
theorem Translator.walking_without {t u : Translator} {pre post : List Context} {c : Context} (h : t.contexts = pre ++ c :: post)
    (hu : u.contexts = pre ++ post) (hwalker : u.walker = t.walker) (hne : t.walker ≠ some c.num) : u.walking = t.walking := by
  rw [Translator.walking, Translator.walking, hwalker]
  cases hw : t.walker with
  | none => rfl
  | some n =>
    have hnot : (c.num == n) = false := beq_false_of_ne fun hn => hne (by rw [hw, hn])
    simp only [Translator.context, h, hu, List.find?_append, List.find?_cons, hnot]

/-- The walk goes on when contexts are added. -/
theorem Translator.walking_added {t u : Translator} {l : List Context} (hu : u.contexts = t.contexts ++ l)
    (hwalker : u.walker = t.walker) (hwalking : t.walking.isSome = true) : u.walking = t.walking := by
  obtain ⟨c, hc⟩ := Option.isSome_iff_exists.mp hwalking
  rw [hc]
  rw [Translator.walking] at hc ⊢
  rw [hwalker]
  cases hw : t.walker with
  | none => rw [hw] at hc; exact hc
  | some n =>
    rw [hw] at hc
    simp only [Translator.context] at hc ⊢
    rw [hu, List.find?_append, hc]
    rfl

/-- The walk goes on when its context changes. -/
theorem Translator.walking_changed {t u : Translator} {pre post : List Context} {c d : Context} (h : t.contexts = pre ++ c :: post)
    (hu : u.contexts = pre ++ d :: post) (hnum : d.num = c.num) (hwalker : u.walker = t.walker) :
    u.walking.isSome = t.walking.isSome := by
  rw [Translator.walking, Translator.walking, hwalker]
  cases t.walker with
  | none => rfl
  | some n =>
    simp only [Translator.context, h, hu, List.find?_append, List.find?_cons, hnum]
    cases c.num == n <;> simp

/-! ### What is left due when a context completes -/

section
variable {s z : State} {pre post : List Context} {c : Context}

/-- A context that becomes COMPLETE behind an earlier read of its initiator leaves nothing due. -/
theorem State.NothingDue.completes {d : Context} (h : s.NothingDue) (hcontexts : s.translator.contexts = pre ++ c :: post)
    (hz : z.translator.contexts = pre ++ d :: post) (hnum : d.num = c.num) (hinitiator : d.initiator = c.initiator)
    (hstate : d.state = .waiting → c.state = .waiting ∧ d.cls = c.cls)
    (hearlier : d.state = .complete → ∃ x ∈ pre, x.initiator = c.initiator)
    (hwalker : z.translator.walker = s.translator.walker) (hpaused : z.translator.paused = s.translator.paused)
    (hfree : ∀ p : PieceId, z.translator.pieces[p].use.isNone = s.translator.pieces[p].use.isNone)
    (hintake : z.uport.intake = s.uport.intake) : z.NothingDue := by
  have hwalking := Translator.walking_changed hcontexts hz hnum hwalker
  have hmem {x : Context} (hx : x ∈ pre ++ post) : x ∈ s.translator.contexts := by
    rw [hcontexts]
    exact (List.mem_append.mp hx).elim (List.mem_append_left _) fun h => List.mem_append_right _ (List.mem_cons_of_mem _ h)
  refine ⟨?answer, ?place, fun hsome => ?resume, fun hidle x hx hwaiting => ?start⟩
  case answer =>
    have hnone := h.answer
    rw [hcontexts, answerable_split] at hnone
    rw [hz, answerable_split, hinitiator]
    exact ⟨hnone.1, hearlier, hnone.2.2⟩
  case place =>
    rw [hintake]
    refine h.place.imp id fun hall n => ?_
    obtain ⟨x, hx, hn⟩ := hall n
    rw [hcontexts] at hx
    rw [hz]
    rcases List.mem_append.mp hx with hx | hx
    · exact ⟨x, List.mem_append_left _ hx, hn⟩
    · rcases List.mem_cons.mp hx with rfl | hx
      · exact ⟨d, List.mem_append_right _ List.mem_cons_self, hnum.trans hn⟩
      · exact ⟨x, List.mem_append_right _ (List.mem_cons_of_mem _ hx), hn⟩
  case resume =>
    rw [hpaused]
    refine (h.resume (hwalking ▸ hsome)).imp id fun hall p hp => hall p ?_
    rw [← Option.isNone_iff_eq_none] at hp ⊢
    rw [← hfree p, hp]
  case start =>
    have hidle : s.translator.walking = none := by
      rw [← Option.not_isSome_iff_eq_none, ← hwalking, hidle]
      exact Bool.false_ne_true
    rw [hz] at hx
    rcases List.mem_append.mp hx with hx | hx
    · exact h.start hidle x (hmem (List.mem_append_left _ hx)) hwaiting
    · rcases List.mem_cons.mp hx with rfl | hx
      · obtain ⟨hc, hcls⟩ := hstate hwaiting
        exact hcls.trans (h.start hidle c (by rw [hcontexts]; simp) hc)
      · exact h.start hidle x (hmem (List.mem_append_right _ hx)) hwaiting

/-- An answer leaves nothing due, with the intake list empty and no paused walk, if no other context may be answered then. -/
theorem State.NothingDue.answered (hcontexts : s.translator.contexts = pre ++ c :: post)
    (hz : z.translator.contexts = pre ++ post) (hwalker : z.translator.walker = s.translator.walker)
    (hnot : s.translator.walker ≠ some c.num) (hanswer : answerable (pre ++ post) [] = []) (hintake : z.uport.intake = [])
    (hresume : z.translator.paused = false ∨ s.translator.walking = none)
    (hstart : s.translator.walking = none → ∀ x ∈ pre ++ post, x.state = .waiting → x.cls = .refused) : z.NothingDue := by
  have hwalking := Translator.walking_without hcontexts hz hwalker hnot
  refine ⟨hz ▸ hanswer, .inl hintake, fun hsome => .inl ?_, fun hidle => ?_⟩
  · refine hresume.resolve_right fun hnone => ?_
    rw [hwalking, hnone] at hsome
    exact Bool.false_ne_true hsome
  · rw [hz]
    exact hstart (hwalking ▸ hidle)

/-- A context that may be answered is, and nothing else follows. -/
theorem State.settleReads_answers (hcontexts : s.translator.contexts = pre ++ c :: post) (hpre : answerable pre [] = [])
    (hstate : c.state = .complete) (hfirst : ∀ x ∈ pre, x.initiator ≠ c.initiator) (hafter : (s.answerContext c).NothingDue) :
    s.settleReads = s.answerContext c :=
  State.settleReads_one (State.readConsequence_answer (Translator.nextAnswer_split hcontexts hpre hstate hfirst))
    (State.settled_iff.mp ((State.settled_iff_nothingDue _).mpr hafter))

end

end Sys2Proof.Machine
end

section
/-! PROOFS. Answers (O20) and the ends of sub-reads (O22, O23). -/

namespace Sys2Proof.Machine

open Sys2Proof

/-! ### READ_ANSWER -/

/-- The response of a read (R98, R117). -/
theorem Translator.answerOf_eq (t : Translator) (c : Context) :
    t.answerOf c =
      ⟨c.initiator, c.label, .read,
        if c.cls = .refused then .refused else if c.partialFlag = true then .partialData else .ok,
        if c.cls = .refused then [] else c.pieces.flatMap (t.recordBytes c)⟩ := by
  unfold Translator.answerOf Translator.assemble
  cases c.cls <;> rfl

theorem exec_readAnswer {s : State} (hs : s.resetting = none) (n : ContextId) :
    exec (.readAnswer n) s = .next (s.quiet.answerNumber n) := outsideReset_of_none hs fun t => t.answerNumber n

theorem mem_of_mem_answerable {cs : List Context} {seen : List Initiator} {c : Context} (h : c ∈ answerable cs seen) : c ∈ cs := by
  obtain ⟨pre, post, hsplit, -⟩ := (mem_answerable cs seen c).mp h
  exact hsplit ▸ List.mem_append_right _ List.mem_cons_self

section
variable {s : State} {pre post : List Context} {c : Context} (hcontexts : s.translator.contexts = pre ++ c :: post)
  (hnums : (s.translator.contexts.map (·.num)).Nodup)
include hcontexts

/-- The one COMPLETE context, with no earlier read of its initiator. -/
theorem State.answerNumber_only (hstate : c.state = .complete) (hothers : ∀ x ∈ pre ++ post, x.state ≠ .complete)
    (hfirst : ∀ x ∈ pre, x.initiator ≠ c.initiator) : s.answerNumber c.num = (s.answerContext c).settleReads := by
  have hpre := answerable_of_not_complete pre [] fun x hx => hothers x (List.mem_append_left _ hx)
  have hseen : c.initiator ∉ (pre.map (·.initiator)).reverse ++ [] := by simpa using hfirst
  have hfind : (answerable s.translator.contexts []).find? (fun x => x.num == c.num) = some c := by
    rw [hcontexts, answerable_append, hpre, List.nil_append, answerable, if_pos ⟨hstate, hseen⟩]
    simp
  rw [State.answerNumber, hfind]

include hnums in
/-- A context that is not COMPLETE, or has an earlier read of its initiator before it, is not answered (R98). -/
theorem State.answerNumber_not (h : c.state ≠ .complete ∨ ∃ x ∈ pre, x.initiator = c.initiator) : s.answerNumber c.num = s := by
  have hfind : (answerable s.translator.contexts []).find? (fun x => x.num == c.num) = none := by
    rw [hcontexts] at hnums ⊢
    have hnot : ¬(c.state = .complete ∧ c.initiator ∉ (pre.map (·.initiator)).reverse ++ []) := by
      rintro ⟨hstate, hseen⟩
      rcases h with h | ⟨x, hx, hi⟩
      · exact h hstate
      · exact hseen (by simpa using ⟨x, hx, hi⟩)
    rw [answerable_append, answerable, if_neg hnot, List.find?_eq_none]
    intro x hx
    rw [beq_iff_eq]
    refine nums_differ hnums ?_
    exact (List.mem_append.mp hx).elim (fun h => List.mem_append_left _ (mem_of_mem_answerable h))
      fun h => List.mem_append_right _ (mem_of_mem_answerable h)
  rw [State.answerNumber, hfind]

end

/-- Settles O20. -/
theorem answerFreesContextAndPieces : Obligations.AnswerFreesContextAndPieces := by
  unfold Obligations.AnswerFreesContextAndPieces
  intro s pre post c hs hcontexts hnums
  refine ⟨fun hstate hothers hfirst hintake hwalking hwalker hpaused => ?answered, fun hnot => ?waits⟩
  case answered =>
    obtain ⟨hrest, hfreed, hkept⟩ := State.answerContext_spec (s := s.quiet) hcontexts fun x => nums_differ (hcontexts ▸ hnums)
    obtain ⟨t, ht⟩ : ∃ t, t = s.quiet.answerContext c := ⟨_, rfl⟩
    rw [← ht] at hrest hfreed hkept
    have hnone := answerable_of_not_complete (pre ++ post) [] hothers
    have hbusy : s.translator.walking ≠ none := Option.isSome_iff_ne_none.mp hwalking
    have hdue : t.NothingDue :=
      State.NothingDue.answered (s := s) hcontexts (by rw [hrest]) (by rw [hrest]; rfl) hwalker hnone (by rw [hrest]; exact hintake)
        (.inl (by rw [hrest]; exact hpaused)) fun h => absurd h hbusy
    refine ⟨t, ?_, ?_, hfreed, hkept⟩
    · rw [exec_readAnswer hs, State.answerNumber_only (s := s.quiet) hcontexts hstate hothers hfirst, ← ht,
        State.settleReads_of_settled ((State.settled_iff_nothingDue t).mpr hdue)]
    · rw [← Translator.answerOf_eq]
      exact hrest
  case waits => rw [exec_readAnswer hs, State.answerNumber_not (s := s.quiet) hcontexts hnums hnot]; rfl

/-! ### The end of a sub-read -/

/-- The state `z` is `b` with the read path of `s`, in which piece record `p` has ended as `v` and its context `c` is `d` (R97, R100,
R130). -/
structure PieceEnded (s b z : State) (p : PieceId) (g : Bool) (u v : PieceUse) (pre post : List Context) (c d : Context) : Prop where
  ended : z =
    { b with
      translator :=
        { s.translator with
          contexts := pre ++ d :: post
          pieces := putAt s.translator.pieces p ⟨g, some v⟩ } }
  uport : b.uport = s.uport
  piece : s.translator.pieces[p] = ⟨g, some u⟩
  done : v.state = .done
  contexts : s.translator.contexts = pre ++ c :: post
  nums : (s.translator.contexts.map (·.num)).Nodup
  num : d.num = c.num
  initiator : d.initiator = c.initiator
  state : d.state = c.state
  cls : d.cls = c.cls
  pieces : d.pieces = c.pieces

namespace PieceEnded

variable {s b z : State} {p : PieceId} {g : Bool} {u v : PieceUse} {pre post : List Context} {c d : Context}

theorem zContexts (h : PieceEnded s b z p g u v pre post c d) : z.translator.contexts = pre ++ d :: post := by rw [h.ended]

theorem zNums (h : PieceEnded s b z p g u v pre post c d) : (z.translator.contexts.map (·.num)).Nodup := by
  have hsame : z.translator.contexts.map (·.num) = s.translator.contexts.map (·.num) := by
    rw [h.zContexts, h.contexts, List.map_append, List.map_append, List.map_cons, List.map_cons, h.num]
  exact hsame ▸ h.nums

theorem zPiece (h : PieceEnded s b z p g u v pre post c d) (q : PieceId) :
    z.translator.pieces[q] = if q = p then ⟨g, some v⟩ else s.translator.pieces[q] := by
  rw [h.ended]
  exact putAt_get _ _ _ _

theorem zFree (h : PieceEnded s b z p g u v pre post c d) (q : PieceId) :
    z.translator.pieces[q].use.isNone = s.translator.pieces[q].use.isNone := by
  rw [h.zPiece]
  split
  · next hq => rw [hq, h.piece]; rfl
  · rfl

theorem zIntake (h : PieceEnded s b z p g u v pre post c d) : z.uport.intake = s.uport.intake := by
  rw [h.ended, ← h.uport]

/-- With another piece not DONE the context is not complete (R97). -/
theorem not_allDone (h : PieceEnded s b z p g u v pre post c d)
    (hwaits : ∃ q ∈ c.pieces, q ≠ p ∧ ∃ x, s.translator.pieces[q].use = some x ∧ x.state ≠ .done) :
    z.translator.allDone d = false := by
  obtain ⟨q, hq, hne, x, huse, hstate⟩ := hwaits
  exact Translator.allDone_eq_false (h.pieces ▸ hq) (by rw [h.zPiece, if_neg hne, huse]) hstate

theorem allDone (h : PieceEnded s b z p g u v pre post c d)
    (hothers : ∀ q ∈ c.pieces, q ≠ p → ∃ x, s.translator.pieces[q].use = some x ∧ x.state = .done) :
    z.translator.allDone d = true := by
  refine List.all_eq_true.mpr fun q hq => ?_
  rw [Translator.pieceDone, h.zPiece]
  by_cases hqp : q = p
  · rw [if_pos hqp]
    exact beq_iff_eq.mpr h.done
  · obtain ⟨x, huse, hstate⟩ := hothers q (h.pieces ▸ hq) hqp
    rw [if_neg hqp, huse]
    exact beq_iff_eq.mpr hstate

/-- While its context waits for more, nothing else happens. -/
theorem waits (h : PieceEnded s b z p g u v pre post c d) (hsettled : s.settled)
    (hwaits : c.state ≠ .gathering ∨ ∃ q ∈ c.pieces, q ≠ p ∧ ∃ x, s.translator.pieces[q].use = some x ∧ x.state ≠ .done) :
    (z.gatherContext c.num).settleReads = z := by
  have hdue := (State.settled_iff_nothingDue s).mp hsettled
  have hstays : z.gatherContext d.num = z :=
    State.gatherContext_waits (by rw [h.zContexts]; simp) h.zNums
      (hwaits.imp (fun hstate => h.state ▸ hstate) h.not_allDone)
  have hearlier : d.state = .complete → ∃ x ∈ pre, x.initiator = c.initiator := by
    rw [h.state]
    have hnone := hdue.answer
    rw [h.contexts, answerable_split] at hnone
    exact hnone.2.1
  rw [← h.num, hstays]
  refine State.settleReads_of_settled ((State.settled_iff_nothingDue z).mpr ?_)
  exact hdue.completes h.contexts h.zContexts h.num h.initiator (fun hw => ⟨h.state ▸ hw, h.cls⟩) hearlier (by rw [h.ended])
    (by rw [h.ended]) h.zFree h.zIntake

/-- The last piece makes its context COMPLETE (R97, R100). -/
theorem gathers (h : PieceEnded s b z p g u v pre post c d) (hstate : c.state = .gathering)
    (hothers : ∀ q ∈ c.pieces, q ≠ p → ∃ x, s.translator.pieces[q].use = some x ∧ x.state = .done) :
    z.gatherContext c.num =
      { b with
        translator :=
          { s.translator with
            contexts := pre ++ { d with state := .complete } :: post
            pieces := putAt s.translator.pieces p ⟨g, some v⟩ } } := by
  rw [← h.num, State.gatherContext, State.mapContext,
    Translator.mapContext_split h.zContexts fun x => nums_differ (h.zContexts ▸ h.zNums),
    if_pos ⟨h.state.trans hstate, h.allDone hothers⟩]
  rw [h.ended]
  rfl

/-- The context that its last piece makes COMPLETE, ended in the same way. -/
theorem completed (h : PieceEnded s b z p g u v pre post c d) :
    PieceEnded { s with translator := { s.translator with contexts := pre ++ { c with state := .complete } :: post } } b
      { b with
        translator :=
          { s.translator with
            contexts := pre ++ { d with state := .complete } :: post
            pieces := putAt s.translator.pieces p ⟨g, some v⟩ } }
      p g u v pre post { c with state := .complete } { d with state := .complete } where
  ended := rfl
  uport := h.uport
  piece := h.piece
  done := h.done
  contexts := rfl
  nums := by
    have hsame : (pre ++ { c with state := .complete } :: post).map (·.num) = s.translator.contexts.map (·.num) := by
      rw [h.contexts, List.map_append, List.map_append, List.map_cons, List.map_cons]
    exact hsame ▸ h.nums
  num := h.num
  initiator := h.initiator
  state := rfl
  cls := h.cls
  pieces := h.pieces

/-- A COMPLETE context behind an earlier read of its initiator is not answered yet (R98). -/
theorem behind (h : PieceEnded s b z p g u v pre post c d) (hsettled : s.settled) (hstate : c.state = .gathering)
    (hothers : ∀ q ∈ c.pieces, q ≠ p → ∃ x, s.translator.pieces[q].use = some x ∧ x.state = .done)
    (hearlier : ∃ x ∈ pre, x.initiator = c.initiator) :
    (z.gatherContext c.num).settleReads =
      { b with
        translator :=
          { s.translator with
            contexts := pre ++ { d with state := .complete } :: post
            pieces := putAt s.translator.pieces p ⟨g, some v⟩ } } := by
  have hdue := (State.settled_iff_nothingDue s).mp hsettled
  rw [h.gathers hstate hothers]
  refine State.settleReads_of_settled ((State.settled_iff_nothingDue _).mpr ?_)
  exact hdue.completes h.contexts rfl h.num h.initiator (fun hw => (nomatch hw)) (fun _ => hearlier) rfl rfl
    (fun q => by rw [← h.zFree q, h.ended]) (congrArg UPort.intake h.uport)

/-- A COMPLETE context with no earlier read of its initiator is answered in the same event (R98 to R100). -/
theorem answered (h : PieceEnded s b z p g u v pre post c d) (hsettled : s.settled) (hlinks : b.links = Links.none)
    (hstate : c.state = .gathering) (hmem : p ∈ c.pieces)
    (hothers : ∀ q ∈ c.pieces, q ≠ p → ∃ x, s.translator.pieces[q].use = some x ∧ x.state = .done)
    (hcls : c.cls ≠ .refused) (hintake : s.uport.intake = [])
    (hpaused : s.translator.paused = false ∨ s.translator.walker = none) (hwalker : s.translator.walker ≠ some c.num)
    (hfirst : ∀ x ∈ pre, x.initiator ≠ c.initiator) (hlater : ∀ x ∈ post, x.initiator = c.initiator → x.state ≠ .complete) :
    ∃ t, (z.gatherContext c.num).settleReads = t ∧
      t =
        { b with
          translator := { s.translator with contexts := pre ++ post, pieces := t.translator.pieces }
          links :=
            ⟨[⟨c.initiator, d.label, .read, if d.partialFlag = true then .partialData else .ok,
                c.pieces.flatMap
                  (Translator.recordBytes
                    { s.translator with pieces := putAt s.translator.pieces p ⟨g, some v⟩ } d)⟩], [], none⟩ } ∧
      (∀ q ∈ c.pieces, t.translator.pieces[q] = ⟨s.translator.pieces[q].generation, none⟩) ∧
      ∀ q : PieceId, q ∉ c.pieces → t.translator.pieces[q] = s.translator.pieces[q] := by
  have hdue := (State.settled_iff_nothingDue s).mp hsettled
  have hnone := hdue.answer
  rw [h.contexts, answerable_split] at hnone
  obtain ⟨hpre, -, hpost⟩ := hnone
  obtain ⟨y, hy⟩ : ∃ y, y = z.gatherContext c.num := ⟨_, rfl⟩
  have hgathered := h.gathers hstate hothers
  rw [← hy] at hgathered ⊢
  have hended := h.completed
  rw [← hgathered] at hended
  obtain ⟨hrest, hfreed, hkept⟩ := State.answerContext_spec hended.zContexts fun x =>
    nums_differ (hended.zContexts ▸ hended.zNums)
  obtain ⟨t, ht⟩ : ∃ t, t = y.answerContext { d with state := .complete } := ⟨_, rfl⟩
  rw [← ht] at hrest hfreed hkept
  have hywalker : y.translator.walker = s.translator.walker := by rw [hgathered]
  have hwalking : y.translator.walking.isSome = s.translator.walking.isSome :=
    Translator.walking_changed h.contexts hended.zContexts h.num hywalker
  have hidle (hnot : y.translator.walking = none) : s.translator.walking = none := by
    rw [hnot] at hwalking
    exact Option.isSome_eq_false_iff.mp hwalking.symm |> Option.isNone_iff_eq_none.mp
  have hafter : t.NothingDue := by
    refine State.NothingDue.answered hended.zContexts (by rw [hrest]) (by rw [hrest]) ?_ ?_ ?_ ?_ fun hnot x hx => ?_
    · rw [hywalker]
      exact fun hw => hwalker (hw.trans (congrArg some h.num))
    · rw [answerable_append, hpre, List.nil_append]
      exact answerable_unseen (by simpa using hpost) hlater
    · rw [hrest, hgathered]
      exact (congrArg UPort.intake h.uport).trans hintake
    · refine hpaused.imp (fun hoff => by rw [hrest, hgathered]; exact hoff) fun hnot => ?_
      rw [Translator.walking, hywalker, hnot]
    · refine hdue.start (hidle hnot) x ?_
      rw [h.contexts]
      exact (List.mem_append.mp hx).elim (List.mem_append_left _) fun hx => List.mem_append_right _ (List.mem_cons_of_mem _ hx)
  have hanswered : y.settleReads = t := ht ▸
    State.settleReads_answers hended.zContexts hpre rfl (fun x hx => h.initiator.symm ▸ hfirst x hx) (ht ▸ hafter)
  refine ⟨t, hanswered, ?_, fun q hq => ?_, fun q hq => ?_⟩
  · rw [Translator.answerOf_eq] at hrest
    simp only [h.initiator, h.cls, hcls, if_false, h.pieces] at hrest
    rw [hgathered, hlinks] at hrest
    exact hrest
  · rw [hfreed q (h.pieces ▸ hq), hended.zPiece]
    split
    · next hqp => rw [hqp, h.piece]
    · rfl
  · have hne : q ≠ p := fun hqp => hq (hqp ▸ hmem)
    rw [hkept q (h.pieces ▸ hq), hended.zPiece, if_neg hne]

end PieceEnded

/-- An IMAGE piece's read hold is released, and a piece of another kind has none (R100). -/
theorem State.releasePiece_image {s : State} {u : PieceUse} {f : ImagePiece} {y : Source} (hkind : u.kind = .image f)
    (hstate : s.sources[f.source].state ≠ .closing) (h : s.sources[f.source].readHoldReleased f.buffer y) :
    s.releasePiece u = s.putSource f.source y := by
  rw [State.releasePiece, hkind]
  exact State.releaseReadHold_eq hstate h

theorem State.releasePiece_plain {s : State} {u : PieceUse} {a n : Nat} (hkind : u.kind = .plain a n) : s.releasePiece u = s := by
  rw [State.releasePiece, hkind]

/-- Settles O22. -/
theorem readDataCompletesPiece : Obligations.ReadDataCompletesPiece := by
  unfold Obligations.ReadDataCompletesPiece
  intro s e p g d u timer pre post c hs hsettled hpiece hstate hcontexts hnums hcontext hkind
  obtain ⟨v, hv⟩ : ∃ v : PieceUse, v = { u with state := .done, data := some d } := ⟨_, rfl⟩
  obtain ⟨w, hw⟩ : ∃ w, w = s.quiet.putUse p (some v) := ⟨_, rfl⟩
  have hexec : exec (.downstreamResponse (.readOk p g d)) s = .next ((w.releasePiece u).gatherContext c.num).settleReads := by
    have hlength : d.length = 32 * u.kind.subRead.2 ∧ 1 ≤ u.kind.subRead.2 ∧ u.kind.subRead.2 ≤ 16 := by
      rcases hkind with ⟨a, n, hk, hmin, hmax, hlen, -⟩ | ⟨f, y, hk, hmin, hmax, hlen, -⟩
      · rw [hk]
        exact ⟨hlen, hmin, hmax⟩
      · rw [hk]
        exact ⟨hlen, hmin, hmax⟩
    rw [exec_readOk hs hpiece hstate hlength.1 hlength.2.1 hlength.2.2, State.pieceData, ← hv, ← hw, hcontext]
  have hput : w =
      { s with
        translator :=
          { s.translator with contexts := pre ++ c :: post, pieces := putAt s.translator.pieces p ⟨g, some v⟩ }
        links := Links.none } := by
    rw [hw, State.putUse, State.quiet_translator, hpiece, ← hcontexts]
    rfl
  have hended : PieceEnded s e (w.releasePiece u) p g u v pre post c c := by
    refine ⟨?_, ?_, hpiece, hv ▸ rfl, hcontexts, hnums, rfl, rfl, rfl, rfl, rfl⟩
    · rcases hkind with ⟨a, n, hk, -, -, -, he⟩ | ⟨f, y, hk, -, -, -, hopen, hreleased, he⟩
      · rw [State.releasePiece_plain hk, hput, he]
      · rw [State.releasePiece_image hk (by rw [hput]; exact hopen) (by rw [hput]; exact hreleased), hput, he]
        rfl
    · rcases hkind with ⟨a, n, -, -, -, -, he⟩ | ⟨f, y, -, -, -, -, -, -, he⟩
      · rw [he]
      · rw [he]
  have hlinks : e.links = Links.none := by
    rcases hkind with ⟨a, n, -, -, -, -, he⟩ | ⟨f, y, -, -, -, -, -, -, he⟩
    · rw [he]
    · rw [he]
  rw [hexec, ← hv]
  refine ⟨fun hwaits => ?waits, fun hgathering hmem hothers => ⟨fun hearlier => ?behind,
    fun hcls hintake hpaused hwalker hfirst hlater => ?answered⟩⟩
  case waits =>
    rw [hended.waits hsettled hwaits, hended.ended, ← hcontexts]
  case behind => rw [hended.behind hsettled hgathering hothers hearlier]
  case answered =>
    obtain ⟨t, hsettles, hrest⟩ :=
      hended.answered hsettled hlinks hgathering hmem hothers hcls hintake hpaused hwalker hfirst hlater
    exact ⟨t, congrArg _ hsettles, hrest⟩

end Sys2Proof.Machine
end

section
/-! PROOFS. Failed reads (O23). -/

namespace Sys2Proof.Machine

open Sys2Proof

theorem Translator.context_split {t : Translator} {pre post : List Context} {c : Context} (h : t.contexts = pre ++ c :: post)
    (hnums : (t.contexts.map (·.num)).Nodup) : t.context c.num = some c := by
  rw [h] at hnums
  have hpre : pre.find? (fun x => x.num == c.num) = none :=
    List.find?_eq_none.mpr fun x hx => by
      rw [beq_iff_eq]
      exact nums_differ hnums (List.mem_append_left _ hx)
  rw [Translator.context, h, List.find?_append, hpre]
  simp

theorem State.mapContext_split {s : State} {pre post : List Context} {c : Context} (h : s.translator.contexts = pre ++ c :: post)
    (hothers : ∀ x ∈ pre ++ post, x.num ≠ c.num) (f : Context → Context) :
    s.mapContext c.num f = { s with translator := { s.translator with contexts := pre ++ f c :: post } } := by
  rw [State.mapContext, Translator.mapContext_split h hothers]
  rfl

theorem Translator.issuedUse_eq_some {t : Translator} {p : PieceId} {g : Bool} {u : PieceUse} {timer : Deadline}
    (h : t.pieces[p] = ⟨g, some u⟩) (hstate : u.state = .issued timer) : t.issuedUse p = some u := by
  simp only [Translator.issuedUse, h, hstate]

theorem Translator.issuedUse_eq_none {t : Translator} {p : PieceId}
    (h : t.pieces[p].use = none ∨ ∃ u, t.pieces[p].use = some u ∧ (u.state = .queued ∨ u.state = .done)) :
    t.issuedUse p = none := by
  rw [Translator.issuedUse]
  rcases h with h | ⟨u, h, hstate | hstate⟩
  · rw [h]
  · simp only [h, hstate]
  · simp only [h, hstate]

theorem exec_readTimeout {s : State} (hs : s.resetting = none) (p : PieceId) :
    exec (.readTimeout p) s = .next (s.quiet.readExpires p) := outsideReset_of_none hs fun t => t.readExpires p

/-- A read fails by its deadline, by an ERROR response or by data of a wrong length (R130). -/
theorem exec_pieceFails {s : State} {p : PieceId} {g : Bool} {u : PieceUse} {timer : Deadline} {i : Instr} {cls : ErrClass}
    (hs : s.resetting = none) (hpiece : s.translator.pieces[p] = ⟨g, some u⟩) (hstate : u.state = .issued timer)
    (hi : (i = .readTimeout p ∧ cls = .readTimeout) ∨ (i = .downstreamResponse (.readError p g) ∧ cls = .readError) ∨
      ∃ d : List Byte, i = .downstreamResponse (.readOk p g d) ∧ i.wellFormed = true ∧ d.length ≠ 32 * u.kind.subRead.2 ∧
        cls = .readError) :
    exec i s = .next (s.quiet.pieceFails cls p u) := by
  have hissued : s.quiet.translator.issuedUse p = some u := Translator.issuedUse_eq_some hpiece hstate
  have hmatched : s.quiet.translator.matchedPiece p g = some u := Translator.matchedPiece_eq_some hpiece hstate
  rcases hi with ⟨rfl, rfl⟩ | ⟨rfl, rfl⟩ | ⟨d, rfl, hwell, hlength, rfl⟩
  · rw [exec_readTimeout hs, State.readExpires, hissued]
  · rw [exec_downstreamResponse_of_none hs rfl, State.takeResponse]
    simp only [hmatched]
  · rw [exec_downstreamResponse_of_none (r := .readOk p g d) hs hwell, State.takeResponse]
    simp only [hmatched, hlength, if_false]

/-- Settles O23. -/
theorem failedReadErrorFillsPiece : Obligations.FailedReadErrorFillsPiece := by
  unfold Obligations.FailedReadErrorFillsPiece
  refine ⟨?fails, fun s p hs huse => ?idle⟩
  case fails =>
    intro s e p g u w a n src timer pre post c i cls hs hsettled hpiece hstate hcontexts hnums hcontext hkind hi hw
    have hsub : u.kind.subRead = (a, n) ∧ u.eventSource = src := by
      rcases hkind with ⟨hk, rfl, -⟩ | ⟨f, y, hk, rfl, rfl, rfl, -⟩
      · rw [PieceUse.eventSource, hk]
        exact ⟨rfl, rfl⟩
      · rw [PieceUse.eventSource, hk]
        exact ⟨rfl, rfl⟩
    have hevent : s.quiet.readEvent cls u = ⟨cls, some c.initiator, some a, src, none⟩ := by
      have hinitiator : s.quiet.pieceInitiator u = some c.initiator := by
        rw [State.pieceInitiator, hcontext, State.quiet_translator, Translator.context_split hcontexts hnums]
        rfl
      rw [State.readEvent, hinitiator, hsub.1, hsub.2]
    obtain ⟨x, hx⟩ : ∃ x, x = ((s.quiet.record ⟨cls, some c.initiator, some a, src, none⟩).putUse p (some w)).mapContext c.num
        fun y => { y with partialFlag := true } := ⟨_, rfl⟩
    have hexec : exec i s = .next ((x.releasePiece u).gatherContext c.num).settleReads := by
      rw [exec_pieceFails hs hpiece hstate (by rw [hsub.1]; exact hi), State.pieceFails, hevent, hx, hw, hcontext]
      rfl
    have hput : x =
        { s with
          translator :=
            { s.translator with
              contexts := pre ++ { c with partialFlag := true } :: post
              pieces := putAt s.translator.pieces p ⟨g, some w⟩ }
          capture := s.capture.record s.governor.frameCount ⟨cls, some c.initiator, some a, src, none⟩
          links := Links.none } := by
      rw [hx, State.mapContext_split (s := (s.quiet.record _).putUse p (some w)) hcontexts fun x => nums_differ (hcontexts ▸ hnums),
        State.putUse, State.record_translator, State.quiet_translator, hpiece]
      rfl
    obtain ⟨b, hb⟩ : ∃ b : State, b =
        { e with
          capture := s.capture.record s.governor.frameCount ⟨cls, some c.initiator, some a, src, none⟩
          links := Links.none } := ⟨_, rfl⟩
    have hended : PieceEnded s b (x.releasePiece u) p g u w pre post c { c with partialFlag := true } := by
      refine ⟨?_, ?_, hpiece, hw ▸ rfl, hcontexts, hnums, rfl, rfl, rfl, rfl, rfl⟩
      · rcases hkind with ⟨hk, -, rfl⟩ | ⟨f, y, hk, -, -, -, hopen, hreleased, rfl⟩
        · rw [State.releasePiece_plain hk, hput, hb]
        · rw [State.releasePiece_image hk (by rw [hput]; exact hopen) (by rw [hput]; exact hreleased), hput, hb]
          rfl
      · rcases hkind with ⟨-, -, rfl⟩ | ⟨f, y, -, -, -, -, -, -, rfl⟩
        · rw [hb]
        · rw [hb]
    rw [hexec]
    refine ⟨fun hwaits => ?waits, fun hgathering hmem hothers => ⟨fun hearlier => ?behind,
      fun hcls hintake hpaused hwalker hfirst hlater => ?answered⟩⟩
    case waits => rw [hended.waits hsettled hwaits, hended.ended, hb]
    case behind => rw [hended.behind hsettled hgathering hothers hearlier, hb]
    case answered =>
      obtain ⟨t, hsettles, hrest, hpieces⟩ :=
        hended.answered hsettled (by rw [hb]) hgathering hmem hothers hcls hintake hpaused hwalker hfirst hlater
      rw [hb] at hrest
      exact ⟨t, congrArg _ hsettles, hrest, hpieces⟩
  case idle =>
    have hnone : s.quiet.translator.issuedUse p = none := Translator.issuedUse_eq_none huse
    rw [exec_readTimeout hs, State.readExpires, hnone]
    rfl

end Sys2Proof.Machine
end

section
/-! PROOFS. Placement (O13) and walk starts (O14). -/

namespace Sys2Proof.Machine

open Sys2Proof

/-! ### Free numbers -/

/-- R96. -/
theorem Translator.freeContext_eq_some {t : Translator} {n : ContextId} (hfree : ∀ c ∈ t.contexts, c.num ≠ n)
    (hfirst : ∀ m : ContextId, m < n → ∃ c ∈ t.contexts, c.num = m) : t.freeContext = some n := by
  refine finRange_find.mpr ⟨List.all_eq_true.mpr fun c hc => bne_iff_ne.mpr (hfree c hc), fun m hm => ?_⟩
  obtain ⟨c, hc, hnum⟩ := hfirst m hm
  exact List.all_eq_false.mpr ⟨c, hc, by rw [hnum]; simp⟩

/-- R99. -/
theorem Translator.freePiece_eq_some {t : Translator} {p : PieceId} (hfree : t.pieces[p].use = none)
    (hfirst : ∀ m : PieceId, m < p → t.pieces[m].use ≠ none) : t.freePiece = some p := by
  refine finRange_find.mpr ⟨by rw [hfree]; rfl, fun m hm => ?_⟩
  rw [Option.isNone_eq_false_iff, Option.isSome_iff_ne_none]
  exact hfirst m hm

/-! ### Placement -/

theorem exec_contextPlacement {s : State} (hs : s.resetting = none) : exec .contextPlacement s = .next s.quiet.placeOldest :=
  outsideReset_of_none hs State.placeOldest

theorem State.placeInto_eq (s : State) (n : ContextId) (e : IntakeEntry) (rest : List IntakeEntry) :
    s.placeInto n e rest =
      { s with
        uport := { s.uport with intake := rest }
        translator := { s.translator with contexts := s.translator.contexts ++ [placedContext n e] } } := rfl

/-- A placed read waits, except a refused one, which is COMPLETE (R96). -/
theorem placedContext_waiting {e : IntakeEntry} (h : e.cls ≠ .refused) (n : ContextId) :
    placedContext n e = ⟨n, e.initiator, e.label, e.address, e.beats, e.cls, none, [], false, .waiting⟩ := by
  rw [placedContext, if_neg h]

theorem placedContext_refused {e : IntakeEntry} (h : e.cls = .refused) (n : ContextId) :
    placedContext n e = ⟨n, e.initiator, e.label, e.address, e.beats, .refused, none, [], false, .complete⟩ := by
  rw [placedContext, if_pos h, h]

section
variable {s : State} {e : IntakeEntry} {n : ContextId}

/-- A read placed behind a walk in progress waits. -/
theorem State.placeInto_waits (hwalking : s.translator.walking.isSome = true)
    (hresume : s.translator.paused = false ∨ ∀ p : PieceId, s.translator.pieces[p].use ≠ none)
    (hnone : answerable s.translator.contexts [] = []) (hcls : e.cls ≠ .refused) :
    (s.placeInto n e []).settleReads = s.placeInto n e [] := by
  refine State.settleReads_of_settled ((State.settled_iff_nothingDue _).mpr ⟨?_, .inl rfl, fun _ => hresume, fun hidle => ?_⟩)
  · show answerable (s.translator.contexts ++ [placedContext n e]) [] = []
    rw [placedContext_waiting hcls, answerable_split]
    exact ⟨hnone, fun h => (nomatch h), rfl⟩
  · have hbusy : (s.placeInto n e []).translator.walking = s.translator.walking :=
      Translator.walking_added (l := [placedContext n e]) rfl rfl hwalking
    rw [← hbusy, hidle] at hwalking
    exact absurd hwalking Bool.false_ne_true

/-- A refused read with no earlier read of its initiator is placed and answered at once (R96, R98). -/
theorem State.placeInto_answers (hnone : answerable s.translator.contexts [] = [])
    (hresume : s.translator.walking.isSome = true → s.translator.paused = false ∨ ∀ p : PieceId, s.translator.pieces[p].use ≠ none)
    (hstart : s.translator.walking = none → ∀ c ∈ s.translator.contexts, c.state = .waiting → c.cls = .refused)
    (hfree : ∀ c ∈ s.translator.contexts, c.num ≠ n) (hcls : e.cls = .refused)
    (hfirst : ∀ c ∈ s.translator.contexts, c.initiator ≠ e.initiator) :
    (s.placeInto n e []).settleReads =
      { s with
        uport := { s.uport with intake := [] }
        links := { s.links with responses := s.links.responses ++ [⟨e.initiator, e.label, .read, .refused, []⟩] } } := by
  have hcontexts : (s.placeInto n e []).translator.contexts = s.translator.contexts ++ placedContext n e :: [] := rfl
  have hnum : (placedContext n e).num = n := rfl
  have hanswer : (s.placeInto n e []).answerContext (placedContext n e) =
      { s with
        uport := { s.uport with intake := [] }
        links := { s.links with responses := s.links.responses ++ [⟨e.initiator, e.label, .read, .refused, []⟩] } } := by
    rw [State.answerContext_without_pieces hcontexts (by rw [List.append_nil, hnum]; exact hfree) rfl, List.append_nil,
      Translator.answerOf_eq, placedContext_refused hcls]
    rfl
  have hdone : (placedContext n e).state = .complete := by rw [placedContext_refused hcls]
  rw [← hanswer]
  refine State.settleReads_answers hcontexts hnone hdone hfirst ?_
  rw [hanswer]
  exact ⟨hnone, .inl rfl, hresume, hstart⟩

end

/-- Settles O13. -/
theorem placementTakesLowestFreeContext : Obligations.PlacementTakesLowestFreeContext := by
  unfold Obligations.PlacementTakesLowestFreeContext
  intro s e hs hintake hwalking hresume hcomplete
  have hnone := answerable_of_not_complete s.translator.contexts [] hcomplete
  refine ⟨fun n hfree hfirst => ?_, fun hall => ?_⟩
  · have hplace : s.quiet.placeOldest = (s.quiet.placeInto n e []).settleReads := by
      rw [State.placeOldest, State.quiet_uport, hintake, State.quiet_translator, Translator.freeContext_eq_some hfree hfirst]
    rw [exec_contextPlacement hs, hplace]
    refine ⟨fun hcls => ?_, fun hcls hinitiator => ?_⟩
    · rw [State.placeInto_waits (s := s.quiet) hwalking hresume hnone hcls, State.placeInto_eq, placedContext_waiting hcls]
      rfl
    · have hbusy : s.translator.walking ≠ none := Option.isSome_iff_ne_none.mp hwalking
      rw [State.placeInto_answers (s := s.quiet) hnone (fun _ => hresume) (fun h => absurd h hbusy) hfree hcls hinitiator]
      rfl
  · have hnot : s.quiet.placeOldest = s.quiet := by
      rw [State.placeOldest, State.quiet_uport, hintake, State.quiet_translator, Translator.freeContext_none.mpr hall]
    rw [exec_contextPlacement hs, hnot]
    rfl

/-! ### Walk starts -/

theorem exec_walkStart {s : State} (hs : s.resetting = none) : exec .walkStart s = .next s.quiet.startEarliest :=
  outsideReset_of_none hs State.startEarliest

/-- R101. -/
theorem Translator.firstWaiting_split {t : Translator} {pre post : List Context} {c : Context} (h : t.contexts = pre ++ c :: post)
    (hstate : c.state = .waiting) (hcls : c.cls ≠ .refused) (hpre : ∀ x ∈ pre, x.state = .waiting → x.cls = .refused) :
    t.firstWaiting = some c := by
  have hnone : pre.find? (fun x => x.state == .waiting && x.cls != .refused) = none :=
    List.find?_eq_none.mpr fun x hx => by simpa using hpre x hx
  rw [Translator.firstWaiting, h, List.find?_append, hnone]
  simp [hstate, hcls]

/-- The read lane after a piece of kind `k` has entered in record `p` (R100). -/
def DPort.entered (d : DPort) (k : PieceKind) (p : PieceId) : DPort :=
  match k with
  | .colour _ => d
  | _ => { d with readLane := d.readLane ++ [p] }

/-- The sources after a piece of kind `k` has entered: an IMAGE piece takes a read hold (R39, R100). -/
def State.sourcesHeld (s : State) (k : PieceKind) : Vector Source 16 :=
  match k with
  | .image f =>
    putAt s.sources f.source
      { s.sources[f.source] with
        bufs :=
          s.sources[f.source].bufs.put f.buffer
            { s.sources[f.source].bufs.get f.buffer with readHold := (s.sources[f.source].bufs.get f.buffer).readHold + 1 } }
  | _ => s.sources

section
variable {s : State} {pre post : List Context} {c : Context} (hcontexts : s.translator.contexts = pre ++ c :: post)
  (hothers : ∀ x ∈ pre ++ post, x.num ≠ c.num)
include hcontexts hothers

/-! ### A piece enters -/

/-- A generated piece takes its record, joins its context, and takes its read hold or joins the read lane (R99, R100, R102). -/
theorem State.enterPiece_eq (p : PieceId) (u : PieceUse) :
    s.enterPiece c p u =
      { s with
        sources := s.sourcesHeld u.kind
        translator :=
          { s.translator with
            contexts := pre ++ { c with pieces := c.pieces ++ [p] } :: post
            pieces := putAt s.translator.pieces p ⟨s.translator.pieces[p].generation, some u⟩ }
        dport := s.dport.entered u.kind p } := by
  rw [State.enterPiece, State.mapContext_split (s := s.putUse p (some u)) hcontexts hothers]
  cases u.kind <;> rfl

/-! ### The end of a walk -/

/-- The state of a context after its walk (R97, R104). -/
def Translator.walkedState (t : Translator) (c : Context) : ContextState := if t.allDone c then .complete else .gathering

/-- The end of a plain walk (R104). -/
theorem State.endWalk_plain (hcls : c.cls = .plain) :
    s.endWalk c =
      { s with
        translator :=
          { s.translator with
            contexts := pre ++ { c with state := s.translator.walkedState c } :: post
            walker := none
            paused := false } } := by
  unfold State.endWalk
  split
  · next h => exact nomatch hcls.symm.trans h
  · dsimp only
    rw [Translator.mapContext_split hcontexts hothers]
    rfl
  · next h => exact nomatch hcls.symm.trans h

/-- The end of a canvas walk frees the bank, which may end DRAIN (R84, R104). -/
theorem State.endWalk_canvas (hcls : c.cls = .canvas) :
    s.endWalk c =
      State.endDrainWait
        { s with
          layout := { s.layout with hold := none }
          translator :=
            { s.translator with
              contexts := pre ++ { c with state := s.translator.walkedState c } :: post
              walker := none
              paused := false } } := by
  unfold State.endWalk
  split
  · dsimp only
    rw [Translator.mapContext_split hcontexts hothers]
    rfl
  · next h => exact nomatch hcls.symm.trans h
  · next h => exact nomatch hcls.symm.trans h

/-! ### The start of a walk -/

/-- R82, R101. -/
theorem State.startWalk_canvas (hcls : c.cls = .canvas) :
    s.startWalk c =
      { s with
        layout := { s.layout with hold := some s.layout.active }
        translator :=
          { s.translator with
            contexts := pre ++ { c with state := .walking, place := some (s.placeOf c) } :: post
            walker := some c.num
            paused := false } } := by
  unfold State.startWalk
  split
  · rw [Translator.mapContext_split hcontexts hothers]
    rfl
  · next h => exact nomatch hcls.symm.trans h
  · next h => exact nomatch hcls.symm.trans h

/-- A plain walk starts with its one generation event (R101). -/
theorem State.startWalk_plain (hcls : c.cls = .plain) :
    s.startWalk c =
      State.generate
        { s with
          translator :=
            { s.translator with
              contexts := pre ++ { c with state := .walking } :: post
              walker := some c.num
              paused := false } }
        { c with state := .walking } := by
  unfold State.startWalk
  split
  · next h => exact nomatch hcls.symm.trans h
  · rw [Translator.mapContext_split hcontexts hothers]
    rfl
  · next h => exact nomatch hcls.symm.trans h

end

theorem State.generate_pauses {s : State} (h : s.translator.freePiece = none) (c : Context) :
    s.generate c = { s with translator := { s.translator with paused := true } } := by
  rw [State.generate, h]
  rfl

theorem State.generate_enters {s : State} {p : PieceId} (h : s.translator.freePiece = some p) (c : Context) :
    s.generate c = s.generateInto c p := by
  rw [State.generate, h]

/-- The state after a generation event of context `c`, which stands between `pre` and `post`, with record `p`, but for the end of the
walk (R102). -/
def State.pieceEntered (s : State) (pre post : List Context) (c : Context) (p : PieceId) (u : PieceUse) : State :=
  { s with
    sources := s.sourcesHeld u.kind
    translator :=
      { s.translator with
        contexts := pre ++ { c with pieces := c.pieces ++ [p] } :: post
        pieces := putAt s.translator.pieces p ⟨s.translator.pieces[p].generation, some u⟩
        paused := false }
    dport := s.dport.entered u.kind p }

section
variable {s : State} {pre post : List Context} {c : Context} {p : PieceId} {u : PieceUse}
  (hcontexts : s.translator.contexts = pre ++ c :: post) (hothers : ∀ x ∈ pre ++ post, x.num ≠ c.num)
  (hu : s.pieceDue c (s.translator.nextPixel c) = u)
include hcontexts hothers hu

/-- The walk goes on (R102). -/
theorem State.generateInto_goes (h : u.first + u.count < c.beats * 8) : s.generateInto c p = s.pieceEntered pre post c p u := by
  rw [State.generateInto, hu, State.enterPiece_eq hcontexts hothers]
  exact if_neg (Nat.not_le.mpr h)

/-- The piece that covers the last pixel ends the walk (R102, R104). -/
theorem State.generateInto_ends (h : c.beats * 8 ≤ u.first + u.count) :
    s.generateInto c p = (s.pieceEntered pre post c p u).endWalk { c with pieces := c.pieces ++ [p] } := by
  rw [State.generateInto, hu, State.enterPiece_eq hcontexts hothers]
  exact if_pos h

end

/-- The record of a plain read's one piece (R102, R113). -/
def Context.plainPiece (c : Context) : PieceUse := ⟨c.num, 0, c.beats * 8, .plain c.address c.beats, .queued, none, none⟩

section
variable {s : State} {pre post : List Context} {c : Context} (hcontexts : s.translator.contexts = pre ++ c :: post)
  (hothers : ∀ x ∈ pre ++ post, x.num ≠ c.num) (hcls : c.cls = .plain)
include hcontexts hothers hcls

/-- A plain walk with no record free pauses (R103). -/
theorem State.startWalk_pauses (hfree : s.translator.freePiece = none) :
    s.startWalk c =
      { s with
        translator :=
          { s.translator with
            contexts := pre ++ { c with state := .walking } :: post
            walker := some c.num
            paused := true } } := by
  rw [State.startWalk_plain hcontexts hothers hcls, State.generate_pauses]
  exact hfree

/-- A plain walk with a record free takes its one piece and ends (R101, R102, R104). -/
theorem State.startWalk_ends {p : PieceId} (hplace : c.place = none) (hpieces : c.pieces = [])
    (hfree : s.translator.freePiece = some p) :
    s.startWalk c =
      { s with
        translator :=
          { s.translator with
            contexts := pre ++ { c with state := .gathering, pieces := [p] } :: post
            pieces := putAt s.translator.pieces p ⟨s.translator.pieces[p].generation, some c.plainPiece⟩
            walker := none
            paused := false }
        dport := { s.dport with readLane := s.dport.readLane ++ [p] } } := by
  obtain ⟨d, hd⟩ : ∃ d : Context, d = { c with state := .walking } := ⟨_, rfl⟩
  obtain ⟨w, hw⟩ : ∃ w : State, w =
      { s with
        translator := { s.translator with contexts := pre ++ d :: post, walker := some c.num, paused := false } } := ⟨_, rfl⟩
  rw [State.startWalk_plain hcontexts hothers hcls, ← hd, ← hw, State.generate_enters (p := p) (by rw [hw]; exact hfree)]
  have hdue : w.pieceDue d (w.translator.nextPixel d) = c.plainPiece := by
    simp only [hd, State.pieceDue, hplace]
    rfl
  have hwcontexts : w.translator.contexts = pre ++ d :: post := by rw [hw]
  have hwothers : ∀ x ∈ pre ++ post, x.num ≠ d.num := hd ▸ hothers
  have hqueued : (w.pieceEntered pre post d p c.plainPiece).translator.allDone { d with pieces := d.pieces ++ [p] } = false :=
    Translator.allDone_eq_false (q := p) (v := c.plainPiece) (by simp) (congrArg Piece.use (putAt_same_fin _ _ _))
      fun h => nomatch h
  have hlast : d.beats * 8 ≤ c.plainPiece.first + c.plainPiece.count := by
    rw [hd]
    exact le_of_eq (Nat.zero_add _).symm
  rw [State.generateInto_ends hwcontexts hwothers hdue hlast,
    State.endWalk_plain (c := { d with pieces := d.pieces ++ [p] }) rfl hwothers (by rw [hd]; exact hcls),
    Translator.walkedState, hqueued, hw, hd]
  simp only [hpieces]
  rfl

end

/-- With no COMPLETE context and an empty intake list only the walk may go on. -/
theorem State.settleReads_without_complete {s : State} (hcomplete : ∀ c ∈ s.translator.contexts, c.state ≠ .complete)
    (hintake : s.uport.intake = [])
    (hresume : s.translator.walking ≠ none → s.translator.paused = false ∨ ∀ p : PieceId, s.translator.pieces[p].use ≠ none)
    (hstart : s.translator.walking = none → ∀ c ∈ s.translator.contexts, c.state = .waiting → c.cls = .refused) :
    s.settleReads = s :=
  State.settleReads_of_settled ((State.settled_iff_nothingDue s).mpr
    ⟨answerable_of_not_complete _ _ hcomplete, .inl hintake, fun h => hresume (Option.isSome_iff_ne_none.mp h), hstart⟩)

theorem Translator.walking_of_split {t : Translator} {pre post : List Context} {d : Context} {n : ContextId}
    (h : t.contexts = pre ++ d :: post) (hnum : d.num = n) (hwalker : t.walker = some n) : t.walking ≠ none := by
  rw [Translator.walking, hwalker, ← Option.isSome_iff_ne_none]
  simp [Translator.context, h, hnum]

/-- Settles O14. -/
theorem walkStartsEarliestWaiting : Obligations.WalkStartsEarliestWaiting := by
  unfold Obligations.WalkStartsEarliestWaiting
  intro s pre post c hs hwalker hintake hcontexts hnums hstate hpre hcomplete
  have hdiffer : ∀ x ∈ pre ++ post, x.num ≠ c.num := fun x => nums_differ (hcontexts ▸ hnums)
  have hincomplete {x : Context} (hx : x ∈ pre ++ post) : x.state ≠ .complete := by
    refine hcomplete x ?_
    rw [hcontexts]
    exact (List.mem_append.mp hx).elim (List.mem_append_left _) fun hx => List.mem_append_right _ (List.mem_cons_of_mem _ hx)
  have hnone {d : Context} (hd : d.state ≠ .complete) (x : Context) (hx : x ∈ pre ++ d :: post) : x.state ≠ .complete := by
    rcases List.mem_append.mp hx with hx | hx
    · exact hincomplete (List.mem_append_left _ hx)
    · rcases List.mem_cons.mp hx with rfl | hx
      · exact hd
      · exact hincomplete (List.mem_append_right _ hx)
  have hstarts (hcls : c.cls ≠ .refused) : exec .walkStart s = .next (s.quiet.startWalk c).settleReads := by
    have hfirst := Translator.firstWaiting_split hcontexts hstate hcls fun x hx h => absurd h (hpre x hx)
    rw [exec_walkStart hs, State.startEarliest, State.quiet_translator, hwalker, hfirst]
  refine ⟨fun hcls => ?canvas, fun hcls hplace hpieces hbeats hpost => ⟨fun n hfree hfirst => ?ends, fun hused => ?pauses⟩⟩
  case canvas =>
    obtain ⟨w, hw⟩ : ∃ w, w = s.quiet.startWalk c := ⟨_, rfl⟩
    have hwalk := hw.trans (State.startWalk_canvas (s := s.quiet) hcontexts hdiffer hcls)
    have hcontexts' : w.translator.contexts = pre ++ { c with state := .walking, place := some (s.quiet.placeOf c) } :: post := by
      rw [hwalk]
    have hsettles : w.settleReads = w :=
      State.settleReads_without_complete (hcontexts' ▸ hnone fun h => nomatch h) (by rw [hwalk]; exact hintake)
        (fun _ => .inl (by rw [hwalk]))
        fun hidle => absurd hidle (Translator.walking_of_split hcontexts' rfl (by rw [hwalk]))
    rw [hstarts (by rw [hcls]; decide), ← hw, hsettles, hwalk]
    rfl
  case ends =>
    obtain ⟨w, hw⟩ : ∃ w, w = s.quiet.startWalk c := ⟨_, rfl⟩
    have hwalk := hw.trans (State.startWalk_ends (s := s.quiet) hcontexts hdiffer hcls hplace hpieces
      (Translator.freePiece_eq_some hfree hfirst))
    have hcontexts' : w.translator.contexts = pre ++ { c with state := .gathering, pieces := [n] } :: post := by rw [hwalk]
    have hsettles : w.settleReads = w := by
      refine State.settleReads_without_complete (hcontexts' ▸ hnone fun h => nomatch h) (by rw [hwalk]; exact hintake)
        (fun _ => .inl (by rw [hwalk])) fun _ x hx hwaiting => ?_
      rw [hcontexts'] at hx
      rcases List.mem_append.mp hx with hx | hx
      · exact absurd hwaiting (hpre x hx)
      · rcases List.mem_cons.mp hx with rfl | hx
        · exact nomatch hwaiting
        · exact absurd hwaiting (hpost x hx)
    rw [hstarts (by rw [hcls]; decide), ← hw, hsettles, hwalk]
    rfl
  case pauses =>
    obtain ⟨w, hw⟩ : ∃ w, w = s.quiet.startWalk c := ⟨_, rfl⟩
    have hwalk := hw.trans (State.startWalk_pauses (s := s.quiet) hcontexts hdiffer hcls (s.translator.freePiece_none_iff.mpr hused))
    have hcontexts' : w.translator.contexts = pre ++ { c with state := .walking } :: post := by rw [hwalk]
    have hsettles : w.settleReads = w :=
      State.settleReads_without_complete (hcontexts' ▸ hnone fun h => nomatch h) (by rw [hwalk]; exact hintake)
        (fun _ => .inr (by rw [hwalk]; exact hused))
        fun hidle => absurd hidle (Translator.walking_of_split hcontexts' rfl (by rw [hwalk]))
    rw [hstarts (by rw [hcls]; decide), ← hw, hsettles, hwalk]
    rfl

end Sys2Proof.Machine
end

section
/-! PROOFS. The reads that enter the intake list (O12), refuted: the statement lets the walker name a context number that no context has.
A refused read placed under that number becomes the walker's context, and a walk that was paused resumes at it. -/

namespace Sys2Proof.Machine

open Sys2Proof

/-- A read at an address that is not a multiple of 32, which is refused (R8). -/
def unalignedRead : URequest := ⟨0, 0, .read, 1, 1, []⟩

/-- An earlier read of the same initiator, whose pieces are not all back. -/
def earlierRead : Context := ⟨0, 0, 0, 0, 1, .plain, none, [], false, .gathering⟩

/-- The reset state with both reads, and a paused walk of context 1, which does not exist. -/
def strayWalker : State :=
  { State.reset with
    uport := State.reset.uport.putSide 0 .read [unalignedRead]
    translator := { State.reset.translator with contexts := [earlierRead], walker := some 1, paused := true } }

/-- The walk is paused in the state that an event answers. -/
def pausedAfter : Result → Bool
  | .next t => t.translator.paused
  | _ => false

/-- Nothing is due: there is no context to walk. -/
theorem strayWalker_settled : strayWalker.settled := by decide

/-- The read is placed in context 1, and the walk resumes there. -/
theorem strayWalker_resumes : pausedAfter (exec (.laneHeadAccept 0 .read) strayWalker) = false := by decide

/-- Refutes O12: in `strayWalker` a refused read is placed behind an earlier read of its initiator, and the statement leaves the walk
paused, but it resumes. -/
theorem not_readsEnterIntakeList : ¬ Obligations.ReadsEnterIntakeList := by
  unfold Obligations.ReadsEnterIntakeList
  intro h
  obtain ⟨-, -, -, -, hbehind, -, -⟩ := h strayWalker unalignedRead [] rfl strayWalker_settled (by decide)
  have hexec := hbehind .decode none 1 (by decide) (by decide) (by decide) (by decide) (by decide) (by decide)
  exact absurd ((congrArg pausedAfter hexec).symm.trans strayWalker_resumes) (by decide)

end Sys2Proof.Machine
end

section
/-! PROOFS. Piece generation (O15). -/

namespace Sys2Proof.Machine

open Sys2Proof

theorem exec_pieceGeneration {s : State} {c : Context} (hs : s.resetting = none) (hwalking : s.translator.walking = some c) :
    exec .pieceGeneration s = .next (s.quiet.generate c).settleReads := by
  refine (outsideReset_of_none hs State.generateNext).trans ?_
  rw [State.generateNext, State.quiet_translator, hwalking]

/-! ### The bank is free -/

theorem State.endDrainWait_uport (s : State) : s.endDrainWait.uport = s.uport := by
  unfold State.endDrainWait State.enterCompile State.failCommit
  repeat' split
  all_goals rfl

theorem State.endDrainWait_links (s : State) : s.endDrainWait.links = s.links := by
  unfold State.endDrainWait State.enterCompile State.failCommit
  repeat' split
  all_goals rfl

theorem LayoutCtl.putBank_freed (l : LayoutCtl) (b : Bank) (r : CommitResult) :
    { (LayoutCtl.putBank { l with hold := none } l.inactive b) with ctl := .idle, result := r } =
      { l.putBank l.inactive b with hold := none, ctl := .idle, result := r } := by
  cases l.inactive <;> rfl

/-- The walk's bank is freed: in DRAIN the checks of the commit are made (R84 to R86). `v` is what that leaves but for the translator. -/
theorem State.endDrainWait_freed {e v : State}
    (hwaits : e.layout.ctl ≠ .drain → v = { e with layout := { e.layout with hold := none } })
    (hcompiles : e.layout.ctl = .drain → e.layout.checkFailure = none →
      v = { e with layout := { e.layout with hold := none, ctl := .compile } })
    (hfails : ∀ code w, e.layout.ctl = .drain → e.layout.checkFailure = some (code, w) →
      v =
        { e with
          layout :=
            { e.layout.putBank e.layout.inactive Bank.empty with
              hold := none, ctl := .idle, result := ⟨.failed, some code, w, none⟩ }
          capture :=
            { e.capture.record e.governor.frameCount ⟨.commitFail, none, none, none, w⟩ with commitEnd := true } })
    (t : Translator) :
    State.endDrainWait { e with layout := { e.layout with hold := none }, translator := t } = { v with translator := t } := by
  obtain ⟨f, hf⟩ : ∃ f : State, f = { e with layout := { e.layout with hold := none }, translator := t } := ⟨_, rfl⟩
  have hctl : f.layout.ctl = e.layout.ctl := by rw [hf]
  have hcheck : f.layout.checkFailure = e.layout.checkFailure := by rw [hf]; rfl
  have hhold : f.layout.hold ≠ some f.layout.inactive := by
    rw [hf]
    exact fun h => nomatch h
  rw [← hf, State.endDrainWait, hctl]
  by_cases hdrain : e.layout.ctl = .drain
  · rw [if_pos ⟨hdrain, hhold⟩]
    cases hfailure : e.layout.checkFailure with
    | none =>
      rw [State.enterCompile_of_none (hcheck.trans hfailure), hcompiles hdrain hfailure, hf]
      rfl
    | some x =>
      obtain ⟨code, w⟩ := x
      rw [State.enterCompile_of_some (hcheck.trans hfailure), hfails code w hdrain hfailure, hf, State.commitFailed,
        ← LayoutCtl.putBank_freed]
      rfl
  · rw [if_neg fun h => hdrain h.1, hwaits hdrain, hf]

/-! ### A piece on its way -/

theorem State.pieceDue_state {s : State} {c : Context} {place : WalkPlace} (h : c.place = some place) (j : Nat) :
    (s.pieceDue c j).state = (s.pieceDue c j).kind.firstState := by
  simp only [State.pieceDue, h]

theorem PieceKind.firstState_queued {k : PieceKind} (h : ∀ x, k ≠ .colour x) : k.firstState = .queued := by
  cases k with
  | colour x => exact absurd rfl (h x)
  | image f => rfl
  | plain a n => rfl

/-- A free piece record is none of a context's that are in use. -/
theorem Translator.ne_of_free {t : Translator} {p q : PieceId} {x : PieceUse} (hfree : t.pieces[p].use = none)
    (huse : t.pieces[q].use = some x) : q ≠ p := by
  rintro rfl
  exact nomatch hfree.symm.trans huse

section
variable {s : State} {pre post : List Context} {c : Context} {n : PieceId} {u : PieceUse} (hfree : s.translator.pieces[n].use = none)

theorem State.pieceEntered_piece (q : PieceId) :
    (s.pieceEntered pre post c n u).translator.pieces[q] =
      if q = n then ⟨s.translator.pieces[n].generation, some u⟩ else s.translator.pieces[q] := putAt_get _ _ _ _

include hfree in
/-- A walk that ends with a piece on its way leaves its context GATHERING (R97). -/
theorem State.walkedState_gathering
    (h : u.state ≠ .done ∨ ∃ q ∈ c.pieces, ∃ x, s.translator.pieces[q].use = some x ∧ x.state ≠ .done) :
    (s.pieceEntered pre post c n u).translator.walkedState { c with pieces := c.pieces ++ [n] } = .gathering := by
  have hnot : (s.pieceEntered pre post c n u).translator.allDone { c with pieces := c.pieces ++ [n] } = false := by
    rcases h with hstate | ⟨q, hq, x, huse, hstate⟩
    · exact Translator.allDone_eq_false (q := n) (v := u) (by simp) (by rw [State.pieceEntered_piece, if_pos rfl]) hstate
    · refine Translator.allDone_eq_false (q := q) (v := x) (by simp [hq]) ?_ hstate
      rw [State.pieceEntered_piece, if_neg (Translator.ne_of_free hfree huse), huse]
  rw [Translator.walkedState, hnot]
  rfl

include hfree in
/-- A walk that ends with every piece DONE leaves its context COMPLETE (R97). -/
theorem State.walkedState_complete (hstate : u.state = .done)
    (h : ∀ q ∈ c.pieces, ∃ x, s.translator.pieces[q].use = some x ∧ x.state = .done) :
    (s.pieceEntered pre post c n u).translator.walkedState { c with pieces := c.pieces ++ [n] } = .complete := by
  have hall : (s.pieceEntered pre post c n u).translator.allDone { c with pieces := c.pieces ++ [n] } = true := by
    refine List.all_eq_true.mpr fun q hq => ?_
    rw [Translator.pieceDone, State.pieceEntered_piece]
    rcases List.mem_append.mp hq with hq | hq
    · obtain ⟨x, huse, hdone⟩ := h q hq
      rw [if_neg (Translator.ne_of_free hfree huse), huse]
      exact beq_iff_eq.mpr hdone
    · rw [if_pos (List.mem_singleton.mp hq)]
      exact beq_iff_eq.mpr hstate
  rw [Translator.walkedState, hall]
  rfl

end

/-- The read path of `s` after the walk of `c` has ended with piece `u` in record `n`, its context in state `st` (R104). -/
def State.walkEnded (s : State) (pre post : List Context) (c : Context) (n : PieceId) (u : PieceUse) (st : ContextState) :
    Translator :=
  { s.translator with
    contexts := pre ++ { c with pieces := c.pieces ++ [n], state := st } :: post
    pieces := putAt s.translator.pieces n ⟨s.translator.pieces[n].generation, some u⟩
    walker := none
    paused := false }

theorem State.walkEnded_piece (s : State) (pre post : List Context) (c : Context) (n : PieceId) (u : PieceUse) (st : ContextState)
    (q : PieceId) :
    (s.walkEnded pre post c n u st).pieces[q] =
      if q = n then ⟨s.translator.pieces[n].generation, some u⟩ else s.translator.pieces[q] := putAt_get _ _ _ _

/-- The assembled data of the walked context (R117). -/
theorem State.walkEnded_bytes {s : State} {pre post : List Context} {c : Context} {n : PieceId} {u : PieceUse} {st : ContextState}
    (hfree : s.translator.pieces[n].use = none)
    (hused : ∀ q ∈ c.pieces, ∃ x, s.translator.pieces[q].use = some x ∧ x.state = .done) :
    (c.pieces ++ [n]).flatMap ((s.walkEnded pre post c n u st).recordBytes { c with pieces := c.pieces ++ [n], state := st }) =
      c.pieces.flatMap (s.translator.recordBytes c) ++ pieceBytes c u := by
  have hrecord (q : PieceId) (hq : q ∈ c.pieces) :
      (s.walkEnded pre post c n u st).recordBytes { c with pieces := c.pieces ++ [n], state := st } q =
        s.translator.recordBytes c q := by
    obtain ⟨x, huse, -⟩ := hused q hq
    rw [Translator.recordBytes, State.walkEnded_piece, if_neg (Translator.ne_of_free hfree huse), Translator.recordBytes, huse]
    rfl
  have hlast : (s.walkEnded pre post c n u st).recordBytes { c with pieces := c.pieces ++ [n], state := st } n = pieceBytes c u := by
    rw [Translator.recordBytes, State.walkEnded_piece, if_pos rfl]
    rfl
  rw [List.flatMap_append, List.flatMap_congr hrecord, List.flatMap_singleton, hlast]

section
variable {s w : State} {pre post : List Context} {c : Context} {n : PieceId} {u : PieceUse} {st : ContextState}
  (hw : w.translator = s.walkEnded pre post c n u st) (hintake : w.uport.intake = [])
  (hrest : ∀ x ∈ pre ++ post, x.state ≠ .complete ∧ x.state ≠ .waiting)
include hw hintake hrest

/-- After a walk that leaves its context unanswerable nothing is due. -/
theorem State.settleReads_walkEnded (hstate : st ≠ .waiting)
    (hearlier : st = .complete → ∃ x ∈ pre, x.initiator = c.initiator) : w.settleReads = w := by
  refine State.settleReads_of_settled ((State.settled_iff_nothingDue w).mpr ⟨?_, .inl hintake, fun _ => .inl (by rw [hw]; rfl), ?_⟩)
  · rw [hw]
    exact answerable_split.mpr ⟨answerable_of_not_complete _ _ fun x hx => (hrest x (List.mem_append_left _ hx)).1, hearlier,
      answerable_of_not_complete _ _ fun x hx => (hrest x (List.mem_append_right _ hx)).1⟩
  · rw [hw]
    intro _ x hx hwaiting
    rcases List.mem_append.mp hx with hx | hx
    · exact absurd hwaiting (hrest x (List.mem_append_left _ hx)).2
    · rcases List.mem_cons.mp hx with rfl | hx
      · exact absurd hwaiting hstate
      · exact absurd hwaiting (hrest x (List.mem_append_right _ hx)).2

/-- After a walk that leaves its context answerable it is answered, and nothing more is due. -/
theorem State.settleReads_walkAnswered (hstate : st = .complete) (hfirst : ∀ x ∈ pre, x.initiator ≠ c.initiator)
    (hothers : ∀ x ∈ pre ++ post, x.num ≠ c.num) (hcls : c.cls = .canvas) (hlinks : w.links = Links.none)
    (hfree : s.translator.pieces[n].use = none)
    (hused : ∀ q ∈ c.pieces, ∃ x, s.translator.pieces[q].use = some x ∧ x.state = .done) :
    ∃ t, w.settleReads = t ∧
      t =
        { w with
          translator :=
            { s.translator with contexts := pre ++ post, pieces := t.translator.pieces, walker := none, paused := false }
          links :=
            ⟨[⟨c.initiator, c.label, .read, if c.partialFlag = true then .partialData else .ok,
                c.pieces.flatMap (s.translator.recordBytes c) ++ pieceBytes c u⟩], [], none⟩ } ∧
      (∀ q ∈ c.pieces, t.translator.pieces[q] = ⟨s.translator.pieces[q].generation, none⟩) ∧
      ∀ q : PieceId, q ∉ c.pieces → t.translator.pieces[q] = s.translator.pieces[q] := by
  obtain ⟨d, hd⟩ : ∃ d : Context, d = { c with pieces := c.pieces ++ [n], state := st } := ⟨_, rfl⟩
  have hcontexts : w.translator.contexts = pre ++ d :: post := by rw [hw, hd]; rfl
  have hpiece (q : PieceId) : w.translator.pieces[q] =
      if q = n then ⟨s.translator.pieces[n].generation, some u⟩ else s.translator.pieces[q] := by
    rw [hw]
    exact s.walkEnded_piece pre post c n u st q
  obtain ⟨hanswer, hfreed, hkept⟩ := State.answerContext_spec hcontexts (hd ▸ hothers)
  obtain ⟨t, ht⟩ : ∃ t, t = w.answerContext d := ⟨_, rfl⟩
  rw [← ht] at hanswer hfreed hkept
  have hpre := answerable_of_not_complete pre [] fun x hx => (hrest x (List.mem_append_left _ hx)).1
  have hafter : t.NothingDue := by
    refine ⟨?_, .inl ?_, fun _ => .inl ?_, fun _ => ?_⟩
    · rw [hanswer]
      exact answerable_of_not_complete _ _ fun x hx => (hrest x hx).1
    · rw [hanswer]
      exact hintake
    · rw [hanswer, hw]
      rfl
    · rw [hanswer]
      exact fun x hx hwaiting => absurd hwaiting (hrest x hx).2
  have hsettles : w.settleReads = t := ht ▸
    State.settleReads_answers hcontexts hpre (by rw [hd]; exact hstate) (by rw [hd]; exact hfirst) (ht ▸ hafter)
  refine ⟨t, hsettles, ?_, fun q hq => ?_, fun q hq => ?_⟩
  · have hcanvas : d.cls ≠ .refused := by rw [hd, hcls]; decide
    rw [Translator.answerOf_eq, if_neg hcanvas, if_neg hcanvas, hlinks] at hanswer
    have hbytes : d.pieces.flatMap (w.translator.recordBytes d) =
        c.pieces.flatMap (s.translator.recordBytes c) ++ pieceBytes c u := by
      rw [hw, hd]
      exact State.walkEnded_bytes hfree hused
    rw [hbytes, hw, hd] at hanswer
    exact hanswer
  · obtain ⟨x, huse, -⟩ := hused q hq
    rw [hfreed q (by rw [hd]; exact List.mem_append_left _ hq), hpiece, if_neg (Translator.ne_of_free hfree huse)]
  · by_cases hqn : q = n
    · rw [hqn, hfreed n (by rw [hd]; simp), hpiece, if_pos rfl, ← hfree]
    · rw [hkept q (by rw [hd]; simp [hq, hqn]), hpiece, if_neg hqn]

end

/-- The end of a canvas walk with piece `u`, where `v` is what the freed bank leaves but for the read path (R84, R102, R104). -/
theorem State.generateInto_walkEnded {s v : State} {pre post : List Context} {c : Context} {n : PieceId} {u : PieceUse}
    (hcontexts : s.translator.contexts = pre ++ c :: post) (hothers : ∀ x ∈ pre ++ post, x.num ≠ c.num)
    (hu : s.pieceDue c (s.translator.nextPixel c) = u) (hcls : c.cls = .canvas) (hlast : c.beats * 8 ≤ u.first + u.count)
    (hv : ∀ t : Translator,
      State.endDrainWait { s.pieceEntered pre post c n u with layout := { s.layout with hold := none }, translator := t } =
        { v with translator := t }) :
    s.generateInto c n =
      { v with
        translator :=
          s.walkEnded pre post c n u
            ((s.pieceEntered pre post c n u).translator.walkedState { c with pieces := c.pieces ++ [n] }) } := by
  rw [State.generateInto_ends hcontexts hothers hu hlast,
    State.endWalk_canvas (c := { c with pieces := c.pieces ++ [n] }) rfl hothers hcls, ← hv]
  rfl

/-- Settles O15. -/
theorem generationTakesLowestFreeRecord : Obligations.GenerationTakesLowestFreeRecord := by
  unfold Obligations.GenerationTakesLowestFreeRecord
  intro s pre post c place u hs hintake hwalker hcontexts hnums hcls hstate hplace hrest hu
  have hothers : ∀ x ∈ pre ++ post, x.num ≠ c.num := fun x => nums_differ (hcontexts ▸ hnums)
  have hmem : c ∈ s.translator.contexts := by rw [hcontexts]; simp
  have hwalking : s.translator.walking = some c := Translator.walking_of_mem hnums hmem hwalker
  have hidle : ∀ x ∈ pre ++ post, x.state ≠ .complete ∧ x.state ≠ .waiting := fun x hx => hrest x (by
    rw [hcontexts]
    exact (List.mem_append.mp hx).elim (List.mem_append_left _) fun hx => List.mem_append_right _ (List.mem_cons_of_mem _ hx))
  refine ⟨fun n e v hfree hfirst he => ?enters, fun hused => ?pauses⟩
  case pauses =>
    have hnone : s.translator.freePiece = none := s.translator.freePiece_none_iff.mpr hused
    have hsettles : State.settleReads { s.quiet with translator := { s.translator with paused := true } } = _ :=
      State.settleReads_without_complete (fun x hx => (hrest x hx).1) hintake (fun _ => .inr hused)
        fun h => absurd (h.symm.trans hwalking) (fun h => nomatch h)
    rw [exec_pieceGeneration hs hwalking, State.generate_pauses (s := s.quiet) hnone]
    exact congrArg _ hsettles
  case enters =>
    have hgenerate : s.quiet.generate c = s.quiet.generateInto c n :=
      State.generate_enters (s := s.quiet) (Translator.freePiece_eq_some hfree hfirst) c
    have hentered : s.quiet.pieceEntered pre post c n u =
        { e with
          translator :=
            { s.translator with
              contexts := pre ++ { c with pieces := c.pieces ++ [n] } :: post
              pieces := putAt s.translator.pieces n ⟨s.translator.pieces[n].generation, some u⟩
              paused := false } } := by
      rw [he]
      unfold State.pieceEntered DPort.entered State.sourcesHeld
      cases u.kind <;> rfl
    have huport : e.uport = s.uport := by rw [he]
    have hdue : s.quiet.pieceDue c (s.quiet.translator.nextPixel c) = u := hu.symm
    have hkind : u.state = u.kind.firstState := by
      rw [hu]
      exact State.pieceDue_state hplace _
    rw [exec_pieceGeneration hs hwalking, hgenerate]
    refine ⟨fun hmore => ?goes, fun hlast hwaits hcompiles hfails => ?ends⟩
    case goes =>
      obtain ⟨w, hw⟩ : ∃ w, w = s.quiet.generateInto c n := ⟨_, rfl⟩
      have hwalk := hw.trans ((State.generateInto_goes (s := s.quiet) hcontexts hothers hdue hmore).trans hentered)
      have hwcontexts : w.translator.contexts = pre ++ { c with pieces := c.pieces ++ [n] } :: post := by rw [hwalk]
      have hsettles : w.settleReads = w := by
        refine State.settleReads_without_complete (fun x hx => ?_) (by rw [hwalk]; exact huport ▸ hintake)
          (fun _ => .inl (by rw [hwalk])) fun h => absurd h (Translator.walking_of_split hwcontexts rfl (by rw [hwalk]; exact hwalker))
        rw [hwcontexts] at hx
        rcases List.mem_append.mp hx with hx | hx
        · exact (hidle x (List.mem_append_left _ hx)).1
        · rcases List.mem_cons.mp hx with rfl | hx
          · exact fun h => nomatch hstate.symm.trans h
          · exact (hidle x (List.mem_append_right _ hx)).1
      rw [← hw, hsettles, hwalk]
    case ends =>
      have hlayout : e.layout = s.layout := by rw [he]
      have hv (t : Translator) : State.endDrainWait
          { s.quiet.pieceEntered pre post c n u with layout := { s.quiet.layout with hold := none }, translator := t } =
            { v with translator := t } := by
        rw [hentered, ← State.endDrainWait_freed (e := e) (v := v) ?_ ?_ ?_ t]
        · rw [hlayout]
          rfl
        · rw [hlayout]
          exact hwaits
        · rw [hlayout]
          exact hcompiles
        · rw [he] at hfails ⊢
          exact hfails
      have hvuport : v.uport = s.uport :=
        ((congrArg State.uport (hv s.translator)).symm.trans (State.endDrainWait_uport _)).trans (by rw [hentered]; exact huport)
      have hvlinks : v.links = Links.none :=
        ((congrArg State.links (hv s.translator)).symm.trans (State.endDrainWait_links _)).trans (by rw [hentered, he])
      have hwalk := State.generateInto_walkEnded (s := s.quiet) hcontexts hothers hdue hcls hlast hv
      have hempty : v.uport.intake = [] := hvuport ▸ hintake
      refine ⟨fun hwait => ?gathering, fun hcolour hdone => ?complete⟩
      case gathering =>
        have hqueued : u.state ≠ .done ∨ ∃ q ∈ c.pieces, ∃ x, s.translator.pieces[q].use = some x ∧ x.state ≠ .done :=
          hwait.imp (fun h => by rw [hkind, PieceKind.firstState_queued h]; decide) id
        rw [State.walkedState_gathering (s := s.quiet) hfree hqueued] at hwalk
        rw [hwalk, State.settleReads_walkEnded (s := s.quiet)
          (w := { v with translator := s.quiet.walkEnded pre post c n u .gathering }) rfl hempty hidle (by decide) (fun h => nomatch h)]
        rfl
      case complete =>
        obtain ⟨k, hk⟩ := hcolour
        have hstateDone : u.state = .done := by rw [hkind, hk]; rfl
        rw [State.walkedState_complete (s := s.quiet) hfree hstateDone hdone] at hwalk
        refine ⟨fun hearlier => ?_, fun hfirst => ?_⟩
        · rw [hwalk, State.settleReads_walkEnded (s := s.quiet)
            (w := { v with translator := s.quiet.walkEnded pre post c n u .complete }) rfl hempty hidle (by decide) (fun _ => hearlier)]
          rfl
        · obtain ⟨t, hsettles, hrest⟩ := State.settleReads_walkAnswered (s := s.quiet)
            (w := { v with translator := s.quiet.walkEnded pre post c n u .complete }) rfl hempty hidle rfl hfirst hothers hcls
            hvlinks hfree hdone
          exact ⟨t, by rw [hwalk, hsettles], hrest⟩

end Sys2Proof.Machine
end

section
/-! PROOFS. What a pixel shows (O17), the piece that is due (O18), and the bytes of a piece (O19). -/

namespace Sys2Proof.Machine

open Sys2Proof

/-! ### The window that owns a pixel -/

/-- A window owned through the override layer is shown by its group (R106). -/
theorem State.group_of_override {s : State} {b : Bank} {x y : Nat} {n : WindowId} (h : s.ownerAt b x y = .window n true) :
    ∃ g, b.layout.windows[n].group = some g := by
  have hfind : s.overrideOwner b x y = some n := by
    unfold State.ownerAt at h
    split at h
    · exact nomatch h
    · split at h
      · next m hm => rw [hm, (Owner.window.inj h).1]
      · split at h
        · exact absurd (Owner.window.inj h).2 Bool.false_ne_true
        · exact nomatch h
  have hshown := List.find?_some hfind
  rw [Bool.and_eq_true, State.windowShown] at hshown
  cases hgroup : b.layout.windows[n].group with
  | none => rw [hgroup] at hshown; exact absurd hshown.1 Bool.false_ne_true
  | some g => exact ⟨g, rfl⟩

section
variable {s : State} {w : Window} {i : SourceId} (hi : w.content = .source → w.source = i.val)
include hi

theorem Window.sourceId_eq (h : w.content = .source) : w.sourceId = i := by
  rw [Window.sourceId, hi h]
  exact Fin.ext (Nat.mod_eq_of_lt i.isLt)

theorem State.windowContained_iff : s.windowContained w = true ↔ w.content = .source ∧ s.sources[i].state = .contained := by
  rw [State.windowContained, Bool.and_eq_true, beq_iff_eq, beq_iff_eq]
  exact and_congr_right fun h => by simp only [Window.sourceId_eq hi h]

theorem State.windowStale_iff : s.windowStale w = true ↔ w.content = .source ∧ s.sources[i].stale = true := by
  rw [State.windowStale, Bool.and_eq_true, beq_iff_eq]
  exact and_congr_right fun h => by simp only [Window.sourceId_eq hi h]

/-- R108. -/
theorem State.borderOf_eq (via : Bool) :
    s.borderOf w via =
      if w.borderWidth ≠ 0 then w.borderWidth
      else if via = true ∨ (w.content = .source ∧ (s.sources[i].state = .contained ∨ s.sources[i].stale = true)) then 2 else 0 := by
  have hwide : (via || s.windowContained w || s.windowStale w) = true ↔
      via = true ∨ (w.content = .source ∧ (s.sources[i].state = .contained ∨ s.sources[i].stale = true)) := by
    rw [Bool.or_eq_true, Bool.or_eq_true, State.windowContained_iff hi, State.windowStale_iff hi, or_assoc, and_or_left]
  rw [State.borderOf, ite_not]
  simp only [hwide]

/-- The border of a window of a CONTAINED source, outside the override layer (R109). -/
theorem State.bandColour_contained (hcontent : w.content = .source) (hstate : s.sources[i].state = .contained) :
    s.bandColour w false = s.translator.palette[(3 : Fin 9)] := by
  rw [State.bandColour, if_neg Bool.false_ne_true, if_pos ((State.windowContained_iff hi).mpr ⟨hcontent, hstate⟩)]

theorem State.bandColour_stale (hcontent : w.content = .source) (hstate : s.sources[i].state ≠ .contained)
    (hstale : s.sources[i].stale = true) : s.bandColour w false = s.translator.palette[(2 : Fin 9)] := by
  rw [State.bandColour, if_neg Bool.false_ne_true, if_neg fun h => hstate ((State.windowContained_iff hi).mp h).2,
    if_pos ((State.windowStale_iff hi).mpr ⟨hcontent, hstale⟩)]

theorem State.bandColour_plain (h : w.content = .fill ∨ (s.sources[i].state ≠ .contained ∧ s.sources[i].stale = false)) :
    s.bandColour w false = w.borderColour := by
  have hcontained : ¬s.windowContained w = true := by
    rw [State.windowContained_iff hi]
    rintro ⟨hcontent, hstate⟩
    exact h.elim (fun hfill => nomatch hfill.symm.trans hcontent) fun h => h.1 hstate
  have hfresh : ¬s.windowStale w = true := by
    rw [State.windowStale_iff hi]
    rintro ⟨hcontent, hstale⟩
    exact h.elim (fun hfill => nomatch hfill.symm.trans hcontent) fun h => Bool.false_ne_true (h.2.symm.trans hstale)
  rw [State.bandColour, if_neg Bool.false_ne_true, if_neg hcontained, if_neg hfresh]

/-- R110. -/
theorem State.bodyShows_unshown {n : WindowId} {x y : Nat} (hcontent : w.content = .source)
    (h : s.sources[i].shownBuffer = none) : s.bodyShows n w x y = .colour s.translator.palette[(1 : Fin 9)] := by
  rw [State.bodyShows, hcontent]
  simp only [Window.sourceId_eq hi hcontent, h]

/-- R111. -/
theorem State.bodyShows_shown {n : WindowId} {x y : Nat} {l : Letter} (hcontent : w.content = .source)
    (h : s.sources[i].shownBuffer = some l) :
    s.bodyShows n w x y =
      if s.sources[i].cfg.width ≤ w.sxOf x ∨ s.sources[i].cfg.height ≤ w.syOf y then .colour w.fillColour
      else .image n i l (w.sxOf x) (w.syOf y) := by
  rw [State.bodyShows, hcontent]
  simp only [Window.sourceId_eq hi hcontent, h]

end

theorem State.bandColour_override {s : State} {w : Window} {g : GroupId} {k : Fin 9} (hgroup : w.group = some g)
    (hk : k.val = 4 + g.val) : s.bandColour w true = s.translator.palette[k] := by
  have hentry : alarmEntry w.group = k := by
    rw [alarmEntry, hgroup]
    refine Fin.ext ((Nat.mod_eq_of_lt ?_).trans hk.symm)
    have := g.isLt
    show 4 + g.val < 9
    omega
  rw [State.bandColour, if_pos rfl]
  simp only [hentry]

theorem Window.inBand_iff (w : Window) (e x y : Nat) :
    w.inBand e x y = true ↔ x < w.x + e ∨ w.x + w.width ≤ x + e ∨ y < w.y + e ∨ w.y + w.height ≤ y + e := by
  simp [Window.inBand, or_assoc]

theorem Source.shownBuffer_eq_none {x : Source} (h : (x.state ≠ .live ∧ x.state ≠ .contained) ∨ ¬x.hasRole .front) :
    x.shownBuffer = none := by
  have hnone (hrole : ¬x.hasRole .front) : x.bufs.withRole .front = none := by
    rw [← Option.not_isSome_iff_eq_none, ← Source.hasRole_iff_withRole]
    exact hrole
  unfold Source.shownBuffer
  split
  · next hstate => exact hnone (h.resolve_left fun h => h.1 hstate)
  · next hstate => exact hnone (h.resolve_left fun h => h.2 hstate)
  all_goals rfl

theorem Source.shownBuffer_eq_some {x : Source} {l : Letter} (hstate : x.state = .live ∨ x.state = .contained)
    (hone : x.oneOf .front) (h : (x.bufs.get l).role = .front) : x.shownBuffer = some l := by
  have hrole := Buffers.withRole_eq_some h hone
  unfold Source.shownBuffer
  rcases hstate with hstate | hstate
  all_goals
    rw [hstate]
    exact hrole

/-- A pixel of a window shows its border or its body (Table 6-4). -/
theorem State.showsAt_window {s : State} {b : Bank} {x y : Nat} {n : WindowId} {via : Bool} (h : s.ownerAt b x y = .window n via) :
    s.showsAt b y x =
      if b.layout.windows[n].inBand (s.borderOf b.layout.windows[n] via) x y then .colour (s.bandColour b.layout.windows[n] via)
      else s.bodyShows n b.layout.windows[n] x y := by
  rw [State.showsAt, h]

/-- Settles O17. -/
theorem pixelShowsAsTableSays : Obligations.PixelShowsAsTableSays := by
  unfold Obligations.PixelShowsAsTableSays
  intro s b x y
  refine ⟨fun h => by rw [State.showsAt, h], fun h hmode => ?_, fun h hmode => ?_, fun n via w e i howner hw hi he => ?window⟩
  · rw [State.showsAt, h]
    simp only [hmode]
  · rw [State.showsAt, h]
    simp only [hmode]
  case window =>
    have hshows := State.showsAt_window howner
    rw [← hw, State.borderOf_eq hi, ← he] at hshows
    refine ⟨fun hband => ?band, fun hbody => ?body⟩
    case band =>
      rw [if_pos ((w.inBand_iff e x y).mpr hband)] at hshows
      rw [hshows]
      refine ⟨fun hvia => ?_, fun hvia hcontent hstate => ?_, fun hvia hcontent hstate hstale => ?_, fun hvia hplain => ?_⟩
      · obtain ⟨g, hgroup⟩ := State.group_of_override (hvia ▸ howner)
        exact ⟨g, hw ▸ hgroup, fun k hk => by rw [hvia, State.bandColour_override (hw ▸ hgroup) hk]⟩
      · rw [hvia, State.bandColour_contained hi hcontent hstate]
      · rw [hvia, State.bandColour_stale hi hcontent hstate hstale]
      · rw [hvia, State.bandColour_plain hi hplain]
    case body =>
      rw [if_neg fun h => hbody ((w.inBand_iff e x y).mp h)] at hshows
      rw [hshows]
      refine ⟨fun hcontent => ?_, fun hcontent hunshown => ?_, fun hcontent hstate hone l hfront => ?_⟩
      · rw [State.bodyShows, hcontent]
      · exact State.bodyShows_unshown hi hcontent (Source.shownBuffer_eq_none hunshown)
      · exact State.bodyShows_shown hi hcontent (Source.shownBuffer_eq_some hstate hone hfront)

end Sys2Proof.Machine
end

section
/-! PROOFS. The piece that is due (O18) and the bytes of a piece (O19). -/

namespace Sys2Proof.Machine

open Sys2Proof

/-! ### Bytes, four for each pixel -/

/-- A list made of blocks of four. -/
theorem flatMap_range_blocks {α : Type} (f : Nat → List α) (n : Nat) (hf : ∀ q, q < n → (f q).length = 4) :
    ((List.range n).flatMap f).length = 4 * n ∧
      ∀ q, q < n → (((List.range n).flatMap f).drop (4 * q)).take 4 = f q := by
  induction n with
  | zero => exact ⟨rfl, fun q hq => absurd hq (Nat.not_lt_zero q)⟩
  | succ n ih =>
    obtain ⟨hlength, hblocks⟩ := ih fun q hq => hf q (Nat.lt_succ_of_lt hq)
    have hlast := hf n (Nat.lt_succ_self n)
    rw [List.range_succ, List.flatMap_append, List.flatMap_singleton]
    refine ⟨by rw [List.length_append, hlength, hlast]; ring, fun q hq => ?_⟩
    rcases Nat.lt_succ_iff_lt_or_eq.mp hq with hq | rfl
    · rw [List.drop_append_of_le_length (by omega), List.take_append_of_le_length (by rw [List.length_drop]; omega), hblocks q hq]
    · rw [← hlength, List.drop_left, List.take_of_length_le (by omega)]

theorem dataPixel_length {d : List Byte} {k : Nat} (h : 4 * k + 4 ≤ d.length) : (dataPixel d k).length = 4 := by
  rw [dataPixel, List.length_take, List.length_drop]
  omega

/-- Settles O19: every pixel fills a block of four bytes (`flatMap_range_blocks`). -/
theorem pieceFillsItsPixels : Obligations.PieceFillsItsPixels := by
  unfold Obligations.PieceFillsItsPixels
  intro c u d
  refine ⟨fun k hcolour => ?colour, fun f hfill hkind hdata hlength hinside => ?image,
    fun a n x hfill hkind hdata hlength hx hinside => ?plain⟩
  case colour =>
    have hpixel (q : Nat) : piecePixel c u q = [0, k.extractLsb' 16 8, k.extractLsb' 8 8, k.extractLsb' 0 8] := by
      rcases hcolour with h | ⟨hfill, hkind⟩
      · rw [piecePixel, h]
        rfl
      · rw [piecePixel, hfill, hkind]
        rfl
    obtain ⟨hlength, hblocks⟩ := flatMap_range_blocks (piecePixel c u) u.count fun q _ => by rw [hpixel]; rfl
    exact ⟨hlength, fun q hq => (hblocks q hq).trans (hpixel q)⟩
  case image =>
    have hpixel (q : Nat) : piecePixel c u q = dataPixel d (f.firstSx % 8 + (f.phase + q) / f.hscale) := by
      rw [piecePixel, hfill, hkind, hdata]
      rfl
    obtain ⟨hbytes, hblocks⟩ := flatMap_range_blocks (piecePixel c u) u.count fun q hq => by
      have := hinside q hq
      rw [hpixel, dataPixel_length (by omega)]
    exact ⟨hbytes, fun q hq => (hblocks q hq).trans (hpixel q)⟩
  case plain =>
    have hpixel (q : Nat) : piecePixel c u q = dataPixel d (x % 8 + q) := by
      rw [piecePixel, hfill, hkind, hdata, hx]
      cases c.place with
      | none => simp
      | some p => rfl
    obtain ⟨hbytes, hblocks⟩ := flatMap_range_blocks (piecePixel c u) u.count fun q hq => by
      rw [hpixel, dataPixel_length (by omega)]
    exact ⟨hbytes, fun q hq => (hblocks q hq).trans (hpixel q)⟩

/-! ### Runs -/

theorem Shows.continues_colour_iff {c : Colour} {p : Shows} : (Shows.colour c).continues p = true ↔ p = .colour c := by
  cases p with
  | colour d =>
    have h : (Shows.colour c).continues (.colour d) = (c == d) := rfl
    rw [h, beq_iff_eq, Shows.colour.injEq, eq_comm]
  | plain => exact ⟨fun h => absurd h Bool.false_ne_true, fun h => nomatch h⟩
  | image w i l sx sy => exact ⟨fun h => absurd h Bool.false_ne_true, fun h => nomatch h⟩

theorem Shows.continues_plain_iff {p : Shows} : Shows.plain.continues p = true ↔ p = .plain := by
  cases p with
  | colour d => exact ⟨fun h => absurd h Bool.false_ne_true, fun h => nomatch h⟩
  | plain => exact ⟨fun _ => rfl, fun _ => rfl⟩
  | image w i l sx sy => exact ⟨fun h => absurd h Bool.false_ne_true, fun h => nomatch h⟩

theorem Shows.continues_image_iff {w : WindowId} {i : SourceId} {l : Letter} {sx sy : Nat} {p : Shows} :
    (Shows.image w i l sx sy).continues p = true ↔ ∃ tx, p = .image w i l tx sy ∧ tx / 8 ≤ sx / 8 + 15 := by
  cases p with
  | colour d => exact ⟨fun h => absurd h Bool.false_ne_true, fun ⟨tx, h, _⟩ => nomatch h⟩
  | plain => exact ⟨fun h => absurd h Bool.false_ne_true, fun ⟨tx, h, _⟩ => nomatch h⟩
  | image w' i' l' tx ty =>
    have h : (Shows.image w i l sx sy).continues (.image w' i' l' tx ty) =
        (w == w' && i == i' && l == l' && sy == ty && decide (tx / 8 ≤ sx / 8 + 15)) := rfl
    rw [h]
    simp only [Bool.and_eq_true, beq_iff_eq, decide_eq_true_eq]
    constructor
    · rintro ⟨⟨⟨⟨rfl, rfl⟩, rfl⟩, rfl⟩, hspan⟩
      exact ⟨tx, rfl, hspan⟩
    · rintro ⟨tx', heq, hspan⟩
      obtain ⟨rfl, rfl, rfl, rfl, rfl⟩ := Shows.image.inj heq
      exact ⟨⟨⟨⟨rfl, rfl⟩, rfl⟩, rfl⟩, hspan⟩

theorem Shows.continues_self (h : Shows) : h.continues h = true := by
  cases h with
  | colour c => exact Shows.continues_colour_iff.mpr rfl
  | plain => exact Shows.continues_plain_iff.mpr rfl
  | image w i l sx sy => exact Shows.continues_image_iff.mpr ⟨sx, rfl, Nat.le_add_right _ _⟩

theorem map_range_succ {α : Type} (F : Nat → α) (n : Nat) :
    (List.range (n + 1)).map F = F 0 :: (List.range n).map fun q => F (q + 1) := by
  rw [List.range_succ_eq_map, List.map_cons, List.map_map]
  rfl

theorem takeWhile_map_range {α : Type} (p : α → Bool) (n : Nat) (F : Nat → α) :
    ∃ k, ((List.range n).map F).takeWhile p = (List.range k).map F ∧ k ≤ n ∧ (∀ q, q < k → p (F q) = true) ∧
      (k < n → p (F k) = false) := by
  induction n generalizing F with
  | zero => exact ⟨0, rfl, le_rfl, fun q hq => absurd hq (Nat.not_lt_zero q), fun h => absurd h (Nat.lt_irrefl 0)⟩
  | succ n ih =>
    rw [map_range_succ, List.takeWhile_cons]
    cases hp : p (F 0) with
    | false => exact ⟨0, rfl, Nat.zero_le _, fun q hq => absurd hq (Nat.not_lt_zero q), fun _ => hp⟩
    | true =>
      obtain ⟨k, htake, hk, hall, hstop⟩ := ih fun q => F (q + 1)
      refine ⟨k + 1, by rw [if_pos rfl, htake, map_range_succ], Nat.succ_le_succ hk, fun q hq => ?_,
        fun h => hstop (Nat.lt_of_succ_lt_succ h)⟩
      cases q with
      | zero => exact hp
      | succ q => exact hall q (Nat.lt_of_succ_lt_succ hq)

/-- The run from the first pixel of a row of pixels: as many of them as continue it, and no more (R102). -/
theorem runOf_spec (F : Nat → Shows) {n : Nat} (hn : 0 < n) :
    ∃ k, runOf ((List.range n).map F) = (List.range k).map F ∧ 1 ≤ k ∧ k ≤ n ∧
      (∀ q, q < k → (F 0).continues (F q) = true) ∧ (k < n → (F 0).continues (F k) = false) := by
  obtain ⟨m, rfl⟩ : ∃ m, n = m + 1 := ⟨n - 1, by omega⟩
  obtain ⟨k, htake, hk, hall, hstop⟩ := takeWhile_map_range (F 0).continues m fun q => F (q + 1)
  refine ⟨k + 1, by rw [map_range_succ, runOf, htake, map_range_succ], Nat.succ_pos k, Nat.succ_le_succ hk, fun q hq => ?_,
    fun h => hstop (Nat.lt_of_succ_lt_succ h)⟩
  cases q with
  | zero => exact Shows.continues_self _
  | succ q => exact hall q (Nat.lt_of_succ_lt_succ hq)

/-- The source column of the last pixel of an IMAGE run. -/
theorem lastSxOf_range {F : Nat → Shows} {k : Nat} {w : WindowId} {i : SourceId} {l : Letter} {sx sy : Nat} (hk : 1 ≤ k)
    (h : F (k - 1) = .image w i l sx sy) (first : Nat) : lastSxOf first ((List.range k).map F) = sx := by
  obtain ⟨m, rfl⟩ : ∃ m, k = m + 1 := ⟨k - 1, by omega⟩
  have hlast : ((List.range (m + 1)).map F).getLast? = some (.image w i l sx sy) := by
    rw [List.range_succ, List.map_append, List.map_singleton, List.getLast?_concat]
    exact congrArg some h
  rw [lastSxOf, hlast]

/-! ### The piece that is due -/

section
variable {s : State} {p : WalkPlace} {x : Nat} {run rest : List Shows}

theorem State.pieceKind_colour {c : Colour} (h : run = .colour c :: rest) : s.pieceKind p x run = .colour c := by
  rw [h]
  rfl

/-- The memory beats of a PLAIN run (R113, R115). -/
theorem State.pieceKind_plain (h : run = .plain :: rest) :
    s.pieceKind p x run =
      .plain ((s.layout.bank p.bank).base * 4096 + p.row * (s.layout.bank p.bank).pitch + x / 8 * 32)
        ((x + run.length - 1) / 8 - x / 8 + 1) := by
  rw [h]
  rfl

/-- The source beats of an IMAGE run (R114, R115). -/
theorem State.pieceKind_image {w : WindowId} {i : SourceId} {l : Letter} {sx sy : Nat} (h : run = .image w i l sx sy :: rest) :
    s.pieceKind p x run =
      .image
        { source := i, buffer := l, sy := sy, firstSx := sx, lastSx := lastSxOf sx run
          hscale := (s.layout.bank p.bank).layout.windows[w].hscale
          phase := (x - (s.layout.bank p.bank).layout.windows[w].x) % (s.layout.bank p.bank).layout.windows[w].hscale
          address := s.sources[i].cfg.bufferBase l + sy * s.sources[i].cfg.pitch + sx / 8 * 32
          beats := lastSxOf sx run / 8 - sx / 8 + 1 } := by
  rw [h]
  rfl

end

theorem State.pieceDue_place {s : State} {c : Context} {p : WalkPlace} (h : c.place = some p) (j : Nat) :
    s.pieceDue c j =
      { context := c.num, first := j, count := (runOf (s.showsFrom c p j)).length
        kind := s.pieceKind p (p.firstX + j) (runOf (s.showsFrom c p j))
        state := (s.pieceKind p (p.firstX + j) (runOf (s.showsFrom c p j))).firstState, data := none, errorFill := none } := by
  rw [State.pieceDue, h]

/-- Settles O18: `runOf_spec` says which pixels the run has, and the first of them decides the kind. -/
theorem pieceCoversLongestRun : Obligations.PieceCoversLongestRun := by
  unfold Obligations.PieceCoversLongestRun
  intro s c p j b u hplace hj hbeats hb hu
  obtain ⟨F, hF⟩ : ∃ F : Nat → Shows, F = fun k => s.showsAt (s.layout.bank p.bank) p.row (p.firstX + j + k) := ⟨_, rfl⟩
  have hshows (q : Nat) : s.showsAt b p.row (p.firstX + j + q) = F q := by rw [hF, hb]
  have hrow : s.showsFrom c p j = (List.range (c.beats * 8 - j)).map F := by rw [hF]; rfl
  obtain ⟨k, hrun, hmin, hmax, hall, hstop⟩ := runOf_spec F (n := c.beats * 8 - j) (by omega)
  rw [State.pieceDue_place hplace, hrow, hrun, List.length_map, List.length_range] at hu
  have hfirst : (List.range k).map F = F 0 :: (List.range (k - 1)).map fun q => F (q + 1) := by
    rw [← map_range_succ, Nat.sub_add_cancel hmin]
  have hcount : u.count = k := by rw [hu]
  have hkind : u.kind = s.pieceKind p (p.firstX + j) ((List.range k).map F) := by rw [hu]
  have hstate : u.state = u.kind.firstState := by rw [hu]
  have hnext (h : j + k < c.beats * 8) : (F 0).continues (F k) = false := hstop (by omega)
  simp only [hcount, hshows]
  refine ⟨⟨by rw [hu], hmin, by omega⟩, ?_⟩
  cases hhead : F 0 with
  | colour d =>
    rw [hhead] at hall hnext hfirst
    have hd : u.kind = .colour d := hkind.trans (State.pieceKind_colour hfirst)
    refine ⟨fun a ha => ?_, fun a n ha => (nomatch hd.symm.trans ha), fun f ha => (nomatch hd.symm.trans ha)⟩
    obtain rfl := PieceKind.colour.inj (hd.symm.trans ha)
    refine ⟨by rw [hstate, hd]; rfl, fun q hq => Shows.continues_colour_iff.mp (hall q hq), fun h hk => ?_⟩
    exact Bool.false_ne_true ((hnext h).symm.trans (Shows.continues_colour_iff.mpr hk))
  | plain =>
    rw [hhead] at hall hnext hfirst
    have hd := hkind.trans (State.pieceKind_plain hfirst)
    refine ⟨fun a ha => (nomatch hd.symm.trans ha), fun a n ha => ?_, fun f ha => (nomatch hd.symm.trans ha)⟩
    obtain ⟨rfl, rfl⟩ := PieceKind.plain.inj (hd.symm.trans ha)
    refine ⟨by rw [hstate, hd]; rfl, fun q hq => Shows.continues_plain_iff.mp (hall q hq), fun h hk => ?_, by rw [hb], ?_⟩
    · exact Bool.false_ne_true ((hnext h).symm.trans (Shows.continues_plain_iff.mpr hk))
    · rw [List.length_map, List.length_range]
  | image w i l sx sy =>
    rw [hhead] at hall hnext hfirst
    have hd := hkind.trans (State.pieceKind_image hfirst)
    refine ⟨fun a ha => (nomatch hd.symm.trans ha), fun a n ha => (nomatch hd.symm.trans ha), fun f ha => ?_⟩
    obtain ⟨tx, hlast, hspan⟩ := Shows.continues_image_iff.mp (hall (k - 1) (by omega))
    rw [lastSxOf_range hmin hlast] at hd
    obtain rfl := PieceKind.image.inj (hd.symm.trans ha)
    refine ⟨by rw [hstate, hd]; rfl, ⟨w, (hshows 0).trans hhead, by rw [hb], by rw [hb],
      fun q hq => Shows.continues_image_iff.mp (hall q hq), ?_, fun h tx' hspan' hk => ?_⟩, rfl, rfl, Nat.le_add_left _ _, ?_⟩
    · have hlastAt : p.firstX + j + k - 1 = p.firstX + j + (k - 1) := by omega
      rw [hlastAt, hshows, hlast]
    · exact Bool.false_ne_true ((hnext h).symm.trans (Shows.continues_image_iff.mpr ⟨tx', hk, hspan'⟩))
    · show tx / 8 - sx / 8 + 1 ≤ 16
      omega

end Sys2Proof.Machine
end

section
/-! PROOFS. The owner of a pixel (O16): the strips and segments of a compile lose nothing of the stack (R79, R80). -/

namespace Sys2Proof.Machine

open Sys2Proof

/-! ### Edges -/

theorem mem_insertEdge {n m : Nat} {ms : List Nat} : m ∈ insertEdge n ms ↔ m = n ∨ m ∈ ms := by
  induction ms with
  | nil => simp [insertEdge]
  | cons k ks ih =>
    unfold insertEdge
    split
    · simp
    · split
      · next h => simp [h]
      · rw [List.mem_cons, ih, List.mem_cons]
        tauto

theorem insertEdge_increasing {n : Nat} {ms : List Nat} (h : ms.Pairwise (· < ·)) : (insertEdge n ms).Pairwise (· < ·) := by
  induction ms with
  | nil => simp [insertEdge]
  | cons k ks ih =>
    obtain ⟨hk, hks⟩ := List.pairwise_cons.mp h
    unfold insertEdge
    split
    · next hlt =>
      exact List.pairwise_cons.mpr ⟨fun m hm => (List.mem_cons.mp hm).elim (fun h => h ▸ hlt) fun h => hlt.trans (hk m h), h⟩
    · split
      · exact h
      · refine List.pairwise_cons.mpr ⟨fun m hm => ?_, ih hks⟩
        rcases mem_insertEdge.mp hm with rfl | hm
        · omega
        · exact hk m hm

theorem mem_edges {m : Nat} {ns : List Nat} : m ∈ edges ns ↔ m ∈ ns := by
  induction ns with
  | nil => rfl
  | cons n ns ih =>
    have hcons : edges (n :: ns) = insertEdge n (edges ns) := rfl
    rw [hcons, mem_insertEdge, ih, List.mem_cons]

theorem edges_increasing (ns : List Nat) : (edges ns).Pairwise (· < ·) := by
  induction ns with
  | nil => exact .nil
  | cons n ns ih => exact insertEdge_increasing ih

/-! ### The cell of a value among the edges -/

theorem neighbours_cons (n m : Nat) (ms : List Nat) : neighbours (n :: m :: ms) = (n, m) :: neighbours (m :: ms) := rfl

theorem mem_of_mem_neighbours {ns : List Nat} {p : Nat × Nat} (h : p ∈ neighbours ns) : p.1 ∈ ns ∧ p.2 ∈ ns :=
  ⟨(List.of_mem_zip h).1, List.mem_of_mem_tail (List.of_mem_zip h).2⟩

/-- The pair of neighbours around `v`, the pairs before it and after it, and no edge between the two. -/
theorem neighbours_cell {n : Nat} {ns : List Nat} (hns : (n :: ns).Pairwise (· < ·)) {v : Nat} (hmin : n ≤ v)
    (hmax : ∃ m ∈ ns, v < m) :
    ∃ pre p post, neighbours (n :: ns) = pre ++ p :: post ∧ p.1 ≤ v ∧ v < p.2 ∧ (∀ q ∈ pre, q.2 ≤ v) ∧
      (∀ q ∈ post, v < q.1) ∧ ∀ m ∈ n :: ns, m ≤ p.1 ∨ p.2 ≤ m := by
  induction ns generalizing n with
  | nil =>
    obtain ⟨m, hm, _⟩ := hmax
    exact absurd hm List.not_mem_nil
  | cons m ms ih =>
    obtain ⟨hn, hms⟩ := List.pairwise_cons.mp hns
    have hrest : ∀ k ∈ m :: ms, m ≤ k := fun k hk =>
      (List.mem_cons.mp hk).elim (fun h => h ▸ le_refl _) fun h => le_of_lt ((List.pairwise_cons.mp hms).1 k h)
    by_cases hv : v < m
    · refine ⟨[], (n, m), neighbours (m :: ms), neighbours_cons n m ms, hmin, hv, by simp, fun q hq => ?_, fun k hk => ?_⟩
      · exact lt_of_lt_of_le hv (hrest q.1 (mem_of_mem_neighbours hq).1)
      · exact (List.mem_cons.mp hk).imp (fun h => le_of_eq h) (hrest k)
    · obtain ⟨k, hk, hvk⟩ := hmax
      have hlater : ∃ k ∈ ms, v < k := by
        rcases List.mem_cons.mp hk with rfl | hk
        · exact absurd hvk hv
        · exact ⟨k, hk, hvk⟩
      obtain ⟨pre, p, post, heq, hlow, hhigh, hpre, hpost, hcell⟩ := ih hms (Nat.le_of_not_lt hv) hlater
      refine ⟨(n, m) :: pre, p, post, by rw [neighbours_cons, heq, List.cons_append], hlow, hhigh, fun q hq => ?_, hpost,
        fun j hj => ?_⟩
      · rcases List.mem_cons.mp hq with rfl | hq
        · exact Nat.le_of_not_lt hv
        · exact hpre q hq
      · rcases List.mem_cons.mp hj with rfl | hj
        · have hp : p ∈ neighbours (m :: ms) := heq ▸ List.mem_append_right _ List.mem_cons_self
          exact .inl (le_of_lt (hn _ (mem_of_mem_neighbours hp).1))
        · exact hcell j hj

/-- Edges that hold 0 and a number above `v` have a cell around `v`. -/
theorem edges_cell {ns : List Nat} {v top : Nat} (hv : v < top) :
    ∃ pre p post, neighbours (edges (0 :: top :: ns)) = pre ++ p :: post ∧ p.1 ≤ v ∧ v < p.2 ∧ (∀ q ∈ pre, q.2 ≤ v) ∧
      (∀ q ∈ post, v < q.1) ∧ ∀ m ∈ 0 :: top :: ns, m ≤ p.1 ∨ p.2 ≤ m := by
  have hincr := edges_increasing (0 :: top :: ns)
  have hmem : ∀ m, m ∈ edges (0 :: top :: ns) ↔ m ∈ 0 :: top :: ns := fun m => mem_edges
  cases hedges : edges (0 :: top :: ns) with
  | nil => exact absurd ((hmem 0).mpr List.mem_cons_self) (by rw [hedges]; exact List.not_mem_nil)
  | cons n ms =>
    rw [hedges] at hincr hmem
    have hzero : n = 0 := by
      rcases List.mem_cons.mp ((hmem 0).mpr List.mem_cons_self) with h | h
      · exact h.symm
      · exact absurd ((List.pairwise_cons.mp hincr).1 0 h) (Nat.not_lt_zero n)
    have htop : top ∈ ms := by
      rcases List.mem_cons.mp ((hmem top).mpr (by simp)) with h | h
      · omega
      · exact h
    obtain ⟨pre, p, post, heq, hlow, hhigh, hpre, hpost, hcell⟩ := neighbours_cell hincr (v := v) (by omega) ⟨top, htop, hv⟩
    exact ⟨pre, p, post, heq, hlow, hhigh, hpre, hpost, fun m hm => hcell m ((hmem m).mpr hm)⟩

/-! ### Segments -/

/-- The owner the segments give to column `x`: none when no segment starts at or below it (R107). -/
def ownerAmong (gs : List Segment) (x : Nat) : Option (Option WindowId) :=
  (gs.reverse.find? fun g => decide (g.start ≤ x)).map (·.owner)

theorem ownerAmong_cons (g : Segment) (gs : List Segment) (x : Nat) :
    ownerAmong (g :: gs) x = (ownerAmong gs x).or (if g.start ≤ x then some g.owner else none) := by
  unfold ownerAmong
  rw [List.reverse_cons, List.find?_append]
  cases gs.reverse.find? fun g => decide (g.start ≤ x) with
  | some h => rfl
  | none => by_cases hg : g.start ≤ x <;> simp [hg]

theorem ownerAmong_append_cons {pre post : List Segment} {g : Segment} {x : Nat} (hg : g.start ≤ x)
    (hpost : ∀ h ∈ post, x < h.start) : ownerAmong (pre ++ g :: post) x = some g.owner := by
  have hnone : (post.reverse.find? fun g => decide (g.start ≤ x)) = none :=
    List.find?_eq_none.mpr fun h hh => by simpa using hpost h (List.mem_reverse.mp hh)
  simp [ownerAmong, hnone, hg]

theorem mergeSegments_head (gs : List Segment) : (mergeSegments gs).head?.map (·.start) = gs.head?.map (·.start) := by
  cases gs with
  | nil => rfl
  | cons g gs =>
    unfold mergeSegments
    split
    · rfl
    · split <;> rfl

/-- Runs joined into one segment give every column the owner it had (R79). -/
theorem ownerAmong_mergeSegments {gs : List Segment} (h : gs.Pairwise (·.start < ·.start)) (x : Nat) :
    ownerAmong (mergeSegments gs) x = ownerAmong gs x := by
  induction gs with
  | nil => rfl
  | cons g gs ih =>
    obtain ⟨hg, hgs⟩ := List.pairwise_cons.mp h
    have hrest := ih hgs
    have hhead := mergeSegments_head gs
    rw [ownerAmong_cons g gs, ← hrest, mergeSegments]
    cases hmerged : mergeSegments gs with
    | nil => exact ownerAmong_cons g [] x
    | cons t ts =>
      dsimp only
      split
      case isFalse => exact ownerAmong_cons g (t :: ts) x
      case isTrue howner =>
        have hstart : g.start ≤ t.start := by
          rw [hmerged] at hhead
          cases gs with
          | nil => cases hhead
          | cons k ks =>
            have : t.start = k.start := Option.some.inj hhead
            exact this ▸ le_of_lt (hg k List.mem_cons_self)
        rw [ownerAmong_cons, ownerAmong_cons]
        cases ownerAmong ts x with
        | some o => rfl
        | none =>
          by_cases ht : t.start ≤ x
          · simp [ht, hstart.trans ht, howner]
          · simp [ht]

/-! ### Candidate strips -/

/-- Row `y` lies in the candidate. -/
def Candidate.holds (y : Nat) (c : Candidate) : Bool := decide (c.top ≤ y) && decide (y < c.bottom)

/-- The segments the candidates give to row `y`. -/
def segmentsAt (y : Nat) (cs : List Candidate) : Option (List Segment) := (cs.find? (·.holds y)).map (·.segments)

theorem segmentsAt_cons (y : Nat) (c : Candidate) (cs : List Candidate) :
    segmentsAt y (c :: cs) = if c.holds y then some c.segments else segmentsAt y cs := by
  unfold segmentsAt
  rw [List.find?_cons]
  cases c.holds y <;> rfl

/-- The candidates follow each other without a gap from row `a` on. -/
def Contiguous : Nat → List Candidate → Prop
  | _, [] => True
  | a, c :: cs => c.top = a ∧ a ≤ c.bottom ∧ Contiguous c.bottom cs

theorem mergeCandidates_contiguous {a : Nat} {cs : List Candidate} (h : Contiguous a cs) : Contiguous a (mergeCandidates cs) := by
  induction cs generalizing a with
  | nil => trivial
  | cons c cs ih =>
    obtain ⟨htop, hle, hrest⟩ := h
    have hmerged := ih hrest
    unfold mergeCandidates
    cases heq : mergeCandidates cs with
    | nil => exact ⟨htop, hle, trivial⟩
    | cons d ds =>
      rw [heq] at hmerged
      obtain ⟨hdtop, hdle, hds⟩ := hmerged
      dsimp only
      split
      · exact ⟨htop, hle.trans hdle, hds⟩
      · exact ⟨htop, hle, hdtop, hdle, hds⟩

/-- Strips joined into one give every row the segments it had (R80). -/
theorem segments_mergeCandidates {a : Nat} {cs : List Candidate} (h : Contiguous a cs) (y : Nat) :
    segmentsAt y (mergeCandidates cs) = segmentsAt y cs := by
  induction cs generalizing a with
  | nil => rfl
  | cons c cs ih =>
    obtain ⟨htop, hle, hrest⟩ := h
    have hsame := ih hrest
    have hmerged := mergeCandidates_contiguous hrest
    rw [segmentsAt_cons y c cs, ← hsame, mergeCandidates]
    cases heq : mergeCandidates cs with
    | nil => exact segmentsAt_cons y c []
    | cons d ds =>
      rw [heq] at hmerged
      obtain ⟨hdtop, hdle, -⟩ := hmerged
      dsimp only
      split
      case isFalse => exact segmentsAt_cons y c (d :: ds)
      case isTrue hsegs =>
        have hjoin : Candidate.holds y { c with bottom := d.bottom } = (c.holds y || d.holds y) := by
          rw [Bool.eq_iff_iff]
          simp only [Candidate.holds, Bool.and_eq_true, Bool.or_eq_true, decide_eq_true_eq]
          omega
        rw [segmentsAt_cons, segmentsAt_cons, hjoin]
        cases c.holds y with
        | true => rfl
        | false => simp [hsegs]

/-- Each strip record finds its candidate's segments in the pool (R77). -/
theorem segments_placeStrips (cs : List Candidate) (before : List Segment) (y : Nat) :
    ((placeStrips before.length cs).find? fun t => decide (t.top ≤ y) && decide (y < t.bottom)).map
        (fun t => ((before ++ cs.flatMap (·.segments)).drop t.first).take t.count) =
      segmentsAt y cs := by
  induction cs generalizing before with
  | nil => rfl
  | cons c cs ih =>
    have hrest := ih (before ++ c.segments)
    rw [List.length_append, List.append_assoc] at hrest
    unfold placeStrips
    rw [segmentsAt_cons]
    cases hc : c.holds y with
    | true =>
      have hrow : (decide (c.top ≤ y) && decide (y < c.bottom)) = true := hc
      simp [hrow]
    | false =>
      have hrow : (decide (c.top ≤ y) && decide (y < c.bottom)) = false := hc
      rw [List.find?_cons, List.flatMap_cons]
      simp only [hrow]
      exact hrest

/-! ### The compiled strips -/

/-- The candidate a cell of rows gives. -/
def Layout.candidate (l : Layout) (width : Nat) (p : Nat × Nat) : Candidate :=
  { top := p.1, bottom := p.2, segments := l.stripSegments width p.1 p.2 }

theorem Layout.candidates_contiguous (l : Layout) (width : Nat) {n : Nat} {ns : List Nat} (h : (n :: ns).Pairwise (· < ·)) :
    Contiguous n ((neighbours (n :: ns)).map (l.candidate width)) := by
  induction ns generalizing n with
  | nil => trivial
  | cons m ms ih =>
    obtain ⟨hn, hms⟩ := List.pairwise_cons.mp h
    exact ⟨rfl, le_of_lt (hn m List.mem_cons_self), ih hms⟩

theorem neighbours_starts_increasing {ns : List Nat} (h : ns.Pairwise (· < ·)) : (neighbours ns).Pairwise (·.1 < ·.1) := by
  match ns with
  | [] => exact .nil
  | [_] => exact .nil
  | n :: m :: ms =>
    obtain ⟨hn, hms⟩ := List.pairwise_cons.mp h
    rw [neighbours_cons]
    exact List.pairwise_cons.mpr ⟨fun q hq => hn q.1 (mem_of_mem_neighbours hq).1, neighbours_starts_increasing hms⟩

/-- Between neighbouring edges a stacked window covers all or nothing, so a corner of the cell speaks for the pixel (R79). -/
theorem Layout.stripOwner_eq (l : Layout) {height width x y : Nat} {p q : Nat × Nat} (hplow : p.1 ≤ y) (hphigh : y < p.2)
    (hrows : ∀ m ∈ 0 :: height :: l.stacked.flatMap (fun w => [l.windows[w].y, l.windows[w].y + l.windows[w].height]),
      m ≤ p.1 ∨ p.2 ≤ m)
    (hqlow : q.1 ≤ x) (hqhigh : x < q.2)
    (hcols : ∀ m ∈ 0 :: width :: l.stacked.flatMap (fun w => [l.windows[w].x, l.windows[w].x + l.windows[w].width]),
      m ≤ q.1 ∨ q.2 ≤ m) :
    l.stripOwner p.1 p.2 q.1 = l.stacked.find? fun w => l.windows[w].covers x y := by
  refine List.find?_congr fun w hw => ?_
  have hrow : ∀ m ∈ [l.windows[w].y, l.windows[w].y + l.windows[w].height], m ≤ p.1 ∨ p.2 ≤ m := fun m hm =>
    hrows m (List.mem_cons_of_mem _ (List.mem_cons_of_mem _ (List.mem_flatMap.mpr ⟨w, hw, hm⟩)))
  have hcol : ∀ m ∈ [l.windows[w].x, l.windows[w].x + l.windows[w].width], m ≤ q.1 ∨ q.2 ≤ m := fun m hm =>
    hcols m (List.mem_cons_of_mem _ (List.mem_cons_of_mem _ (List.mem_flatMap.mpr ⟨w, hw, hm⟩)))
  have htop := hrow _ List.mem_cons_self
  have hbottom := hrow _ (List.mem_cons_of_mem _ List.mem_cons_self)
  have hleft := hcol _ List.mem_cons_self
  have hright := hcol _ (List.mem_cons_of_mem _ List.mem_cons_self)
  rw [Bool.eq_iff_iff]
  simp only [Window.coversStrip, Window.covers, Bool.and_eq_true, decide_eq_true_eq]
  omega

/-- The segments of a cell of rows give every column the first stacked window that covers it. -/
theorem Layout.ownerAmong_stripSegments (l : Layout) {height width x y : Nat} {p : Nat × Nat} (hlow : p.1 ≤ y) (hhigh : y < p.2)
    (hrows : ∀ m ∈ 0 :: height :: l.stacked.flatMap (fun w => [l.windows[w].y, l.windows[w].y + l.windows[w].height]),
      m ≤ p.1 ∨ p.2 ≤ m) (hx : x < width) :
    ownerAmong (l.stripSegments width p.1 p.2) x = some (l.stacked.find? fun w => l.windows[w].covers x y) := by
  have hincr : (l.columnEdges width).Pairwise (· < ·) := edges_increasing _
  obtain ⟨pre, q, post, heq, hqlow, hqhigh, -, hpost, hcols⟩ :=
    edges_cell (ns := l.stacked.flatMap fun w => [l.windows[w].x, l.windows[w].x + l.windows[w].width]) hx
  have hcells : neighbours (l.columnEdges width) = pre ++ q :: post := heq
  rw [Layout.stripSegments, ownerAmong_mergeSegments (List.pairwise_map.mpr (neighbours_starts_increasing hincr)), hcells,
    List.map_append, List.map_cons, ownerAmong_append_cons hqlow]
  · exact congrArg some (l.stripOwner_eq hlow hhigh hrows hqlow hqhigh hcols)
  · intro g hg
    obtain ⟨r, hr, rfl⟩ := List.mem_map.mp hg
    exact hpost r hr

/-- The merged candidates hold, for a row of the canvas, the segments of the cell of rows around it. -/
theorem Layout.candidates_find (l : Layout) (width : Nat) {height y : Nat} (hy : y < height) :
    ∃ p : Nat × Nat, p.1 ≤ y ∧ y < p.2 ∧
      (∀ m ∈ 0 :: height :: l.stacked.flatMap (fun w => [l.windows[w].y, l.windows[w].y + l.windows[w].height]),
        m ≤ p.1 ∨ p.2 ≤ m) ∧
      segmentsAt y (l.candidates width height) = some (l.stripSegments width p.1 p.2) := by
  obtain ⟨pre, p, post, heq, hlow, hhigh, hpre, -, hcell⟩ :=
    edges_cell (ns := l.stacked.flatMap fun w => [l.windows[w].y, l.windows[w].y + l.windows[w].height]) hy
  refine ⟨p, hlow, hhigh, hcell, ?_⟩
  have hcells : neighbours (l.rowEdges height) = pre ++ p :: post := heq
  have hcontiguous : ∃ a, Contiguous a ((neighbours (l.rowEdges height)).map (l.candidate width)) := by
    have hincr : (l.rowEdges height).Pairwise (· < ·) := edges_increasing _
    cases hedges : l.rowEdges height with
    | nil => exact ⟨0, trivial⟩
    | cons n ns => exact ⟨n, l.candidates_contiguous width (hedges ▸ hincr)⟩
  obtain ⟨a, ha⟩ := hcontiguous
  have hmerge := segments_mergeCandidates ha y
  have hbefore : (pre.map (l.candidate width)).find? (·.holds y) = none := by
    refine List.find?_eq_none.mpr fun c hc => ?_
    obtain ⟨q, hq, rfl⟩ := List.mem_map.mp hc
    have := hpre q hq
    have hnot : ¬ y < (l.candidate width q).bottom := Nat.not_lt.mpr this
    simp [Candidate.holds, hnot]
  have hholds : (l.candidate width p).holds y = true := by simp [Candidate.holds, Layout.candidate, hlow, hhigh]
  have hraw : segmentsAt y ((neighbours (l.rowEdges height)).map (l.candidate width)) = some (l.stripSegments width p.1 p.2) := by
    rw [segmentsAt, hcells, List.map_append, List.map_cons, List.find?_append, hbefore, Option.none_or,
      List.find?_cons_of_pos hholds]
    rfl
  exact hmerge.trans hraw

/-- The strips and segments of a compile give every pixel of the canvas the first stacked window that covers it (R79, R80, R107). -/
theorem Layout.compile_stripOwnerAt (l : Layout) (canvas : Canvas) {x y : Nat} (hx : x < canvas.width) (hy : y < canvas.height) :
    (l.compile canvas).stripOwnerAt x y = l.stacked.find? fun w => l.windows[w].covers x y := by
  obtain ⟨p, hlow, hhigh, hrows, hfind⟩ := l.candidates_find canvas.width hy
  have hplaced : ((l.compile canvas).stripAt y).map (l.compile canvas).segmentsOf = some (l.stripSegments canvas.width p.1 p.2) :=
    (segments_placeStrips (l.candidates canvas.width canvas.height) [] y).trans hfind
  obtain ⟨t, ht, hsegs⟩ := Option.map_eq_some_iff.mp hplaced
  have howner := l.ownerAmong_stripSegments hlow hhigh hrows hx
  rw [← hsegs] at howner
  obtain ⟨g, hg, hgowner⟩ := Option.map_eq_some_iff.mp howner
  rw [Bank.stripOwnerAt, ht]
  dsimp only
  rw [hg]
  exact hgowner

/-! ### The owner -/

theorem State.windowShown_eq_true {s : State} {b : Bank} {w : WindowId} :
    s.windowShown b w = true ↔ ∃ g, b.layout.windows[w].group = some g ∧ s.override.groups[g].state ≠ .idle := by
  unfold State.windowShown
  cases b.layout.windows[w].group with
  | none => simp
  | some g => simp [State.groupShown]

/-- A window that is not shown, or does not cover the pixel, is passed over by the override layer. -/
theorem State.override_passes {s : State} {b : Bank} {v : WindowId} {x y : Nat}
    (h : (∀ g, b.layout.windows[v].group = some g → s.override.groups[g].state = .idle) ∨ b.layout.windows[v].covers x y = false) :
    ¬ (s.windowShown b v && b.layout.windows[v].covers x y) = true := by
  rw [Bool.and_eq_true, State.windowShown_eq_true]
  rintro ⟨⟨g, hgroup, hstate⟩, hcovers⟩
  rcases h with h | h
  · exact hstate (h g hgroup)
  · exact Bool.false_ne_true (h.symm.trans hcovers)

theorem find?_first {α : Type} {p : α → Bool} {pre post : List α} {a : α} (ha : p a = true) (hpre : ∀ b ∈ pre, ¬ p b = true) :
    (pre ++ a :: post).find? p = some a := by
  rw [List.find?_append, List.find?_eq_none.mpr hpre, Option.none_or, List.find?_cons_of_pos ha]

theorem State.ownerAt_override {s : State} {b : Bank} {x y : Nat} {w : WindowId} (hx : x < b.width)
    (h : s.overrideOwner b x y = some w) : s.ownerAt b x y = .window w true := by
  rw [State.ownerAt, if_neg (Nat.not_le.mpr hx), h]

theorem State.ownerAt_strips {s : State} {b : Bank} {x y : Nat} (hx : x < b.width) (h : s.overrideOwner b x y = none) :
    s.ownerAt b x y = (b.stripOwnerAt x y).elim .background fun w => .window w false := by
  rw [State.ownerAt, if_neg (Nat.not_le.mpr hx), h]
  cases b.stripOwnerAt x y <;> rfl

/-- Settles O16: the override list is searched first, and the strips and segments of the compile give back the stack's first window. -/
theorem ownerIsFirstWindowThatCovers : Obligations.OwnerIsFirstWindowThatCovers := by
  refine ⟨fun l canvas => l.overrideWindows_isOverrideList,
    fun s l canvas x y hy => ⟨fun hx => if_pos hx, fun hx => ⟨?_, fun hnone => ?_⟩⟩⟩
  · intro pre post w hlist hshown hcovers hpre
    refine State.ownerAt_override hx ?_
    rw [State.overrideOwner, hlist]
    refine find?_first ?_ fun v hv => State.override_passes (hpre v hv)
    rw [Bool.and_eq_true]
    exact ⟨State.windowShown_eq_true.mpr hshown, hcovers⟩
  · have hpass : s.overrideOwner (l.compile canvas) x y = none :=
      List.find?_eq_none.mpr fun v hv => State.override_passes (hnone v hv)
    rw [State.ownerAt_strips hx hpass, l.compile_stripOwnerAt canvas hx hy]
    refine ⟨fun pre post w hstack hcovers hpre => ?_, fun hall => ?_⟩
    · have hfirst : (l.stacked.find? fun w => l.windows[w].covers x y) = some w :=
        hstack ▸ find?_first hcovers fun v hv => Bool.eq_false_iff.mp (hpre v hv)
      rw [hfirst]
      rfl
    · have hfree : (l.stacked.find? fun w => l.windows[w].covers x y) = none :=
        List.find?_eq_none.mpr fun v hv => Bool.eq_false_iff.mp (hall v hv)
      rw [hfree]
      rfl

end Sys2Proof.Machine
end

section
/-! PROOFS. What a block does with a word or a command does not depend on the port's own record, nor on the loader's: the management
port and the loader hand it over and report it, each in its own way (R170 to R181). -/

namespace Sys2Proof.Machine

open Sys2Proof

/-- The records of the port and the loader replaced. -/
def State.withBook (s : State) (p : Port) (l : Loader) : State := { s with port := p, loader := l }

theorem State.withBook_self (s : State) : s.withBook s.port s.loader = s := rfl

/-- The action neither reads nor changes the records of the port and the loader. -/
def Blind (f : State → State) : Prop := ∀ s p l, f (s.withBook p l) = (f s).withBook p l

/-- The same of an action that answers with a report. -/
def BlindAsk (f : State → State × Report) : Prop := ∀ s p l, f (s.withBook p l) = ((f s).1.withBook p l, (f s).2)

theorem Blind.comp {f g : State → State} (hf : Blind f) (hg : Blind g) : Blind fun s => f (g s) := fun s p l =>
  (congrArg f (hg s p l)).trans (hf (g s) p l)

theorem Blind.port {f : State → State} (hf : Blind f) (s : State) : (f s).port = s.port := by
  have hself := hf s s.port s.loader
  rw [State.withBook_self] at hself
  exact (congrArg State.port hself).trans rfl

theorem BlindAsk.port {f : State → State × Report} (hf : BlindAsk f) (s : State) : (f s).1.port = s.port := by
  have hself := hf s s.port s.loader
  rw [State.withBook_self] at hself
  exact congrArg (fun r => r.1.port) hself

theorem Blind.foldl {α : Type} {f : State → α → State} (hf : ∀ a, Blind fun s => f s a) (as : List α) :
    Blind fun s => as.foldl f s := by
  induction as with
  | nil => exact fun _ _ _ => rfl
  | cons a as ih =>
    intro s p l
    have hfirst : f (s.withBook p l) a = (f s a).withBook p l := hf a s p l
    exact (congrArg (fun t => as.foldl f t) hfirst).trans (ih (f s a) p l)

/-- A choice by a condition that looks elsewhere. -/
theorem Blind.ite {c : State → Prop} [DecidablePred c] {f g : State → State} (hc : ∀ s p l, c (s.withBook p l) ↔ c s) (hf : Blind f)
    (hg : Blind g) : Blind fun s => if c s then f s else g s := fun s p l => by
  by_cases h : c s
  · simp only [hc, h, if_true]
    exact hf s p l
  · simp only [hc, h, if_false]
    exact hg s p l

theorem BlindAsk.ite {c : State → Prop} [DecidablePred c] {f g : State → State × Report} (hc : ∀ s p l, c (s.withBook p l) ↔ c s)
    (hf : BlindAsk f) (hg : BlindAsk g) : BlindAsk fun s => if c s then f s else g s := fun s p l => by
  by_cases h : c s
  · simp only [hc, h, if_true]
    exact hf s p l
  · simp only [hc, h, if_false]
    exact hg s p l

/-- An action with its report. -/
theorem Blind.answered {f : State → State} (hf : Blind f) (r : Report) : BlindAsk fun s => (f s, r) := fun s p l =>
  congrArg (·, r) (hf s p l)

theorem blindAsk_refused (r : Report) : BlindAsk fun s => (s, r) := fun _ _ _ => rfl

/-! ### Groups and heads -/

theorem evaluateGroup_blind (g : GroupId) : Blind fun s => s.evaluateGroup g := by
  refine Blind.ite (c := fun s => s.rawCondition g = s.override.groups[g].raw) (fun s p l => Iff.rfl) (fun _ _ _ => rfl)
    (Blind.ite (c := fun s => s.rawCondition g = true) (fun s p l => Iff.rfl) (fun s p l => ?_) fun s p l => ?_)
  · unfold State.rawRise
    have hst : (s.withBook p l).override = s.override := rfl
    rw [hst]
    cases hg : s.override.groups[g].state with
    | idle =>
      dsimp only
      split <;> rfl
    | asserted => rfl
    | holding => rfl
  · unfold State.rawFall
    have hst : (s.withBook p l).override = s.override := rfl
    rw [hst]
    cases hg : s.override.groups[g].state with
    | idle => rfl
    | asserted =>
      dsimp only
      split <;> rfl
    | holding => rfl

theorem evaluateGroups_blind : Blind State.evaluateGroups := Blind.foldl evaluateGroup_blind allGroups

theorem reofferHeads_blind : Blind State.reofferHeads := fun s p l => by
  have hsame : (s.withBook p l).headOutcome = s.headOutcome := funext fun i => State.headOutcome_congr rfl rfl rfl
  rw [State.reofferHeads_eq, State.reofferHeads_eq, State.headsOffered, hsame]
  rfl

theorem endDrain_blind (i : SourceId) : Blind fun s => s.endDrain i := by
  refine Blind.ite (c := fun s => s.sources[i].state = .closing ∧ s.sources[i].bufs.noHolds = true) (fun _ _ _ => Iff.rfl) ?_
    fun _ _ _ => rfl
  exact reofferHeads_blind.comp (g := fun s => s.putSource i { s.sources[i] with state := .off }) fun _ _ _ => rfl

/-! ### Commands -/

theorem openSource_blind (i : SourceId) : BlindAsk fun s => s.openSource i := fun s p l => by
  have hopened := reofferHeads_blind.comp (g := fun s => s.putSource i s.sources[i].opened) (fun _ _ _ => rfl) s p l
  have hchecked : (s.withBook p l).openChecked i = ((s.openChecked i).1.withBook p l, (s.openChecked i).2) := by
    unfold State.openChecked
    have hsources : (s.withBook p l).sources = s.sources := rfl
    have hoverlap : (s.withBook p l).firstOverlap i = s.firstOverlap i := rfl
    have hpending : (s.withBook p l).writePendingIn i = s.writePendingIn i := rfl
    rw [hsources, hoverlap, hpending]
    cases s.sources[i].cfg.firstInvalid with
    | some f => rfl
    | none =>
      cases s.firstOverlap i with
      | some g => rfl
      | none =>
        by_cases hbusy : s.writePendingIn i = true
        · simp only [if_pos hbusy]
        · simp only [if_neg hbusy]
          exact congrArg (fun t => (t, Report.accepted)) hopened
  show State.openSource (s.withBook p l) i = ((s.openSource i).1.withBook p l, (s.openSource i).2)
  unfold State.openSource
  have hsources : (s.withBook p l).sources = s.sources := rfl
  rw [hsources, hchecked]
  cases s.sources[i].state <;> rfl

theorem closeTaken_blind (i : SourceId) : Blind fun s => s.closeTaken i :=
  evaluateGroups_blind.comp ((endDrain_blind i).comp
    (reofferHeads_blind.comp (g := fun s => s.putSource i s.sources[i].closed) fun _ _ _ => rfl))

theorem closeSource_blind (i : SourceId) : BlindAsk fun s => s.closeSource i := fun s p l => by
  show State.closeSource (s.withBook p l) i = ((s.closeSource i).1.withBook p l, (s.closeSource i).2)
  unfold State.closeSource
  have hsources : (s.withBook p l).sources = s.sources := rfl
  have hclosed : (s.withBook p l).closeTaken i = (s.closeTaken i).withBook p l := closeTaken_blind i s p l
  rw [hsources, hclosed]
  cases s.sources[i].state <;> rfl

theorem releaseSource_blind (i : SourceId) : BlindAsk fun s => s.releaseSource i :=
  BlindAsk.ite (c := fun s => s.sources[i].state = .contained) (fun _ _ _ => Iff.rfl)
    ((evaluateGroups_blind.comp (g := fun s => s.putSource i s.sources[i].released) fun _ _ _ => rfl).answered .accepted)
    (blindAsk_refused .accepted)

theorem enterCompile_blind : Blind State.enterCompile := fun s p l => by
  unfold State.enterCompile
  have hlayout : (s.withBook p l).layout = s.layout := rfl
  rw [hlayout]
  cases s.layout.checkFailure with
  | none => rfl
  | some r => rfl

theorem endDrainWait_blind : Blind State.endDrainWait :=
  Blind.ite (c := fun s => s.layout.ctl = .drain ∧ s.layout.hold ≠ some s.layout.inactive) (fun _ _ _ => Iff.rfl)
    enterCompile_blind fun _ _ _ => rfl

theorem commitCommand_blind : BlindAsk State.commitCommand :=
  BlindAsk.ite (c := fun s => s.layout.ctl = .idle) (fun _ _ _ => Iff.rfl)
    ((endDrainWait_blind.comp
      (g := fun s => s.withLayout { s.layout with ctl := .drain, result := CommitResult.none }) fun _ _ _ => rfl).answered .accepted)
    (blindAsk_refused .busy)

theorem abortCommand_blind : BlindAsk State.abortCommand :=
  BlindAsk.ite (c := fun s => s.layout.ctl = .idle) (fun _ _ _ => Iff.rfl) (blindAsk_refused .accepted) fun _ _ _ => rfl

theorem restageCommand_blind : BlindAsk State.restageCommand :=
  BlindAsk.ite (c := fun s => s.layout.ctl = .idle) (fun _ _ _ => Iff.rfl) (fun _ _ _ => rfl) (blindAsk_refused .busy)

theorem onSource_blind {f : State → SourceId → State × Report} (hf : ∀ i, BlindAsk fun s => f s i) (operand : Nat) :
    BlindAsk fun s => s.onSource operand f := fun s p l => by
  by_cases h : operand < 16
  · simp only [State.onSource, h, dif_pos]
    exact hf ⟨operand, h⟩ s p l
  · simp only [State.onSource, h, dif_neg, not_false_iff]

theorem runCommand_blind (code operand : Nat) : BlindAsk fun s => s.runCommand code operand := by
  unfold State.runCommand
  split
  · exact onSource_blind openSource_blind operand
  · exact onSource_blind closeSource_blind operand
  · exact onSource_blind releaseSource_blind operand
  · exact commitCommand_blind
  · exact abortCommand_blind
  · exact restageCommand_blind
  · exact blindAsk_refused _

/-! ### Registers -/

theorem writeGeometry_blind (f : CanvasField) (v : Nat) : BlindAsk fun s => s.writeGeometry f v :=
  BlindAsk.ite (c := fun s => s.layout.canvas.enabled = true) (fun _ _ _ => Iff.rfl) (blindAsk_refused .wrongState)
    (BlindAsk.ite (c := fun _ => f = .base ∧ Config.maxPage < v) (fun _ _ _ => Iff.rfl) (blindAsk_refused _) fun _ _ _ => rfl)

theorem canvasEnabled_blind : Blind State.canvasEnabled :=
  reofferHeads_blind.comp
    (g := fun s => s.withLayout
      { s.layout with
        canvas := { s.layout.canvas with enabled := true }
        bankA := s.layout.canvas.emptyLayout
        bankB := s.layout.canvas.emptyLayout }) fun _ _ _ => rfl

theorem enableRequest_blind : BlindAsk State.enableRequest := by
  refine BlindAsk.ite (c := fun s => s.layout.ctl = .drain ∨ s.canvasWalkDue = true) (fun _ _ _ => Iff.rfl) (blindAsk_refused .busy) ?_
  intro s p l
  have hlayout : (s.withBook p l).layout = s.layout := rfl
  have hoverlaps : (s.withBook p l).canvasOverlaps = s.canvasOverlaps := rfl
  dsimp only
  rw [hlayout, hoverlaps, canvasEnabled_blind s p l]
  cases s.layout.canvas.firstInvalid with
  | some f => rfl
  | none =>
    by_cases hmeets : s.canvasOverlaps = true
    · simp only [if_pos hmeets]
    · simp only [if_neg hmeets]

theorem disableRequest_blind : Blind State.disableRequest := by
  refine reofferHeads_blind.comp (Blind.ite (c := fun s => s.layout.ctl = .idle) (fun _ _ _ => Iff.rfl) (fun _ _ _ => rfl) ?_)
  exact fun _ _ _ => rfl

theorem writeEnable_blind (v : Nat) : BlindAsk fun s => s.writeEnable v :=
  BlindAsk.ite (c := fun _ => v = 1) (fun _ _ _ => Iff.rfl)
    (BlindAsk.ite (c := fun s => s.layout.canvas.enabled = true) (fun _ _ _ => Iff.rfl) (blindAsk_refused .accepted)
      enableRequest_blind)
    (BlindAsk.ite (c := fun _ => v = 0) (fun _ _ _ => Iff.rfl)
      (BlindAsk.ite (c := fun s => s.layout.canvas.enabled = true) (fun _ _ _ => Iff.rfl) (disableRequest_blind.answered .accepted)
        (blindAsk_refused .accepted))
      (blindAsk_refused _))

theorem writeSlotLength_blind (v : Word) : BlindAsk fun s => s.writeSlotLength v :=
  BlindAsk.ite (c := fun _ => 1 ≤ v.toNat ∧ v.toNat ≤ 65535) (fun _ _ _ => Iff.rfl) (fun _ _ _ => rfl) (blindAsk_refused _)

theorem writeDeadline_blind (v : Word) : BlindAsk fun s => s.writeDeadline v := by
  unfold State.writeDeadline
  split
  · exact fun _ _ _ => rfl
  · exact blindAsk_refused _

theorem writeSoftBits_blind (v : Word) : Blind fun s => s.writeSoftBits v :=
  evaluateGroups_blind.comp (g := fun s => s.withOverride { s.override with softBits := v.extractLsb' 0 8 }) fun _ _ _ => rfl

theorem mapNamed_blind (named : Word) (f : Source → Source) : Blind fun s => s.mapNamed named f := fun s p l => by
  show (s.withBook p l).mapNamed named f = (s.mapNamed named f).withBook p l
  rw [State.mapNamed_eq, State.mapNamed_eq]
  rfl

theorem clearTrips_blind (v : Word) : Blind fun s => s.clearTrips v := evaluateGroups_blind.comp (mapNamed_blind v _)

/-- A register that is not of the port itself and is no pointer (Table 11-1). -/
theorem writeRegister_blind {index : Nat} (v : Word) (hpointer : index ≠ 2) (hstatus : index ≠ 23) :
    BlindAsk fun s => s.writeRegister index v := by
  unfold State.writeRegister
  split
  · exact absurd rfl hpointer
  · exact writeGeometry_blind _ _
  · exact writeGeometry_blind _ _
  · exact writeGeometry_blind _ _
  · exact writeGeometry_blind _ _
  · exact writeEnable_blind _
  · exact writeSlotLength_blind v
  · exact writeDeadline_blind v
  · exact (writeSoftBits_blind v).answered _
  · exact (clearTrips_blind v).answered _
  · exact (mapNamed_blind v _).answered _
  · exact fun _ _ _ => rfl
  · exact fun _ _ _ => rfl
  · exact fun _ _ _ => rfl
  · exact fun _ _ _ => rfl
  · exact fun _ _ _ => rfl
  · exact absurd rfl hstatus
  · exact blindAsk_refused _

/-! ### Tables -/

theorem writeWindow_blind (w : WindowId) (f v : Nat) : BlindAsk fun s => s.writeWindow w f v := by
  refine BlindAsk.ite (c := fun s => s.layout.ctl = .idle) (fun _ _ _ => Iff.rfl) (fun s p l => ?_) (blindAsk_refused .busy)
  have hlayout : (s.withBook p l).layout = s.layout := rfl
  rw [hlayout]
  cases s.layout.staged.windows[w].put f v <;> rfl

theorem writeStack_blind (f v : Nat) : BlindAsk fun s => s.writeStack f v := by
  refine BlindAsk.ite (c := fun s => s.layout.ctl = .idle) (fun _ _ _ => Iff.rfl) (fun s p l => ?_) (blindAsk_refused .busy)
  have hlayout : (s.withBook p l).layout = s.layout := rfl
  rw [hlayout]
  cases s.layout.staged.putStackField f v <;> rfl

theorem disableGroup_blind (g : GroupId) : Blind fun s => s.disableGroup g :=
  Blind.ite (c := fun s => s.override.groups[g].cfg.enabled = true) (fun _ _ _ => Iff.rfl)
    (Blind.ite (c := fun s => s.override.groups[g].state = .idle) (fun _ _ _ => Iff.rfl) (fun _ _ _ => rfl) fun _ _ _ => rfl)
    fun _ _ _ => rfl

/-- A group with its enabled field set (R157). -/
def State.groupOn (s : State) (g : GroupId) : State :=
  s.putGroup g { s.override.groups[g] with cfg := { s.override.groups[g].cfg with enabled := true } }

theorem enableGroup_blind (g : GroupId) : Blind fun s => s.enableGroup g :=
  Blind.ite (c := fun s => s.override.groups[g].cfg.enabled = true) (fun _ _ _ => Iff.rfl) (fun _ _ _ => rfl)
    (Blind.ite (c := fun s => (s.groupOn g).rawCondition g = true) (fun _ _ _ => Iff.rfl) (fun _ _ _ => rfl) fun _ _ _ => rfl)

theorem writeGroup_blind (g : GroupId) (f v : Nat) : BlindAsk fun s => s.writeGroup g f v := by
  refine BlindAsk.ite (c := fun _ => f = 0) (fun _ _ _ => Iff.rfl)
    (BlindAsk.ite (c := fun _ => v = 0) (fun _ _ _ => Iff.rfl) ((disableGroup_blind g).answered _)
      (BlindAsk.ite (c := fun _ => v = 1) (fun _ _ _ => Iff.rfl) ((enableGroup_blind g).answered _) (blindAsk_refused _)))
    fun s p l => ?_
  have hoverride : (s.withBook p l).override = s.override := rfl
  rw [hoverride]
  cases hput : s.override.groups[g].cfg.put f v with
  | none => rfl
  | some c =>
    by_cases hf : f = 6
    · simp only [hf, if_true]
      rfl
    · simp only [hf, if_false]
      exact congrArg (·, Report.accepted)
        ((evaluateGroup_blind g).comp (g := fun s => s.putGroup g { s.override.groups[g] with cfg := c }) (fun _ _ _ => rfl) s p l)

theorem writePalette_blind (e : Fin 9) (v : Nat) : BlindAsk fun s => s.writePalette e v :=
  BlindAsk.ite (c := fun _ => v ≤ 0xFFFFFF) (fun _ _ _ => Iff.rfl) (fun _ _ _ => rfl) (blindAsk_refused _)

theorem tableWrite_blind (q : TablePointer) (v : Nat) : BlindAsk fun s => s.tableWrite q v := by
  unfold State.tableWrite
  split
  · split
    · exact fun _ _ _ => rfl
    · exact blindAsk_refused _
  · split
    · exact writeWindow_blind _ _ _
    · exact blindAsk_refused _
  · exact writeStack_blind _ _
  · split
    · exact writeGroup_blind _ _ _
    · exact blindAsk_refused _
  · split
    · exact writePalette_blind _ _
    · exact blindAsk_refused _
  · exact blindAsk_refused _

theorem tableWriteChecked_blind (q : TablePointer) (v : Nat) : BlindAsk fun s => s.tableWriteChecked q v :=
  BlindAsk.ite (c := fun _ => q.valid = true) (fun _ _ _ => Iff.rfl) (tableWrite_blind q v) (blindAsk_refused _)

end Sys2Proof.Machine
end

section
/-! PROOFS. The management port's transactions (O51): index bytes, data bytes and read words, and the words that data bytes make. -/

namespace Sys2Proof.Machine

open Sys2Proof

/-! ### Index bytes -/

/-- A write transaction begins, at the port's own address or elsewhere (R170). -/
theorem exec_indexByte {s : State} (hs : s.listening) (a : BitVec 7) (b : Byte) :
    exec (.indexByte ⟨a, b⟩) s =
      .next
        { s with
          port :=
            if a = s.port.targetAddress then { s.port.ended with transaction := .write, startIndex := b, workingIndex := b }
            else s.port.ended
          links := Links.none } := by
  have hexec : exec (.indexByte ⟨a, b⟩) s = heard (fun t => t.takeIndex a b) s := rfl
  rw [hexec, heard_of_listening hs, State.takeIndex]
  rfl

/-! ### Read words -/

/-- The links do not show in a register. -/
theorem State.readRegister_quiet (s : State) (z : Port) (index : Nat) :
    (s.quiet.withPort z).readRegister index = State.readRegister { s with port := z } index := rfl

/-- A word of a read transaction at the port `z` that the read finds (R172). -/
theorem exec_tableDataRead {s : State} {r : PortRead} {z : Port} {v : Word} (hs : s.listening) (n : Fin 4)
    (hbegun : s.port.readBegun r = z) (hread : z.transaction = .read)
    (hv : v = BitVec.ofNat 32 (State.readRegister { s with port := z } z.workingIndex.toNat)) :
    exec (.tableDataRead r n) s =
      .next
        { s with
          port := if n = 3 then z.wordSent else { z with transaction := .none }
          links := ⟨[], [], some ((wordBytes v).take (n.val + 1))⟩ } := by
  have hexec : exec (.tableDataRead r n) s = heard (fun t => t.readPort r n) s := rfl
  rw [hexec, heard_of_listening hs, State.readPort, State.quiet_port, hbegun, if_pos hread, hv]
  rfl

/-- A read that finds no read transaction at the port sends nothing. -/
theorem exec_tableDataRead_unheard {s : State} {r : PortRead} (hs : s.listening) (n : Fin 4)
    (hread : (s.port.readBegun r).transaction ≠ .read) :
    exec (.tableDataRead r n) s = .next { s with port := s.port.readBegun r, links := Links.none } := by
  have hexec : exec (.tableDataRead r n) s = heard (fun t => t.readPort r n) s := rfl
  rw [hexec, heard_of_listening hs, State.readPort, State.quiet_port, if_neg hread]
  rfl

/-! ### What a word leaves held -/

theorem State.superCommand_held (s : State) (code operand : Nat) : (s.superCommand code operand).1.port.held = s.port.held := by
  unfold State.superCommand
  split
  · unfold State.reloadBoot
    split <;> rfl
  · exact congrArg Port.held ((runCommand_blind code operand).port s)

theorem State.writePointer_held (s : State) (v : Word) : (s.writePointer v).1.port.held = s.port.held := by
  unfold State.writePointer
  split <;> rfl

theorem State.writeRegister_held (s : State) (index : Nat) (v : Word) : (s.writeRegister index v).1.port.held = s.port.held := by
  by_cases hpointer : index = 2
  · subst hpointer
    exact s.writePointer_held v
  · by_cases hstatus : index = 23
    · subst hstatus
      rfl
    · exact congrArg Port.held ((writeRegister_blind v hpointer hstatus).port s)

/-- A word taken leaves no byte held (R171, R176). -/
theorem State.takeWordOf_held {s : State} (h : s.port.held = []) (index : Byte) (v : Word) : (s.takeWordOf index v).port.held = [] := by
  unfold State.takeWordOf
  split
  · unfold State.takeCommand
    split
    · rfl
    · exact (s.superCommand_held _ _).trans h
  · split
    · exact (congrArg Port.held ((tableWriteChecked_blind s.port.pointer v.toNat).port s)).trans h
    · exact (s.writeRegister_held _ _).trans h

/-! ### Data bytes -/

theorem exec_registerWrite {s : State} (hs : s.listening) (b : Byte) {more : List Byte} (h : more.length ≤ 3) :
    exec (.registerWrite b more) s = .next (s.quiet.takeBytes (b :: more)) := by
  have hexec : exec (.registerWrite b more) s = execRegisterWrite b more s := rfl
  have hfit : dataBytesFit more = true := decide_eq_true h
  rw [hexec, execRegisterWrite, if_pos hfit, heard_of_listening hs]

/-- The bytes that complete a word with those held leave none held (R171). -/
theorem State.takeBytes_completed {s : State} (h : s.port.transaction = .write) {bytes : List Byte}
    (hlength : s.port.held.length + bytes.length = 4) (hheld : s.port.held.length ≤ 3) : (s.takeBytes bytes).port.held = [] := by
  rw [State.takeBytes_rest h hheld]
  have hfour : (s.port.held ++ bytes).length = 4 := by rw [List.length_append, hlength]
  obtain ⟨b0, b1, b2, b3, hbytes⟩ := List.length_eq_four.mp hfour
  rw [hbytes, State.takeBytes_word (s := s.withPort { s.port with held := [] }) h rfl]
  exact State.takeWordOf_held rfl _ _

/-- At most three further bytes are held in a write transaction, and outside one are none of the port's (R170, R171). -/
theorem State.takeBytes_after {t : State} (hheld : t.port.held = []) {post : List Byte} (hpost : post.length ≤ 3) :
    t.takeBytes post =
      { t with port := { t.port with held := if t.port.transaction = .write then post else t.port.held } } := by
  by_cases hwrite : t.port.transaction = .write
  · rw [State.takeBytes_held hwrite (by rw [hheld]; simpa using hpost), if_pos hwrite, hheld, List.nil_append]
    rfl
  · rw [State.takeBytes_unheard hwrite, if_neg hwrite]

/-! ### Words where the transaction stands -/

/-- The four bytes of the word `v` are a write of the register at the working index (R171). -/
theorem exec_registerWrite_at {s : State} {i b0 b1 b2 b3 : Byte} {v : Word} (hs : s.listening)
    (hstands : s.port.transaction = .write ∧ s.port.held = [] ∧ s.port.workingIndex = i)
    (hv : v.toNat = b0.toNat + 256 * b1.toNat + 65536 * b2.toNat + 16777216 * b3.toNat) :
    exec (.registerWrite b0 [b1, b2, b3]) s = heard (fun t => t.takeWordAt i v) s := by
  have hhere := Port.standAt_here hstands
  obtain ⟨hwrite, hheld, hindex⟩ := hstands
  rw [exec_registerWrite hs b0 (by simp), State.takeBytes_word (s := s.quiet) hwrite hheld, wordOf_eq hv, State.quiet_port, hindex,
    heard_of_listening hs, State.takeWordAt, State.quiet_port, hhere]
  rfl

/-- At COMMAND the first byte is the code and the second the operand (R175). -/
theorem exec_registerWrite_command {s : State} {b0 b1 b2 b3 : Byte} (hs : s.listening)
    (hstands : s.port.transaction = .write ∧ s.port.held = [] ∧ s.port.workingIndex = 0) :
    exec (.registerWrite b0 [b1, b2, b3]) s = heard (fun t => t.takeCommandAt b0 b1) s := by
  rw [exec_registerWrite_at hs hstands (wordOf_toNat b0 b1 b2 b3), heard_of_listening hs, heard_of_listening hs]
  show Host.Outcome.next (State.takeCommand _ _ _) = _
  rw [wordOf_low, wordOf_second]
  rfl

/-- At TABLE_DATA the word is one of the field at the pointer (R174). -/
theorem exec_registerWrite_field {s : State} {b0 b1 b2 b3 : Byte} {v : Word} {k e f : Nat} (hs : s.listening)
    (hstands : s.port.transaction = .write ∧ s.port.held = [] ∧ s.port.workingIndex = 3)
    (hv : v.toNat = b0.toNat + 256 * b1.toNat + 65536 * b2.toNat + 16777216 * b3.toNat) (hpointer : s.port.pointer = ⟨k, e, f⟩) :
    exec (.registerWrite b0 [b1, b2, b3]) s = heard (fun t => t.takeWordIn k e f v) s := by
  have hfield : s.port.pointAt ⟨k, e, f⟩ = s.port := hpointer ▸ Port.pointAt_here hstands
  rw [exec_registerWrite_at hs hstands hv, heard_of_listening hs, heard_of_listening hs, State.takeWordAt, State.takeWordIn,
    State.quiet_port, Port.standAt_here hstands, hfield]
  rfl

/-- A word for a field that no owner stores is refused and reported, and the pointer advances (R174). -/
theorem heard_takeWordIn_refused {s : State} {k e f : Nat} {v : Word} (hs : s.listening)
    (hrefused : (s.quiet.withPort (s.port.pointAt ⟨k, e, f⟩)).tableWrite ⟨k, e, f⟩ v.toNat =
      (s.quiet.withPort (s.port.pointAt ⟨k, e, f⟩), .invalid 255)) :
    heard (fun t => t.takeWordIn k e f v) s =
      .next { s with port := s.port.fieldTaken ⟨k, e, f⟩ .refusedInvalid 255, links := Links.none } := by
  have hchecked : (s.quiet.withPort (s.port.pointAt ⟨k, e, f⟩)).tableWriteChecked ⟨k, e, f⟩ v.toNat =
      (s.quiet.withPort (s.port.pointAt ⟨k, e, f⟩), .invalid 255) := by
    unfold State.tableWriteChecked
    split
    · exact hrefused
    · rfl
  rw [heard_of_listening hs, State.takeWordIn, State.takeTableWord]
  simp only [State.quiet_port, State.withPort_port, Port.pointAt_pointer, hchecked, Port.report_eq]
  rfl

/-! ### Words refused -/

theorem State.runCommand_unlisted (s : State) {code : Nat} (operand : Nat) (h : code = 0 ∨ 7 ≤ code) :
    s.runCommand code operand = (s, .invalid 254) := by
  unfold State.runCommand
  split
  case h_7 => rfl
  all_goals omega

theorem State.superCommand_unlisted (s : State) {code : Nat} (operand : Nat) (h : code = 0 ∨ 8 < code) :
    s.superCommand code operand = (s, .invalid 254) := by
  rw [State.superCommand, if_neg (by omega), s.runCommand_unlisted operand (by omega)]

/-- A register marked R and an index of no register (R173). -/
theorem State.writeRegister_unlisted (s : State) {index : Nat} (v : Word)
    (h : index = 1 ∨ index = 11 ∨ index = 12 ∨ index = 19 ∨ index = 22 ∨ 24 ≤ index) :
    s.writeRegister index v = (s, .invalid 255) := by
  unfold State.writeRegister
  split
  case h_18 => rfl
  all_goals omega

theorem State.writeEnable_refused (s : State) {v : Nat} (h : 1 < v) : s.writeEnable v = (s, .invalid 8) := by
  rw [State.writeEnable, if_neg (by omega), if_neg (by omega)]

/-- A read-only table, and table 0 (R174). -/
theorem State.tableWrite_unlisted (s : State) {k : Nat} (e f v : Nat)
    (h : k ≠ 1 ∧ k ≠ 3 ∧ k ≠ 4 ∧ k ≠ 9 ∧ k ≠ 11) : s.tableWrite ⟨k, e, f⟩ v = (s, .invalid 255) := by
  unfold State.tableWrite
  split
  case h_6 => rfl
  all_goals simp_all

end Sys2Proof.Machine
end

section
/-! PROOFS. What the management port's registers and tables read (O51): each coded value is a place in its chapter's list. -/

namespace Sys2Proof.Machine

open Sys2Proof

/-! ### Codes -/

theorem bit_unique {number : Bool → Nat} (h0 : number false = 0) (h1 : number true = 1) : number = bit :=
  funext fun b => by cases b <;> assumption

theorem ResultCode.idxOf_eq (r : ResultCode) :
    [ResultCode.none, .accepted, .refusedBusy, .refusedState, .refusedInvalid, .refusedOverlap].idxOf r = r.num := by
  cases r <;> rfl

theorem CtlState.idxOf_eq (c : CtlState) : [CtlState.idle, .drain, .compile, .armed].idxOf c = c.num := by
  cases c <;> rfl

theorem BankLetter.idxOf_eq (x : BankLetter) : [BankLetter.a, .b].idxOf x = x.num := by
  cases x <;> rfl

theorem hold_idxOf_eq (h : Option BankLetter) :
    [none, some BankLetter.a, some .b].idxOf h = (h.map fun x => x.num + 1).getD 0 := by
  cases h with
  | none => rfl
  | some x => cases x <;> rfl

theorem GroupState.idxOf_eq (g : GroupState) : [GroupState.idle, .asserted, .holding].idxOf g = g.num := by
  cases g <;> rfl

theorem SourceState.idxOf_eq (x : SourceState) : [SourceState.off, .await, .live, .contained, .closing].idxOf x = x.num := by
  cases x <;> rfl

theorem Role.idxOf_eq (r : Role) : [Role.fill, .sealing, .ready, .front, .spent].idxOf r = r.num := by
  cases r <;> rfl

theorem Content.idxOf_eq (c : Content) : [Content.source, .fill].idxOf c = c.num := by
  cases c <;> rfl

theorem Background.idxOf_eq (b : Background) : [Background.pass, .fill].idxOf b = b.num := by
  cases b <;> rfl

theorem CommitOutcome.idxOf_eq (o : CommitOutcome) : [CommitOutcome.none, .done, .failed, .aborted].idxOf o = o.num := by
  cases o <;> rfl

theorem FailCode.idxOf_eq (c : FailCode) :
    [FailCode.canvasOff, .badWindow, .badStack, .overrideLimit, .segmentOverflow, .canvasChanged].idxOf c + 1 = c.num := by
  cases c <;> rfl

theorem LoaderOutcome.idxOf_eq (o : LoaderOutcome) : [LoaderOutcome.none, .absent, .bad, .done].idxOf o = o.num := by
  cases o <;> rfl

theorem BadReason.idxOf_eq (r : BadReason) : [BadReason.signature, .count, .checksum, .read].idxOf r + 1 = r.num := by
  cases r <;> rfl

theorem bit_le_one (b : Bool) : bit b ≤ 1 := by
  cases b <;> decide

/-- The causes as a number (R168, Table 11-1). -/
theorem Capture.causes_toNat (c : Capture) :
    c.causes.toNat =
      bit c.faultLevel + 2 * bit c.noticeLevel + 4 * bit c.commitEnd + 8 * bit c.overrideChange + 16 * bit c.loaderEnd := by
  have hfault := bit_le_one c.faultLevel
  have hnotice := bit_le_one c.noticeLevel
  have hcommit := bit_le_one c.commitEnd
  have hoverride := bit_le_one c.overrideChange
  have hloader := bit_le_one c.loaderEnd
  rw [Capture.causes, BitVec.toNat_ofNat]
  omega

/-! ### Registers -/

theorem LayoutCtl.activeBank_eq (l : LayoutCtl) : (match l.active with | .a => l.bankA | .b => l.bankB) = l.activeBank := by
  unfold LayoutCtl.activeBank LayoutCtl.bank
  cases l.active <;> rfl

theorem Override.status_eq (o : Override) :
    (allGroups.map fun g => 4 ^ g.val * o.groups[g].state.num).sum + 256 * o.sensed.toNat = o.status := by
  simp only [Override.status, Nat.mul_comm]

theorem State.sourceSet_eq (s : State) (f : Source → Bool) :
    (allSources.map fun i => 2 ^ i.val * bit (f s.sources[i])).sum = s.sourceSet f := by
  simp only [State.sourceSet, Nat.mul_comm]

/-- An index of no register reads 0 (R172). -/
theorem State.readRegister_unlisted (s : State) {n : Nat} (h : 24 ≤ n) : s.readRegister n = 0 := by
  unfold State.readRegister
  split <;> omega

theorem tableShape_unlisted {n : Nat} (h : 15 ≤ n) : tableShape n = none := by
  unfold tableShape
  split
  all_goals first | omega | rfl

/-! ### Pointers -/

theorem TablePointer.valid_iff (q : TablePointer) :
    q.valid = true ↔ ∃ n m, tableShape q.table = some (n, m) ∧ q.entry < n ∧ q.field < m := by
  unfold TablePointer.valid
  cases tableShape q.table with
  | none => simp
  | some shape =>
    obtain ⟨n, m⟩ := shape
    constructor
    · intro h
      rw [Bool.and_eq_true, decide_eq_true_eq, decide_eq_true_eq] at h
      exact ⟨n, m, rfl, h⟩
    · rintro ⟨n', m', hshape, hentry, hfield⟩
      cases hshape
      simp [hentry, hfield]

theorem TablePointer.advance_of_none {q : TablePointer} (h : tableShape q.table = none) : q.advance = q := by
  rw [TablePointer.advance, h]

theorem TablePointer.advance_of_some {q : TablePointer} {n m : Nat} (h : tableShape q.table = some (n, m)) :
    q.advance =
      if q.field + 1 < m then ⟨q.table, q.entry, q.field + 1⟩
      else if q.entry + 1 < n then ⟨q.table, q.entry + 1, 0⟩ else ⟨q.table, 0, 0⟩ := by
  rw [TablePointer.advance, h]

/-- The fields of a TABLE_POINTER word (R174). -/
theorem field_table (v : Word) : field v 0 8 = v.toNat % 256 := by
  simp [field]

theorem field_entry (v : Word) : field v 8 12 = v.toNat / 256 % 4096 := by
  simp [field, Nat.shiftRight_eq_div_pow]

theorem field_field (v : Word) : field v 20 8 = v.toNat / 1048576 % 256 := by
  simp [field, Nat.shiftRight_eq_div_pow]

theorem State.writePointer_eq (s : State) {v : Word} {q : TablePointer}
    (hq : q = ⟨v.toNat % 256, v.toNat / 256 % 4096, v.toNat / 1048576 % 256⟩) :
    s.writePointer v = if q.valid then (s.withPort { s.port with pointer := q }, .accepted) else (s, .invalid 255) := by
  rw [State.writePointer, field_table, field_entry, field_field, ← hq]

/-! ### Tables -/

/-- The fields of a layout's window and stack tables (Tables 4-2 and 4-4). -/
theorem Layout.stackField_position (l : Layout) (n : Fin 32) : l.stackField (n.val + 1) = l.stack[n].val := by
  have hlt : n.val + 1 - 1 < 32 := by omega
  rw [Layout.stackField, if_neg (by omega), dif_pos hlt]
  rfl

theorem State.tableField_source (s : State) (i : SourceId) (f : Nat) : s.tableField 1 i.val f = s.sources[i].cfg.get f :=
  dif_pos i.isLt

theorem State.tableField_sourceState (s : State) (i : SourceId) (f : Nat) : s.tableField 2 i.val f = s.sources[i].stateField f :=
  dif_pos i.isLt

theorem State.tableField_staged (s : State) (n : WindowId) (f : Nat) :
    s.tableField 3 n.val f = s.layout.staged.windows[n].get f := dif_pos n.isLt

theorem State.tableField_active (s : State) (n : WindowId) (f : Nat) :
    s.tableField 5 n.val f = s.layout.activeBank.layout.windows[n].get f := dif_pos n.isLt

theorem State.tableField_group (s : State) (g : GroupId) (f : Nat) :
    s.tableField 9 g.val f = s.override.groups[g].cfg.get f := dif_pos g.isLt

theorem State.tableField_groupState (s : State) (g : GroupId) (f : Nat) :
    s.tableField 10 g.val f = s.override.groups[g].stateField f := dif_pos g.isLt

theorem State.tableField_strip {s : State} {n : Nat} {y : Strip} (h : s.layout.activeBank.strips[n]? = some y) (f : Nat) :
    s.tableField 7 n f = y.field f := by
  show ((s.layout.activeBank.strips[n]?).map (·.field f)).getD 0 = y.field f
  rw [h]
  rfl

theorem State.tableField_segment {s : State} {n : Nat} {y : Segment} (h : s.layout.activeBank.segments[n]? = some y) (f : Nat) :
    s.tableField 8 n f = y.field f := by
  show ((s.layout.activeBank.segments[n]?).map (·.field f)).getD 0 = y.field f
  rw [h]
  rfl

/-- The fifteen fields of a window, in order (Table 4-2). -/
theorem Window.fields (w : Window) :
    (List.range 15).map w.get =
      [bit w.enabled, w.content.num, w.source, w.x, w.y, w.width, w.height, w.cropX, w.cropY, w.hscale, w.vscale, w.borderWidth,
        w.borderColour.toNat, w.fillColour.toNat, groupCode w.group] := rfl

theorem Source.stateFields (x : Source) :
    (List.range 22).map x.stateField =
      [x.state.num, x.bufs.a.role.num, x.bufs.b.role.num, x.bufs.c.role.num, bit x.bufs.a.poison, bit x.bufs.b.poison,
        bit x.bufs.c.poison, x.bufs.a.readHold, x.bufs.b.readHold, x.bufs.c.readHold, x.bufs.a.writeHold, x.bufs.b.writeHold,
        x.bufs.c.writeHold, bit x.fillWait, x.framesSinceFlip, bit x.stale, bit x.trip, x.credit, bit x.capSaturated,
        x.quotaInEffect, x.presented.toNat, x.holdQueue.length] := rfl

end Sys2Proof.Machine
end

section
/-! PROOFS. The management port takes words and sends them (O51). -/

namespace Sys2Proof.Machine

open Sys2Proof

/-- Settles O51: a row of one register is the word that data bytes make there (`exec_registerWrite_at`), and what a register or field
reads is said by its code. -/
theorem portTakesWords : Obligations.PortTakesWords := by
  unfold Obligations.PortTakesWords
  refine ⟨?transactions, ?bytes, ?words, ?pointer, ⟨by decide, fun n hn => tableShape_unlisted hn⟩,
    fun p => ⟨TablePointer.advance_of_none, fun n m hshape _ _ => TablePointer.advance_of_some hshape⟩, ?reads⟩
  case transactions =>
    rintro s q hs hq
    rw [← Port.ended_eq] at hq
    subst hq
    refine ⟨fun b => ?_, fun a b ha => ?_, heard_of_listening hs _, fun i => rfl, fun p => rfl, ?_, fun n hnone => ?_,
      fun n a ha => ?_⟩
    · rw [exec_indexByte hs, if_pos rfl]
    · rw [exec_indexByte hs, if_neg ha]
    · rintro n r z v hv (⟨rfl, hread, rfl⟩ | ⟨rfl, rfl⟩ | ⟨rfl, hread, hindex, rfl⟩ | ⟨rfl, hother, rfl⟩)
      · exact exec_tableDataRead hs n rfl hread hv
      · exact exec_tableDataRead hs n (if_pos rfl) rfl hv
      · exact exec_tableDataRead hs n (if_pos ⟨hread, hindex⟩) hread hv
      · refine exec_tableDataRead hs n (if_neg ?_) rfl hv
        rintro ⟨hread, hindex⟩
        exact hother.elim (fun h => h hread) fun h => h hindex
    · exact exec_tableDataRead_unheard hs n hnone
    · have hbegun : s.port.readBegun (.first a) = s.port.ended := if_neg ha
      refine (exec_tableDataRead_unheard hs n ?_).trans (by rw [hbegun])
      rw [hbegun]
      exact nofun
  case bytes =>
    intro s b more hs hmore
    refine ⟨fun hnone => ?_, fun hwrite hfew => ?_, fun h hs' hwrite hheld hfour => ?_, fun pre post hsplit hwrite hfour => ?_⟩
    · rw [exec_registerWrite hs b hmore, State.takeBytes_unheard (s := s.quiet) hnone]
      rfl
    · rw [exec_registerWrite hs b hmore,
        State.takeBytes_held (s := s.quiet) hwrite (by simp only [State.quiet_port, List.length_cons]; omega)]
      rfl
    · have hlength : s.port.held.length ≤ 3 := by rw [hheld, List.length_cons]; omega
      have hmade : (hs' ++ b :: more).length ≤ 3 := by rw [List.length_append, List.length_cons]; omega
      rw [exec_registerWrite hs b hmore, exec_registerWrite (s := { s with port := { s.port with held := [] } }) hs h hmade,
        State.takeBytes_rest (s := s.quiet) hwrite hlength, State.quiet_port, hheld]
      rfl
    · subst hsplit
      rw [List.length_append] at hmore
      have hdone : (s.quiet.takeBytes (b :: pre)).port.held = [] :=
        State.takeBytes_completed (s := s.quiet) hwrite (by simp only [State.quiet_port, List.length_cons]; omega)
          (by simp only [State.quiet_port]; omega)
      refine ⟨_, exec_registerWrite hs b (by omega), ?_⟩
      rw [exec_registerWrite hs b (by rw [List.length_append]; omega), ← List.cons_append, State.takeBytes_append,
        State.takeBytes_after hdone (by omega)]
  case words =>
    rintro s b0 b1 b2 b3 v w hs hwrite hheld rfl hv
    have hat {i : Byte} (hi : s.port.workingIndex = i) :
        exec (.registerWrite b0 [b1, b2, b3]) s = heard (fun t => t.takeWordAt i v) s :=
      exec_registerWrite_at hs ⟨hwrite, hheld, hi⟩ hv
    have hfield {k e f : Nat} (hi : s.port.workingIndex = 3) (hpointer : s.port.pointer = ⟨k, e, f⟩) :
        exec (.registerWrite b0 [b1, b2, b3]) s = heard (fun t => t.takeWordIn k e f v) s :=
      exec_registerWrite_field hs ⟨hwrite, hheld, hi⟩ hv hpointer
    refine ⟨fun hi => ?command, hat, hat, hat, hat, hat, ?enable, ?disable, ?enableRefused, hat, hat, hat, hat, hat, hat, hat, hat,
      hat, hat, hat, ?unlisted, ?table⟩
    case command =>
      have hcommand : exec (.registerWrite b0 [b1, b2, b3]) s = heard (fun t => t.takeCommandAt b0 b1) s :=
        exec_registerWrite_command hs ⟨hwrite, hheld, hi⟩
      refine ⟨?_, ?_, ?_, ?_, ?_, ?_, ?_, ?_, fun hb => ?_⟩
      · rintro rfl; exact hcommand
      · rintro rfl; exact hcommand
      · rintro rfl; exact hcommand
      · rintro rfl; exact hcommand
      · rintro rfl; exact hcommand
      · rintro rfl; exact hcommand
      · rintro rfl; exact hcommand
      · rintro rfl; exact hcommand
      · have hcode : b0 ≠ 7 := by rintro rfl; exact absurd hb (by decide)
        have hunlisted : b0.toNat = 0 ∨ 8 < b0.toNat := hb.imp (fun h => congrArg BitVec.toNat h) id
        rw [hcommand]
        exact heard_takeCommandAt hs hcode (State.superCommand_unlisted _ _ hunlisted) rfl
    case enable => rintro hi rfl; exact hat hi
    case disable => rintro hi rfl; exact hat hi
    case enableRefused =>
      intro hi hv1
      rw [hat hi]
      exact heard_takeWordAt hs 0x08 v (by decide) (State.writeEnable_refused _ hv1) rfl
    case unlisted =>
      intro i hi hlist
      have hother : i ≠ 0 ∧ i ≠ 3 := by
        constructor
        · rintro rfl; exact absurd hlist (by decide)
        · rintro rfl; exact absurd hlist (by decide)
      have hunlisted : i.toNat = 1 ∨ i.toNat = 11 ∨ i.toNat = 12 ∨ i.toNat = 19 ∨ i.toNat = 22 ∨ 24 ≤ i.toNat := by
        rcases hlist with rfl | rfl | rfl | rfl | rfl | h
        · decide
        · decide
        · decide
        · decide
        · decide
        · simp [h]
      rw [hat hi]
      exact heard_takeWordAt hs i v hother (State.writeRegister_unlisted _ v hunlisted) rfl
    case table =>
      intro hi
      refine ⟨fun i f => hfield hi, fun n f => hfield hi, fun f => hfield hi, fun g f => hfield hi, fun e => hfield hi,
        fun htable => ?_, fun htable => ?_⟩
      · have hother : s.port.pointer.table ≠ 1 ∧ s.port.pointer.table ≠ 3 ∧ s.port.pointer.table ≠ 4 ∧
            s.port.pointer.table ≠ 9 ∧ s.port.pointer.table ≠ 11 := by
          simp only [List.mem_cons, List.not_mem_nil, or_false] at htable
          omega
        rw [hfield hi rfl]
        exact heard_takeWordIn_refused hs (State.tableWrite_unlisted _ _ _ _ hother)
      · have hstays : s.port.pointer.advance = s.port.pointer := TablePointer.advance_of_none (by rw [htable]; rfl)
        have hport : s.port.fieldTaken s.port.pointer .refusedInvalid 255 = s.port.reported 3 .refusedInvalid 255 := by
          rw [Port.fieldTaken, Port.pointAt_here ⟨hwrite, hheld, hi⟩, hstays, ← hi]
          rfl
        have hother : s.port.pointer.table ≠ 1 ∧ s.port.pointer.table ≠ 3 ∧ s.port.pointer.table ≠ 4 ∧
            s.port.pointer.table ≠ 9 ∧ s.port.pointer.table ≠ 11 := by omega
        rw [hfield hi rfl, heard_takeWordIn_refused hs (State.tableWrite_unlisted _ _ _ _ hother)]
        exact congrArg (fun p => Host.Outcome.next { s with port := p, links := Links.none }) hport
  case pointer =>
    intro s v q hs hq
    refine ⟨fun hvalid => ?_, fun hinvalid => ?_⟩
    · have hwrite := (s.quiet.withPort (s.port.standAt 0x02)).writePointer_eq hq
      rw [if_pos (q.valid_iff.mpr hvalid)] at hwrite
      exact heard_takeWordAt_reported hs 0x02 v (by decide) hwrite
    · have hwrite := (s.quiet.withPort (s.port.standAt 0x02)).writePointer_eq hq
      rw [if_neg (q.valid_iff.not.mpr hinvalid)] at hwrite
      exact heard_takeWordAt hs 0x02 v (by decide) hwrite rfl
  case reads =>
    rintro s b number h0 h1 hb
    obtain rfl := bit_unique h0 h1
    obtain rfl : b = s.layout.activeBank := hb.trans s.layout.activeBank_eq
    refine ⟨?registers, fun n => State.readRegister_unlisted s, fun e f => rfl, ?sources, ?layouts, ?strips, ?segments, ?groups,
      fun e => dif_pos e.isLt, ?fault, ?commit, ?load⟩
    case registers =>
      rw [ResultCode.idxOf_eq, ResultCode.idxOf_eq, CtlState.idxOf_eq, BankLetter.idxOf_eq, hold_idxOf_eq]
      simp only [GroupState.idxOf_eq]
      rw [Override.status_eq, State.sourceSet_eq, State.sourceSet_eq, ← Capture.causes_toNat]
      rfl
    case sources =>
      rintro i x rfl
      refine ⟨?_, ?_⟩
      · rw [funext (s.tableField_source i)]
        rfl
      · rw [funext (s.tableField_sourceState i), Source.stateFields, SourceState.idxOf_eq]
        simp only [Role.idxOf_eq]
        rfl
    case layouts =>
      rintro k l (⟨rfl, rfl⟩ | ⟨rfl, rfl⟩)
      · refine ⟨fun n => ?_, rfl, fun n => Layout.stackField_position _ n, (Background.idxOf_eq _).symm⟩
        rw [funext (s.tableField_staged n), Window.fields, Content.idxOf_eq]
        rfl
      · refine ⟨fun n => ?_, rfl, fun n => Layout.stackField_position _ n, (Background.idxOf_eq _).symm⟩
        rw [funext (s.tableField_active n), Window.fields, Content.idxOf_eq]
        rfl
    case strips =>
      intro n y hy
      rw [funext (State.tableField_strip hy)]
      rfl
    case segments =>
      intro n y hy
      rw [funext (State.tableField_segment hy)]
      rfl
    case groups =>
      rintro g x rfl
      refine ⟨?_, ?_⟩
      · rw [funext (s.tableField_group g)]
        rfl
      · rw [funext (s.tableField_groupState g), GroupState.idxOf_eq]
        obtain ⟨cfg, state, holdCount, raw, trigger⟩ := s.override.groups[g]
        rcases trigger with _ | ⟨_ | _ | _ | _, frame⟩
        all_goals rfl
    case fault =>
      rintro e rfl
      show (List.range 8).map s.capture.fault.field = _
      obtain ⟨⟨cls, _ | initiator, _ | address, _ | source, _ | window⟩, frame⟩ := s.capture.fault
      all_goals simp [List.range_succ, FaultRecord.field, ErrEvent.present]
    case commit =>
      show (List.range 4).map s.layout.result.field = _
      simp only [CommitOutcome.idxOf_eq, FailCode.idxOf_eq]
      obtain ⟨outcome, _ | code, _ | window, _ | segments⟩ := s.layout.result
      all_goals rfl
    case load =>
      show (List.range 5).map s.loader.result.field = _
      simp only [LoaderOutcome.idxOf_eq, BadReason.idxOf_eq]
      obtain ⟨outcome, _ | reason, applied, refused, _ | firstRefused⟩ := s.loader.result
      all_goals rfl

end Sys2Proof.Machine
end

section
/-! PROOFS. The boot loader (O52): a load starts and is checked, and a record is handed over as the management port hands over a word
(R176 to R181). -/

namespace Sys2Proof.Machine

open Sys2Proof

/-! ### Numbers of bytes -/

/-- What numbers bytes least significant first is the model's number. -/
theorem leNat_unique {le : List Byte → Nat} (h : le [] = 0 ∧ ∀ b bs, le (b :: bs) = b.toNat + 256 * le bs) : le = leNat := by
  obtain ⟨hnil, hcons⟩ := h
  refine funext fun bytes => ?_
  induction bytes with
  | nil => exact hnil
  | cons b bs ih => rw [hcons, ih, leNat]

/-! ### The first pass -/

theorem exec_verify {s : State} (image : List Byte) (hreset : s.resetting = none) (hstate : s.loader.state = .verify) :
    exec (.verify image) s = .next (s.quiet.endVerify image) := by
  have hexec : exec (.verify image) s = outsideReset (fun t => t.verifyCompletes image) s := rfl
  rw [hexec, outsideReset_of_none hreset, State.verifyCompletes, State.quiet_loader, hstate]

/-- The first failed check is the load's reason (R179). -/
theorem verifyImage_bad {image : List Byte} {r : BadReason} (hlength : 6 ≤ image.length)
    (h : (imageField image 0 ≠ 0x4647 ∧ r = .signature) ∨
      (imageField image 0 = 0x4647 ∧ 1023 < imageField image 2 ∧ r = .count) ∨
      (imageField image 0 = 0x4647 ∧ imageField image 2 ≤ 1023 ∧ image.length < 6 + 8 * imageField image 2 ∧ r = .read) ∨
      (imageField image 0 = 0x4647 ∧ imageField image 2 ≤ 1023 ∧ 6 + 8 * imageField image 2 ≤ image.length ∧
        imageSum image (imageField image 2) ≠ imageField image 4 ∧ r = .checksum)) :
    verifyImage image = .bad r := by
  rw [verifyImage, if_neg (Nat.not_lt.mpr hlength)]
  rcases h with ⟨hsignature, rfl⟩ | ⟨hsignature, hcount, rfl⟩ | ⟨hsignature, hcount, hread, rfl⟩ |
    ⟨hsignature, hcount, hread, hsum, rfl⟩
  · rw [if_pos hsignature]
  · rw [if_neg (not_not.mpr hsignature), if_pos hcount]
  · rw [if_neg (not_not.mpr hsignature), if_neg (Nat.not_lt.mpr hcount), if_pos hread]
  · rw [if_neg (not_not.mpr hsignature), if_neg (Nat.not_lt.mpr hcount), if_neg (Nat.not_lt.mpr hread), if_pos hsum]

theorem verifyImage_apply {image : List Byte} (hsignature : imageField image 0 = 0x4647) (hcount : imageField image 2 ≤ 1023)
    (hread : 6 + 8 * imageField image 2 ≤ image.length) (hsum : imageSum image (imageField image 2) = imageField image 4) :
    verifyImage image = .apply (imageField image 2) := by
  have hlength : ¬image.length < 6 := by omega
  rw [verifyImage, if_neg hlength, if_neg (not_not.mpr hsignature), if_neg (Nat.not_lt.mpr hcount), if_neg (Nat.not_lt.mpr hread),
    if_neg (not_not.mpr hsum)]

/-! ### A record -/

/-- The loader after record `k` of `n`, with the result `l` (R180, R181). -/
def loaderAfter (n k : Nat) (l : LoaderResult) : Loader :=
  if k + 1 < n then ⟨.apply n (k + 1), l⟩ else ⟨.idle, { l with outcome := .done, reason := none }⟩

/-- The state `t` that a record's word leaves, as the loader takes it up at the port `p` (R180, R181). -/
def State.recordTaken (t : State) (p : Port) (n k : Nat) (l : LoaderResult) : State :=
  { t with
    loader := loaderAfter n k l
    capture := if k + 1 < n then t.capture else { t.capture with loaderEnd := true }
    port := p }

/-- A record that the blocks answer by `r` and that leaves the state `t` (R180, R181). -/
theorem exec_applyRecord {s t : State} {n k : Nat} {b : Vector Byte 8} {r : Report} (hreset : s.resetting = none)
    (hstate : s.loader.state = .apply n k) (hrun : s.quiet.runRecord (BootRecord.ofBytes b) = (t, r)) :
    exec (.applyRecord b) s = .next (t.recordTaken (s.port.afterRecord t.port) n k (s.loader.result.count k r)) := by
  have hexec : exec (.applyRecord b) s = outsideReset (fun t => t.applyNext b) s := rfl
  have hquiet : s.quiet.loader.state = .apply n k := hstate
  rw [hexec, outsideReset_of_none hreset, State.applyNext, hquiet]
  simp only [State.applyRecordAt, hrun, State.quiet_port, State.quiet_loader]
  unfold State.recordTaken loaderAfter
  by_cases hlast : k + 1 < n
  · simp only [if_pos hlast]
    rfl
  · simp only [if_neg hlast]
    rfl

/-- The loader's own records do not matter to what it takes up. -/
theorem State.recordTaken_of_withBook {t u : State} {q : Port} {m : Loader} (h : u.withBook q m = t.withBook q m) (p : Port) (n k : Nat)
    (l : LoaderResult) : u.recordTaken p n k l = t.recordTaken p n k l := by
  have hbook := congrArg (fun x : State => x.recordTaken p n k l) h
  exact hbook

theorem LoaderResult.count_accepted (l : LoaderResult) (k : Nat) {r : Report} (h : r.code = .accepted) :
    l.count k r = { l with applied := l.applied + 1 } := if_pos h

theorem LoaderResult.count_refused (l : LoaderResult) (k : Nat) {r : Report} (h : r.code ≠ .accepted) :
    l.count k r = { l with refused := l.refused + 1, firstRefused := some (l.firstRefused.getD k) } := if_neg h

/-! ### What a record hands over -/

theorem State.runRecord_register (s : State) {r : BootRecord} (h : r.kind = 1) :
    s.runRecord r = if r.target.toNat < 4 then (s, .invalid 255) else s.writeRegister r.target.toNat r.value := if_pos h

theorem State.runRecord_table (s : State) {r : BootRecord} (h : r.kind = 2) :
    s.runRecord r = s.tableWriteChecked ⟨r.target.toNat, r.entry.toNat, r.field.toNat⟩ r.value.toNat := by
  have hother : ¬r.kind = 1 := by rw [h]; decide
  rw [State.runRecord, if_neg hother, if_pos h]

theorem State.runRecord_command (s : State) {r : BootRecord} (h : r.kind = 3) :
    s.runRecord r = s.recordCommand (field r.value 0 8) (field r.value 8 8) := by
  have hregister : ¬r.kind = 1 := by rw [h]; decide
  have htable : ¬r.kind = 2 := by rw [h]; decide
  rw [State.runRecord, if_neg hregister, if_neg htable, if_pos h]

theorem State.runRecord_unknown (s : State) {r : BootRecord} (h : r.kind.toNat < 1 ∨ 3 < r.kind.toNat) :
    s.runRecord r = (s, .invalid 255) := by
  have hkind {k : Byte} (hk : 1 ≤ k.toNat ∧ k.toNat ≤ 3) : ¬r.kind = k := by rintro rfl; omega
  rw [State.runRecord, if_neg (hkind (by decide)), if_neg (hkind (by decide)), if_neg (hkind (by decide))]

/-- A record that is refused as soon as it is looked at (R180). -/
theorem State.runRecord_refused (s : State) {b : Vector Byte 8}
    (h : b[0].toNat < 1 ∨ 3 < b[0].toNat ∨ (b[0] = 1 ∧ b[1].toNat < 4) ∨
      (b[0] = 2 ∧ ¬∃ e f, tableShape b[1].toNat = some (e, f) ∧ b[2].toNat < e ∧ b[3].toNat < f) ∨
      (b[0] = 2 ∧ b[1].toNat ∈ [2, 5, 6, 7, 8, 10, 12, 13, 14]) ∨
      (b[0] = 3 ∧ (b[4] = 0 ∨ b[4] = 7 ∨ b[4] = 8 ∨ 8 < b[4].toNat))) :
    ∃ r : Report, r.code ≠ .accepted ∧ s.runRecord (BootRecord.ofBytes b) = (s, r) := by
  rcases h with hlow | hhigh | ⟨hkind, hindex⟩ | ⟨hkind, hpointer⟩ | ⟨hkind, htable⟩ | ⟨hkind, hcode⟩
  · exact ⟨.invalid 255, nofun, s.runRecord_unknown (.inl hlow)⟩
  · exact ⟨.invalid 255, nofun, s.runRecord_unknown (.inr hhigh)⟩
  · exact ⟨.invalid 255, nofun, (s.runRecord_register hkind).trans (if_pos hindex)⟩
  · refine ⟨.invalid 255, nofun, (s.runRecord_table hkind).trans (if_neg fun hvalid => hpointer ?_)⟩
    exact (TablePointer.valid_iff ⟨b[1].toNat, b[2].toNat, b[3].toNat⟩).mp hvalid
  · refine ⟨.invalid 255, nofun, (s.runRecord_table hkind).trans ?_⟩
    have hother : b[1].toNat ≠ 1 ∧ b[1].toNat ≠ 3 ∧ b[1].toNat ≠ 4 ∧ b[1].toNat ≠ 9 ∧ b[1].toNat ≠ 11 := by
      simp only [List.mem_cons, List.not_mem_nil, or_false] at htable
      omega
    have hwrite := s.tableWrite_unlisted b[2].toNat b[3].toNat (BootRecord.ofBytes b).value.toNat hother
    unfold State.tableWriteChecked
    split
    · exact hwrite
    · rfl
  · have hlow : field (BootRecord.ofBytes b).value 0 8 = b[4].toNat := congrArg BitVec.toNat (wordOf_low b[4] b[5] b[6] b[7])
    rw [s.runRecord_command hkind, hlow, State.recordCommand]
    rcases hcode with hcode | hcode | hcode | hcode
    · refine ⟨.invalid 254, nofun, ?_⟩
      rw [hcode]
      exact s.runCommand_unlisted (field (BootRecord.ofBytes b).value 8 8) (.inl rfl)
    · refine ⟨.wrongState, nofun, ?_⟩
      rw [hcode]
      rfl
    · refine ⟨.busy, nofun, ?_⟩
      rw [hcode]
      rfl
    · refine ⟨.invalid 254, nofun, ?_⟩
      rw [if_neg (by omega), if_neg (by omega)]
      exact s.runCommand_unlisted _ (by omega)

end Sys2Proof.Machine
end

section
/-! PROOFS. A record does in the blocks what the same word does at the management port (O52). -/

namespace Sys2Proof.Machine

open Sys2Proof

/-- What a word at the port leaves, beside what the same record leaves: the blocks the same, the same partial-word flag, and the record's
result as the port reports it (R180). -/
structure SameWord (u t : State) (r : Report) (code : ResultCode) : Prop where
  blocks : ∀ p l, u.withBook p l = t.withBook p l
  partialWord : u.port.partialWord = t.port.partialWord
  report : code = r.code

/-- The four data bytes of a word, where the port stands at `i`. -/
theorem exec_registerWrite_word {s : State} {i b0 b1 b2 b3 : Byte} (hs : s.listening)
    (hstands : s.port.transaction = .write ∧ s.port.held = [] ∧ s.port.workingIndex = i) :
    exec (.registerWrite b0 [b1, b2, b3]) s = .next (s.quiet.takeWordOf i (wordOf b0 b1 b2 b3)) := by
  obtain ⟨hwrite, hheld, hindex⟩ := hstands
  rw [exec_registerWrite hs b0 (by simp), State.takeBytes_word (s := s.quiet) hwrite hheld, State.quiet_port, hindex]

/-- A word of a register (R173). -/
theorem sameWord_register (s : State) {w : Port} {l : Loader} {i : Byte} (v : Word) (hi : 4 ≤ i.toNat)
    (hflag : w.partialWord = s.port.partialWord) :
    SameWord ((s.withBook w l).takeWordOf i v) (s.writeRegister i.toNat v).1 (s.writeRegister i.toNat v).2
      ((s.withBook w l).takeWordOf i v).port.lastResult := by
  have hcommand : ¬i = 0 := by rintro rfl; exact absurd hi (by decide)
  have htable : ¬i = 3 := by rintro rfl; exact absurd hi (by decide)
  have htaken : (s.withBook w l).takeWordOf i v = (s.withBook w l).takeRegisterWord i v := by
    rw [State.takeWordOf, if_neg hcommand, if_neg htable]
  rw [htaken, State.takeRegisterWord]
  by_cases hstatus : i.toNat = 23
  · simp only [hstatus]
    exact ⟨fun p m => rfl, congrArg (fun flag => flag && !v.getLsbD 0) hflag, rfl⟩
  · have hblind := writeRegister_blind v (by omega) hstatus
    have hwrite : (s.withBook w l).writeRegister i.toNat v =
        ((s.writeRegister i.toNat v).1.withBook w l, (s.writeRegister i.toNat v).2) := hblind s w l
    have hport : (s.writeRegister i.toNat v).1.port = s.port := hblind.port s
    rw [hwrite]
    generalize s.writeRegister i.toNat v = answer at hport ⊢
    exact ⟨fun p m => rfl, hflag.trans (congrArg Port.partialWord hport).symm, rfl⟩

/-- A word of a table field (R174). -/
theorem sameWord_table (s : State) {w : Port} {l : Loader} (v : Word) (hflag : w.partialWord = s.port.partialWord) :
    SameWord ((s.withBook w l).takeWordOf 3 v) (s.tableWriteChecked w.pointer v.toNat).1 (s.tableWriteChecked w.pointer v.toNat).2
      ((s.withBook w l).takeWordOf 3 v).port.lastResult := by
  have htaken : (s.withBook w l).takeWordOf 3 v = (s.withBook w l).takeTableWord v := rfl
  have hblind := tableWriteChecked_blind w.pointer v.toNat
  have hwrite : (s.withBook w l).tableWriteChecked (s.withBook w l).port.pointer v.toNat =
      ((s.tableWriteChecked w.pointer v.toNat).1.withBook w l, (s.tableWriteChecked w.pointer v.toNat).2) := hblind s w l
  have hport : (s.tableWriteChecked w.pointer v.toNat).1.port = s.port := hblind.port s
  rw [htaken, State.takeTableWord, hwrite]
  generalize s.tableWriteChecked w.pointer v.toNat = answer at hport ⊢
  exact ⟨fun p m => rfl, hflag.trans (congrArg Port.partialWord hport).symm, rfl⟩

/-- A command that a block takes (R175). -/
theorem sameWord_command (s : State) {w : Port} {l : Loader} {code operand b2 b3 : Byte} (hreset : code ≠ 7) (hreload : code ≠ 8)
    (hflag : w.partialWord = s.port.partialWord) :
    SameWord ((s.withBook w l).takeWordOf 0 (wordOf code operand b2 b3)) (s.runCommand code.toNat operand.toNat).1
      (s.runCommand code.toNat operand.toNat).2
      ((s.withBook w l).takeWordOf 0 (wordOf code operand b2 b3)).port.command.result := by
  have htaken : (s.withBook w l).takeWordOf 0 (wordOf code operand b2 b3) = (s.withBook w l).takeCommand code operand := by
    rw [State.takeWordOf, if_pos rfl, wordOf_low, wordOf_second]
  have hblind := runCommand_blind code.toNat operand.toNat
  have hother : ¬code.toNat = 8 := fun h => hreload (BitVec.eq_of_toNat_eq h)
  have hrun : (s.withBook w l).superCommand code.toNat operand.toNat =
      ((s.runCommand code.toNat operand.toNat).1.withBook w l, (s.runCommand code.toNat operand.toNat).2) := by
    rw [State.superCommand, if_neg hother]
    exact hblind s w l
  have hport : (s.runCommand code.toNat operand.toNat).1.port = s.port := hblind.port s
  rw [htaken, State.takeCommand, if_neg hreset, hrun]
  generalize s.runCommand code.toNat operand.toNat = answer at hport ⊢
  exact ⟨fun p m => rfl, hflag.trans (congrArg Port.partialWord hport).symm, rfl⟩

theorem State.recordCommand_other (s : State) {code : Byte} (operand : Nat) (hreset : code ≠ 7) (hreload : code ≠ 8) :
    s.recordCommand code.toNat operand = s.runCommand code.toNat operand := by
  have hseven : ¬code.toNat = 7 := fun h => hreset (BitVec.eq_of_toNat_eq h)
  have height : ¬code.toNat = 8 := fun h => hreload (BitVec.eq_of_toNat_eq h)
  rw [State.recordCommand, if_neg hseven, if_neg height]

/-- The word of a record at the port, as the statement of R180 places the port for each kind of record. -/
theorem exec_registerWrite_record {s u : State} {b : Vector Byte 8} {w : Port} (hreset : s.resetting = none)
    (hplace : (b[0] = 1 ∧ 4 ≤ b[1].toNat ∧ w = { s.port with transaction := .write, held := [], workingIndex := b[1] }) ∨
      (b[0] = 2 ∧
        w =
          { s.port with
            transaction := .write, held := [], workingIndex := 3
            pointer := ⟨b[1].toNat, b[2].toNat, b[3].toNat⟩ }) ∨
      (b[0] = 3 ∧ b[4] ≠ 7 ∧ b[4] ≠ 8 ∧ w = { s.port with transaction := .write, held := [], workingIndex := 0 }))
    (hword : exec (.registerWrite b[4] [b[5], b[6], b[7]]) { s with loader := { s.loader with state := .idle }, port := w } =
      .next u) :
    SameWord u (s.quiet.runRecord (BootRecord.ofBytes b)).1 (s.quiet.runRecord (BootRecord.ofBytes b)).2
      (if b[0] = 3 then u.port.command.result else u.port.lastResult) := by
  have hs : State.listening { s with loader := { s.loader with state := .idle }, port := w } := ⟨hreset, rfl⟩
  have hbook : State.quiet { s with loader := { s.loader with state := .idle }, port := w } =
      s.quiet.withBook w { s.loader with state := .idle } := rfl
  rcases hplace with ⟨hkind, hindex, rfl⟩ | ⟨hkind, rfl⟩ | ⟨hkind, hseven, height, rfl⟩
  · rw [exec_registerWrite_word hs ⟨rfl, rfl, rfl⟩, hbook] at hword
    have hu := Host.Outcome.next.inj hword
    have hregister : s.quiet.runRecord (BootRecord.ofBytes b) = s.quiet.writeRegister b[1].toNat (wordOf b[4] b[5] b[6] b[7]) :=
      (s.quiet.runRecord_register hkind).trans (if_neg (Nat.not_lt.mpr hindex))
    have hother : ¬b[0] = 3 := by rw [hkind]; decide
    rw [if_neg hother, hregister, ← hu]
    exact sameWord_register s.quiet (w := { s.port with transaction := .write, held := [], workingIndex := b[1] })
      (l := { s.loader with state := .idle }) (wordOf b[4] b[5] b[6] b[7]) hindex rfl
  · rw [exec_registerWrite_word hs ⟨rfl, rfl, rfl⟩, hbook] at hword
    have hu := Host.Outcome.next.inj hword
    have hother : ¬b[0] = 3 := by rw [hkind]; decide
    rw [if_neg hother, s.quiet.runRecord_table hkind, ← hu]
    exact sameWord_table s.quiet
      (w :=
        { s.port with
          transaction := .write, held := [], workingIndex := 3
          pointer := ⟨b[1].toNat, b[2].toNat, b[3].toNat⟩ })
      (l := { s.loader with state := .idle }) (wordOf b[4] b[5] b[6] b[7]) rfl
  · rw [exec_registerWrite_word hs ⟨rfl, rfl, rfl⟩, hbook] at hword
    have hu := Host.Outcome.next.inj hword
    have hcode : field (BootRecord.ofBytes b).value 0 8 = b[4].toNat := congrArg BitVec.toNat (wordOf_low b[4] b[5] b[6] b[7])
    have hoperand : field (BootRecord.ofBytes b).value 8 8 = b[5].toNat :=
      congrArg BitVec.toNat (wordOf_second b[4] b[5] b[6] b[7])
    rw [if_pos hkind, s.quiet.runRecord_command hkind, hcode, hoperand, State.recordCommand_other _ _ hseven height, ← hu]
    exact sameWord_command s.quiet (w := { s.port with transaction := .write, held := [], workingIndex := 0 })
      (l := { s.loader with state := .idle }) hseven height rfl

/-- A record, by what its word leaves at the port (R180). -/
theorem exec_applyRecord_of_sameWord {s t u : State} {n k : Nat} {b : Vector Byte 8} {r : Report} {code : ResultCode}
    (hreset : s.resetting = none) (hstate : s.loader.state = .apply n k)
    (hrun : s.quiet.runRecord (BootRecord.ofBytes b) = (t, r)) (hsame : SameWord u t r code) :
    exec (.applyRecord b) s = .next (u.recordTaken (s.port.afterRecord u.port) n k (s.loader.result.count k ⟨code, r.field⟩)) := by
  obtain ⟨hblocks, hflag, hcode⟩ := hsame
  have hport : s.port.afterRecord u.port = s.port.afterRecord t.port :=
    congrArg (fun flag => { s.port with partialWord := flag }) hflag
  rw [exec_applyRecord hreset hstate hrun, hport, State.recordTaken_of_withBook (hblocks s.port s.loader), hcode]

/-- A load ends where a record is not read (R180, R181). -/
theorem exec_applyReadNotAcknowledged {s : State} {n k : Nat} (hreset : s.resetting = none) (hstate : s.loader.state = .apply n k) :
    exec .applyReadNotAcknowledged s = .next (s.quiet.endLoad .bad (some .read)) := by
  have hexec : exec .applyReadNotAcknowledged s = outsideReset State.applyBroken s := rfl
  have hquiet : s.quiet.loader.state = .apply n k := hstate
  rw [hexec, outsideReset_of_none hreset, State.applyBroken, hquiet]

/-- RELOAD_BOOT from the supervisor (R176). -/
theorem exec_reloadBoot {s : State} (hs : s.listening) (o : Byte) :
    exec (.reloadBoot o) s =
      .next (s.quiet.startLoad.withPort { s.port.commandTaken 8 o .accepted 255 with transaction := .none }) := by
  have hexec : exec (.reloadBoot o) s = heard (fun t => t.takeCommandAt 8 o) s := rfl
  have hreload : (s.quiet.withPort (s.port.standAt 0)).superCommand (8 : Byte).toNat o.toNat =
      ((s.quiet.withPort (s.port.standAt 0)).startLoad.withPort { s.port.standAt 0 with transaction := .none }, .accepted) :=
    if_pos hs.2
  have hcode : ¬(8 : Byte) = 7 := by decide
  rw [hexec, heard_of_listening hs, State.takeCommandAt, State.takeCommand, if_neg hcode, State.quiet_port, hreload]
  rfl

/-- What a record never touches of the port (R180). -/
theorem exec_applyRecord_port {s t : State} {b : Vector Byte 8} (hreset : s.resetting = none)
    (h : exec (.applyRecord b) s = .next t) : ∃ flag, t.port = { s.port with partialWord := flag } := by
  have hexec : exec (.applyRecord b) s = outsideReset (fun t => t.applyNext b) s := rfl
  cases hstate : s.loader.state with
  | apply n k =>
    obtain ⟨u, r, hrun⟩ : ∃ u r, s.quiet.runRecord (BootRecord.ofBytes b) = (u, r) := ⟨_, _, rfl⟩
    rw [exec_applyRecord hreset hstate hrun] at h
    exact ⟨u.port.partialWord, (congrArg State.port (Host.Outcome.next.inj h)).symm⟩
  | idle =>
    have hquiet : s.quiet.loader.state = .idle := hstate
    rw [hexec, outsideReset_of_none hreset, State.applyNext, hquiet] at h
    exact ⟨s.port.partialWord, (congrArg State.port (Host.Outcome.next.inj h)).symm⟩
  | verify =>
    have hquiet : s.quiet.loader.state = .verify := hstate
    rw [hexec, outsideReset_of_none hreset, State.applyNext, hquiet] at h
    exact ⟨s.port.partialWord, (congrArg State.port (Host.Outcome.next.inj h)).symm⟩

/-- Settles O52: a load is checked in its order, and a record's word goes to the same owner as the word at the port. -/
theorem loaderChecksThenApplies : Obligations.LoaderChecksThenApplies := by
  unfold Obligations.LoaderChecksThenApplies
  refine ⟨?reload, ?read, ?verify, ?apply, ?kept⟩
  case reload =>
    intro s o hs
    exact exec_reloadBoot hs o
  case read =>
    intro s
    refine ⟨fun h => ?_, fun h => ?_, fun n k h => ?_⟩
    · rw [State.bootRead, h]
    · rw [State.bootRead, h]
    · rw [State.bootRead, h]
  case verify =>
    rintro s image le n hreset hstate hle rfl
    obtain rfl := leNat_unique hle
    rw [exec_verify image hreset hstate]
    refine ⟨fun hshort => ?_, fun r hlength hfails => ?_, fun hsignature hmin hcount hread hsum => ?_⟩
    · have habsent : verifyImage image = .absent := if_pos hshort
      rw [State.endVerify, habsent]
      rfl
    · rw [State.endVerify, verifyImage_bad hlength hfails]
      rfl
    · have hsome : imageField image 2 ≠ 0 := by
        have : 1 ≤ imageField image 2 := hmin
        omega
      rw [State.endVerify, verifyImage_apply hsignature hcount hread hsum]
      dsimp only
      rw [State.startApply, if_neg hsome]
      rfl
  case apply =>
    rintro s n k b refused hreset hstate rfl
    refine ⟨fun hrefused => ?_, fun w u hplace hword => ?_, fun hkind hindex v hv hmin hmax => ?_, ?_⟩
    · obtain ⟨r, hcode, hrun⟩ := s.quiet.runRecord_refused hrefused
      rw [exec_applyRecord hreset hstate hrun, LoaderResult.count_refused _ _ hcode]
      rfl
    · obtain ⟨t, r, hrun⟩ : ∃ t r, s.quiet.runRecord (BootRecord.ofBytes b) = (t, r) := ⟨_, _, rfl⟩
      have hsame := exec_registerWrite_record hreset hplace hword
      rw [hrun] at hsame
      rw [exec_applyRecord_of_sameWord hreset hstate hrun hsame]
      by_cases hcode : (if b[0] = 3 then u.port.command.result else u.port.lastResult) = .accepted
      · rw [LoaderResult.count_accepted _ _ hcode]
        simp only [if_pos hcode]
        rfl
      · rw [LoaderResult.count_refused _ _ hcode]
        simp only [if_neg hcode]
        rfl
    · have hword : (wordOf b[4] b[5] b[6] b[7]).toNat = v := (wordOf_toNat b[4] b[5] b[6] b[7]).trans hv.symm
      have hrun : s.quiet.runRecord (BootRecord.ofBytes b) =
          (s.quiet.withGovernor { s.governor with slotLength := v }, .accepted) := by
        have htarget : (BootRecord.ofBytes b).target = 9 := hindex
        have hrange : 1 ≤ (wordOf b[4] b[5] b[6] b[7]).toNat ∧ (wordOf b[4] b[5] b[6] b[7]).toNat ≤ 65535 := by
          rw [hword]
          exact ⟨hmin, hmax⟩
        have hstored := State.writeSlotLength_stored s.quiet hrange
        rw [hword] at hstored
        rw [s.quiet.runRecord_register hkind, htarget]
        exact hstored
      rw [exec_applyRecord hreset hstate hrun, LoaderResult.count_accepted _ _ rfl]
      rfl
    · rw [exec_applyReadNotAcknowledged hreset hstate]
      rfl
  case kept =>
    intro s b t hreset h
    obtain ⟨flag, hport⟩ := exec_applyRecord_port hreset h
    rw [hport]
    exact ⟨rfl, rfl, rfl, rfl, rfl, rfl⟩

end Sys2Proof.Machine
end
